-- ==== Sys2Proof/Word.lean ====
section
/-!
DEFINITION. The word types of the M9 and their plainest arithmetic.
Widths are fixed by the spec: v registers and masks 32 bits, s registers, addresses and instruction words 64 bits.
-/
namespace Sys2Proof

/-- One byte of memory. -/
abbrev Byte := BitVec 8
/-- A v register lane, a mask, a 32-bit operand (R124, R125). -/
abbrev W32 := BitVec 32
/-- An s register, a code word, a 64-bit operand (R102, R47). -/
abbrev W64 := BitVec 64

/-- The all-ones 32-bit mask that k0 reads as (R70). -/
def ones32 : W32 := 0xFFFFFFFF

end Sys2Proof
end

