-- ==== Sys2Proof/Syntax.lean ====
section
/-!
DEFINITION. The syntax of CK3: operand codes, modifier fields, the instruction formats, and the ONE inductive Instr,
one constructor for each row of spec/opcode_table.json. The rows CLAUSE_ENTRY to DIE_RESET are the machine's own steps
(spec/95_what_each_step_holds.md); their arguments are the choices the spec leaves free (which access, which chunk,
which core) or the inputs of the outside world (a register value, a measured power).
-/
namespace Sys2Proof

/-! ### Operands and fields -/

/-- A 9-bit operand code (R70); codes 0x1C0 to 0x1FF are no operand. `cst n` is code 0x190 + n (R71). -/
inductive Opnd where
  | v (n : BitVec 8)
  | s (n : BitVec 6)
  | y (n : BitVec 6)
  | k (n : BitVec 4)
  | cst (n : Fin 48)
deriving DecidableEq, Repr

/-- The type field (R65), in code order 0x0 to 0xF. -/
inductive Ty where
  | s32 | n32 | s64 | n64 | s16 | n16 | s8 | n8 | f32 | f16 | bf16 | e4 | e5 | ph16 | ph8 | bp8
deriving DecidableEq, Repr

/-- The rounding field (R66). -/
inductive Rnd where
  | rne | rtz | rup | rdn | rna
deriving DecidableEq, Repr

/-- The scope field (R68). -/
inductive Scope where
  | core | quad | die | pkg | pod | sys
deriving DecidableEq, Repr

/-- Condition codes of ICMP, FCMP and SCMP (R67). -/
inductive Cond where
  | eq | ne | lt | le | gt | ge | un | ord
deriving DecidableEq, Repr

/-- Condition codes of PHCMP (R349). -/
inductive PhCond where
  | eq | ne | ahead | behind | opp | un | ord
deriving DecidableEq, Repr

/-- The special registers, in number order 0x00 to 0x16 (R103). -/
inductive SpReg where
  | lane | tid | grp | team | teams | core | part | quad | die | pkg | iter | niter | clk | gtb | nbv | voidm
  | bkpass | energy | role | trapbase | trapvec | age | frame
deriving DecidableEq, Repr

/-- The width operand of SHFL (R196): `dflt` is code 0x000. -/
inductive ShW where
  | dflt | w1 | w2 | w4 | w8 | w16 | w32
deriving DecidableEq, Repr

/-- The operations of REDG and SCANG (R199). -/
inductive RedOp where
  | add | min | max | and | or | xor
deriving DecidableEq, Repr

/-- The atomic operations (R76), in code order 0 to 9. -/
inductive AtomOp where
  | add | min | max | and | or | xor | xchg | cas | inc | dec
deriving DecidableEq, Repr

/-- The operations of CPYR (R62). -/
inductive CpyrOp where
  | addS32 | addF32 | minS32 | maxS32 | or
deriving DecidableEq, Repr

/-- The size field of a copy (R62). -/
inductive CpSize where
  | b4 | b8 | b16
deriving DecidableEq, Repr

/-- The address scale of formats M and P (R59). -/
inductive Scale where
  | x1 | x2 | x4 | x8 | x16
deriving DecidableEq, Repr

/-- The level of PREF (R177). -/
inductive PrefLvl where
  | l1 | l2
deriving DecidableEq, Repr

/-- The stride S of a pipe (R60). -/
inductive Stride where
  | s4 | s8 | s16
deriving DecidableEq, Repr

/-- The predicate of an instruction (R55): register and negation. -/
structure Pred where
  k   : BitVec 4
  neg : Bool
deriving DecidableEq, Repr

/-! ### Formats -/

/-- Formats VR and SR (R56, R58). A field that carries a code of its instruction (a condition, a source type, a special
register, a width) stands in that constructor's own argument, and here as `.v 0`, the code 0x000 of an unused field. -/
structure VR where
  p   : Pred
  dst : Opnd
  a   : Opnd
  b   : Opnd
  c   : Opnd
  ta  : Bool
  tb  : Bool
  tc  : Bool
  ty  : Ty
  rnd : Rnd
deriving DecidableEq, Repr

/-- Formats VI and SI (R57). -/
structure VI where
  p   : Pred
  dst : Opnd
  a   : Opnd
  ta  : Bool
  imm : W32
deriving DecidableEq, Repr

/-- Format M (R59); `x` is the index register when X = 1. -/
structure FM where
  p     : Pred
  data  : Opnd
  base  : BitVec 6
  x     : Option (BitVec 8)
  scale : Scale
  ty    : Ty
  acq   : Bool
  rel   : Bool
  scope : Scope
  t     : Bool
  disp  : BitVec 14
deriving DecidableEq, Repr

/-- Format C of the control transfers and REFORM (R60, R109). -/
structure FC where
  p    : Pred
  a    : Opnd
  link : BitVec 6
  off  : W32
deriving DecidableEq, Repr

/-- Format C of PIPE (R60, R211). -/
structure FPipe where
  p      : Pred
  a      : Opnd
  stride : Stride
  dist   : Fin 3
  live   : Fin 17
  off    : W32
deriving DecidableEq, Repr

/-- Product layout of aux (R297). -/
structure AuxProd where
  ab : BitVec 2
  pa : BitVec 3
  pb : BitVec 3
  sc : Bool
  so : BitVec 6
deriving DecidableEq, Repr

/-- Tile layout of aux (R297). -/
structure AuxTile where
  ab    : BitVec 2
  g     : Bool
  add   : Bool
  zr    : Bool
  acq   : Bool
  rel   : Bool
  scope : Scope
deriving DecidableEq, Repr

/-- Format X without aux (R61). -/
structure FX where
  p  : Pred
  z  : BitVec 4
  va : BitVec 8
  vb : BitVec 8
  xa : BitVec 3
  xb : BitVec 3
  tA : Ty
  tB : Ty
deriving DecidableEq, Repr

/-- Format P (R62). -/
structure FP where
  p     : Pred
  size  : CpSize
  acq   : Bool
  rel   : Bool
  seq   : Bool
  cmp   : Bool
  scope : Scope
  g     : BitVec 6
  sp    : BitVec 6
  x     : Option (BitVec 8)
  scale : Scale
  bar   : BitVec 8
  disp  : BitVec 7
deriving DecidableEq, Repr

/-- Format Q (R63); obj is an argument of the constructor or of the atomic operation and type. -/
structure FQ where
  p     : Pred
  dst   : Opnd
  a     : Opnd
  b     : Opnd
  base  : BitVec 6
  obj   : BitVec 8
  acq   : Bool
  rel   : Bool
  scope : Scope
deriving DecidableEq, Repr

/-- Format Y (R64). -/
structure FY where
  p   : Pred
  dst : Opnd
  a   : Opnd
  b   : Opnd
  imm : BitVec 20
deriving DecidableEq, Repr

/-! ### Arguments of the machine's own steps -/

/-- An issue-scheduler partition (R9). -/
structure PartId where
  die  : Nat
  core : Nat
  part : Nat
deriving DecidableEq, Repr

/-- One network barrier: scope, instance within the scope, physical ID (R246). -/
structure NetKey where
  scope : Scope
  inst  : Nat
  id    : Nat
deriving DecidableEq, Repr

/-- What a drain-apply step works on (R96): an access of an atomic, one element of a CPYR, one quarter's tile of an
add-on-store. -/
inductive DrainTarget where
  | access (id : Nat)
  | cpyr (cmd elem : Nat)
  | tile (op quarter : Nat)
deriving DecidableEq, Repr

/-- A capability (R389): object type, permissions, length, base, tag. -/
structure Cap where
  otype : BitVec 8
  perm  : BitVec 8
  len   : BitVec 40
  base  : W64
  resv  : Bool
  tag   : Bool
deriving DecidableEq, Repr

/-- A work queue that the FE creates (R272): virtual addresses of its control block and its ring, log2 of its capacity, its
scope code. -/
structure FeQueue where
  va    : Nat
  base  : Nat
  logc  : Nat
  scope : Nat
deriving DecidableEq, Repr

/-- What system software fixes when the FE admits a context (R386 to R388), with the cores, as die and core, of each granted
partition of another package, and the work queues it creates (R272). -/
structure Admission where
  ctx     : Nat
  caps    : List Cap
  root    : Nat
  save    : Nat
  saveLen : Nat
  evq     : W64
  home    : BitVec 16
  granted : List (BitVec 16)
  far     : List (Nat × List (Nat × Nat))
  queues  : List FeQueue
deriving DecidableEq, Repr

/-- The package control registers whose write has no step of its own in the table (REGISTER_WRITE: R383, R420, R428,
R431, R433, R447). -/
inductive PReg where
  | pdefer
  | pwrcap
  | hostlim
  | dumpbase (p : PartId)
  | sampcfg (p : PartId)
  | dbgctl (p : PartId)
deriving DecidableEq, Repr

/-- Where an uncorrectable error is found (R378, R424, R441). `clean` is a clean cached line, repaired by
refetch; `l2` and `rdc` a line of the L2 or of a die's RDC, `hbm` the memory itself; `tile` an accumulator inside an array, which
carries no check. -/
inductive ErrSite where
  | clean (die : Nat)
  | l2 (pa : Nat)
  | rdc (die pa : Nat)
  | hbm (pa : Nat)
  | spad (team off : Nat)
  | reg (gid v lane : Nat)
  | window (p : PartId) (pipe slot lane : Nat)
  | slot (die core ctx slot off : Nat)
  | tile (die core ctx key : Nat)
deriving DecidableEq, Repr

/-- One firmware image as the boot ROM sees it, with its signature, which holds its index (R443). -/
structure FwImage where
  bytes : List Byte
  sig   : List Byte
deriving DecidableEq, Repr

/-- What one bring-up step finds (R445): the fuses with their public keys, the images, whether training succeeded, MEMSPLIT, the widths
at which the CXL port trains, the slot identifier, the package that each of the 12 pod links reaches, three a die. -/
structure BringUp where
  cores  : List Nat
  keys   : List (List Byte)
  images : List FwImage
  ok     : Bool
  sdw    : List Nat
  widths : List Nat
  slotId : Nat
  links  : List Nat
  remote : List Nat
deriving DecidableEq, Repr

/-! ### Instructions and steps -/

/-- One constructor for each row of the operation table. -/
inductive Instr where
  -- scalar and control (spec/05_control.md)
  | sadd (f : VR)
  | ssub (f : VR)
  | smul (f : VR)
  | smulh (f : VR)
  | smad (f : VR)
  | sand (f : VR)
  | sor (f : VR)
  | sxor (f : VR)
  | sandn (f : VR)
  | sshl (f : VR)
  | sshr (f : VR)
  | ssra (f : VR)
  | smin (f : VR)
  | smax (f : VR)
  | sminu (f : VR)
  | smaxu (f : VR)
  | scmp (cond : Cond) (f : VR)
  | ssel (f : VR)
  | smov (f : VR)
  | sclz (f : VR)
  | spopc (f : VR)
  | vtos (f : VR)
  | smovi (f : VI)
  | smovh (f : VI)
  | srd (r : SpReg) (f : VR)
  | swr (r : SpReg) (f : VR)
  | bra (f : FC)
  | bz (f : FC)
  | bnz (f : FC)
  | bany (f : FC)
  | ball (f : FC)
  | bnone (f : FC)
  | call (f : FC)
  | ret (f : FC)
  | brx (f : FC)
  | exit (f : FC)
  | reform (f : FC)
  | nop (f : FC)
  -- integer, logic and masks (spec/06_integer.md)
  | iadd (f : VR)
  | isub (f : VR)
  | imul (f : VR)
  | imulh (f : VR)
  | imulhu (f : VR)
  | imad (f : VR)
  | imadw (f : VR)
  | iaddw (f : VR)
  | isubw (f : VR)
  | iabs (f : VR)
  | ineg (f : VR)
  | imin (f : VR)
  | imax (f : VR)
  | iadds (f : VR)
  | isubs (f : VR)
  | lea (sh : Fin 5) (f : VR)
  | cvti (st : Ty) (f : VR)
  | and (f : VR)
  | or (f : VR)
  | xor (f : VR)
  | andn (f : VR)
  | shl (f : VR)
  | shr (f : VR)
  | sra (f : VR)
  | rotl (f : VR)
  | bfx (f : VR)
  | bfi (f : VR)
  | popc (f : VR)
  | clz (f : VR)
  | ctz (f : VR)
  | brev (f : VR)
  | bytep (f : VR)
  | icmp (cond : Cond) (f : VR)
  | sel (f : VR)
  | mov (f : VR)
  | movi (f : VI)
  | iaddi (f : VI)
  | andi (f : VI)
  | ori (f : VI)
  | xori (f : VI)
  | kand (f : VR)
  | kor (f : VR)
  | kxor (f : VR)
  | kandn (f : VR)
  | knot (f : VR)
  | kmov (f : VR)
  | kpopc (f : VR)
  | kffs (f : VR)
  -- floating point (spec/07_float.md)
  | fadd (f : VR)
  | fsub (f : VR)
  | fmul (f : VR)
  | ffma (f : VR)
  | fmin (f : VR)
  | fmax (f : VR)
  | fcmp (cond : Cond) (f : VR)
  | fclass (f : VR)
  | frint (f : VR)
  | fscale (f : VR)
  | fcvt (sat : Bool) (st : Ty) (f : VR)
  | hadd2 (f : VR)
  | hmul2 (f : VR)
  | hfma2 (f : VR)
  | bfma2 (f : VR)
  | qdot4 (f : VR)
  -- cross-lane (spec/09_crosslane.md)
  | shflIdx (w : ShW) (f : VR)
  | shflUp (w : ShW) (f : VR)
  | shflDn (w : ShW) (f : VR)
  | shflXor (w : ShW) (f : VR)
  | voteBallot (f : VR)
  | voteAny (f : VR)
  | voteAll (f : VR)
  | voteEq (f : VR)
  | redg (op : RedOp) (f : VR)
  | scang (op : RedOp) (excl : Bool) (f : VR)
  | bcast (f : VR)
  | match_ (f : VR)
  | cmpct (f : VR)
  -- pipes (spec/10_pipes.md)
  | pipe (f : FPipe)
  | pipeH (f : FPipe)
  | pjoin (f : VR)
  | pend (f : VR)
  | pbrk (f : VR)
  | yvoid (f : VR)
  | pstat (f : VR)
  -- memory (spec/08_memory.md)
  | ld (f : FM)
  | st (f : FM)
  | lds (f : FM)
  | sts (f : FM)
  | ldf (f : FM)
  | sld (f : FM)
  | sst (f : FM)
  | pref (lvl : PrefLvl) (f : FM)
  | cctlInv1 (f : FM)
  | cctlWb (f : FM)
  | cctlEvict (f : FM)
  | fence (f : FM)
  | fenceRg (f : FM)
  | waitl (f : FM)
  -- atomics and barriers (spec/11_sync.md)
  | atom (op : AtomOp) (ty : Ty) (f : FQ)
  | atoms (op : AtomOp) (ty : Ty) (f : FQ)
  | redm (op : AtomOp) (ty : Ty) (f : FQ)
  | barinit (f : FQ)
  | bararr (f : FQ)
  | barwait (f : FQ)
  | bartest (f : FQ)
  | barkill (f : FQ)
  | netarr (f : FQ)
  | netwait (f : FQ)
  -- queues (spec/12_queues.md)
  | qopen (f : FQ)
  | qclose (f : FQ)
  | qcloseKill (f : FQ)
  | enq (f : FQ)
  | deq (f : FQ)
  | enqt (f : FQ)
  | deqt (f : FQ)
  | qstat (f : FQ)
  -- matrix (spec/14_matrix.md)
  | mxacq (n : Fin 4) (f : FX)
  | mxrel (f : FX)
  | tclaim (n : Fin 16) (f : FX)
  | tfree (f : FX)
  | tfill (mid pl4 : Bool) (u : BitVec 5) (f : FX)
  | mmq (x : AuxProd) (f : FX)
  | mmqx (x : AuxProd) (f : FX)
  | mxzero (ab : BitVec 2) (f : FX)
  | mxldz (x : AuxTile) (f : FX)
  | mxdrain (x : AuxTile) (f : FX)
  | mxsync (f : FX)
  | scld (f : FX)
  | phmma (ab : BitVec 2) (f : FX)
  | phfin (x : AuxTile) (f : FX)
  -- copies (spec/15_copy.md)
  | cpyIn (f : FP)
  | cpyOut (f : FP)
  | cpyr (op : CpyrOp) (f : FP)
  | cpytOm (f : FP)
  | cpytSp (f : FP)
  | rcfence (f : FP)
  | rcfenceAll (f : FP)
  -- phasors (spec/16_phasor.md)
  | phadd (f : VR)
  | phsub (f : VR)
  | phneg (f : VR)
  | phmuli (f : VR)
  | phcmp (cond : PhCond) (f : VR)
  | phred (f : VR)
  | phredAcc (f : VR)
  | phredEnd (f : VR)
  | phsin (f : VR)
  | phcos (f : VR)
  | phfrom (f : VR)
  | phcvt (st : Ty) (f : VR)
  -- gates (spec/17_gates.md)
  | sigm (f : VR)
  | tanh (f : VR)
  | exp2 (f : VR)
  | log2 (f : VR)
  | rcp (f : VR)
  | rsq (f : VR)
  | gatec (f : VR)
  | gateh (f : VR)
  | gatecComp (f : VR)
  -- system (spec/18_system.md)
  | trap (f : FY)
  | tret (f : FY)
  | bkpt (f : FY)
  | mark (f : FY)
  | lnch (f : FY)
  | budget (f : FY)
  | budgetSet (f : FY)
  | tlbiPage (f : FY)
  | tlbiRange (f : FY)
  | tlbiAll (f : FY)
  | pchk (f : FY)
  | netcfg (f : FY)
  -- announced encodings (R80)
  | idivs (f : VR)
  | idivu (f : VR)
  -- steps of the scheduler, of presence and of gates
  | clauseEntry (gid fresh : Nat)
  | issueCycle (p : PartId)
  | starvationGuard (p : PartId)
  | noSwapExpiry (gid : Nat)
  | groupSwap (out inn : Nat)
  | vacancyFill (gid : Nat)
  | gladeAgeExpiry (glade : Nat)
  | drawnGroupPlace (draw : Nat)
  | loadWriteback (id : Nat)
  | gateWriteback (gid n : Nat)
  -- steps of the ordering machine (R85, R88, R94 to R97)
  | enterCb (id : Nat)
  | publishToDie (id : Nat)
  | sendToHome (id : Nat)
  | serialize (id : Nat)
  | discardReport (id : Nat)
  | propagate (id : Nat)
  | apply (die id : Nat)
  | readFromView (id : Nat) (evict : Option Nat)
  | engineStart (cmd : Nat)
  | engineLand (cmd chunk : Nat)
  | chunkCount (cmd chunk : Nat)
  | drainApply (t : DrainTarget)
  -- steps of barriers, queues and pipes
  | volleyRelease (n : NetKey) (p : PartId)
  | queueRetry (gid : Nat)
  | enqElementMove (mv : Nat)
  | deqElementRead (mv : Nat)
  | iterationStart (pipe slot : Nat)
  | cancelledRetire (gid : Nat)
  | pipeLaunchResourceWait (gid slot : Nat)
  -- steps of the umpires and the matrix engine
  | umpireCycle (die quad : Nat)
  | matrixPass (op : Nat) (units : List Nat)
  | matrixPassComplete (op : Nat)
  | outlierApply (op quarter : Nat)
  | tileArrayCycle (op quarter : Nat)
  | mxldzDataArrive (op quarter : Nat)
  -- steps of the copy engine and its firmware path
  | completionRecordWrite (cmd : Nat)
  | firmwareHandover (cmd : Nat)
  | firmwareCopyFinish (cmd : Nat)
  | copyLost (cmd : Nat)
  | copyXlateReply (cmd : Nat)
  | teamEndRelease (team : Nat)
  -- traps, saves and translation
  | trapTake (gid : Nat)
  | saveRequest (ctx die core : Nat)
  | preemptDeferExpiry (ctx die core : Nat)
  | contextSwitch (die core ctx : Nat)
  | contextStreamOut (ctx die core : Nat)
  | contextResume (ctx die core : Nat)
  | pageWalk (walk : Nat)
  | waitlTimeout (gid : Nat)
  | spuriousWake (gid : Nat)
  -- the front end
  | contextAdmission (a : Admission)
  | packetDispatch (queue fe : Nat)
  | teamPlace (launch core : Nat)
  | cohortAdmit (launch : Nat) (cores : List Nat)
  | gangReserve (launch : Nat) (cores : List Nat)
  | gangStart (launch : Nat)
  | nodeComplete (launch : Nat)
  | copyNodeRun (launch : Nat)
  | doorbellWrite (queue : Nat) (addr : W64)
  | feCoreHalt (die fe : Nat)
  | feTakeover (die fe : Nat) (sib : Nat × FwImage)
  | queueTableLost (queue : Nat)
  | dieFeHalt (die : Nat)
  | translationSwapFree (tr : Nat)
  | translationRegister (ctx : Nat) (code table : Nat × Nat)
  -- power, energy and integrity
  | integratorUpdate (quadNj uncoreNj : Nat)
  | rebalanceDecay (die : Nat)
  | undervoltInterval (die : Nat)
  | uncorrectableError (e : ErrSite)
  | energyUpdate (quadNj : List Nat) (hbm : List (Nat × Nat))
  | umpcfgWrite (die quad : Nat) (v : W64)
  | rebalWrite (die : Nat) (v : W64)
  | uvcfgWrite (die : Nat) (v : W64)
  | qpartWrite (die : Nat) (v : W64)
  | registerWrite (r : PReg) (v : W64)
  -- debug and trace
  | debugStop (p : PartId) (scope : Nat)
  | breakpointStop (gid : Nat)
  | debugResume (p : PartId)
  | dumpWrite (p : PartId)
  | trcctlWrite (die : Nat) (v : W64)
  | traceRecordWrite (die : Nat)
  -- host, links and bring-up
  | hostMemWrite (pa : Nat) (bytes : List Byte)
  | hostMemRead (pa len : Nat)
  | flitReplay (link : Nat) (ok : Bool)
  | linkRetrain (link : Nat)
  | linkDown (link : Nat)
  | podLinkLost (pkg : Nat)
  | attestationQuote (nonce : List Byte)
  | bringUp (b : BringUp)
  | correctableError (die : Nat) (designated : Bool)
  | hostCxlCompletion (id : Nat) (err : Bool)
  | retrainComplete (link : Nat)
  | contextDestroy (ctx : Nat)
  | dieReset (die : Nat)
deriving DecidableEq, Repr

end Sys2Proof
end

