-- ==== Sys2Proof/WellFormed.lean ====
section
/-!
DEFINITION. Well-formedness: the conditions of R55 to R72 and of each chapter's form table whose breach raises ILL and
which the word alone decides. The conditions that need the kernel's declared counts stand here as functions of the
counts (R70); the instruction step applies them.
-/
namespace Sys2Proof

/-! ### Operand classes -/

/-- Width of an operand: 32 bits, 64 bits, or as the type field gives (R70, R134). -/
inductive OpW where
  | w32 | w64 | byTy
deriving DecidableEq, Repr

/-- What a source field may hold. -/
inductive SrcK where
  /-- unused: 0x000 and no trap bit (R69) -/
  | unused
  /-- any source of R70; real constants only where the type has a floating format (R71) -/
  | lane (w : OpW)
  /-- any source of R70, read as FP32 (R71) -/
  | fp32
  /-- any 32-bit source of R70 but a real constant: phasors, integers of major 0xB0, FSCALE's b (R157, R342, R347) -/
  | noReal
  /-- s, k or constant (R58) -/
  | sks
  /-- s or constant (R109) -/
  | sc
  /-- s or integer constant 0x190 to 0x19F (R197, R211, R243) -/
  | sInt
  /-- k register -/
  | kOnly
  /-- k, s or constant (R143) -/
  | kSC
  /-- s register -/
  | sOnly
  /-- v register -/
  | vOnly
  /-- v or y register, at the type's width in lanes -/
  | vy (w : OpW)
  /-- even v register, read as a pair, or s register (R357) -/
  | pair
  /-- v register of a triple (R350) -/
  | triple
  /-- even v register, read as a pair, s register or constant, 64 bits (R137) -/
  | dsc
  /-- v, y, s register or integer constant, 32 bits (R157, R235) -/
  | vysInt
deriving DecidableEq, Repr

/-- What a destination field may hold (R72). -/
inductive DstK where
  | unused
  /-- v or y, or an even v register where 64 bits wide -/
  | lane (w : OpW)
  /-- even v register -/
  | pair
  /-- s register -/
  | s
  /-- k1 to k15 -/
  | k
  /-- v, y or s (SRD of a register that is not per-lane, R108) -/
  | laneS (w : OpW)
  /-- y register (R229) -/
  | yOnly
  /-- v register -/
  | vOnly
  /-- v register of a triple (R350) -/
  | triple
  /-- s register or 0x000 -/
  | sOpt
deriving DecidableEq, Repr

def Ty.is64 : Ty → Bool
  | .s64 | .n64 => true
  | _ => false

/-- Signed integer types (R65). -/
def Ty.signed : Ty → Bool
  | .s32 | .s64 | .s16 | .s8 => true
  | _ => false

/-- The integer types, codes 0x0 to 0x7. -/
def Ty.isInt : Ty → Bool
  | .s32 | .n32 | .s64 | .n64 | .s16 | .n16 | .s8 | .n8 => true
  | _ => false

/-- The types under which a real constant raises ILL (R71). -/
def Ty.noReal : Ty → Bool
  | .e4 | .e5 | .ph16 | .ph8 | .bp8 => true
  | _ => false

def OpW.is64 (w : OpW) (t : Ty) : Bool :=
  match w with
  | .w32 => false
  | .w64 => true
  | .byTy => t.is64

def Opnd.isReal : Opnd → Bool
  | .cst n => 16 ≤ n.val && n.val < 32
  | _ => false

def Opnd.isVY : Opnd → Bool
  | .v _ | .y _ => true
  | _ => false

def evenReg (n : BitVec 8) : Bool := n.toNat % 2 == 0

/-- A source and its trap bit against its class (R69 to R71, R73). -/
def SrcK.ok (cls : SrcK) (t : Ty) (o : Opnd) (trap : Bool) : Bool :=
  (!trap || o.isVY) &&
  match cls with
  | .unused => o == .v 0 && !trap
  | .lane w =>
    match o with
    | .v n => !w.is64 t || evenReg n
    | .y _ => !w.is64 t
    | .cst _ => !(o.isReal && t.noReal)
    | _ => true
  | .fp32 => true
  | .noReal => !o.isReal
  | .sks => match o with | .s _ | .k _ | .cst _ => true | _ => false
  | .sc => match o with | .s _ | .cst _ => true | _ => false
  | .sInt => match o with | .s _ => true | .cst n => n.val < 16 | _ => false
  | .kOnly => match o with | .k _ => true | _ => false
  | .kSC => match o with | .s _ | .k _ | .cst _ => true | _ => false
  | .sOnly => match o with | .s _ => true | _ => false
  | .vOnly => match o with | .v _ => true | _ => false
  | .vy w => match o with | .v n => !w.is64 t || evenReg n | .y _ => !w.is64 t | _ => false
  | .pair => match o with | .v n => evenReg n | .s _ => true | _ => false
  | .triple => match o with | .v _ => true | _ => false
  | .dsc => match o with | .v n => evenReg n | .s _ | .cst _ => true | _ => false
  | .vysInt => match o with | .v _ | .y _ | .s _ => true | .cst n => n.val < 16 | _ => false

/-- A destination against its class (R72). -/
def DstK.ok (cls : DstK) (t : Ty) (o : Opnd) : Bool :=
  match cls with
  | .unused => o == .v 0
  | .lane w => match o with | .v n => !w.is64 t || evenReg n | .y _ => !w.is64 t | _ => false
  | .pair => match o with | .v n => evenReg n | _ => false
  | .s => match o with | .s _ => true | _ => false
  | .k => match o with | .k n => n != 0 | _ => false
  | .laneS w => match o with | .v n => !w.is64 t || evenReg n | .y _ => !w.is64 t | .s _ => true | _ => false
  | .yOnly => match o with | .y _ => true | _ => false
  | .vOnly => match o with | .v _ => true | _ => false
  | .triple => match o with | .v _ => true | _ => false
  | .sOpt => match o with | .s _ => true | .v n => n == 0 | _ => false

/-- One more than the highest v register a source field names, 0 if none (R70). -/
def SrcK.vNeed (cls : SrcK) (t : Ty) (o : Opnd) : Nat :=
  match cls, o with
  | .unused, _ => 0
  | .lane w, .v n => n.toNat + (if w.is64 t then 2 else 1)
  | .vy w, .v n => n.toNat + (if w.is64 t then 2 else 1)
  | .pair, .v n => n.toNat + 2
  | .triple, .v n => n.toNat + 3
  | _, .v n => n.toNat + 1
  | _, _ => 0

/-- One more than the highest v register a destination field names, 0 if none (R70). -/
def DstK.vNeed (cls : DstK) (t : Ty) (o : Opnd) : Nat :=
  match cls, o with
  | .unused, _ => 0
  | .sOpt, _ => 0
  | .lane w, .v n => n.toNat + (if w.is64 t then 2 else 1)
  | .laneS w, .v n => n.toNat + (if w.is64 t then 2 else 1)
  | .pair, .v n => n.toNat + 2
  | .triple, .v n => n.toNat + 3
  | _, .v n => n.toNat + 1
  | _, _ => 0

def Opnd.sNeed : Opnd → Nat
  | .s n => n.toNat + 1
  | _ => 0

/-! ### Signatures of the VR and SR instructions -/

/-- Operand classes, accepted types and rounding of one VR or SR form. -/
structure VSig where
  dst : DstK
  a   : SrcK
  b   : SrcK
  c   : SrcK
  tys : List Ty
  rnd : Bool
deriving DecidableEq, Repr

def tys4 : List Ty := [.s32, .n32, .s64, .n64]
def tys2 : List Ty := [.s32, .n32]
def tysSF : List Ty := [.s32, .n32, .s64, .n64, .f32]

/-- SR with two sources (R105). -/
def sigS (a b c : SrcK) : VSig := ⟨.s, a, b, c, [.s64], false⟩
/-- VR with lane operands at the type's width. -/
def sigI (a b c : SrcK) (tys : List Ty) : VSig := ⟨.lane .byTy, a, b, c, tys, false⟩
def sigK (dst : DstK) (a b : SrcK) : VSig := ⟨dst, a, b, .unused, [.s32], false⟩
def sigF (a b c : SrcK) (rnd : Bool) : VSig := ⟨.lane .w32, a, b, c, [.f32], rnd⟩
def lT : SrcK := .lane .byTy
def l32 : SrcK := .lane .w32

/-- Registers of one lane each (R103). -/
def SpReg.perLane : SpReg → Bool
  | .lane | .tid => true
  | _ => false

/-- Registers that SWR may name: RW, and RS in system mode (R103, R108). -/
def SpReg.writable : SpReg → Bool
  | .nbv | .voidm | .bkpass | .trapbase | .trapvec | .age => true
  | _ => false

/-- Registers that only system mode writes (R103). -/
def SpReg.sysOnly : SpReg → Bool
  | .nbv | .trapbase | .trapvec | .age => true
  | _ => false

/-- The pairs of FCVT (R158). -/
def fcvtPair (sty dt : Ty) : Bool :=
  let fl : Ty → Bool := fun t => t == .f32 || t == .f16 || t == .bf16 || t == .e4 || t == .e5
  let it : Ty → Bool := fun t => t == .s32 || t == .n32 || t == .s64 || t == .n64
  (fl sty && fl dt && sty != dt) || (sty == .f32 && it dt) || (it sty && dt == .f32)

/-- The source class of FCVT: real constants in the operand's floating format (R151), none for E4M3 and E5M2, and none under
type e4 or e5 where the operand is not read as FP32 (R71). -/
def fcvtSrc (sty dt : Ty) : SrcK :=
  if sty == .e4 || sty == .e5 || ((dt == .e4 || dt == .e5) && sty != .f32) then .noReal else if sty == .s64 || sty == .n64 then .lane .w64 else .fp32

/-- The signature and the fields of a VR or SR instruction; none for the other formats. -/
def Instr.vsig : Instr → Option (VSig × VR)
  | .sadd f | .ssub f | .smul f | .smulh f | .sand f | .sor f | .sxor f | .sandn f | .sshl f | .sshr f | .ssra f
  | .smin f | .smax f | .sminu f | .smaxu f => some (sigS .sks .sks .unused, f)
  | .smad f | .ssel f => some (sigS .sks .sks .sks, f)
  | .scmp _ f => some ({ sigS .sks .sks .unused with tys := [.s64, .n64] }, f)
  | .smov f | .sclz f | .spopc f => some (sigS .sks .unused .unused, f)
  | .vtos f => some (sigS (.vy .w32) .sks .unused, f)
  | .srd r f => some (⟨if r.perLane then .lane .w32 else .laneS .w32, .unused, .unused, .unused, [.s64], false⟩, f)
  | .swr _ f => some (⟨.unused, .sks, .unused, .unused, [.s64], false⟩, f)
  | .iadd f | .isub f | .imul f | .imin f | .imax f | .iadds f | .isubs f => some (sigI lT lT .unused tys4, f)
  | .imulh f => some (sigI lT lT .unused [.s32, .s64], f)
  | .imulhu f => some (sigI lT lT .unused [.n32, .n64], f)
  | .imad f => some (sigI lT lT lT tys4, f)
  | .imadw f => some (⟨.pair, l32, l32, .lane .w64, tys2, false⟩, f)
  | .iaddw f | .isubw f => some (⟨.pair, l32, l32, .unused, tys2, false⟩, f)
  | .iabs f => some (sigI lT .unused .unused [.s32, .s64], f)
  | .ineg f => some (sigI lT .unused .unused tys4, f)
  | .lea _ f => some (⟨.pair, .dsc, l32, .unused, tys2, false⟩, f)
  | .cvti sty f => some (⟨.lane .byTy, .lane (if sty.is64 then .w64 else .w32), .unused, .unused,
      [.s32, .n32, .s64, .n64, .s16, .n16, .s8, .n8], false⟩, f)
  | .and f | .or f | .xor f | .andn f | .shl f | .shr f | .sra f | .rotl f => some (sigI lT lT .unused tys4, f)
  | .bfx f | .bfi f | .bytep f => some (sigI lT lT lT tys2, f)
  | .popc f | .clz f | .ctz f | .brev f => some (sigI lT .unused .unused tys2, f)
  | .icmp _ f => some (⟨.k, lT, lT, .unused, tys4, false⟩, f)
  | .sel f => some (sigI .kOnly lT lT tys4, f)
  | .mov f => some (sigI lT .unused .unused tys4, f)
  | .kand f | .kor f | .kxor f | .kandn f => some (sigK .k .kOnly .kOnly, f)
  | .knot f => some (sigK .k .kOnly .unused, f)
  | .kmov f => some (sigK .k .kSC .unused, f)
  | .kpopc f | .kffs f => some (sigK .s .kOnly .unused, f)
  | .fadd f | .fsub f | .fmul f => some (sigF .fp32 .fp32 .unused true, f)
  | .ffma f => some (sigF .fp32 .fp32 .fp32 true, f)
  | .fmin f | .fmax f => some (sigF .fp32 .fp32 .unused false, f)
  | .fcmp _ f => some ({ sigF .fp32 .fp32 .unused false with dst := .k }, f)
  | .fclass f => some (⟨.lane .w32, l32, .unused, .unused, [.f32, .f16, .bf16, .e4, .e5], false⟩, f)
  | .frint f => some (sigF .fp32 .unused .unused true, f)
  | .fscale f => some (sigF .fp32 .vysInt .unused true, f)
  | .fcvt _ sty f => some (⟨.lane .byTy, fcvtSrc sty f.ty, .unused, .unused,
      [.f32, .f16, .bf16, .e4, .e5, .s32, .n32, .s64, .n64], true⟩, f)
  | .hadd2 f | .hmul2 f => some (⟨.lane .w32, l32, l32, .unused, [.f16], true⟩, f)
  | .hfma2 f => some (⟨.lane .w32, l32, l32, l32, [.f16], true⟩, f)
  | .bfma2 f => some (⟨.lane .w32, l32, l32, l32, [.bf16], true⟩, f)
  | .qdot4 f => some (⟨.lane .w32, l32, l32, .fp32, [.e4, .e5], true⟩, f)
  | .shflIdx _ f | .shflUp _ f | .shflDn _ f | .shflXor _ f => some (sigI lT l32 .unused tys4, f)
  | .voteBallot f => some (⟨.k, .kOnly, .unused, .unused, tys2, false⟩, f)
  | .voteAny f | .voteAll f => some (⟨.s, .kOnly, .unused, .unused, tys2, false⟩, f)
  | .voteEq f => some (⟨.s, .vy .byTy, .unused, .unused, tys4, false⟩, f)
  | .redg _ f => some (⟨.laneS .byTy, lT, .unused, .unused, tysSF, true⟩, f)
  | .scang _ _ f => some (⟨.lane .byTy, lT, .unused, .unused, tysSF, true⟩, f)
  | .bcast f => some (sigI lT .sInt .unused tys4, f)
  | .match_ f => some (sigI lT .unused .unused tys4, f)
  | .cmpct f => some (sigI lT .kOnly .unused tys4, f)
  | .pjoin f | .pstat f => some (sigK .s .unused .unused, f)
  | .pend f | .pbrk f => some (sigK .unused .unused .unused, f)
  | .yvoid f => some (sigK .yOnly .unused .unused, f)
  | .phadd f | .phsub f | .phmuli f => some (⟨.lane .w32, .noReal, .noReal, .unused, [.ph16, .ph8], false⟩, f)
  | .phneg f | .phsin f | .phcos f | .phred f => some (⟨.lane .w32, .noReal, .unused, .unused, [.ph16, .ph8], false⟩, f)
  | .phcmp _ f => some (⟨.k, .noReal, .noReal, .unused, [.ph16, .ph8], false⟩, f)
  | .phredAcc f => some (⟨.triple, .noReal, .unused, .unused, [.ph16, .ph8], false⟩, f)
  | .phredEnd f => some (⟨.lane .w32, .triple, .unused, .unused, [.ph16], false⟩, f)
  | .phfrom f => some (⟨.lane .w32, .fp32, .fp32, .unused, [.ph16, .ph8], false⟩, f)
  | .phcvt sty f => some (⟨.lane .w32, if sty == .f32 then .fp32 else .noReal, .unused, .unused, [.ph16, .ph8, .f32], false⟩, f)
  | .sigm f | .tanh f | .exp2 f | .log2 f | .rcp f | .rsq f => some (sigF .fp32 .unused .unused false, f)
  | .gatec f => some (sigF .fp32 .fp32 .pair false, f)
  | .gateh f => some (sigF .fp32 .fp32 .unused false, f)
  | .gatecComp f => some (⟨.pair, .fp32, .pair, .pair, [.f32], false⟩, f)
  | .idivs f | .idivu f => some (⟨.lane .w32, l32, l32, .unused, [.s32], false⟩, f)
  | _ => none

def predOk (p : Pred) : Bool := !(p.neg && p.k == 0)

/-- Fields of a VR or SR word against its signature (R55, R56, R65, R66, R69 to R72). -/
def VSig.ok (g : VSig) (f : VR) : Bool :=
  predOk f.p && g.dst.ok f.ty f.dst && g.a.ok f.ty f.a f.ta && g.b.ok f.ty f.b f.tb && g.c.ok f.ty f.c f.tc
    && g.tys.contains f.ty && (g.rnd || f.rnd == .rne)

/-- What a signature does not say: the codes that go with one type only (R67, R138, R149, R158, R199, R353). -/
def Instr.vExtra : Instr → Bool
  | .scmp c _ => c != .un && c != .ord
  | .icmp c _ => c != .un && c != .ord
  | .swr r _ => r.writable
  | .cvti sty _ => sty.isInt
  | .fcvt sat sty f => fcvtPair sty f.ty && (!sat || f.ty == .e4 || f.ty == .e5)
  | .redg op f => (f.ty == .f32 && op != .and && op != .or && op != .xor) || (f.ty != .f32 && f.rnd == .rne)
  | .scang op _ f => (f.ty == .f32 && op != .and && op != .or && op != .xor) || (f.ty != .f32 && f.rnd == .rne)
  | .phcvt sty f => (f.ty == .ph16 && (sty == .ph8 || sty == .f32)) || (sty == .ph16 && (f.ty == .ph8 || f.ty == .f32))
  | _ => true

/-! ### The other formats -/

/-- VI and SI (R106, R142). -/
def viOk (s noA : Bool) (f : VI) : Bool :=
  predOk f.p && (if s then DstK.s.ok .s32 f.dst else (DstK.lane .w32).ok .s32 f.dst)
    && (if noA then SrcK.unused.ok .s32 f.a f.ta else l32.ok .s32 f.a f.ta)

/-- Format C of major 0x04 and REFORM, NOP (R109, R112, R113): source class, link, offset. -/
def fcOk (a : SrcK) (link off : Bool) (f : FC) : Bool :=
  predOk f.p && a.ok .s32 f.a false && (link || f.link == 0) && (off || f.off == 0)

/-- Widths of the memory types (R178): bytes, none where the code raises ILL. -/
def Ty.memBytes : Ty → Option Nat
  | .s8 | .n8 => some 1
  | .s16 | .n16 => some 2
  | .s32 | .n32 => some 4
  | .s64 | .n64 => some 8
  | .bp8 => some 16
  | _ => none

/-- A register of a memory access of width w as destination or source of v class (R178). -/
def memReg (w : Nat) (o : Opnd) : Bool :=
  match o with
  | .v n => (w != 8 || n.toNat % 2 == 0) && (w != 16 || n.toNat % 4 == 0)
  | .y _ => w ≤ 4
  | _ => false

/-- The order and scope fields: a scope only with a flag, and only the flags allowed (R68). -/
def ordOk (mayAcq mayRel : Bool) (acq rel : Bool) (sc : Scope) : Bool :=
  (mayAcq || !acq) && (mayRel || !rel) && (acq || rel || sc == .core)

/-- Fields of format M that no memory instruction may break: the index and scale without X, disp 0 where unused. -/
def fmIdx (mayX : Bool) (f : FM) : Bool :=
  (f.x.isSome || f.scale == .x1) && (mayX || f.x == none)

def Instr.mOk : Instr → Bool
  | .ld f | .lds f => predOk f.p && fmIdx true f && ordOk true false f.acq f.rel f.scope && !f.t
      && (match f.ty.memBytes with | some w => memReg w f.data | none => false)
  | .st f | .sts f => predOk f.p && fmIdx true f && ordOk false true f.acq f.rel f.scope && (!f.t || f.data.isVY)
      && (match f.ty.memBytes with
          | some w => (match f.data with
            | .v _ | .y _ => memReg w f.data
            | _ => w != 16)
          | none => false)
  | .ldf f => predOk f.p && fmIdx true f && ordOk true false f.acq f.rel f.scope && !f.t
      && (f.ty == .f32 || f.ty == .ph16) && f.data.isVY
  | .sld f => predOk f.p && fmIdx false f && ordOk true false f.acq f.rel f.scope && !f.t
      && (match f.ty.memBytes with | some w => w != 16 | none => false) && DstK.s.ok .s32 f.data
  | .sst f => predOk f.p && fmIdx false f && ordOk false true f.acq f.rel f.scope && !f.t
      && (match f.ty.memBytes with | some w => w != 16 | none => false) && SrcK.sks.ok .s32 f.data false
  | .pref _ f => predOk f.p && fmIdx true f && !f.acq && !f.rel && f.scope == .core && !f.t && f.ty == .s32 && f.data == .v 0
  | .cctlInv1 f | .cctlWb f | .cctlEvict f =>
      predOk f.p && fmIdx true f && !f.acq && !f.rel && f.scope == .core && !f.t && f.ty == .s32 && f.data == .v 0
  | .fence f => predOk f.p && fmIdx false f && !f.acq && !f.rel && !f.t && f.ty == .s32 && f.data == .v 0
      && f.base == 0 && f.disp == 0
  | .fenceRg f => predOk f.p && fmIdx false f && !f.acq && !f.rel && !f.t && f.ty == .s32 && f.disp == 0
      && SrcK.sOnly.ok .s32 f.data false
  | .waitl f => predOk f.p && fmIdx false f && !f.acq && !f.rel && f.scope == .core && !f.t && f.ty == .s32
      && SrcK.sOnly.ok .s32 f.data false
  | _ => true

/-- The operation and type pairs of R236; false raises ATOMSZ, not ILL. -/
def atomPair (red : Bool) (op : AtomOp) (t : Ty) : Bool :=
  let i32 := t == .s32 || t == .n32
  let i64 := t == .s64 || t == .n64
  match op with
  | .add | .min | .max => i32 || i64 || t == .f32 || t == .f16
  | .and | .or | .xor => i32 || i64
  | .xchg => !red && (i32 || i64 || t == .f32)
  | .cas => !red && (i32 || i64)
  | .inc | .dec => t == .n32 || t == .n64

/-- The data operand of an atomic: any source at the type's width; of 64 bits a d pair, an s register or a constant (R235). -/
def atomB (t : Ty) (b : Opnd) : Bool := lT.ok t b false && (!t.is64 || SrcK.dsc.ok t b false)

def Instr.qOk : Instr → Bool
  | .atom _ t f => predOk f.p && (DstK.lane .byTy).ok t f.dst && SrcK.vysInt.ok t f.a false && atomB t f.b && f.obj == 0
  | .atoms _ t f => predOk f.p && (DstK.lane .byTy).ok t f.dst && SrcK.vysInt.ok t f.a false && atomB t f.b && f.obj == 0
      && ordOk true true f.acq f.rel f.scope
  | .redm _ t f => predOk f.p && f.dst == .v 0 && SrcK.vysInt.ok t f.a false && atomB t f.b && f.obj == 0 && !f.acq
  | .barinit f => predOk f.p && f.dst == .v 0 && SrcK.sInt.ok .s32 f.a false && SrcK.sInt.ok .s32 f.b false
      && ordOk false false f.acq f.rel f.scope
  | .bararr f => predOk f.p && DstK.sOpt.ok .s32 f.dst && f.a == .v 0 && f.b == .v 0 && ordOk false true f.acq f.rel f.scope
  | .barwait f => predOk f.p && f.dst == .v 0 && SrcK.sInt.ok .s32 f.a false && f.b == .v 0 && ordOk true false f.acq f.rel f.scope
  | .bartest f => predOk f.p && DstK.s.ok .s32 f.dst && SrcK.sInt.ok .s32 f.a false && f.b == .v 0
      && ordOk true false f.acq f.rel f.scope
  | .barkill f => predOk f.p && f.dst == .v 0 && f.a == .v 0 && f.b == .v 0 && ordOk false false f.acq f.rel f.scope
  | .netarr f => predOk f.p && DstK.sOpt.ok .s32 f.dst && f.a == .v 0 && f.b == .v 0 && f.base == 0 && !f.acq && !f.rel
      && f.obj.toNat < 64
  | .netwait f => predOk f.p && f.dst == .v 0 && SrcK.sInt.ok .s32 f.a false && f.b == .v 0 && f.base == 0 && !f.acq && !f.rel
      && f.obj.toNat < 64
  | .qopen f => predOk f.p && f.dst == .v 0 && SrcK.sOnly.ok .s32 f.a false && SrcK.sOnly.ok .s32 f.b false && f.obj == 0
      && ordOk false false f.acq f.rel f.scope
  | .qclose f | .qcloseKill f => predOk f.p && f.dst == .v 0 && f.a == .v 0 && f.b == .v 0 && f.obj == 0
      && ordOk false false f.acq f.rel f.scope
  | .enq f => predOk f.p && f.dst == .v 0 && f.a == .v 0 && SrcK.vOnly.ok .s32 f.b false && f.obj == 0
      && ordOk false false f.acq f.rel f.scope
  | .deq f => predOk f.p && DstK.vOnly.ok .s32 f.dst && f.a == .v 0 && f.b == .v 0 && f.obj == 0
      && ordOk false false f.acq f.rel f.scope
  | .enqt f => predOk f.p && DstK.k.ok .s32 f.dst && f.a == .v 0 && SrcK.vOnly.ok .s32 f.b false && f.obj == 0
      && ordOk false false f.acq f.rel f.scope
  | .deqt f => predOk f.p && DstK.vOnly.ok .s32 f.dst && DstK.k.ok .s32 f.a && f.b == .v 0 && f.obj == 0
      && ordOk false false f.acq f.rel f.scope
  | .qstat f => predOk f.p && DstK.s.ok .s32 f.dst && f.a == .v 0 && f.b == .v 0 && f.obj == 0
      && ordOk false false f.acq f.rel f.scope
  | _ => true

/-- The product layout against the types (R297, R298). -/
def prodOk (x : AuxProd) (f : FX) : Bool :=
  let fp8 : Ty → Bool := fun t => t == .e4 || t == .e5
  ((f.tA == .bf16 && f.tB == .bf16) || (f.tA == .f16 && f.tB == .f16) || (fp8 f.tA && fp8 f.tB)
    || (f.tA == .bp8 && f.tB == .bp8))
  && ((f.tA == .bp8 && f.tB == .bp8) || (x.pa == 0 && x.pb == 0))
  && (!x.sc || fp8 f.tA || f.tA == .bp8) && (x.sc || (f.xa == 0 && f.xb == 0))

def evenV (n : BitVec 8) : Bool := n.toNat % 2 == 0

def Instr.xOk : Instr → Bool
  | .mxacq _ f => predOk f.p && f.z != 0 && f.va == 0 && f.vb == 0 && f.xa == 0 && f.xb == 0 && f.tA == .s32 && f.tB == .s32
  | .mxrel f | .mxsync f => predOk f.p && f.z == 0 && f.va == 0 && f.vb == 0 && f.xa == 0 && f.xb == 0 && f.tA == .s32 && f.tB == .s32
  | .tclaim _ f => predOk f.p && f.z != 0 && f.vb == 0 && f.xa == 0 && f.xb == 0 && f.tA == .s32 && f.tB == .s32
  | .tfree f => predOk f.p && f.z == 0 && f.vb == 0 && f.xa == 0 && f.xb == 0 && f.tA == .s32 && f.tB == .s32
  | .tfill mid pl4 _ f => predOk f.p && f.z == 0 && f.xa == 0 && f.xb == 0 && f.tB == .s32
      && (f.tA == .bf16 || f.tA == .f16 || f.tA == .e4 || f.tA == .e5 || f.tA == .bp8 || f.tA == .ph16)
      && (f.tA == .bp8 || (!mid && !pl4))
  | .mmq x f => predOk f.p && prodOk x f && x.so == 0
  | .mmqx x f => predOk f.p && prodOk x f && x.so != 0
  | .mxzero _ f => predOk f.p && f.va == 0 && f.vb == 0 && f.xa == 0 && f.xb == 0 && f.tA == .s32 && f.tB == .s32
  | .mxldz x f => predOk f.p && evenV f.va && f.xa == 0 && f.xb == 0 && f.tA == .f32 && f.tB == .s32 && !x.add && !x.zr
      && ordOk true false x.acq x.rel x.scope
  | .mxdrain x f => predOk f.p && evenV f.va && f.xa == 0 && f.xb == 0 && f.tA == .f32 && f.tB == .s32
      && ordOk true true x.acq x.rel x.scope
  | .scld f => predOk f.p && f.z == 0 && evenV f.va && f.vb == 0 && f.xb == 0 && f.tA == .s32 && f.tB == .s32
  | .phmma _ f => predOk f.p && f.z.toNat % 4 == 0 && f.xa == 0 && f.xb == 0 && f.tA == .ph16 && f.tB == .ph16
  | .phfin x f => predOk f.p && f.z.toNat % 4 == 0 && evenV f.va && f.xa == 0 && f.xb == 0 && f.tA == .ph16 && f.tB == .s32
      && !x.add && ordOk true true x.acq x.rel x.scope
  | _ => true

def fpIdx (f : FP) : Bool := f.x.isSome || f.scale == .x1

def Instr.pOk : Instr → Bool
  | .cpyIn f | .cpyOut f | .cpyr _ f => predOk f.p && fpIdx f && ordOk true true f.acq f.rel f.scope
  | .cpytOm f => predOk f.p && f.size == .b4 && ordOk true true f.acq f.rel f.scope && f.x.isSome && f.scale == .x1 && f.disp == 0
  | .cpytSp f => predOk f.p && f.size == .b4 && ordOk true true f.acq f.rel f.scope && f.x.isSome && f.scale == .x1
  | .rcfence f => predOk f.p && f.size == .b4 && !f.acq && !f.rel && !f.seq && !f.cmp && f.scope == .core && f.x == none
      && f.scale == .x1 && f.bar == 0 && f.disp == 0
  | .rcfenceAll f => predOk f.p && f.size == .b4 && !f.acq && !f.rel && !f.seq && !f.cmp && f.scope == .core && f.x == none
      && f.scale == .x1 && f.bar == 0 && f.disp == 0 && f.g == 0 && f.sp == 0
  | _ => true

/-- NETCFG's selector (R372). -/
def netSelOk (imm : BitVec 20) : Bool :=
  imm.toNat < 256 && imm.toNat % 32 ≤ 12 && imm.toNat / 32 ≤ 5

def Instr.yOk : Instr → Bool
  | .trap f => predOk f.p && f.dst == .v 0 && f.a == .v 0 && f.b == .v 0
  | .tret f => predOk f.p && f.dst == .v 0 && f.a == .v 0 && f.b == .v 0 && f.imm == 0
  | .bkpt f => predOk f.p && f.dst == .v 0 && SrcK.sOnly.ok .s32 f.a false && SrcK.sOnly.ok .s32 f.b false && f.imm.toNat < 16
  | .mark f => predOk f.p && f.dst == .v 0 && (SrcK.sOnly.ok .s32 f.a false || f.a == .v 0) && f.b == .v 0
  | .lnch f => predOk f.p && DstK.sOpt.ok .s32 f.dst && SrcK.sOnly.ok .s32 f.a false && SrcK.sOnly.ok .s32 f.b false && f.imm == 0
  | .budget f => predOk f.p && DstK.s.ok .s32 f.dst && f.a == .v 0 && f.b == .v 0 && f.imm == 0
  | .budgetSet f => predOk f.p && DstK.s.ok .s32 f.dst && SrcK.sc.ok .s32 f.a false && f.b == .v 0 && f.imm == 0
  | .tlbiPage f => predOk f.p && f.dst == .v 0 && SrcK.sOnly.ok .s32 f.a false && f.b == .v 0 && f.imm == 0
  | .tlbiRange f => predOk f.p && f.dst == .v 0 && SrcK.sOnly.ok .s32 f.a false && SrcK.sOnly.ok .s32 f.b false && f.imm == 0
  | .tlbiAll f => predOk f.p && f.dst == .v 0 && f.a == .v 0 && f.b == .v 0 && f.imm == 0
  | .pchk f => predOk f.p && DstK.s.ok .s32 f.dst && SrcK.sOnly.ok .s32 f.a false && f.b == .v 0 && f.imm == 0
  | .netcfg f => predOk f.p && f.dst == .v 0 && SrcK.sOnly.ok .s32 f.a false && f.b == .v 0 && netSelOk f.imm
  | _ => true

def Instr.cOk : Instr → Bool
  | .bra f => fcOk .unused false true f
  | .bz f | .bnz f => fcOk .sc false true f
  | .bany f | .ball f | .bnone f => fcOk .kOnly false true f
  | .call f => fcOk .unused true true f
  | .ret f => fcOk .unused true false f
  | .brx f => fcOk .sOnly false false f
  | .exit f => fcOk .unused false false f
  | .nop f => fcOk .unused false false f
  | .reform f => predOk f.p && f.link == 0 && f.off == 0 && (match f.a with | .v _ | .s _ | .cst _ => true | _ => false)
  | .pipe f | .pipeH f => predOk f.p && SrcK.sInt.ok .s32 f.a false
  | _ => true

def Instr.iOk : Instr → Bool
  | .smovi f | .smovh f => viOk true true f && !f.ta
  | .movi f => viOk false true f
  | .iaddi f | .andi f | .ori f | .xori f => viOk false false f
  | _ => true

/-- The instruction is one whose word is not refused with ILL, whatever the kernel's declared counts. -/
def Instr.wf (i : Instr) : Bool :=
  (match i.vsig with | some (g, f) => g.ok f | none => true)
    && i.vExtra && i.iOk && i.cOk && i.mOk && i.qOk && i.xOk && i.pOk && i.yOk

/-! ### Declared counts (R70) -/

/-- One more than the highest v register of an operand read at `w` bytes. -/
def Opnd.vUp (o : Opnd) (n : Nat) : Nat :=
  match o with
  | .v r => r.toNat + n
  | _ => 0

def FM.vNeed (f : FM) (n : Nat) : Nat :=
  max (f.data.vUp n) (match f.x with | some r => r.toNat + 1 | none => 0)

def FQ.vNeed (f : FQ) (w64 : Bool) : Nat :=
  let n := if w64 then 2 else 1
  max (f.dst.vUp n) (max (f.a.vUp 1) (f.b.vUp n))

def FP.vNeed (f : FP) : Nat := match f.x with | some r => r.toNat + 1 | none => 0

/-- v registers the instruction needs declared (R70, R178, R296, R350). -/
def Instr.vNeed (i : Instr) : Nat :=
  match i.vsig with
  | some (g, f) => max (max (g.dst.vNeed f.ty f.dst) (g.a.vNeed f.ty f.a)) (max (g.b.vNeed f.ty f.b) (g.c.vNeed f.ty f.c))
  | none =>
    match i with
    | .movi f => f.dst.vUp 1
    | .iaddi f | .andi f | .ori f | .xori f => max (f.dst.vUp 1) (f.a.vUp 1)
    | .reform f => f.a.vUp 1
    | .pipe f | .pipeH f => f.live.val
    | .ld f | .lds f | .st f | .sts f => f.vNeed (((f.ty.memBytes).getD 4 + 3) / 4)
    | .ldf f => f.vNeed 1
    | .pref _ f | .cctlInv1 f | .cctlWb f | .cctlEvict f => f.vNeed 0
    | .atom _ t f | .atoms _ t f => f.vNeed t.is64
    | .redm _ t f => max (f.a.vUp 1) (f.b.vUp (if t.is64 then 2 else 1))
    | .enq f | .enqt f => f.b.vUp 1
    | .deq f | .deqt f => f.dst.vUp 1
    | .tclaim _ f | .tfree f => f.va.toNat + 1
    | .tfill _ _ _ f => max f.va.toNat f.vb.toNat + 1
    | .mmq _ f | .mmqx _ f | .phmma _ f => max f.va.toNat f.vb.toNat + 1
    | .mxldz _ f | .mxdrain _ f | .phfin _ f => max (f.va.toNat + 2) (f.vb.toNat + 1)
    | .scld f => f.va.toNat + 2
    | .cpyIn f | .cpyOut f | .cpyr _ f | .cpytOm f | .cpytSp f => f.vNeed
    | _ => 0

/-- s registers the instruction needs declared (R70, R109). -/
def Instr.sNeed (i : Instr) : Nat :=
  match i.vsig with
  | some (_, f) => max (max f.dst.sNeed f.a.sNeed) (max f.b.sNeed f.c.sNeed)
  | none =>
    match i with
    | .smovi f | .smovh f | .movi f => f.dst.sNeed
    | .iaddi f | .andi f | .ori f | .xori f => f.a.sNeed
    | .bz f | .bnz f | .brx f | .reform f => f.a.sNeed
    | .call f | .ret f => f.link.toNat + 1
    | .pipe f | .pipeH f => f.a.sNeed
    | .ld f | .lds f | .st f | .sts f | .ldf f | .sld f | .sst f | .pref _ f | .cctlInv1 f | .cctlWb f | .cctlEvict f
    | .fenceRg f | .waitl f => max f.data.sNeed (f.base.toNat + 1)
    | .atom _ _ f | .atoms _ _ f | .redm _ _ f | .barinit f | .bararr f | .barwait f | .bartest f | .barkill f
    | .qopen f | .qclose f | .qcloseKill f | .enq f | .deq f | .enqt f | .deqt f | .qstat f =>
        max (max f.dst.sNeed f.a.sNeed) (max f.b.sNeed (f.base.toNat + 1))
    | .netarr f | .netwait f => max f.dst.sNeed f.a.sNeed
    | .mmqx x _ => x.so.toNat + 1
    | .cpyIn f | .cpyOut f | .cpyr _ f | .cpytOm f | .cpytSp f => max (f.g.toNat + 1) (f.sp.toNat + 1)
    | .rcfence f => max (f.g.toNat + 1) (f.sp.toNat + 1)
    | .bkpt f | .mark f | .lnch f | .budget f | .budgetSet f | .tlbiPage f | .tlbiRange f | .tlbiAll f | .pchk f | .netcfg f =>
        max f.dst.sNeed (max f.a.sNeed f.b.sNeed)
    | _ => 0

/-- The instruction fits the counts the kernel declares (R70): vector count v, scalar count s. -/
def Instr.fits (i : Instr) (v s : Nat) : Bool := i.vNeed ≤ v && i.sNeed ≤ s

end Sys2Proof
end

