-- ==== Sys2Proof/Decode.lean ====
section
/-!
DEFINITION. The decoder of CK3, total on every 64-bit word (R74, R77), and the encoder, both written from the layouts of
R56 to R64, the code tables of R65 to R73, R76 and R103 and the opcode map R75.
-/
namespace Sys2Proof

/-! ### Fields and codes -/

/-- `n` bits of a word from bit `lo`. -/
def fld (w : W64) (lo n : Nat) : BitVec n := BitVec.ofNat n (w.toNat / 2 ^ lo)

/-- The same field as a number. -/
def fldN (w : W64) (lo n : Nat) : Nat := w.toNat / 2 ^ lo % 2 ^ n

/-- One bit of a word. -/
def bitAt (w : W64) (lo : Nat) : Bool := w.toNat / 2 ^ lo % 2 == 1

/-- Operand codes (R70). -/
def Opnd.code : Opnd → Nat
  | .v n => n.toNat
  | .s n => 0x100 + n.toNat
  | .y n => 0x140 + n.toNat
  | .k n => 0x180 + n.toNat
  | .cst n => 0x190 + n.val

def natFin0 (m n : Nat) : Option (Fin m) := if h : n < m then some ⟨n, h⟩ else none

/-- Codes 0x1C0 to 0x1FF name no operand (R70). -/
def Opnd.ofCode (n : Nat) : Option Opnd :=
  if n < 0x100 then some (.v (BitVec.ofNat 8 n))
  else if n < 0x140 then some (.s (BitVec.ofNat 6 (n - 0x100)))
  else if n < 0x180 then some (.y (BitVec.ofNat 6 (n - 0x140)))
  else if n < 0x190 then some (.k (BitVec.ofNat 4 (n - 0x180)))
  else (natFin0 48 (n - 0x190)).map .cst

def Ty.code : Ty → Nat
  | .s32 => 0 | .n32 => 1 | .s64 => 2 | .n64 => 3 | .s16 => 4 | .n16 => 5 | .s8 => 6 | .n8 => 7
  | .f32 => 8 | .f16 => 9 | .bf16 => 10 | .e4 => 11 | .e5 => 12 | .ph16 => 13 | .ph8 => 14 | .bp8 => 15

def Ty.ofCode : Nat → Option Ty
  | 0 => some .s32 | 1 => some .n32 | 2 => some .s64 | 3 => some .n64 | 4 => some .s16 | 5 => some .n16 | 6 => some .s8
  | 7 => some .n8 | 8 => some .f32 | 9 => some .f16 | 10 => some .bf16 | 11 => some .e4 | 12 => some .e5
  | 13 => some .ph16 | 14 => some .ph8 | 15 => some .bp8 | _ => none

def Rnd.code : Rnd → Nat
  | .rne => 0 | .rtz => 1 | .rup => 2 | .rdn => 3 | .rna => 4

/-- Codes 101 to 111 raise ILL (R66). -/
def Rnd.ofCode : Nat → Option Rnd
  | 0 => some .rne | 1 => some .rtz | 2 => some .rup | 3 => some .rdn | 4 => some .rna | _ => none

def Scope.code : Scope → Nat
  | .core => 0 | .quad => 1 | .die => 2 | .pkg => 3 | .pod => 4 | .sys => 5

/-- Codes 110 and 111 raise ILL (R68). -/
def Scope.ofCode : Nat → Option Scope
  | 0 => some .core | 1 => some .quad | 2 => some .die | 3 => some .pkg | 4 => some .pod | 5 => some .sys | _ => none

def Cond.code : Cond → Nat
  | .eq => 0 | .ne => 1 | .lt => 2 | .le => 3 | .gt => 4 | .ge => 5 | .un => 6 | .ord => 7

def Cond.ofCode : Nat → Option Cond
  | 0 => some .eq | 1 => some .ne | 2 => some .lt | 3 => some .le | 4 => some .gt | 5 => some .ge | 6 => some .un
  | 7 => some .ord | _ => none

def PhCond.code : PhCond → Nat
  | .eq => 0 | .ne => 1 | .ahead => 2 | .behind => 3 | .opp => 4 | .un => 5 | .ord => 6

def PhCond.ofCode : Nat → Option PhCond
  | 0 => some .eq | 1 => some .ne | 2 => some .ahead | 3 => some .behind | 4 => some .opp | 5 => some .un
  | 6 => some .ord | _ => none

/-- Special register numbers (R103). -/
def SpReg.code : SpReg → Nat
  | .lane => 0 | .tid => 1 | .grp => 2 | .team => 3 | .teams => 4 | .core => 5 | .part => 6 | .quad => 7 | .die => 8
  | .pkg => 9 | .iter => 10 | .niter => 11 | .clk => 12 | .gtb => 13 | .nbv => 14 | .voidm => 15 | .bkpass => 16
  | .energy => 17 | .role => 18 | .trapbase => 19 | .trapvec => 20 | .age => 21 | .frame => 22

def SpReg.ofCode : Nat → Option SpReg
  | 0 => some .lane | 1 => some .tid | 2 => some .grp | 3 => some .team | 4 => some .teams | 5 => some .core
  | 6 => some .part | 7 => some .quad | 8 => some .die | 9 => some .pkg | 10 => some .iter | 11 => some .niter
  | 12 => some .clk | 13 => some .gtb | 14 => some .nbv | 15 => some .voidm | 16 => some .bkpass | 17 => some .energy
  | 18 => some .role | 19 => some .trapbase | 20 => some .trapvec | 21 => some .age | 22 => some .frame | _ => none

/-- Width codes of SHFL (R196). -/
def ShW.code : ShW → Nat
  | .dflt => 0 | .w1 => 0x191 | .w2 => 0x192 | .w4 => 0x194 | .w8 => 0x196 | .w16 => 0x198 | .w32 => 0x19B

def ShW.ofCode (n : Nat) : Option ShW :=
  if n == 0 then some .dflt else if n == 0x191 then some .w1 else if n == 0x192 then some .w2
  else if n == 0x194 then some .w4 else if n == 0x196 then some .w8 else if n == 0x198 then some .w16
  else if n == 0x19B then some .w32 else none

def RedOp.code : RedOp → Nat
  | .add => 0 | .min => 1 | .max => 2 | .and => 3 | .or => 4 | .xor => 5

def RedOp.ofCode : Nat → Option RedOp
  | 0 => some .add | 1 => some .min | 2 => some .max | 3 => some .and | 4 => some .or | 5 => some .xor | _ => none

/-- Operation and `.excl` bit of SCANG (R194). -/
def scanOf (n : Nat) : Option (RedOp × Bool) :=
  if n < 32 then (RedOp.ofCode (n % 16)).map fun op => (op, n / 16 == 1) else none

/-- Shift codes of LEA (R137). -/
def leaShOf (n : Nat) : Option (Fin 5) := if n < 0x190 then none else natFin0 5 (n - 0x190)

def AtomOp.code : AtomOp → Nat
  | .add => 0 | .min => 1 | .max => 2 | .and => 3 | .or => 4 | .xor => 5 | .xchg => 6 | .cas => 7 | .inc => 8 | .dec => 9

def AtomOp.ofCode : Nat → Option AtomOp
  | 0 => some .add | 1 => some .min | 2 => some .max | 3 => some .and | 4 => some .or | 5 => some .xor | 6 => some .xchg
  | 7 => some .cas | 8 => some .inc | 9 => some .dec | _ => none

def CpyrOp.code : CpyrOp → Nat
  | .addS32 => 0 | .addF32 => 1 | .minS32 => 2 | .maxS32 => 3 | .or => 4

def CpyrOp.ofCode : Nat → Option CpyrOp
  | 0 => some .addS32 | 1 => some .addF32 | 2 => some .minS32 | 3 => some .maxS32 | 4 => some .or | _ => none

def CpSize.code : CpSize → Nat
  | .b4 => 0 | .b8 => 1 | .b16 => 2

def CpSize.ofCode : Nat → Option CpSize
  | 0 => some .b4 | 1 => some .b8 | 2 => some .b16 | _ => none

def Scale.code : Scale → Nat
  | .x1 => 0 | .x2 => 1 | .x4 => 2 | .x8 => 3 | .x16 => 4

/-- Codes 5 to 7 raise ILL (R59). -/
def Scale.ofCode : Nat → Option Scale
  | 0 => some .x1 | 1 => some .x2 | 2 => some .x4 | 3 => some .x8 | 4 => some .x16 | _ => none

def PrefLvl.code : PrefLvl → Nat
  | .l1 => 0 | .l2 => 1

def PrefLvl.ofCode : Nat → Option PrefLvl
  | 0 => some .l1 | 1 => some .l2 | _ => none

/-- Operations of CCTL (R177). -/
inductive CctlOp where
  | inv1 | wb | evict
deriving DecidableEq, Repr

def CctlOp.ofCode : Nat → Option CctlOp
  | 0 => some .inv1 | 1 => some .wb | 2 => some .evict | _ => none

/-- Modes of VOTE (R198). -/
inductive VoteMode where
  | ballot | any | all | eq
deriving DecidableEq, Repr

def VoteMode.ofCode : Nat → Option VoteMode
  | 0 => some .ballot | 1 => some .any | 2 => some .all | 3 => some .eq | _ => none

/-- Modes of PHRED (R350). -/
inductive PhRedMode where
  | whole | acc | fin
deriving DecidableEq, Repr

def PhRedMode.ofCode : Nat → Option PhRedMode
  | 0 => some .whole | 1 => some .acc | 2 => some .fin | _ => none

/-- Strides of PIPE; 11 raises ILL (R60). -/
def Stride.code : Stride → Nat
  | .s4 => 0 | .s8 => 1 | .s16 => 2

def Stride.ofCode : Nat → Option Stride
  | 0 => some .s4 | 1 => some .s8 | 2 => some .s16 | _ => none

/-! ### Formats to bits -/

/-- Major, predicate and PN (R55). -/
def headBits (major : Nat) (p : Pred) : Nat :=
  major * 2 ^ 56 + p.k.toNat * 2 ^ 52 + p.neg.toNat * 2 ^ 51

/-- Format VR with the codes of b and c given (R56). -/
def VR.bits (major minor : Nat) (f : VR) (b c : Nat) : Nat :=
  headBits major f.p + f.dst.code * 2 ^ 42 + f.a.code * 2 ^ 33 + b * 2 ^ 24 + c * 2 ^ 15 + minor * 2 ^ 10
    + f.ta.toNat * 2 ^ 9 + f.tb.toNat * 2 ^ 8 + f.tc.toNat * 2 ^ 7 + f.ty.code * 2 ^ 3 + f.rnd.code

/-- Formats VI and SI (R57). -/
def VI.bits (f : VI) (major : Nat) : Nat :=
  headBits major f.p + f.dst.code * 2 ^ 42 + f.a.code * 2 ^ 33 + f.ta.toNat * 2 ^ 32 + f.imm.toNat

/-- Format C of majors 0x04 and 0x05 (R60). -/
def FC.bits (f : FC) (major minor : Nat) : Nat :=
  headBits major f.p + f.a.code * 2 ^ 42 + f.link.toNat * 2 ^ 36 + minor * 2 ^ 32 + f.off.toNat

/-- Format C of PIPE (R60). -/
def FPipe.bits (f : FPipe) (h : Nat) : Nat :=
  headBits 0x58 f.p + f.a.code * 2 ^ 42 + f.stride.code * 2 ^ 40 + (f.dist.val + 1) * 2 ^ 38 + f.live.val * 2 ^ 33
    + h * 2 ^ 32 + f.off.toNat

def idxNat (x : Option (BitVec 8)) : Nat := match x with | some r => r.toNat | none => 0

/-- Format M with the code of data given (R59). -/
def FM.bits (f : FM) (major data : Nat) : Nat :=
  headBits major f.p + data * 2 ^ 42 + f.base.toNat * 2 ^ 36 + idxNat f.x * 2 ^ 28 + f.x.isSome.toNat * 2 ^ 27
    + f.scale.code * 2 ^ 24 + f.ty.code * 2 ^ 20 + f.rel.toNat * 2 ^ 19 + f.acq.toNat * 2 ^ 18 + f.scope.code * 2 ^ 15
    + f.t.toNat * 2 ^ 14 + f.disp.toNat

/-- Format Q with the codes of a and obj given (R63). -/
def FQ.bits (f : FQ) (major a obj : Nat) : Nat :=
  headBits major f.p + f.dst.code * 2 ^ 42 + a * 2 ^ 33 + f.b.code * 2 ^ 24 + f.base.toNat * 2 ^ 18 + obj * 2 ^ 10
    + f.rel.toNat * 2 ^ 9 + f.acq.toNat * 2 ^ 8 + f.scope.code * 2 ^ 5

/-- The product layout of aux (R297). -/
def AuxProd.bits (x : AuxProd) : Nat :=
  x.ab.toNat * 2 ^ 15 + x.pa.toNat * 2 ^ 12 + x.pb.toNat * 2 ^ 9 + x.sc.toNat * 2 ^ 8 + x.so.toNat

def AuxProd.ofBits (n : Nat) : Option AuxProd :=
  if n / 64 % 4 == 0 then
    some ⟨BitVec.ofNat 2 (n / 2 ^ 15), BitVec.ofNat 3 (n / 2 ^ 12), BitVec.ofNat 3 (n / 2 ^ 9), n / 2 ^ 8 % 2 == 1,
      BitVec.ofNat 6 n⟩
  else none

/-- The tile layout of aux (R297). -/
def AuxTile.bits (x : AuxTile) : Nat :=
  x.ab.toNat * 2 ^ 15 + x.g.toNat * 2 ^ 14 + x.add.toNat * 2 ^ 13 + x.zr.toNat * 2 ^ 12 + x.acq.toNat * 2 ^ 11
    + x.rel.toNat * 2 ^ 10 + x.scope.code * 2 ^ 7

def AuxTile.ofBits (n : Nat) : Option AuxTile :=
  if n % 128 == 0 then
    (Scope.ofCode (n / 2 ^ 7 % 8)).map fun sc =>
      ⟨BitVec.ofNat 2 (n / 2 ^ 15), n / 2 ^ 14 % 2 == 1, n / 2 ^ 13 % 2 == 1, n / 2 ^ 12 % 2 == 1, n / 2 ^ 11 % 2 == 1,
        n / 2 ^ 10 % 2 == 1, sc⟩
  else none

/-- Format X (R61). -/
def FX.bits (f : FX) (major aux : Nat) : Nat :=
  headBits major f.p + f.z.toNat * 2 ^ 47 + f.va.toNat * 2 ^ 39 + f.vb.toNat * 2 ^ 31 + f.xa.toNat * 2 ^ 28
    + f.xb.toNat * 2 ^ 25 + f.tA.code * 2 ^ 21 + f.tB.code * 2 ^ 17 + aux

/-- Format P (R62). -/
def FP.bits (f : FP) (major op : Nat) : Nat :=
  headBits major f.p + f.size.code * 2 ^ 49 + op * 2 ^ 46 + f.acq.toNat * 2 ^ 45 + f.rel.toNat * 2 ^ 44
    + f.seq.toNat * 2 ^ 43 + f.cmp.toNat * 2 ^ 42 + f.scope.code * 2 ^ 39 + f.g.toNat * 2 ^ 33 + f.sp.toNat * 2 ^ 27
    + idxNat f.x * 2 ^ 19 + f.x.isSome.toNat * 2 ^ 18 + f.scale.code * 2 ^ 15 + f.bar.toNat * 2 ^ 7 + f.disp.toNat

/-- Format Y (R64). -/
def FY.bits (f : FY) (major minor imm : Nat) : Nat :=
  headBits major f.p + f.dst.code * 2 ^ 42 + f.a.code * 2 ^ 33 + f.b.code * 2 ^ 24 + minor * 2 ^ 20 + imm

/-! ### Bits to formats -/

def predOf (w : W64) : Pred := ⟨fld w 52 4, bitAt w 51⟩

/-- Format VR or SR without b and c (R56). -/
def vrHead (w : W64) (b c : Opnd) : Option VR :=
  (Opnd.ofCode (fldN w 42 9)).bind fun dst => (Opnd.ofCode (fldN w 33 9)).bind fun a =>
    (Ty.ofCode (fldN w 3 4)).bind fun ty => (Rnd.ofCode (fldN w 0 3)).map fun rnd =>
      ⟨predOf w, dst, a, b, c, bitAt w 9, bitAt w 8, bitAt w 7, ty, rnd⟩

/-- b and c hold operands. -/
def vrPlain (w : W64) (mk : VR → Instr) : Option Instr :=
  (Opnd.ofCode (fldN w 24 9)).bind fun b => (Opnd.ofCode (fldN w 15 9)).bind fun c => (vrHead w b c).map mk

/-- c holds a code. -/
def vrCode {α : Type} (w : W64) (of : Nat → Option α) (mk : α → VR → Instr) : Option Instr :=
  (of (fldN w 15 9)).bind fun x => (Opnd.ofCode (fldN w 24 9)).bind fun b => (vrHead w b (.v 0)).map (mk x)

/-- FCVT: c holds the source type and b the saturation code (R158). -/
def fcvtOf (w : W64) : Option Instr :=
  (Ty.ofCode (fldN w 15 9)).bind fun sty =>
    if fldN w 24 9 == 0 then (vrHead w (.v 0) (.v 0)).map (.fcvt false sty)
    else if fldN w 24 9 == 0x191 then (vrHead w (.v 0) (.v 0)).map (.fcvt true sty)
    else none

def viPlain (w : W64) (mk : VI → Instr) : Option Instr :=
  (Opnd.ofCode (fldN w 42 9)).bind fun dst => (Opnd.ofCode (fldN w 33 9)).map fun a =>
    mk ⟨predOf w, dst, a, bitAt w 32, fld w 0 32⟩

def fcPlain (w : W64) (mk : FC → Instr) : Option Instr :=
  (Opnd.ofCode (fldN w 42 9)).map fun a => mk ⟨predOf w, a, fld w 36 6, fld w 0 32⟩

/-- PIPE and PIPE.H (R60): distance 00 and live-in above 16 raise ILL. -/
def pipeOf (w : W64) : Option Instr :=
  (Opnd.ofCode (fldN w 42 9)).bind fun a => (Stride.ofCode (fldN w 40 2)).bind fun s =>
    if fldN w 38 2 == 0 then none else
    (natFin0 3 (fldN w 38 2 - 1)).bind fun d => (natFin0 17 (fldN w 33 5)).map fun live =>
      if bitAt w 32 then .pipeH ⟨predOf w, a, s, d, live, fld w 0 32⟩ else .pipe ⟨predOf w, a, s, d, live, fld w 0 32⟩

/-- The index: with X = 0 the field is 0 (R59). -/
def idxOf (w : W64) (x lo : Nat) : Option (Option (BitVec 8)) :=
  if bitAt w x then some (some (fld w lo 8)) else if fldN w lo 8 == 0 then some none else none

def fmHead (w : W64) (data : Opnd) : Option FM :=
  (idxOf w 27 28).bind fun x => (Scale.ofCode (fldN w 24 3)).bind fun sc => (Ty.ofCode (fldN w 20 4)).bind fun ty =>
    (Scope.ofCode (fldN w 15 3)).map fun scope =>
      ⟨predOf w, data, fld w 36 6, x, sc, ty, bitAt w 18, bitAt w 19, scope, bitAt w 14, fld w 0 14⟩

def fmPlain (w : W64) (mk : FM → Instr) : Option Instr :=
  (Opnd.ofCode (fldN w 42 9)).bind fun d => (fmHead w d).map mk

def fmCode {α : Type} (w : W64) (of : Nat → Option α) (mk : α → FM → Instr) : Option Instr :=
  (of (fldN w 42 9)).bind fun x => (fmHead w (.v 0)).map (mk x)

def fqHead (w : W64) (a : Opnd) (obj : BitVec 8) : Option FQ :=
  (Opnd.ofCode (fldN w 42 9)).bind fun dst => (Opnd.ofCode (fldN w 24 9)).bind fun b =>
    (Scope.ofCode (fldN w 5 3)).map fun sc => ⟨predOf w, dst, a, b, fld w 18 6, obj, bitAt w 8, bitAt w 9, sc⟩

def fqPlain (w : W64) (mk : FQ → Instr) : Option Instr :=
  (Opnd.ofCode (fldN w 33 9)).bind fun a => (fqHead w a (fld w 10 8)).map mk

/-- Atomics: obj holds the operation and the type (R76). -/
def fqAtom (w : W64) (mk : AtomOp → Ty → FQ → Instr) : Option Instr :=
  (AtomOp.ofCode (fldN w 14 4)).bind fun op => (Ty.ofCode (fldN w 10 4)).bind fun t =>
    (Opnd.ofCode (fldN w 33 9)).bind fun a => (fqHead w a 0).map (mk op t)

/-- QCLOSE: a is 0x190, or 0x191 for `.kill` (R258). -/
def fqClose (w : W64) : Option Instr :=
  if fldN w 33 9 == 0x190 then (fqHead w (.v 0) (fld w 10 8)).map .qclose
  else if fldN w 33 9 == 0x191 then (fqHead w (.v 0) (fld w 10 8)).map .qcloseKill
  else none

def fxHead (w : W64) : Option FX :=
  (Ty.ofCode (fldN w 21 4)).bind fun tA => (Ty.ofCode (fldN w 17 4)).map fun tB =>
    ⟨predOf w, fld w 47 4, fld w 39 8, fld w 31 8, fld w 28 3, fld w 25 3, tA, tB⟩

def fxPlain (w : W64) (mk : FX → Instr) : Option Instr := (fxHead w).map mk

def fxZero (w : W64) (aux : Nat) (mk : FX → Instr) : Option Instr := if aux == 0 then (fxHead w).map mk else none

/-- A count field holding 1 to m (R296). -/
def natFin (m aux : Nat) : Option (Fin m) := if aux == 0 then none else natFin0 m (aux - 1)

def fpPlain (w : W64) (mk : FP → Instr) : Option Instr :=
  (CpSize.ofCode (fldN w 49 2)).bind fun size => (Scope.ofCode (fldN w 39 3)).bind fun scope =>
    (idxOf w 18 19).bind fun x => (Scale.ofCode (fldN w 15 3)).map fun sc =>
      mk ⟨predOf w, size, bitAt w 45, bitAt w 44, bitAt w 43, bitAt w 42, scope, fld w 33 6, fld w 27 6, x, sc, fld w 7 8,
        fld w 0 7⟩

def fyHead (w : W64) (imm : BitVec 20) : Option FY :=
  (Opnd.ofCode (fldN w 42 9)).bind fun dst => (Opnd.ofCode (fldN w 33 9)).bind fun a =>
    (Opnd.ofCode (fldN w 24 9)).map fun b => ⟨predOf w, dst, a, b, imm⟩

def fyPlain (w : W64) (mk : FY → Instr) : Option Instr := (fyHead w (fld w 0 20)).map mk

/-- imm holds the form of the instruction (R365). -/
def fySub (w : W64) (mk : Nat → FY → Option Instr) : Option Instr := (fyHead w 0).bind (mk (fldN w 0 20))

/-! ### The encoder -/

/-- The 64-bit value of an instruction's word (R56 to R64, R75); 0 for a step of the machine, which has no word. -/
def Instr.bits : Instr → Nat
  | .sadd f => VR.bits 0x00 0 f f.b.code (f.c.code)
  | .ssub f => VR.bits 0x00 1 f f.b.code (f.c.code)
  | .smul f => VR.bits 0x00 2 f f.b.code (f.c.code)
  | .smulh f => VR.bits 0x00 3 f f.b.code (f.c.code)
  | .smad f => VR.bits 0x00 4 f f.b.code (f.c.code)
  | .sand f => VR.bits 0x00 5 f f.b.code (f.c.code)
  | .sor f => VR.bits 0x00 6 f f.b.code (f.c.code)
  | .sxor f => VR.bits 0x00 7 f f.b.code (f.c.code)
  | .sandn f => VR.bits 0x00 8 f f.b.code (f.c.code)
  | .sshl f => VR.bits 0x00 9 f f.b.code (f.c.code)
  | .sshr f => VR.bits 0x00 10 f f.b.code (f.c.code)
  | .ssra f => VR.bits 0x00 11 f f.b.code (f.c.code)
  | .smin f => VR.bits 0x00 12 f f.b.code (f.c.code)
  | .smax f => VR.bits 0x00 13 f f.b.code (f.c.code)
  | .sminu f => VR.bits 0x00 14 f f.b.code (f.c.code)
  | .smaxu f => VR.bits 0x00 15 f f.b.code (f.c.code)
  | .scmp x f => VR.bits 0x00 16 f f.b.code (x.code)
  | .ssel f => VR.bits 0x00 17 f f.b.code (f.c.code)
  | .smov f => VR.bits 0x00 18 f f.b.code (f.c.code)
  | .sclz f => VR.bits 0x00 19 f f.b.code (f.c.code)
  | .spopc f => VR.bits 0x00 20 f f.b.code (f.c.code)
  | .vtos f => VR.bits 0x00 21 f f.b.code (f.c.code)
  | .srd x f => VR.bits 0x03 0 f f.b.code (x.code)
  | .swr x f => VR.bits 0x03 1 f f.b.code (x.code)
  | .iadd f => VR.bits 0x10 0 f f.b.code (f.c.code)
  | .isub f => VR.bits 0x10 1 f f.b.code (f.c.code)
  | .imul f => VR.bits 0x10 2 f f.b.code (f.c.code)
  | .imulh f => VR.bits 0x10 3 f f.b.code (f.c.code)
  | .imulhu f => VR.bits 0x10 4 f f.b.code (f.c.code)
  | .imad f => VR.bits 0x10 5 f f.b.code (f.c.code)
  | .imadw f => VR.bits 0x10 6 f f.b.code (f.c.code)
  | .iaddw f => VR.bits 0x10 7 f f.b.code (f.c.code)
  | .isubw f => VR.bits 0x10 8 f f.b.code (f.c.code)
  | .iabs f => VR.bits 0x10 9 f f.b.code (f.c.code)
  | .ineg f => VR.bits 0x10 10 f f.b.code (f.c.code)
  | .imin f => VR.bits 0x10 11 f f.b.code (f.c.code)
  | .imax f => VR.bits 0x10 12 f f.b.code (f.c.code)
  | .iadds f => VR.bits 0x10 13 f f.b.code (f.c.code)
  | .isubs f => VR.bits 0x10 14 f f.b.code (f.c.code)
  | .lea x f => VR.bits 0x10 15 f f.b.code (0x190 + x.val)
  | .cvti x f => VR.bits 0x10 16 f f.b.code (x.code)
  | .and f => VR.bits 0x11 0 f f.b.code (f.c.code)
  | .or f => VR.bits 0x11 1 f f.b.code (f.c.code)
  | .xor f => VR.bits 0x11 2 f f.b.code (f.c.code)
  | .andn f => VR.bits 0x11 3 f f.b.code (f.c.code)
  | .shl f => VR.bits 0x11 4 f f.b.code (f.c.code)
  | .shr f => VR.bits 0x11 5 f f.b.code (f.c.code)
  | .sra f => VR.bits 0x11 6 f f.b.code (f.c.code)
  | .rotl f => VR.bits 0x11 7 f f.b.code (f.c.code)
  | .bfx f => VR.bits 0x11 8 f f.b.code (f.c.code)
  | .bfi f => VR.bits 0x11 9 f f.b.code (f.c.code)
  | .popc f => VR.bits 0x11 10 f f.b.code (f.c.code)
  | .clz f => VR.bits 0x11 11 f f.b.code (f.c.code)
  | .ctz f => VR.bits 0x11 12 f f.b.code (f.c.code)
  | .brev f => VR.bits 0x11 13 f f.b.code (f.c.code)
  | .bytep f => VR.bits 0x11 14 f f.b.code (f.c.code)
  | .icmp x f => VR.bits 0x11 15 f f.b.code (x.code)
  | .sel f => VR.bits 0x11 16 f f.b.code (f.c.code)
  | .mov f => VR.bits 0x11 17 f f.b.code (f.c.code)
  | .kand f => VR.bits 0x17 0 f f.b.code (f.c.code)
  | .kor f => VR.bits 0x17 1 f f.b.code (f.c.code)
  | .kxor f => VR.bits 0x17 2 f f.b.code (f.c.code)
  | .kandn f => VR.bits 0x17 3 f f.b.code (f.c.code)
  | .knot f => VR.bits 0x17 4 f f.b.code (f.c.code)
  | .kmov f => VR.bits 0x17 5 f f.b.code (f.c.code)
  | .kpopc f => VR.bits 0x17 6 f f.b.code (f.c.code)
  | .kffs f => VR.bits 0x17 7 f f.b.code (f.c.code)
  | .fadd f => VR.bits 0x30 0 f f.b.code (f.c.code)
  | .fsub f => VR.bits 0x30 1 f f.b.code (f.c.code)
  | .fmul f => VR.bits 0x30 2 f f.b.code (f.c.code)
  | .ffma f => VR.bits 0x30 3 f f.b.code (f.c.code)
  | .fmin f => VR.bits 0x30 4 f f.b.code (f.c.code)
  | .fmax f => VR.bits 0x30 5 f f.b.code (f.c.code)
  | .fcmp x f => VR.bits 0x30 6 f f.b.code (x.code)
  | .fclass f => VR.bits 0x30 7 f f.b.code (f.c.code)
  | .frint f => VR.bits 0x30 8 f f.b.code (f.c.code)
  | .fscale f => VR.bits 0x30 9 f f.b.code (f.c.code)
  | .fcvt sat sty f => VR.bits 0x30 10 f (if sat then 0x191 else 0) (sty.code)
  | .hadd2 f => VR.bits 0x31 0 f f.b.code (f.c.code)
  | .hmul2 f => VR.bits 0x31 1 f f.b.code (f.c.code)
  | .hfma2 f => VR.bits 0x31 2 f f.b.code (f.c.code)
  | .bfma2 f => VR.bits 0x31 3 f f.b.code (f.c.code)
  | .qdot4 f => VR.bits 0x31 4 f f.b.code (f.c.code)
  | .shflIdx x f => VR.bits 0x50 0 f f.b.code (x.code)
  | .shflUp x f => VR.bits 0x50 1 f f.b.code (x.code)
  | .shflDn x f => VR.bits 0x50 2 f f.b.code (x.code)
  | .shflXor x f => VR.bits 0x50 3 f f.b.code (x.code)
  | .voteBallot f => VR.bits 0x50 4 f f.b.code (0)
  | .voteAny f => VR.bits 0x50 4 f f.b.code (1)
  | .voteAll f => VR.bits 0x50 4 f f.b.code (2)
  | .voteEq f => VR.bits 0x50 4 f f.b.code (3)
  | .redg x f => VR.bits 0x50 5 f f.b.code (x.code)
  | .scang op excl f => VR.bits 0x50 6 f f.b.code (op.code + 16 * excl.toNat)
  | .bcast f => VR.bits 0x50 7 f f.b.code (f.c.code)
  | .match_ f => VR.bits 0x50 8 f f.b.code (f.c.code)
  | .cmpct f => VR.bits 0x50 9 f f.b.code (f.c.code)
  | .pjoin f => VR.bits 0x59 0 f f.b.code (f.c.code)
  | .pend f => VR.bits 0x59 1 f f.b.code (f.c.code)
  | .pbrk f => VR.bits 0x59 2 f f.b.code (f.c.code)
  | .yvoid f => VR.bits 0x59 3 f f.b.code (f.c.code)
  | .pstat f => VR.bits 0x59 4 f f.b.code (f.c.code)
  | .phadd f => VR.bits 0xB0 0 f f.b.code (f.c.code)
  | .phsub f => VR.bits 0xB0 1 f f.b.code (f.c.code)
  | .phneg f => VR.bits 0xB0 2 f f.b.code (f.c.code)
  | .phmuli f => VR.bits 0xB0 3 f f.b.code (f.c.code)
  | .phcmp x f => VR.bits 0xB0 4 f f.b.code (x.code)
  | .phred f => VR.bits 0xB0 5 f f.b.code (0)
  | .phredAcc f => VR.bits 0xB0 5 f f.b.code (1)
  | .phredEnd f => VR.bits 0xB0 5 f f.b.code (2)
  | .phsin f => VR.bits 0xB0 6 f f.b.code (f.c.code)
  | .phcos f => VR.bits 0xB0 7 f f.b.code (f.c.code)
  | .phfrom f => VR.bits 0xB0 8 f f.b.code (f.c.code)
  | .phcvt x f => VR.bits 0xB0 9 f f.b.code (x.code)
  | .sigm f => VR.bits 0xB8 0 f f.b.code (f.c.code)
  | .tanh f => VR.bits 0xB8 1 f f.b.code (f.c.code)
  | .exp2 f => VR.bits 0xB8 2 f f.b.code (f.c.code)
  | .log2 f => VR.bits 0xB8 3 f f.b.code (f.c.code)
  | .rcp f => VR.bits 0xB8 4 f f.b.code (f.c.code)
  | .rsq f => VR.bits 0xB8 5 f f.b.code (f.c.code)
  | .gatec f => VR.bits 0xB8 6 f f.b.code (f.c.code)
  | .gateh f => VR.bits 0xB8 7 f f.b.code (f.c.code)
  | .gatecComp f => VR.bits 0xB8 8 f f.b.code (f.c.code)
  | .idivs f => VR.bits 0xC4 0 f f.b.code (f.c.code)
  | .idivu f => VR.bits 0xC5 0 f f.b.code (f.c.code)
  | .smovi f => f.bits 0x01
  | .smovh f => f.bits 0x02
  | .movi f => f.bits 0x12
  | .iaddi f => f.bits 0x13
  | .andi f => f.bits 0x14
  | .ori f => f.bits 0x15
  | .xori f => f.bits 0x16
  | .bra f => f.bits 0x04 0
  | .bz f => f.bits 0x04 1
  | .bnz f => f.bits 0x04 2
  | .bany f => f.bits 0x04 3
  | .ball f => f.bits 0x04 4
  | .bnone f => f.bits 0x04 5
  | .call f => f.bits 0x04 6
  | .ret f => f.bits 0x04 7
  | .brx f => f.bits 0x04 8
  | .exit f => f.bits 0x04 9
  | .reform f => f.bits 0x05 0
  | .nop f => f.bits 0x05 1
  | .pipe f => f.bits 0
  | .pipeH f => f.bits 1
  | .ld f => f.bits 0x60 f.data.code
  | .st f => f.bits 0x61 f.data.code
  | .lds f => f.bits 0x62 f.data.code
  | .sts f => f.bits 0x63 f.data.code
  | .ldf f => f.bits 0x64 f.data.code
  | .sld f => f.bits 0x65 f.data.code
  | .sst f => f.bits 0x66 f.data.code
  | .pref l f => f.bits 0x67 l.code
  | .cctlInv1 f => f.bits 0x68 0
  | .cctlWb f => f.bits 0x68 1
  | .cctlEvict f => f.bits 0x68 2
  | .fence f => f.bits 0x69 f.data.code
  | .fenceRg f => f.bits 0x6A f.data.code
  | .waitl f => f.bits 0x6B f.data.code
  | .atom op t f => f.bits 0x78 f.a.code (16 * op.code + t.code)
  | .atoms op t f => f.bits 0x79 f.a.code (16 * op.code + t.code)
  | .redm op t f => f.bits 0x7A f.a.code (16 * op.code + t.code)
  | .barinit f => f.bits 0x7B f.a.code f.obj.toNat
  | .bararr f => f.bits 0x7C f.a.code f.obj.toNat
  | .barwait f => f.bits 0x7D f.a.code f.obj.toNat
  | .bartest f => f.bits 0x7E f.a.code f.obj.toNat
  | .barkill f => f.bits 0x7F f.a.code f.obj.toNat
  | .netarr f => f.bits 0x80 f.a.code f.obj.toNat
  | .netwait f => f.bits 0x81 f.a.code f.obj.toNat
  | .qopen f => f.bits 0x88 f.a.code f.obj.toNat
  | .qclose f => f.bits 0x89 0x190 f.obj.toNat
  | .qcloseKill f => f.bits 0x89 0x191 f.obj.toNat
  | .enq f => f.bits 0x8A f.a.code f.obj.toNat
  | .deq f => f.bits 0x8B f.a.code f.obj.toNat
  | .enqt f => f.bits 0x8C f.a.code f.obj.toNat
  | .deqt f => f.bits 0x8D f.a.code f.obj.toNat
  | .qstat f => f.bits 0x8E f.a.code f.obj.toNat
  | .mxacq n f => f.bits 0x90 (n.val + 1)
  | .mxrel f => f.bits 0x91 (0)
  | .tclaim n f => f.bits 0x92 (n.val + 1)
  | .tfree f => f.bits 0x93 (0)
  | .tfill mid pl4 u f => f.bits 0x94 (512 * mid.toNat + 256 * pl4.toNat + u.toNat)
  | .mmq x f => f.bits 0x95 (x.bits)
  | .mmqx x f => f.bits 0x96 (x.bits)
  | .mxzero ab f => f.bits 0x97 (2 ^ 15 * ab.toNat)
  | .mxldz x f => f.bits 0x98 (x.bits)
  | .mxdrain x f => f.bits 0x99 (x.bits)
  | .mxsync f => f.bits 0x9A (0)
  | .scld f => f.bits 0x9B (0)
  | .phmma ab f => f.bits 0x9C (2 ^ 15 * ab.toNat)
  | .phfin x f => f.bits 0x9D (x.bits)
  | .cpyIn f => f.bits 0xA0 0
  | .cpyOut f => f.bits 0xA0 1
  | .cpyr op f => f.bits 0xA1 op.code
  | .cpytOm f => f.bits 0xA2 0
  | .cpytSp f => f.bits 0xA2 1
  | .rcfence f => f.bits 0xA3 0
  | .rcfenceAll f => f.bits 0xA3 1
  | .trap f => f.bits 0xBC 0 (f.imm.toNat)
  | .tret f => f.bits 0xBC 1 (f.imm.toNat)
  | .bkpt f => f.bits 0xBC 2 (f.imm.toNat)
  | .mark f => f.bits 0xBC 3 (f.imm.toNat)
  | .lnch f => f.bits 0xBD 0 (f.imm.toNat)
  | .budget f => f.bits 0xBD 1 (0)
  | .budgetSet f => f.bits 0xBD 1 (1)
  | .tlbiPage f => f.bits 0xBE 0 (0)
  | .tlbiRange f => f.bits 0xBE 0 (1)
  | .tlbiAll f => f.bits 0xBE 0 (2)
  | .pchk f => f.bits 0xBE 1 (f.imm.toNat)
  | .netcfg f => f.bits 0xBE 2 (f.imm.toNat)
  | _ => 0

/-- The word of an instruction. -/
def encode (i : Instr) : W64 := BitVec.ofNat 64 i.bits

/-! ### The decoder -/

/-- Minors of major 0x00 (R75). -/
def dec00 (w : W64) : Nat → Option Instr
  | 0 => vrPlain w .sadd
  | 1 => vrPlain w .ssub
  | 2 => vrPlain w .smul
  | 3 => vrPlain w .smulh
  | 4 => vrPlain w .smad
  | 5 => vrPlain w .sand
  | 6 => vrPlain w .sor
  | 7 => vrPlain w .sxor
  | 8 => vrPlain w .sandn
  | 9 => vrPlain w .sshl
  | 10 => vrPlain w .sshr
  | 11 => vrPlain w .ssra
  | 12 => vrPlain w .smin
  | 13 => vrPlain w .smax
  | 14 => vrPlain w .sminu
  | 15 => vrPlain w .smaxu
  | 16 => vrCode w Cond.ofCode fun x f => .scmp x f
  | 17 => vrPlain w .ssel
  | 18 => vrPlain w .smov
  | 19 => vrPlain w .sclz
  | 20 => vrPlain w .spopc
  | 21 => vrPlain w .vtos
  | _ => none

/-- Minors of major 0x03 (R75). -/
def dec03 (w : W64) : Nat → Option Instr
  | 0 => vrCode w SpReg.ofCode fun x f => .srd x f
  | 1 => vrCode w SpReg.ofCode fun x f => .swr x f
  | _ => none

/-- Minors of major 0x10 (R75). -/
def dec10 (w : W64) : Nat → Option Instr
  | 0 => vrPlain w .iadd
  | 1 => vrPlain w .isub
  | 2 => vrPlain w .imul
  | 3 => vrPlain w .imulh
  | 4 => vrPlain w .imulhu
  | 5 => vrPlain w .imad
  | 6 => vrPlain w .imadw
  | 7 => vrPlain w .iaddw
  | 8 => vrPlain w .isubw
  | 9 => vrPlain w .iabs
  | 10 => vrPlain w .ineg
  | 11 => vrPlain w .imin
  | 12 => vrPlain w .imax
  | 13 => vrPlain w .iadds
  | 14 => vrPlain w .isubs
  | 15 => vrCode w leaShOf fun x f => .lea x f
  | 16 => vrCode w Ty.ofCode fun x f => .cvti x f
  | _ => none

/-- Minors of major 0x11 (R75). -/
def dec11 (w : W64) : Nat → Option Instr
  | 0 => vrPlain w .and
  | 1 => vrPlain w .or
  | 2 => vrPlain w .xor
  | 3 => vrPlain w .andn
  | 4 => vrPlain w .shl
  | 5 => vrPlain w .shr
  | 6 => vrPlain w .sra
  | 7 => vrPlain w .rotl
  | 8 => vrPlain w .bfx
  | 9 => vrPlain w .bfi
  | 10 => vrPlain w .popc
  | 11 => vrPlain w .clz
  | 12 => vrPlain w .ctz
  | 13 => vrPlain w .brev
  | 14 => vrPlain w .bytep
  | 15 => vrCode w Cond.ofCode fun x f => .icmp x f
  | 16 => vrPlain w .sel
  | 17 => vrPlain w .mov
  | _ => none

/-- Minors of major 0x17 (R75). -/
def dec17 (w : W64) : Nat → Option Instr
  | 0 => vrPlain w .kand
  | 1 => vrPlain w .kor
  | 2 => vrPlain w .kxor
  | 3 => vrPlain w .kandn
  | 4 => vrPlain w .knot
  | 5 => vrPlain w .kmov
  | 6 => vrPlain w .kpopc
  | 7 => vrPlain w .kffs
  | _ => none

/-- Minors of major 0x30 (R75). -/
def dec30 (w : W64) : Nat → Option Instr
  | 0 => vrPlain w .fadd
  | 1 => vrPlain w .fsub
  | 2 => vrPlain w .fmul
  | 3 => vrPlain w .ffma
  | 4 => vrPlain w .fmin
  | 5 => vrPlain w .fmax
  | 6 => vrCode w Cond.ofCode fun x f => .fcmp x f
  | 7 => vrPlain w .fclass
  | 8 => vrPlain w .frint
  | 9 => vrPlain w .fscale
  | 10 => fcvtOf w
  | _ => none

/-- Minors of major 0x31 (R75). -/
def dec31 (w : W64) : Nat → Option Instr
  | 0 => vrPlain w .hadd2
  | 1 => vrPlain w .hmul2
  | 2 => vrPlain w .hfma2
  | 3 => vrPlain w .bfma2
  | 4 => vrPlain w .qdot4
  | _ => none

/-- Minors of major 0x50 (R75). -/
def dec50 (w : W64) : Nat → Option Instr
  | 0 => vrCode w ShW.ofCode fun x f => .shflIdx x f
  | 1 => vrCode w ShW.ofCode fun x f => .shflUp x f
  | 2 => vrCode w ShW.ofCode fun x f => .shflDn x f
  | 3 => vrCode w ShW.ofCode fun x f => .shflXor x f
  | 4 => vrCode w VoteMode.ofCode fun m f => match m with
    | .ballot => .voteBallot f | .any => .voteAny f | .all => .voteAll f | .eq => .voteEq f
  | 5 => vrCode w RedOp.ofCode fun x f => .redg x f
  | 6 => vrCode w scanOf fun m f => .scang m.1 m.2 f
  | 7 => vrPlain w .bcast
  | 8 => vrPlain w .match_
  | 9 => vrPlain w .cmpct
  | _ => none

/-- Minors of major 0x59 (R75). -/
def dec59 (w : W64) : Nat → Option Instr
  | 0 => vrPlain w .pjoin
  | 1 => vrPlain w .pend
  | 2 => vrPlain w .pbrk
  | 3 => vrPlain w .yvoid
  | 4 => vrPlain w .pstat
  | _ => none

/-- Minors of major 0xB0 (R75). -/
def decB0 (w : W64) : Nat → Option Instr
  | 0 => vrPlain w .phadd
  | 1 => vrPlain w .phsub
  | 2 => vrPlain w .phneg
  | 3 => vrPlain w .phmuli
  | 4 => vrCode w PhCond.ofCode fun x f => .phcmp x f
  | 5 => vrCode w PhRedMode.ofCode fun m f => match m with
    | .whole => .phred f | .acc => .phredAcc f | .fin => .phredEnd f
  | 6 => vrPlain w .phsin
  | 7 => vrPlain w .phcos
  | 8 => vrPlain w .phfrom
  | 9 => vrCode w Ty.ofCode fun x f => .phcvt x f
  | _ => none

/-- Minors of major 0xB8 (R75). -/
def decB8 (w : W64) : Nat → Option Instr
  | 0 => vrPlain w .sigm
  | 1 => vrPlain w .tanh
  | 2 => vrPlain w .exp2
  | 3 => vrPlain w .log2
  | 4 => vrPlain w .rcp
  | 5 => vrPlain w .rsq
  | 6 => vrPlain w .gatec
  | 7 => vrPlain w .gateh
  | 8 => vrPlain w .gatecComp
  | _ => none

/-- Minors of major 0x04 (R109). -/
def dec04 (w : W64) : Nat → Option Instr
  | 0 => fcPlain w .bra
  | 1 => fcPlain w .bz
  | 2 => fcPlain w .bnz
  | 3 => fcPlain w .bany
  | 4 => fcPlain w .ball
  | 5 => fcPlain w .bnone
  | 6 => fcPlain w .call
  | 7 => fcPlain w .ret
  | 8 => fcPlain w .brx
  | 9 => fcPlain w .exit
  | _ => none

/-- Minors of major 0x05 (R112, R113). -/
def dec05 (w : W64) : Nat → Option Instr
  | 0 => fcPlain w .reform
  | 1 => fcPlain w .nop
  | _ => none

/-- Format Y (R365). -/
def decY (w : W64) : Nat → Nat → Option Instr
  | 0xBC, 0 => fyPlain w .trap
  | 0xBC, 1 => fyPlain w .tret
  | 0xBC, 2 => fyPlain w .bkpt
  | 0xBC, 3 => fyPlain w .mark
  | 0xBD, 0 => fyPlain w .lnch
  | 0xBD, 1 => fySub w fun n f => match n with | 0 => some (.budget f) | 1 => some (.budgetSet f) | _ => none
  | 0xBE, 0 => fySub w fun n f => match n with | 0 => some (.tlbiPage f) | 1 => some (.tlbiRange f) | 2 => some (.tlbiAll f) | _ => none
  | 0xBE, 1 => fyPlain w .pchk
  | 0xBE, 2 => fyPlain w .netcfg
  | _, _ => none

/-- Format P (R62, R318): the operation of each copy major. -/
def decP (w : W64) : Nat → Nat → Option Instr
  | 0xA0, 0 => fpPlain w .cpyIn
  | 0xA0, 1 => fpPlain w .cpyOut
  | 0xA1, n => (CpyrOp.ofCode n).bind fun op => fpPlain w (.cpyr op)
  | 0xA2, 0 => fpPlain w .cpytOm
  | 0xA2, 1 => fpPlain w .cpytSp
  | 0xA3, 0 => fpPlain w .rcfence
  | 0xA3, 1 => fpPlain w .rcfenceAll
  | _, _ => none

/-- Format X (R296). -/
def decX (w : W64) (aux : Nat) : Nat → Option Instr
  | 0x90 => (natFin 4 aux).bind fun n => fxPlain w (.mxacq n)
  | 0x91 => fxZero w aux .mxrel
  | 0x92 => (natFin 16 aux).bind fun n => fxPlain w (.tclaim n)
  | 0x93 => fxZero w aux .tfree
  | 0x94 => if aux < 1024 && aux / 32 % 8 == 0 then
      fxPlain w (.tfill (aux / 512 == 1) (aux / 256 % 2 == 1) (BitVec.ofNat 5 aux)) else none
  | 0x95 => (AuxProd.ofBits aux).bind fun x => fxPlain w (.mmq x)
  | 0x96 => (AuxProd.ofBits aux).bind fun x => fxPlain w (.mmqx x)
  | 0x97 => if aux % 2 ^ 15 == 0 then fxPlain w (.mxzero (BitVec.ofNat 2 (aux / 2 ^ 15))) else none
  | 0x98 => (AuxTile.ofBits aux).bind fun x => fxPlain w (.mxldz x)
  | 0x99 => (AuxTile.ofBits aux).bind fun x => fxPlain w (.mxdrain x)
  | 0x9A => fxZero w aux .mxsync
  | 0x9B => fxZero w aux .scld
  | 0x9C => if aux % 2 ^ 15 == 0 then fxPlain w (.phmma (BitVec.ofNat 2 (aux / 2 ^ 15))) else none
  | 0x9D => (AuxTile.ofBits aux).bind fun x => fxPlain w (.phfin x)
  | _ => none

/-- Format M (R177). -/
def decM (w : W64) : Nat → Option Instr
  | 0x60 => fmPlain w .ld
  | 0x61 => fmPlain w .st
  | 0x62 => fmPlain w .lds
  | 0x63 => fmPlain w .sts
  | 0x64 => fmPlain w .ldf
  | 0x65 => fmPlain w .sld
  | 0x66 => fmPlain w .sst
  | 0x67 => fmCode w PrefLvl.ofCode fun l f => .pref l f
  | 0x68 => fmCode w CctlOp.ofCode fun m f => match m with
    | .inv1 => .cctlInv1 f | .wb => .cctlWb f | .evict => .cctlEvict f
  | 0x69 => fmPlain w .fence
  | 0x6A => fmPlain w .fenceRg
  | 0x6B => fmPlain w .waitl
  | _ => none

/-- Format Q (R235, R243, R247, R258); bits [4:0] are 0. -/
def decQ (w : W64) : Nat → Option Instr
  | 0x78 => fqAtom w fun op t f => .atom op t f
  | 0x79 => fqAtom w fun op t f => .atoms op t f
  | 0x7A => fqAtom w fun op t f => .redm op t f
  | 0x7B => fqPlain w .barinit
  | 0x7C => fqPlain w .bararr
  | 0x7D => fqPlain w .barwait
  | 0x7E => fqPlain w .bartest
  | 0x7F => fqPlain w .barkill
  | 0x80 => fqPlain w .netarr
  | 0x81 => fqPlain w .netwait
  | 0x88 => fqPlain w .qopen
  | 0x89 => fqClose w
  | 0x8A => fqPlain w .enq
  | 0x8B => fqPlain w .deq
  | 0x8C => fqPlain w .enqt
  | 0x8D => fqPlain w .deqt
  | 0x8E => fqPlain w .qstat
  | _ => none

/-- The fields of the word as its major lays them out (R75); none for an unassigned major or minor, or a field whose code
means nothing. -/
def decodeRaw (w : W64) : Option Instr :=
  let major := fldN w 56 8
  let vmin := fldN w 10 5
  if major == 0x01 then viPlain w .smovi
  else if major == 0x02 then viPlain w .smovh
  else if major == 0x04 then dec04 w (fldN w 32 4)
  else if major == 0x05 then dec05 w (fldN w 32 4)
  else if major == 0x12 then viPlain w .movi
  else if major == 0x13 then viPlain w .iaddi
  else if major == 0x14 then viPlain w .andi
  else if major == 0x15 then viPlain w .ori
  else if major == 0x16 then viPlain w .xori
  else if major == 0x58 then pipeOf w
  else if major == 0x00 then dec00 w vmin
  else if major == 0x03 then dec03 w vmin
  else if major == 0x10 then dec10 w vmin
  else if major == 0x11 then dec11 w vmin
  else if major == 0x17 then dec17 w vmin
  else if major == 0x30 then dec30 w vmin
  else if major == 0x31 then dec31 w vmin
  else if major == 0x50 then dec50 w vmin
  else if major == 0x59 then dec59 w vmin
  else if major == 0xB0 then decB0 w vmin
  else if major == 0xB8 then decB8 w vmin
  else if major == 0xC4 then (if vmin == 0 then vrPlain w .idivs else none)
  else if major == 0xC5 then (if vmin == 0 then vrPlain w .idivu else none)
  else if 0x60 ≤ major && major < 0x70 then decM w major
  else if 0x78 ≤ major && major < 0x90 then (if fldN w 0 5 == 0 then decQ w major else none)
  else if 0x90 ≤ major && major < 0xA0 then decX w (fldN w 0 17) major
  else if 0xA0 ≤ major && major < 0xB0 then decP w major (fldN w 46 3)
  else if 0xBC ≤ major && major < 0xC0 then decY w major (fldN w 20 4)
  else none

/-- What a word in an instruction position is (R74, R77). -/
inductive Decoded where
  /-- an instruction all of whose fields are legal -/
  | instr (i : Instr)
  /-- every other non-instruction encoding: ILL -/
  | ill
  /-- a major in 0xC0 to 0xDF that is no announced word: RSVD -/
  | rsvd
  /-- tag 0b111: FRAME at the clause entry -/
  | tag
deriving DecidableEq, Repr

/-- Majors marked "new in CK3" (R75, R79). -/
def newInCk3 (major : Nat) : Bool :=
  major == 0x58 || major == 0x59 || (0x88 ≤ major && major ≤ 0x8E) || major == 0x9C || major == 0x9D || major == 0xB0
    || major == 0xB8

/-- The decoder. A kernel with magic 0xC2 sees RSVD at a major new in CK3 before this is asked (R79). -/
def decode (w : W64) : Decoded :=
  if fldN w 61 3 == 7 then .tag
  else if 0xC0 ≤ fldN w 56 8 then
    match decodeRaw w with
    | some i => if i.wf then .instr i else .rsvd
    | none => .rsvd
  else
    match decodeRaw w with
    | some i => if i.wf then .instr i else .ill
    | none => .ill

/-- The instruction the decoder reads from a word, if it is one. -/
def Decoded.instr? : Decoded → Option Instr
  | .instr i => some i
  | _ => none

/-- The instruction the decoder reads from `w`, whose bit 0 is the least significant bit of the word. -/
def decodeTableWord (_nbits w : Nat) : Option Instr := (decode (BitVec.ofNat 64 w)).instr?

end Sys2Proof
end

