-- ==== Sys2Proof/Config.lean ====
section
/-!
DEFINITION. What the spec leaves open and one implementation or one run fixes: free values without a body, so no proof
can see what they are (log entries 1, 2, 5).
-/
namespace Sys2Proof

/-- The step the outside world or a free order picks when the agenda is empty, by the model's own step counter
(log entry 1). -/
opaque Config.schedule : Nat → List Instr

/-- Ticks of GTB that pass in one step (R21; log entry 2). -/
opaque Config.gtbAdvance : Nat → Nat

/-- What only the timing of the memory system decides in a sample record: replays, cycles queued at L1, at L2 or RDC, at
HBM (R433; log entry 2). -/
opaque Config.sampled : Nat → Nat → Nat

/-- The verdict of the XMSS check of one image: the public key, the image's bytes, its signature (R443; log entry 5). -/
opaque Config.xmssValid : List Byte → List Byte → List Byte → Bool

/-- The index at the head of a signature has its most significant byte first (R443 does not say; log entry 5). -/
opaque Config.indexBig : Bool

/-- SHAKE256 of the measurement record, 32 bytes (R443, R444; log entry 5). -/
opaque Config.shake256 : List Byte → List Byte

/-- Whether a plane byte of a CPYT's element, by step and number, is left to a later step than this one (R288; log entry 34). -/
opaque Config.planeLater : Nat → Nat → Bool

/-- The reply address of the event that a copy command's failed translation posts (R403; log entry 2). -/
opaque Config.replyAddr : Nat → Nat

/-- The barrier objects a kernel declares, as expected arrivals less 1 and bytes, by context, launch, and the address and the
header word of the kernel (R30): the spec gives the code object no place for them (log entry 6). -/
opaque Config.barriers : Nat → Nat → Nat → Nat → List (Nat × Nat)

/-- Ticks beyond 10 µs to the start of a gang, by its launch (R397; log entry 2). -/
opaque Config.gangDelay : Nat → Nat

/-- The fields of an event that R403 leaves open, by the step that posts it: 0 fault code, 1 address, 2 reply address (log
entry 2). -/
opaque Config.eventOpen : Nat → Nat → Nat

/-- Uncore energy of one byte in pJ, of L2, RDC, HBM and links in turn (R426; log entry 5). -/
opaque Config.uncoreCost : Nat → Nat

/-- Whether a context's share of a quad's energy is rounded up to a whole nJ, by step, quad and context (R426; log entry 5). -/
opaque Config.roundUp : Nat → Nat → Nat → Bool

/-- The CLK value at which a load's write-back is expected, by its access (R431; log entry 2). -/
opaque Config.dueClk : Nat → Nat

/-- The XMSS signature of a quote (R444; log entry 5). -/
opaque Config.xmssSign : List Byte → List Byte

end Sys2Proof
end

