-- ==== Sys2Proof/Machine/SMap.lean ====
section
/-!
DEFINITION. Sparse data by key in one canonical form: keys strictly rising, no entry equal to the default that an
unlisted key reads as. Memory is such a list of (address, byte) cells; an unlisted byte reads 0x00 (log entry 3).
-/
namespace Sys2Proof.Machine

/-- The value at a key. -/
def SMap.get {α : Type} (d : α) : List (Nat × α) → Nat → α
  | [], _ => d
  | (k, v) :: r, i => if k = i then v else SMap.get d r i

/-- An entry put before the first greater key. -/
def SMap.ins {α : Type} : List (Nat × α) → Nat → α → List (Nat × α)
  | [], i, v => [(i, v)]
  | (k, w) :: r, i, v => if i < k then (i, v) :: (k, w) :: r else (k, w) :: SMap.ins r i v

/-- The map without a key. -/
def SMap.drop {α : Type} : List (Nat × α) → Nat → List (Nat × α)
  | [], _ => []
  | (k, w) :: r, i => if k = i then SMap.drop r i else (k, w) :: SMap.drop r i

/-- The map with the value at a key replaced; the default removes the entry. -/
def SMap.set {α : Type} [DecidableEq α] (d : α) (m : List (Nat × α)) (i : Nat) (v : α) : List (Nat × α) :=
  if v = d then SMap.drop m i else SMap.ins (SMap.drop m i) i v

/-- Every listed value changed by a function, each key at the value it reads as. -/
def SMap.update {α : Type} [DecidableEq α] (d : α) (m : List (Nat × α)) (f : α → α) : List (Nat × α) :=
  (m.map (·.1)).foldl (fun m k => SMap.set d m k (f (SMap.get d m k))) m

/-- Every key above a bound, rising, and no default listed. -/
def SMap.wfFrom {α : Type} [DecidableEq α] (d : α) (lo : Nat) : List (Nat × α) → Bool
  | [] => true
  | (k, v) :: r => decide (lo ≤ k) && !decide (v = d) && SMap.wfFrom d (k + 1) r

/-- The canonical form. -/
def SMap.wf {α : Type} [DecidableEq α] (d : α) (m : List (Nat × α)) : Bool := SMap.wfFrom d 0 m

/-- Values at keys `k`, `k + 1`, …, one for each element of the list. -/
def SMap.setMany {α : Type} [DecidableEq α] (d : α) : List (Nat × α) → Nat → List α → List (Nat × α)
  | m, _, [] => m
  | m, k, v :: vs => SMap.setMany d (SMap.set d m k v) (k + 1) vs

/-- The values at `n` keys from `k`. -/
def SMap.getMany {α : Type} (d : α) (m : List (Nat × α)) (k : Nat) : Nat → List α
  | 0 => []
  | n + 1 => SMap.get d m k :: SMap.getMany d m (k + 1) n

/-- Byte-addressed memory. -/
abbrev Memory := List Host.Cell

/-- A byte that nothing has written (log entry 3). -/
def Memory.blank : Byte := 0

def Memory.read (m : Memory) (a : Nat) : Byte := SMap.get Memory.blank m a
def Memory.write (m : Memory) (a : Nat) (b : Byte) : Memory := SMap.set Memory.blank m a b
def Memory.readMany (m : Memory) (a n : Nat) : List Byte := SMap.getMany Memory.blank m a n
def Memory.writeMany (m : Memory) (a : Nat) (bs : List Byte) : Memory := SMap.setMany Memory.blank m a bs

/-- The canonical form of a memory. -/
def Memory.wf (m : Memory) : Bool := SMap.wf Memory.blank m

/-- Little-endian value of a list of bytes (R26, R47). -/
def leNat : List Byte → Nat
  | [] => 0
  | b :: r => b.toNat + 256 * leNat r

/-- The `n` low bytes of a value, least significant first. -/
def leBytes : Nat → Nat → List Byte
  | 0, _ => []
  | n + 1, v => BitVec.ofNat 8 v :: leBytes n (v / 256)

end Sys2Proof.Machine
end

