-- ==== Sys2Proof/Machine/State.lean ====
section
/-!
DEFINITION. The state of the machine: one M9 package of 4 dies, 48 cores a die and 4 partitions a core, its host, the
memory it reaches in other packages, and what the front end holds. Registers and memories are sparse maps; the reset
state lists nothing. State is plain data.
-/
namespace Sys2Proof.Machine

/-! ### Faults and refusals of the model -/

/-- Why a step of the model itself stops. The M9's own faults are next states (`Group.trap`). -/
inductive Fault where
  /-- an instruction's meaning asked for with no group selected to issue: no state of the M9 corresponds; safe -/
  | noIssuer
deriving DecidableEq, Repr

/-- Why the model gives an instruction no meaning. -/
inductive Refusal where
  /-- an instruction the model gives no meaning, raised by the dispatch; safe -/
  | notModelled (mnemonic : String)
deriving DecidableEq, Repr

/-! ### Faults of the M9 (R375) -/

inductive FaultCode where
  | ill | rsvd | frame | role | empty | void | pipestate | align | xlate | prot | fmtattr | barclob | barrun | qcbbad
  | qclosed | slot | mxnores | qnonuni | shape | copylost | poison | margin | swtrap | bkpt | priv | budget | scope
  | atomsz
deriving DecidableEq, Repr

/-- A fault raised and not yet delivered: code, address, lanes, word, info, index and header PC (R377, R379). -/
structure FaultRec where
  code  : FaultCode
  addr  : W64
  lanes : W32
  word  : W64
  info  : W64
  idx   : Nat
  hdr   : W64
deriving DecidableEq, Repr

/-! ### Lanes, windows, presence -/

/-- Poison of a value that an uncorrectable error reached (R378, R424). -/
inductive Bad where
  | ok | poison | margin
deriving DecidableEq, Repr

/-- One lane of one v register: value, EMPTY, poison (R124, R129, R378). -/
structure Lane where
  val   : W32
  empty : Bool
  bad   : Bad
deriving DecidableEq, Repr

/-- A lane at the start of a group: 0 and FULL (R394). -/
def Lane.zero : Lane := ⟨0, false, .ok⟩

/-- State of one lane of one window slot (R220). -/
inductive SlotSt where
  | empty | full | void
deriving DecidableEq, Repr

/-- One lane of one window slot; `owed`: a long-latency write is pending (R220, R221). -/
structure WSlot where
  val  : W32
  st   : SlotSt
  owed : Bool
  bad  : Bad
deriving DecidableEq, Repr

def WSlot.zero : WSlot := ⟨0, .empty, false, .ok⟩

/-- Roles in the numbering of ROLE (R103). -/
inductive Role where
  | copy | matrix | vector
deriving DecidableEq, Repr

/-! ### Groups -/

/-- The accesses that precede those of a group or an access in program order: the group itself, with no thread named; after
REFORM, an earlier group with the threads that came from it (R84). -/
abbrev Preds := List (Nat × List Nat)

/-- Why a group waits (R120, R190, R264). `stall`: an in-clause stall; `barrier`: BARWAIT, NETWAIT, NETARR, PJOIN,
MXSYNC, TLBI; `window`: a window read; `full`, `empty`: sleeping on a queue's record; `waitl`: asleep on a line, until a
cycle; `passed`: past its WAITL as its context left, it issues from there once it has its place again (R380). -/
inductive Sleep where
  | awake | stall | entry | barrier | window
  | full (qcb : Nat) | empty (qcb : Nat) | woken (qcb : Nat) (full : Bool)
  | waitl (line : Option Nat) (till : Nat) | rewoken | passed
deriving DecidableEq, Repr

/-- The clause a group has fetched: its header and its words, as fetched (R50, R376, R448). -/
structure Clause where
  head  : W64
  words : List W64
deriving DecidableEq, Repr

/-- A gate write-back: destination register code and lane values, the lower half of a pair first (R356, R361). -/
structure GateWb where
  n    : Nat
  /-- major opcode of the producer (R431) -/
  major : Nat
  dst  : Opnd
  vals : List (Nat × W32)
  hi   : List (Nat × W32)
  due  : Nat
deriving DecidableEq, Repr

/-- A write of a v register under a partial mask whose lanes come late: the register, its lanes still to come, the value that each of its
lanes had before it (R127). -/
structure PartWrite where
  reg   : Nat
  lanes : List Nat
  old   : List (Nat × W32)
deriving DecidableEq, Repr

/-- What makes a group a pipe iteration (R214 to R226): pipe number on its partition, iteration number, flags. -/
structure IterRec where
  pipe      : Nat
  k         : Nat
  cancelled : Bool
deriving DecidableEq, Repr

/-- A group; a legacy half and a pipe iteration are groups of their own (R205, R216). -/
structure Group where
  gid     : Nat
  die     : Nat
  core    : Nat
  part    : Nat
  slot    : Nat
  /-- legacy half 0 or 1 (R204) -/
  half    : Option Nat
  ctx     : Nat
  launch  : Nat
  team    : Nat
  grp     : Nat
  role    : Role
  tids    : List Nat
  active  : W32
  s       : List (Nat × W64)
  v       : List (Nat × Lane)
  k       : List (Nat × W32)
  x       : List (Nat × Byte)
  hdr     : W64
  idx     : Nat
  clause  : Option Clause
  entered : Bool
  voidm   : W32
  bkpass  : W64
  nbv     : Nat
  trapbase : W64
  trapvec : W64
  sys     : Bool
  trap    : Option FaultRec
  /-- faults of its drains that came while it held another (R378) -/
  late    : List FaultRec
  /-- the frame of the trap is written (R377 step 2) -/
  framed  : Bool
  stopped : Bool
  pass    : Bool
  sleep   : Sleep
  iter    : Option IterRec
  opened  : Option Nat
  gates   : List GateWb
  preds   : Preds
  /-- its last copy command, of majors 0xA0 to 0xA2 (R94) -/
  lastCmd : Option Nat
  /-- what a TLBI that has removed its entries still waits for: numbers of accesses, commands and walks (R373) -/
  waitFor : Option (List Nat)
  inSet   : Bool
  age     : Nat
  ready   : Option Nat
  nHold   : Option Nat
  stall   : Nat
  fill    : Nat
  fast    : List Nat
  /-- the model's count of changes and the cycle at which its instruction was last found to wait -/
  tried   : Option (Nat × Nat)
  /-- a legacy half that holds its slot's turn (R207) -/
  holds   : Bool
  /-- an SLD that missed L1 at the end of its clause: its header, index and word (R181) -/
  sld     : Option (W64 × Nat × W64)
  /-- its writes of v registers under partial masks that are under way (R127) -/
  lateWr : List PartWrite
  retired : Bool
  started : Bool
deriving DecidableEq, Repr

/-! ### Pipes and glades -/

/-- One started iteration of a pipe: not yet retired, retired by PEND, or retired by PBRK or cancellation (R232). -/
inductive IterSt where
  | running | pended | broken
deriving DecidableEq, Repr

structure IterInfo where
  k         : Nat
  st        : IterSt
  cancelled : Bool
  committed : Bool
  gid       : Nat
  /-- accesses outstanding when it retired (R217) -/
  owed      : List Nat
deriving DecidableEq, Repr

/-- An open pipe (R213). -/
structure Pipe where
  num    : Nat
  opener : Nat
  ctx    : Nat
  team   : Nat
  grp    : Nat
  stride : Nat
  dist   : Nat
  live   : Nat
  held   : Bool
  n      : Nat
  body   : W64
  lanes  : W32
  brk    : Option Nat
  launched : Nat
  capS   : List (Nat × W64)
  capK   : List (Nat × W32)
  capV   : List (Nat × Lane)
  window : List (Nat × WSlot)
  /-- the slot PIPE dedicated, and those its iterations vacated (R213, R214) -/
  slot   : Nat
  spare  : List Nat
  iters  : List IterInfo
  /-- accesses of the opener outstanding at PIPE (R217) -/
  owed   : List Nat
deriving DecidableEq, Repr

/-- A thread filed in a glade (R114): TID, its lane's v registers and k bits, its old group's shared state. -/
structure Filed where
  tid  : Nat
  v    : List (Nat × Lane)
  k    : List Nat
  s    : List (Nat × W64)
  nbv  : Nat
  trapbase : W64
  trapvec : W64
  sys  : Bool
  preds : Preds
deriving DecidableEq, Repr

structure Glade where
  id    : Nat
  ctx   : Nat
  launch : Nat
  team  : Nat
  role  : Role
  pc    : W64
  since : Nat
  filed : List Filed
deriving DecidableEq, Repr

/-- A drawn group that waits for a vacant slot of its team (R116). -/
structure Draw where
  id    : Nat
  glade : Glade
deriving DecidableEq, Repr

/-- A pending-buffer entry held while a partition is frozen: what a resume applies (R427). -/
inductive HeldWb where
  | load (id : Nat)
  | gate (gid n : Nat)
  | deq (move : Nat)
deriving DecidableEq, Repr

/-- A sampled memory instruction not yet complete (R433): its group and position, then what its record holds. -/
structure Sample where
  gid    : Nat
  seq    : Nat
  hdr    : W64
  idx    : Nat
  mask   : W32
  major  : Nat
  lines  : Nat
  sectors : Nat
  passes : Nat
  gtb0   : Nat
  clk0   : Nat
  last   : Nat
deriving DecidableEq, Repr

/-- A resident slot that a group of a team vacated: its half in a legacy kernel, the team, the team-relative index, and whether
REFORM vacated it, which holds it for the team's draws (R111, R116, R209). -/
structure Vacancy where
  slot : Nat
  half : Option Nat
  team : Nat
  grp  : Nat
  held : Bool
  /-- of a half, the values it leaves in the main file (R126) -/
  v    : List (Nat × Lane)
deriving DecidableEq, Repr

/-- An issue-scheduler partition, one in each quarter of a core (R11). -/
structure Partn where
  vacant : List Vacancy
  glades : List Glade
  draws  : List Draw
  pipes  : List Pipe
  age    : W32
  /-- AGE before its last write, and the cycle of that write: it takes effect from the next (R117) -/
  ageOld : W32
  ageAt  : Nat
  lastIssue : Option Nat
  busy   : Nat
  gateBusy : Nat
  dbgctl : W64
  stop   : Bool
  dumped : Bool
  cause  : Nat
  bkslot : Nat
  stopClk : Nat
  stopGtb : Nat
  /-- the stop it belongs to: the step that froze it (R428) -/
  stopNo  : Nat
  pendingBuf : List HeldWb
  dumpbase : W64
  rfUnif : W32
  rfBd8  : W32
  rfBd16 : W32
  rfRaw  : W32
  rfReenc : W32
  rfOutws : W32
  sampcfg : W64
  sampled : Nat
  samples : List Sample
  deps   : List (Nat × Nat)
  /-- network generations as this partition sees them: key and GEN (R248) -/
  seen   : List (NetKey × Nat)
deriving DecidableEq, Repr

/-- A partition at reset: AGE 256, PERIOD 4,096 (R103, R433); the rest 0. -/
def Partn.reset : Partn :=
  { vacant := [], glades := [], draws := [], pipes := [], age := 256, ageOld := 256, ageAt := 0, lastIssue := none, busy := 0, gateBusy := 0,
    dbgctl := 0, stop := false, dumped := false, cause := 0, bkslot := 0, stopClk := 0, stopGtb := 0, stopNo := 0, pendingBuf := [],
    dumpbase := 0, rfUnif := 0, rfBd8 := 0, rfBd16 := 0, rfRaw := 0, rfReenc := 0, rfOutws := 0,
    sampcfg := 4096 * 256, sampled := 0, samples := [], deps := [], seen := [] }

/-! ### Teams -/

/-- A team resident on a core (R17, R394). -/
structure Team where
  id     : Nat
  launch : Nat
  ctx    : Nat
  die    : Nat
  core   : Nat
  index  : Nat
  res    : Nat
  kaddr  : W64
  kword  : W64
  secLo  : Nat
  secHi  : Nat
  spad   : Memory
  badSpad : List (Nat × Bad)
  spadLen : Nat
  bars   : List Nat
  wide   : Bool
  roles  : List Role
  trapbase : W64
  ended  : Bool
deriving DecidableEq, Repr

/-! ### Accesses of the ordering machine -/

/-- The atomic word an access applies (R237). -/
structure Rmw where
  op : AtomOp
  ty : Ty
  x  : Nat
  sw : Nat
deriving DecidableEq, Repr

/-- What an access or an order point of a group is (R84, R87). `join`: the start of an iteration or the return of PJOIN,
an acquire of the listed accesses at `.core` (R217). `counted`: the return of a BARWAIT, which sees the chunks counted into its object:
commands and chunks still to land, and the writes that landed ones became (R99). -/
inductive AccKind where
  | load | store | rmw (r : Rmw)
  | fence (sc : Scope) | fenceRg (sc : Scope) (base len : Nat)
  | join (ids : List Nat)
  | counted (chunks : List (Nat × Nat)) (ids : List Nat)
deriving DecidableEq, Repr

/-- Where an access goes: a physical address of global memory, or an offset into a team's scratchpad (R164). -/
inductive Place where
  | glob (pa : Nat)
  | spad (team off : Nat)
deriving DecidableEq, Repr

/-- How far an access has come (R85). -/
inductive Stage where
  | held | issued | inCb | published | sent | serialized | done
deriving DecidableEq, Repr

/-- One byte an access writes: offset within it, value, poison. -/
structure WByte where
  off : Nat
  val : Byte
  bad : Bad
deriving DecidableEq, Repr

/-- The register lane a load fills: operand, lane, byte position of the access within the register's value, type. -/
structure LDst where
  o    : Opnd
  lane : Nat
  ty   : Ty
  fmt  : Option (Nat × Nat)
deriving DecidableEq, Repr

/-- Version of a line where a copy stands: its logical clock and the number of the group that last advanced it, plus 1; 0 is
no group (R167, R434). -/
abbrev LineVer := Nat × Nat

/-- An access in flight (R84, R85). `cmd`: the engine that performs it; `cond`: the old value a conditional write-through
carries (R97); `saved`: the view's bytes and indices before publishing (R97); `seq`: the instruction it belongs to. -/
structure Acc where
  id     : Nat
  /-- major opcode of the instruction (R431) -/
  major  : Nat
  gid    : Option Nat
  preds  : Preds
  /-- the threads of the lanes that perform it -/
  tids   : List Nat
  seq    : Nat
  ctx    : Nat
  die    : Nat
  core   : Nat
  part   : Nat
  slot   : Nat
  kind   : AccKind
  place  : Place
  va     : Nat
  /-- virtual addresses of the lanes' accesses, which a store gathers in one line (R182) -/
  vas    : List Nat
  len    : Nat
  bytes  : List WByte
  acq    : Bool
  rel    : Bool
  scope  : Scope
  stage  : Stage
  stamp  : List Nat
  aq     : List Nat
  cidx   : Nat
  /-- the line's clock and writer once it is serialized (R167, R434) -/
  ver    : LineVer
  cond   : Option (List Byte)
  saved  : List (Nat × Byte × Nat × Bad)
  report : Bool
  read   : Bool
  got    : List (Byte × Bad)
  /-- a load that missed L1 (R120) -/
  miss   : Bool
  dst    : Option LDst
  fin    : Bool
  /-- it came out of a hold buffer (R226) -/
  kept   : Bool
  cmd    : Option Nat
deriving DecidableEq, Repr

/-! ### Cores -/

/-- Tag of an operand slot (R293): format code, PL4, MID, filled. -/
structure SlotTag where
  fmt    : Nat
  pl4    : Bool
  mid    : Bool
  filled : Bool
deriving DecidableEq, Repr

/-- What a context holds on a core in its frames (R12, R289 to R293, R380). -/
structure Frame where
  ctx    : Nat
  first  : Nat
  wide   : Bool
  owner  : List (Nat × Option Nat)
  tags   : List (Nat × SlotTag)
  slots  : List (Nat × Byte)
  badSlot : List (Nat × Bad)
  arrays : List (Option Nat)
  tiles  : List (Nat × W32)
  badTile : List (Nat × Bad)
deriving DecidableEq, Repr

/-- A superblock of the L2 or the RDC: four adjacent lines under one tag, with a valid and a dirty bit for each (R167). -/
structure SBlock where
  tag   : Nat
  valid : BitVec 4
  dirty : BitVec 4
deriving DecidableEq, Repr

/-- A cached translation (R173): context, first virtual address, page size in bytes, leaf. -/
structure TlbEntry where
  ctx  : Nat
  va   : Nat
  size : Nat
  leaf : W64
deriving DecidableEq, Repr

/-- An L1 line: physical line number, its valid sectors of 32 B (R11, R185), its bytes, poison, its version (R83, R434). -/
structure L1Line where
  line : Nat
  sectors : BitVec 4
  data : List Byte
  bad  : List (Nat × Bad)
  ver  : LineVer
deriving DecidableEq, Repr

/-- A word of a context's code cache on a core (R448). -/
structure CodeWord where
  ctx  : Nat
  va   : Nat
  word : W64
deriving DecidableEq, Repr

/-- A shape record held in the record cache (R330): context, address, the 64 bytes. -/
structure RecEntry where
  ctx  : Nat
  addr : Nat
  data : List Byte
deriving DecidableEq, Repr

/-- A core (R11). -/
structure Core where
  frames  : List Frame
  running : Option Nat
  l1      : List L1Line
  tlb     : List TlbEntry
  code    : List CodeWord
  recs    : List RecEntry
  /-- for each array, the last cycle that an operation on it took (R310) -/
  arrAt   : List Nat
deriving DecidableEq, Repr

def Core.reset : Core := { frames := [], running := none, l1 := [], tlb := [], code := [], recs := [], arrAt := [0, 0, 0, 0] }

/-! ### Dies and quads -/

/-- A view of the package's memory: values, coherence indices, poison (R83). -/
structure View where
  mem : Memory
  idx : List (Nat × Nat)
  bad : List (Nat × Bad)
deriving DecidableEq, Repr

def View.blank : View := ⟨[], [], []⟩

/-- A page walk under way, or one that failed and has yet to answer (R173): `asks`: the groups and commands whose misses it serves;
`limit`: HOSTLIM when it started, none while it queues (R447). -/
structure Walk where
  id   : Nat
  ctx  : Nat
  va   : Nat
  die  : Nat
  asks : List Nat
  limit : Option W64
  failed : Bool
  dead : Bool
deriving DecidableEq, Repr

structure Die where
  view   : View
  /-- versions of the lines of the view (R434), and the superblocks present in the L2 and the RDC (R167) -/
  vers   : List (Nat × LineVer)
  l2     : List SBlock
  rdc    : List SBlock
  vc     : List Nat
  tlb    : List TlbEntry
  walks  : List Walk
  nbcfg  : W64
  nvt    : List (Nat × W64)
  qpart  : W64
  fe     : List Bool
  /-- the halt of its front end has been acted on (R404) -/
  feTold : Bool
  rebal  : W64
  lastStep : Nat
  uvcfg  : W64
  uvMargins : Nat
  /-- GTB of the correctable errors that the rate still counts (R423) -/
  uvTimes : List Nat
  uvSafe : Nat
  uvOff  : Nat
  uvPause : Nat
  uvNext : Nat
  uvRestore : Nat
  errs   : Nat
  memsplit : W64
  trcctl : W64
  trcDrops : Nat
  trcDep : Nat
  trcLog : Nat
  trcbase : Nat
  trcWait : List (List Byte)
  trcRecs : List (Nat × Nat)
  /-- the record ring, and the dependence ring, has come to its end once (R435, R436) -/
  trcLogFull : Bool
  trcDepFull : Bool
deriving DecidableEq, Repr

/-- VOL of partition p at reset is CORE mod 4 (R249). -/
def nvtReset (i : Nat) : W64 := BitVec.ofNat 64 ((List.range 16).foldl (fun a j => a + (((16 * i + j) / 4) % 4) * 16 ^ j) 0)

def Die.reset : Die :=
  { view := View.blank, vers := [], l2 := [], rdc := [], vc := [0, 0, 0, 0], tlb := [], walks := [],
    nbcfg := 64 * 1024 + 3, nvt := (List.range 12).map fun i => (i, nvtReset i), qpart := 0, fe := [false, false, false, false], feTold := false,
    rebal := 1000 * 256 + 4 * 16 + 4, lastStep := 0,
    uvcfg := BitVec.ofNat 64 (100 * 2 ^ 48 + 4 * 2 ^ 40 + 150 * 2 ^ 24 + 10 * 2 ^ 16),
    uvMargins := 0, uvTimes := [], uvSafe := 0, uvOff := 0, uvPause := 0, uvNext := 0, uvRestore := 0, errs := 0,
    memsplit := 16, trcctl := 0, trcDrops := 0, trcDep := 0, trcLog := 0, trcbase := 0, trcWait := [],
    trcRecs := [], trcLogFull := false, trcDepFull := false }

/-- A request waiting at an umpire (R416, R417): its owner, its size, its class, the cycle it came. -/
structure UReq where
  owner : Nat
  kind  : Nat
  cu    : Nat
  cls   : Nat
  since : Nat
  ctx   : Nat
deriving DecidableEq, Repr

structure Quad where
  clk    : Nat
  umpcfg : W64
  bal    : Int
  reqs   : List UReq
  /-- grants not yet used: owner, kind, cycle -/
  granted : List (Nat × Nat × Nat)
  step   : Int
  run    : Nat
  /-- CU granted to each context since ENERGY was last updated (R426) -/
  spent  : List (Nat × Nat)
deriving DecidableEq, Repr

/-- UMPCFG at reset: RATE 64, CAP 256, AGELIM 512 (R418); the balance is held in 1/256 CU. -/
def Quad.reset : Quad :=
  { clk := 0, umpcfg := BitVec.ofNat 64 (64 * 2 ^ 32 + 256 * 2 ^ 16 + 512), bal := 256 * 256, reqs := [], granted := [],
    step := 0, run := 0, spent := [] }

/-- A completed generation being released: its number, GTB of completion, and the volley configuration of each die then
(R248, R249). -/
structure Release where
  gen : Nat
  gtb : Nat
  cfg : List (Nat × W64 × List (Nat × W64))
deriving DecidableEq, Repr

/-- A network barrier of one instance (R246 to R248). `arrived`: groups and quads that arrived in the generation, oldest
first. -/
structure NetBar where
  key  : NetKey
  launch : Option Nat
  virt : Nat
  gen  : Nat
  arr  : Nat
  exp  : Nat
  arrived : List (Nat × Nat)
  rel  : List Release
deriving DecidableEq, Repr

/-! ### Engines -/

/-- Phase 2 of an ENQ, DEQ or LNCH (R261, R262, R370). -/
inductive MoveKind where
  | enq | deq | lnch
deriving DecidableEq, Repr

structure QMove where
  id    : Nat
  kind  : MoveKind
  gid   : Nat
  preds : Preds
  seq   : Nat
  ctx   : Nat
  die   : Nat
  core  : Nat
  team  : Nat
  qcb   : Nat
  n     : Nat
  cap   : Nat
  esz   : Nat
  /-- the slot's virtual address and the physical address of each of its 64 B pieces -/
  va    : Nat
  pas   : List Nat
  scope : Scope
  data  : List (Byte × Bad)
  /-- first register and lanes of a dequeue's element -/
  dst   : Nat
  width : Nat
  /-- physical and virtual address of a launch packet -/
  src   : Nat
  srcVa : Nat
  /-- major opcode of its instruction (R431) -/
  major : Nat
  /-- pieces of the element that are written -/
  moved  : Nat
  /-- the element is written, and its writes may still be on their way to the scope; a dequeue's is read, and held in a frozen
  partition (R427) -/
  landed : Bool
  /-- the access that stands for a dequeue's acquire -/
  acc   : Nat
  /-- the front end enqueues it, or dequeues it to launch it (R272, R403) -/
  fe    : Bool
  /-- cause that cuts the launch of a packet short while its element is still to be read (R402, R404); 0 none -/
  cut   : Nat
deriving DecidableEq, Repr

/-- The home's record of one queue (R253, R263, R264): unread dequeue reservations, landed enqueue reservations. -/
structure QHome where
  qcb    : Nat
  unread : List Nat
  unpub  : List Nat
  landed : List Nat
  full   : List Nat
  empty  : List Nat
deriving DecidableEq, Repr

/-- What a lane gives a chunk: the lane, its global virtual and physical address, its scratchpad offset (R319). -/
structure ChunkLane where
  lane : Nat
  va   : Nat
  pa   : Nat
  off  : Nat
deriving DecidableEq, Repr

/-- One chunk of a copy command (R315): the lanes of a CPY or CPYR, or a unit of a CPYT's destination at `doff`; `len` bytes
a lane or in the unit. `lo` and `hi` bound the numbers of the writes it became. -/
structure Chunk where
  n       : Nat
  lanes   : List ChunkLane
  doff    : Nat
  len     : Nat
  count   : Nat
  data    : List (Byte × Bad)
  read    : Bool
  landed  : Bool
  counted : Bool
  lo      : Nat
  hi      : Nat
  /-- phase of the object that its count fell into (R99) -/
  phase   : Nat
  /-- plane bytes of a CPYT's elements read so far, by their place among the chunk's (R288) -/
  runs    : List (Nat × List (Byte × Bad))
deriving DecidableEq, Repr

/-- A counted chunk's writes: the object, by team and offset, the phase the count fell into, the numbers of the writes (R99). -/
structure Sight where
  team  : Nat
  off   : Nat
  phase : Nat
  ids   : List Nat
deriving DecidableEq, Repr

/-- What a command of the copy engine does (R314). -/
inductive CmdKind where
  | cpyIn | cpyOut | cpyr (op : CpyrOp) | cpytOm | cpytSp
deriving DecidableEq, Repr

/-- Who works on a command (R336, R337): the engine; the firmware path, waiting for a reply, or landing the rest; nobody,
since it is to be lost, or is lost; or, lost, it waits for the reply that lets its record be retried (R338). -/
inductive FwSt where
  | engine | reply | finish | losing | lost | lostReply
deriving DecidableEq, Repr

/-- A command of the copy engine (R314 to R317, R336). -/
structure Cmd where
  id     : Nat
  kind   : CmdKind
  gid    : Nat
  preds  : Preds
  ctx    : Nat
  die    : Nat
  core   : Nat
  team   : Nat
  acq    : Bool
  rel    : Bool
  cmp    : Bool
  scope  : Scope
  bar    : Nat
  /-- the copy command of the group that a `.seq` command follows (R94) -/
  after  : Option Nat
  chunks : List Chunk
  started : Bool
  /-- chunks the current reservation still covers (R315) -/
  credit : Nat
  /-- the shape record, the slot or the destination offset, the box origin (R328) -/
  recData : List Byte
  slot   : Nat
  dst    : Nat
  coords : List Int
  sys    : Bool
  iaddr  : W64
  fw     : FwSt
  /-- it has left the issue queue for the firmware path (R314) -/
  handed : Bool
  /-- the fault met, its address and chunk, and whether it is the record that cannot be written (R336, R338) -/
  faulted : Option (FaultCode × Nat)
  /-- chunks met with a fault that the firmware path does not retry: number, fault, address -/
  bads   : List (Nat × FaultCode × Nat)
  recBad : Bool
  /-- addresses whose XLATE events have been replied to; of a record's once the command is lost, posted (R336, R338) -/
  retried : List Nat
  overran : Bool
  recorded : Bool
deriving DecidableEq, Repr

/-- Kinds of the queued matrix operations (R310). -/
inductive MxKind where
  | mmq | mmqx | phmma | zero | ldz | drain | phfin
deriving DecidableEq, Repr

/-- One acting quarter of a matrix operation with what was captured at issue (R133, R291, R300, R307). -/
structure MxQ where
  /-- physical quarter and array -/
  q      : Nat
  arr    : Nat
  sa     : Nat
  sb     : Nat
  tagA   : SlotTag
  tagB   : SlotTag
  pa     : Nat
  pb     : Nat
  xa     : List Byte
  xb     : List Byte
  /-- outlier list: its offset, its entries, those applied, those read ahead of that (R302) -/
  outl   : Nat
  outm   : Nat
  outs   : Nat
  ents   : List (Nat × List (Byte × Bad))
  /-- address of row 0, pitch, physical address of each row -/
  base   : Nat
  pitch  : Nat
  pas    : List Nat
  /-- rows read by MXLDZ, or written by MXDRAIN and PHFIN -/
  rows   : List Nat
  data   : List (Nat × W32)
  bad    : List (Nat × Bad)
  /-- its part on the array has ended -/
  done   : Bool
deriving DecidableEq, Repr

structure MxOp where
  id     : Nat
  kind   : MxKind
  gid    : Nat
  preds  : Preds
  seq    : Nat
  /-- the first wave of its instruction: waves run in order (R291) -/
  first  : Nat
  ctx    : Nat
  die    : Nat
  core   : Nat
  team   : Nat
  z      : Nat
  tA     : Ty
  tB     : Ty
  nbv    : Nat
  sc     : Bool
  g      : Bool
  add    : Bool
  zr     : Bool
  acq    : Bool
  rel    : Bool
  scope  : Scope
  qs     : List MxQ
  running : Bool
  till   : Nat
  /-- the dense product is in the tiles -/
  dense  : Bool
  /-- slot units the pass has read (R311) -/
  units  : List (Nat × List (Byte × Bad))
  hdr    : W64
  idx    : Nat
  word   : W64
deriving DecidableEq, Repr

/-! ### Contexts, launches, queues of the front end -/

/-- A breakpoint slot (R369). -/
structure Bkpt where
  addr : W64
  ctl  : W64
  team : Nat
deriving DecidableEq, Repr

/-- Where a context's frame on a core stands (R380, R381). -/
inductive SaveSt where
  | resident | requested | forced | streaming | saved
deriving DecidableEq, Repr

/-- A context on one core (R380 to R382): the GTB of the save request and that at which its deferral ends, whether its save was forced, the GTB of the last
completed save, and what left the core with the last save. -/
structure SaveRec where
  die    : Nat
  core   : Nat
  st     : SaveSt
  asked  : Nat
  due    : Nat
  forced : Bool
  /-- GTB from which a stopped partition holds the deferral's count (R430) -/
  frozen : Option Nat
  gtb    : Nat
  teams  : List Team
  groups : List Group
  pipes  : List (Nat × Pipe)
deriving DecidableEq, Repr

structure Context where
  id     : Nat
  caps   : List Cap
  root   : Nat
  save   : Nat
  saveLen : Nat
  evq    : W64
  home   : BitVec 16
  granted : List (BitVec 16)
  /-- cores, as die and core, of its granted partitions on other packages (R388) -/
  far     : List (Nat × List (Nat × Nat))
  energy : Nat
  budget : Nat
  bkpts  : List (Nat × Bkpt)
  stopped : Option Nat
  saves  : List SaveRec
  ready  : List (Nat × Nat)
  /-- for a node of a graph table, by the address of its entry: accesses that its predecessors released, with the scope's code
  (R400) -/
  nodes  : List (Nat × List (Nat × Nat))
  /-- elements the FE has yet to enqueue on the event queue, which was full -/
  posts  : List (List Byte)
  /-- GTB of the last completed save, by the core's number (R388) -/
  lastSave : List (Nat × Nat)
  /-- entries of a graph table that completed with a predecessor's status before their last predecessor (R401) -/
  failed : List Nat
deriving DecidableEq, Repr

/-- A packet of a launch as the FE holds it (R391, R392): the queue it came from, the variant it chose (R409) with its code
section and role map, its placement map; teams placed and ended, the resident indices in use, whether its boundary is
reached (R396), whether it was truncated (R402), its status (R401). -/
structure Launch where
  id     : Nat
  ctx    : Nat
  die    : Nat
  fe     : Nat
  queue  : Option Nat
  packet : List Byte
  /-- virtual address of its entry in a graph table (R399) -/
  node   : Option Nat
  kaddr  : Nat
  kword  : W64
  secLo  : Nat
  secHi  : Nat
  roles  : Nat
  pmap   : List Nat
  placed : Nat
  ended  : Nat
  /-- teams of a gang that other packages place and run (R397) -/
  away   : Nat
  resident : List Nat
  boundary : Bool
  killed : Bool
  status : Nat
  complete : Bool
  /-- device partitions of a gang and the first cluster of each; those held; the start tick (R397) -/
  gang   : List (Nat × Nat)
  held   : List Nat
  startAt : Option Nat
  /-- bytes a copy node has copied -/
  copyAt : Nat
  /-- accesses in flight when its teams ended (R398) -/
  accs   : List Nat
  /-- accesses that its acquire waits for (R400) -/
  acqs   : List Nat
  /-- successors it has yet to signal, once its status record is written (R398) -/
  todo   : List Nat
deriving DecidableEq, Repr

/-- A front-end work queue (R272, R396, R403). -/
structure WorkQ where
  qcb     : Nat
  va      : W64
  ctx     : Nat
  die     : Nat
  fe      : Nat
  inFlight : Option Nat
  doorbell : Option W64
  dead    : Bool
deriving DecidableEq, Repr

/-- A registered translation (R414, R415); `wait`: once it is swapped out, the groups resident then that have not passed a
clause entry since. -/
structure Transl where
  id   : Nat
  ctx  : Nat
  lo   : Nat
  hi   : Nat
  /-- the dispatch table through which its functions are reached: address and number of words (R414) -/
  table : Nat
  words : Nat
  /-- a word of the table has been seen to enter its code: it has been swapped in -/
  swapped : Bool
  /-- coherence indices of the table's words when the groups of `wait` were noted -/
  seen : List Nat
  wait : Option (List Nat)
  free : Bool
deriving DecidableEq, Repr

/-- A pod link (R439, R440). -/
structure Link where
  /-- the die it belongs to, of three links each (R13) -/
  die     : Nat
  /-- the package it leads to -/
  pkg     : Nat
  up      : Bool
  retrain : Bool
  fails   : Nat
  since   : Nat
deriving DecidableEq, Repr

/-! ### The machine -/

structure State where
  focus    : Option Group
  groups   : List Group
  agenda   : List Instr
  tick     : Nat
  changes  : Nat
  nextId   : Nat
  accs     : List Acc
  teams    : List Team
  parts    : List (Nat × Partn)
  cores    : List (Nat × Core)
  quads    : List (Nat × Quad)
  dies     : List (Nat × Die)
  home     : View
  lineClk  : List (Nat × Nat)
  lineBy   : List (Nat × Nat)
  host     : View
  /-- host writes whose CXL completion is outstanding: number, first and last access (R438); those completed -/
  hostWr   : List (Nat × Nat × Nat)
  hostDone : List Nat
  nets     : List NetBar
  qmoves   : List QMove
  qhomes   : List QHome
  cmds     : List Cmd
  mxops    : List MxOp
  contexts : List Context
  launches : List Launch
  workqs   : List WorkQ
  transl   : List Transl
  gtb      : W64
  pdefer   : W64
  pwrcap   : W64
  ppeak    : Nat
  psust    : Nat
  /-- measured energy of the package: from, to, nJ, through the last 1 s (R419) -/
  power    : List (Nat × Nat × Nat)
  ffac     : Nat
  /-- GTB of the last update of the integrators, and of ENERGY (R419, R426) -/
  powerAt  : Nat
  energyAt : Nat
  hostlim  : W64
  pkg      : Nat
  lost     : List Nat
  links    : List (Nat × Link)
  upStep   : Nat
  upFail   : Bool
  /-- lanes at which the CXL port has trained (R437) -/
  cxlWidth : Nat
  /-- no FE core of the package runs, until the package is reset (R404) -/
  feLost   : Bool
  fuses    : List Nat
  images   : List Nat
  measure  : List (List Byte)
  remote   : List (Nat × Nat)
  quotes   : List (List Byte)
  hostReads : List (List Byte)
  /-- the public keys fused at manufacture, of 68 B each, once bring-up has read them (R443, R445) -/
  keys     : List (List Byte)
  /-- operations of engines, queues, arrays, copy nodes and groups whose reads of host memory the host completes with an error (R441) -/
  hostErr  : List Nat
  /-- bytes a context has moved since the last update of ENERGY, by 4 · context + kind: 0 L2, 1 RDC, 2 HBM, 3 links (R426) -/
  moved    : List (Nat × Nat)
  /-- chunks without REL that were counted and have landed, while their writes are on their way (R99) -/
  sights   : List Sight
  /-- groups, by number, that have read from the CB entry of an access, by number (R89) -/
  cbSeen   : List (Nat × Nat)
deriving DecidableEq, Repr

/-- The package right after reset: every register at the reset value of its table, every register without one at the
value of log entry 4, memory with nothing listed (log entry 3), no context admitted, no group resident. -/
def State.reset : State :=
  { focus := none, groups := [], agenda := [], tick := 0, changes := 0, nextId := 1, accs := [], teams := [], parts := [],
    cores := [], quads := [], dies := [], home := View.blank, lineClk := [], lineBy := [], host := View.blank, hostWr := [], hostDone := [], nets := [],
    qmoves := [], qhomes := [], cmds := [], mxops := [], contexts := [], launches := [], workqs := [], transl := [],
    gtb := 0, pdefer := 50, pwrcap := BitVec.ofNat 64 (4800 * 2 ^ 32 + 3500), ppeak := 0, psust := 0, power := [], ffac := 16, powerAt := 0, energyAt := 0, hostlim := 0,
    pkg := 0, lost := [], links := [], upStep := 0, upFail := false, cxlWidth := 0, feLost := false,
    fuses := List.replicate 4 (2 ^ 48 - 1), images := [], measure := [], remote := [], quotes := [], hostReads := [], keys := [], hostErr := [], moved := [], sights := [], cbSeen := [] }

end Sys2Proof.Machine
end

