-- ==== Sys2Proof/Machine/Operands.lean ====
section
/-!
DEFINITION. Operand forms: masks and lanes, registers read and written, constants, window slots, presence (R70 to R73,
R102, R124 to R132, R195, R206, R218 to R221).
-/
namespace Sys2Proof

def Opnd.isY : Opnd → Bool
  | .y _ => true
  | _ => false

end Sys2Proof

namespace Sys2Proof.Machine

/-! ### Masks -/

/-- The lanes of a mask in increasing order. -/
def lanesOf (m : W32) : List Nat := (List.range 32).filter fun i => m.getLsbD i

def bitMask (i : Nat) : W32 := BitVec.ofNat 32 (2 ^ i)

/-- The mask of the lanes that satisfy a test. -/
def maskWhere (lanes : List Nat) (t : Nat → Bool) : W32 :=
  lanes.foldl (fun m i => if t i then m ||| bitMask i else m) 0

def popcount (m : W32) : Nat := (lanesOf m).length

/-- Lanes a group has: 32, or 16 in a legacy half (R204). -/
def Group.width (g : Group) : Nat := if g.half.isSome then 16 else 32

/-- The mask of the group's lanes: k0 reads so (R70, R206). -/
def Group.wmask (g : Group) : W32 := if g.half.isSome then 0xFFFF else ones32

/-! ### Registers of the group -/

/-- s registers; s0 reads 0 (R102). -/
def Group.rdS (g : Group) (n : Nat) : W64 := if n = 0 then 0 else SMap.get 0 g.s n

/-- A write to s0 is discarded (R72). -/
def Group.wrS (g : Group) (n : Nat) (x : W64) : Group :=
  if n = 0 then g else { g with s := SMap.set 0 g.s n x }

/-- Mask registers; k0 reads all ones (R70, R125, R206). -/
def Group.rdK (g : Group) (n : Nat) : W32 := if n = 0 then g.wmask else SMap.get 0 g.k n

/-- k0 is never written (R72); a legacy half writes its own 16 bits (R206). -/
def Group.wrK (g : Group) (n : Nat) (x : W32) : Group :=
  if n = 0 then g else { g with k := SMap.set 0 g.k n (x &&& g.wmask) }

/-- One lane of a v register. -/
def Group.laneV (g : Group) (n lane : Nat) : Lane := SMap.get Lane.zero g.v (n * 32 + lane)

def Group.setV (g : Group) (n lane : Nat) (x : Lane) : Group :=
  { g with v := SMap.set Lane.zero g.v (n * 32 + lane) x }

/-- Lanes in which a predicate holds (R55, R104). -/
def Group.predMask (g : Group) (p : Pred) : W32 :=
  (if p.neg then ~~~ (g.rdK p.k.toNat) else g.rdK p.k.toNat) &&& g.wmask

/-- The acting lanes: active, and the predicate holds. -/
def Group.act (g : Group) (p : Pred) : W32 := g.active &&& g.predMask p

/-! ### Constants (R71) -/

/-- The floating format a real constant is delivered in (R71). -/
inductive RealFmt where
  | f32 | f16 | bf16
deriving DecidableEq, Repr

def RealFmt.ofTy : Ty → RealFmt
  | .f16 => .f16
  | .bf16 => .bf16
  | _ => .f32

/-- Codes 0x190 to 0x19F, as integers. -/
def intConst : Nat → Int
  | 0 => 0 | 1 => 1 | 2 => 2 | 3 => 3 | 4 => 4 | 5 => 7 | 6 => 8 | 7 => 15 | 8 => 16 | 9 => 24 | 10 => 31 | 11 => 32
  | 12 => 63 | 13 => 64 | 14 => 255 | _ => -1

/-- Codes 0x1A0 to 0x1AF in FP32: −0.0, 0.5, 1.0, 2.0, 4.0, 0.25, 0.125, 3.0, −0.5, −1.0, −2.0, 1.5, 8.0, 16.0, ±Inf. -/
def realF32 : Nat → Nat
  | 0 => 0x80000000 | 1 => 0x3F000000 | 2 => 0x3F800000 | 3 => 0x40000000 | 4 => 0x40800000 | 5 => 0x3E800000
  | 6 => 0x3E000000 | 7 => 0x40400000 | 8 => 0xBF000000 | 9 => 0xBF800000 | 10 => 0xC0000000 | 11 => 0x3FC00000
  | 12 => 0x41000000 | 13 => 0x41800000 | 14 => 0x7F800000 | _ => 0xFF800000

/-- The same values in FP16. -/
def realF16 : Nat → Nat
  | 0 => 0x8000 | 1 => 0x3800 | 2 => 0x3C00 | 3 => 0x4000 | 4 => 0x4400 | 5 => 0x3400 | 6 => 0x3000 | 7 => 0x4200
  | 8 => 0xB800 | 9 => 0xBC00 | 10 => 0xC000 | 11 => 0x3E00 | 12 => 0x4800 | 13 => 0x4C00 | 14 => 0x7C00 | _ => 0xFC00

/-- Codes 0x1B0 to 0x1BF: raw patterns. -/
def rawConst : Nat → Nat
  | 0 => 0x7FC00000 | 1 => 0x80000000 | 2 => 0x7FFFFFFF | 3 => 0x0000FFFF | 4 => 0xFFFF0000 | 5 => 0x01010101
  | 6 => 0x7F7FFFFF | 7 => 0x00800000 | 8 => 0x3F317218 | 9 => 0x3FB8AA3B | 10 => 0x40C90FDB | 11 => 0x3E22F983
  | 12 => 0x00008000 | 13 => 0x00004000 | 14 => 0x00007FFF | _ => 0x55555555

/-- A constant at 64 bits: integers sign-extended, patterns zero-extended (R71). DESIGN CHOICE (log entry 100): a real value, for
which R71 states no extension, is zero-extended too. -/
def cstVal (n : Nat) (fmt : RealFmt) : W64 :=
  if n < 16 then BitVec.ofInt 64 (intConst n)
  else if n < 32 then
    match fmt with
    | .f32 => BitVec.ofNat 64 (realF32 (n - 16))
    | .f16 => BitVec.ofNat 64 (realF16 (n - 16) * 65537)
    | .bf16 => BitVec.ofNat 64 (realF32 (n - 16) / 65536 * 65537)
  else BitVec.ofNat 64 (rawConst (n - 32))

/-! ### Partitions, pipes, windows -/

def partKey (die core part : Nat) : Nat := (die * 48 + core) * 4 + part

def State.partn (s : State) (die core part : Nat) : Partn := SMap.get Partn.reset s.parts (partKey die core part)

def State.setPartn (s : State) (die core part : Nat) (p : Partn) : State :=
  { s with parts := SMap.set Partn.reset s.parts (partKey die core part) p }

/-- The partition a group lives on. -/
def State.partOf (s : State) (g : Group) : Partn := s.partn g.die g.core g.part

def State.setPartOf (s : State) (g : Group) (p : Partn) : State := s.setPartn g.die g.core g.part p

/-- An open pipe of a partition by number. -/
def Partn.pipe? (p : Partn) (n : Nat) : Option Pipe := p.pipes.find? fun q => q.num == n

def Partn.setPipe (p : Partn) (q : Pipe) : Partn :=
  { p with pipes := p.pipes.map fun r => if r.num == q.num then q else r }

/-- The pipe of an iteration. -/
def State.pipeOf (s : State) (g : Group) : Option Pipe :=
  match g.iter with
  | some it => (s.partOf g).pipe? it.pipe
  | none => none

/-- Physical slot of window name yn in iteration k: (n − k·S) mod 64 (R218). -/
def winSlot (stride n k : Nat) : Nat := (n + 64 - k * stride % 64) % 64

/-- The slot's lane in the window. -/
def Pipe.slotLane (q : Pipe) (slot lane : Nat) : WSlot := SMap.get WSlot.zero q.window (slot * 32 + lane)

def Pipe.setSlot (q : Pipe) (slot lane : Nat) (x : WSlot) : Pipe :=
  { q with window := SMap.set WSlot.zero q.window (slot * 32 + lane) x }

/-! ### State of a source lane (R130, R195, R221) -/

/-- How a read of one lane of a source fares. -/
inductive LaneSt where
  | full | empty | void | misuse | bad (b : Bad)
deriving DecidableEq, Repr

def Lane.st (x : Lane) : LaneSt :=
  if x.empty then .empty else match x.bad with | .ok => .full | b => .bad b

/-- A window name read in a lane (R221). -/
def State.ySt (s : State) (g : Group) (n lane : Nat) : LaneSt :=
  match g.iter, s.pipeOf g with
  | some it, some q =>
    if it.k < n / q.stride then .void
    else
      let w := q.slotLane (winSlot q.stride n it.k) lane
      match w.st with
      | .full => (match w.bad with | .ok => .full | b => .bad b)
      | .void => .void
      | .empty => if n < q.stride && !w.owed then .misuse else .empty
  | _, _ => .misuse

/-- A source in one lane, both halves of a 64-bit pair together (R124). -/
def State.srcSt (s : State) (g : Group) (o : Opnd) (regs : Nat) (lane : Nat) : LaneSt :=
  match o with
  | .v n =>
    let sts := (List.range regs).map fun j => (g.laneV (n.toNat + j) lane).st
    if sts.contains .empty then .empty else (sts.find? fun x => x != .full).getD .full
  | .y n => s.ySt g n.toNat lane
  | _ => .full

/-- The value of a window name in a lane: 0 where VOID or where there is no predecessor (R221). -/
def State.yVal (s : State) (g : Group) (n lane : Nat) : W32 :=
  match g.iter, s.pipeOf g with
  | some it, some q =>
    if it.k < n / q.stride then 0
    else
      let w := q.slotLane (winSlot q.stride n it.k) lane
      (match w.st with | .full => w.val | _ => 0)
  | _, _ => 0

/-- A source at 64 bits in one lane: a d pair, bits [63:0] of an s register, a mask zero-extended, a constant (R70). -/
def State.rd64 (s : State) (g : Group) (fmt : RealFmt) (o : Opnd) (lane : Nat) : W64 :=
  match o with
  | .v n => BitVec.ofNat 64 ((g.laneV n.toNat lane).val.toNat + 2 ^ 32 * (g.laneV (n.toNat + 1) lane).val.toNat)
  | .s n => g.rdS n.toNat
  | .y n => (s.yVal g n.toNat lane).setWidth 64
  | .k n => (g.rdK n.toNat).setWidth 64
  | .cst n => cstVal n.val fmt

/-- A source at 32 bits in one lane. -/
def State.rd32 (s : State) (g : Group) (fmt : RealFmt) (o : Opnd) (lane : Nat) : W32 :=
  match o with
  | .v n => (g.laneV n.toNat lane).val
  | .y n => s.yVal g n.toNat lane
  | .s n => (g.rdS n.toNat).setWidth 32
  | .k n => g.rdK n.toNat
  | .cst n => (cstVal n.val fmt).setWidth 32

/-- A source at the type's width, as a number below 2^32 or 2^64. -/
def State.rdN (s : State) (g : Group) (fmt : RealFmt) (w64 : Bool) (o : Opnd) (lane : Nat) : Nat :=
  if w64 then (s.rd64 g fmt o lane).toNat else (s.rd32 g fmt o lane).toNat

/-- A scalar source: 64 bits of an s register, a mask zero-extended, a constant (R105). -/
def Group.rdSc (g : Group) (o : Opnd) : W64 :=
  match o with
  | .s n => g.rdS n.toNat
  | .k n => (g.rdK n.toNat).setWidth 64
  | .cst n => cstVal n.val .f32
  | _ => 0

/-! ### Reading the sources of an instruction -/

/-- One source read by the instruction: operand, how many v registers it spans, trap bit, and the pairs (acting lane,
lane read). A lane that VTOS reads although it does not act stands as (32 + the lane, the lane). -/
structure Src where
  o     : Opnd
  regs  : Nat
  trap  : Bool
  reads : List (Nat × Nat)
deriving DecidableEq, Repr

/-- What the reads of all sources come to (R74 positions 5 and 6, R130, R221, R378). -/
inductive Reads where
  /-- every lane readable; the lanes whose VOIDM bit is set -/
  | ok (voidm : W32)
  | wait
  | fault (code : FaultCode) (o : Nat) (lanes : W32)
deriving DecidableEq, Repr

/-- State of one read: an own window name that is EMPTY with no write pending is a misuse where the acting lane itself is read
(R221), and EMPTY where another lane is (R195). -/
def Src.readSt (s : State) (g : Group) (c : Src) (r : Nat × Nat) : LaneSt :=
  match s.srcSt g c.o c.regs r.2 with
  | .misuse => if r.1 = r.2 then .misuse else .empty
  | x => x

/-- The lanes read that are in a state: of another lane's trap-marked VOID, as R195 has it of EMPTY, the lane that was read. DEDUCED (log
entry 131). -/
def Src.lanesSt (s : State) (g : Group) (c : Src) (st : LaneSt) : W32 :=
  maskWhere ((c.reads.filter fun r => c.readSt s g r == st).map (·.2)) fun _ => true

/-- First own window name that is EMPTY with no write pending (R221). -/
def firstMisuse (s : State) (g : Group) (srcs : List Src) : Bool :=
  srcs.any fun c => c.reads.any fun r => c.readSt s g r == .misuse

/-- First trap-marked source with an EMPTY, then with a VOID lane (R73). DESIGN CHOICE (log entry 118): of several such sources the
first in the order a, b, c is named, with its own lanes alone. -/
def firstTrap (s : State) (g : Group) : List Src → Option (FaultCode × Nat × W32)
  | [] => none
  | c :: r =>
    if c.trap && c.lanesSt s g .empty != 0 then some (.empty, c.o.code, c.lanesSt s g .empty)
    else if c.trap && c.lanesSt s g .void != 0 then some (.void, c.o.code, c.lanesSt s g .void)
    else firstTrap s g r

/-- First source with a poisoned lane (R378). DESIGN CHOICE (log entry 112): within one source MARGIN before POISON. -/
def firstBad (s : State) (g : Group) : List Src → Option (FaultCode × Nat × W32)
  | [] => none
  | c :: r =>
    if c.lanesSt s g (.bad .margin) != 0 then some (.margin, c.o.code, c.lanesSt s g (.bad .margin))
    else if c.lanesSt s g (.bad .poison) != 0 then some (.poison, c.o.code, c.lanesSt s g (.bad .poison))
    else firstBad s g r

def anyEmpty (s : State) (g : Group) (srcs : List Src) : Bool :=
  srcs.any fun c => c.reads.any fun r => c.readSt s g r == .empty

/-- VOIDM bits of the acting lanes that read a VOID slot (R195, R221). -/
def voidBits (s : State) (g : Group) (srcs : List Src) : W32 :=
  srcs.foldl (fun m c => m ||| maskWhere ((c.reads.filter fun r => s.srcSt g c.o c.regs r.2 == .void).map (·.1 % 32)) fun _ => true) 0

/-- All source reads of an instruction; `keepBad` reads poison without a fault (a store carries it, R378), but that of a window
slot, whose reader takes it always (R221). DESIGN CHOICE (log entry 117): an EMPTY source with its trap bit set faults at once, be
another source EMPTY without one. -/
def readSrcs (s : State) (g : Group) (keepBad : Bool) (srcs : List Src) : Reads :=
  if firstMisuse s g srcs then .fault .pipestate 0 0
  else match firstTrap s g srcs with
    | some (c, o, m) => .fault c o m
    | none =>
      if anyEmpty s g srcs then .wait
      else match firstBad s g (if keepBad then srcs.filter fun c => c.o.isY else srcs) with
        | some (c, o, m) => .fault c o m
        | none => .ok (voidBits s g srcs)

/-- A source read in the acting lanes themselves. -/
def srcAt (o : Opnd) (w64 trap : Bool) (m : W32) : Src := ⟨o, if w64 then 2 else 1, trap, (lanesOf m).map fun i => (i, i)⟩

/-! ### Writing destinations -/

/-- Some lane of the destination is still owed to a long-latency producer (R131). -/
def dstBusy (s : State) (g : Group) (o : Opnd) (regs : Nat) (lanes : List Nat) : Bool :=
  match o with
  | .v n => lanes.any fun i => (List.range regs).any fun j => (g.laneV (n.toNat + j) i).empty
  | .y n =>
    (match g.iter, s.pipeOf g with
     | some it, some q => lanes.any fun i => (q.slotLane (winSlot q.stride n.toNat it.k) i).owed
     | _, _ => false)
  | _ => false

/-- One lane of a v register or a pair, FULL with a value (R129). -/
def Group.putV (g : Group) (n : Nat) (w64 : Bool) (lane : Nat) (x : Nat) : Group :=
  if w64 then
    (g.setV n lane ⟨BitVec.ofNat 32 x, false, .ok⟩).setV (n + 1) lane ⟨BitVec.ofNat 32 (x / 2 ^ 32), false, .ok⟩
  else g.setV n lane ⟨BitVec.ofNat 32 x, false, .ok⟩

/-- The listed lanes of a v register FULL with the values of `f`; the others keep value and presence (R132). -/
def Group.putLanes (g : Group) (n : Nat) (w64 : Bool) (f : Nat → Nat) : List Nat → Group
  | [] => g
  | i :: r => (g.putV n w64 i (f i)).putLanes n w64 f r

/-- The listed lanes of a window slot FULL with the values of `f` (R220). -/
def Pipe.putLanes (q : Pipe) (slot : Nat) (f : Nat → Nat) : List Nat → Pipe
  | [] => q
  | i :: r => (q.setSlot slot i ⟨BitVec.ofNat 32 (f i), .full, false, .ok⟩).putLanes slot f r

/-- Change the selected group. -/
def State.modG (s : State) (f : Group → Group) : State := { s with focus := s.focus.map f }

/-- Write lanes of a v or y destination. -/
def State.putDst (s : State) (g : Group) (o : Opnd) (w64 : Bool) (lanes : List Nat) (f : Nat → Nat) : State :=
  match o with
  | .v n => s.modG fun h => h.putLanes n.toNat w64 f lanes
  | .y n =>
    (match g.iter, s.pipeOf g with
     | some it, some q =>
       s.setPartOf g ((s.partOf g).setPipe (q.putLanes (winSlot q.stride n.toNat it.k) f lanes))
     | _, _ => s)
  | _ => s

/-- Mark lanes of a destination EMPTY, owed to a long-latency producer (R129, R180, R220). -/
def State.oweDst (s : State) (g : Group) (o : Opnd) (regs : Nat) (lanes : List Nat) : State :=
  match o with
  | .v n => s.modG fun h => lanes.foldl (fun h i => (List.range regs).foldl (fun h j =>
      h.setV (n.toNat + j) i { h.laneV (n.toNat + j) i with empty := true }) h) h
  | .y n =>
    (match g.iter, s.pipeOf g with
     | some it, some q =>
       let sl := winSlot q.stride n.toNat it.k
       s.setPartOf g ((s.partOf g).setPipe (lanes.foldl (fun q i => q.setSlot sl i
         { q.slotLane sl i with st := .empty, owed := true }) q))
     | _, _ => s)
  | _ => s

/-- Write a scalar destination: an s register, or nothing where the field is absent. -/
def Group.putS (g : Group) (o : Opnd) (x : W64) : Group :=
  match o with
  | .s n => g.wrS n.toNat x
  | _ => g

def Group.putK (g : Group) (o : Opnd) (x : W32) : Group :=
  match o with
  | .k n => g.wrK n.toNat x
  | _ => g

end Sys2Proof.Machine
end

