-- ==== Sys2Proof/Machine/Ops.lean ====
section
/-!
DEFINITION. Operations every meaning is built from: the group that issues, its end, a wait, a fault raised; the faults of
decode that depend on state (R74 positions 2 to 5); reading and writing for the two large shapes of instruction, scalar
(R104) and per-lane (R134, R151, R193).
-/
namespace Sys2Proof

/-! ### What an instruction names (R70, R108, R177, R219, R236, R365) -/

/-- Window names the instruction reads. -/
def Instr.ySrc (i : Instr) : List Opnd :=
  (match i.vsig with
   | some (_, f) => [f.a, f.b, f.c]
   | none =>
     match i with
     | .iaddi f | .andi f | .ori f | .xori f => [f.a]
     | .st f | .sts f => [f.data]
     | .atom op _ f | .atoms op _ f => if op == AtomOp.cas then [f.a, f.b, f.dst] else [f.a, f.b]
     | .redm _ _ f => [f.a, f.b]
     | _ => []).filter Opnd.isY

/-- The register the instruction names as destination. -/
def Instr.dstOf (i : Instr) : List Opnd :=
  match i.vsig with
  | some (_, f) => [f.dst]
  | none =>
    match i with
    | .movi f | .iaddi f | .andi f | .ori f | .xori f => [f.dst]
    | .ld f | .lds f | .ldf f => [f.data]
    | .atom _ _ f | .atoms _ _ f => [f.dst]
    | .enqt f => [f.dst]
    | .deqt f => [f.a]
    | .mxacq _ f => [.k f.z]
    | .tclaim _ f => [.k f.z]
    | _ => []

/-- The instruction needs system mode (R108, R177, R365). -/
def Instr.privileged : Instr → Bool
  | .swr r _ => r.sysOnly
  | .cctlWb _ | .cctlEvict _ | .tret _ | .bkpt _ | .budgetSet _ | .tlbiPage _ | .tlbiRange _ | .tlbiAll _ | .netcfg _ => true
  | _ => false

/-- SCOPE at decode: network barriers have no `.core` and no `.sys` (R247). -/
def Instr.badScope : Instr → Bool
  | .netarr f | .netwait f => f.scope == .core || f.scope == .sys
  | _ => false

/-- ATOMSZ (R76, R236). -/
def Instr.badAtom : Instr → Bool
  | .atom op t _ | .atoms op t _ => !atomPair false op t
  | .redm op t _ => !atomPair true op t
  | _ => false

/-- A width of 32 lanes is no width in a legacy half (R196, R208). -/
def Instr.wide (i : Instr) : Bool :=
  match i with
  | .shflIdx w _ | .shflUp w _ | .shflDn w _ | .shflXor w _ => w == .w32
  | _ => false

/-- Unit 31 of a slot lies past its end for 32 lanes (R294). -/
def Instr.pastSlot (i : Instr) : Bool :=
  match i with
  | .tfill _ _ u _ => u == 31
  | _ => false

/-- Whether the destination of a signature is 64 bits wide in a lane. -/
def DstK.is64 (cls : DstK) (t : Ty) : Bool :=
  match cls with
  | .lane w | .laneS w => w.is64 t
  | .pair => true
  | _ => false

end Sys2Proof

namespace Sys2Proof.Machine

abbrev Out := Host.Outcome State Fault Refusal

/-! ### Lookups -/

def State.core (s : State) (die core : Nat) : Core := SMap.get Core.reset s.cores (die * 48 + core)
def State.setCore (s : State) (die core : Nat) (c : Core) : State :=
  { s with cores := SMap.set Core.reset s.cores (die * 48 + core) c }

def State.die (s : State) (d : Nat) : Die := SMap.get Die.reset s.dies d
def State.setDie (s : State) (d : Nat) (x : Die) : State := { s with dies := SMap.set Die.reset s.dies d x }

def State.quad (s : State) (die q : Nat) : Quad := SMap.get Quad.reset s.quads (die * 12 + q)
def State.setQuad (s : State) (die q : Nat) (x : Quad) : State :=
  { s with quads := SMap.set Quad.reset s.quads (die * 12 + q) x }

/-- Cycles of the clock of a core's quad (R10, R103). -/
def State.clk (s : State) (die core : Nat) : Nat := (s.quad die (core / 4)).clk

def State.team? (s : State) (id : Nat) : Option Team := s.teams.find? fun t => t.id == id
def State.setTeam (s : State) (t : Team) : State := { s with teams := s.teams.map fun u => if u.id == t.id then t else u }

def State.ctx? (s : State) (id : Nat) : Option Context := s.contexts.find? fun c => c.id == id
def State.setCtx (s : State) (c : Context) : State :=
  { s with contexts := s.contexts.map fun d => if d.id == c.id then c else d }

def State.launch? (s : State) (id : Nat) : Option Launch := s.launches.find? fun l => l.id == id
def State.setLaunch (s : State) (l : Launch) : State :=
  { s with launches := s.launches.map fun k => if k.id == l.id then l else k }

def State.group? (s : State) (gid : Nat) : Option Group := s.groups.find? fun g => g.gid == gid
def State.setGroup (s : State) (g : Group) : State := { s with groups := s.groups.map fun h => if h.gid == g.gid then g else h }

/-- The group of a number, whether it waits among the groups or is the one selected. -/
def State.anyGroup? (s : State) (gid : Nat) : Option Group :=
  match s.focus with
  | some g => if g.gid == gid then some g else s.group? gid
  | none => s.group? gid

/-- Change a group wherever it stands. -/
def State.modGroup (s : State) (gid : Nat) (f : Group → Group) : State :=
  { s with focus := s.focus.map fun g => if g.gid == gid then f g else g,
           groups := s.groups.map fun g => if g.gid == gid then f g else g }

/-- Every group, the selected one too. -/
def State.allGroups (s : State) : List Group := s.focus.toList ++ s.groups

/-! ### The kernel header word (R45, R53) -/

def kMagic (w : W64) : Nat := fldN w 56 8
def kL16 (w : W64) : Bool := bitAt w 55
def kNbv (w : W64) : Nat := fldN w 52 3
def kVregs (w : W64) : Nat := 4 * fldN w 44 8
def kSregs (w : W64) : Nat := fldN w 38 6
def kGroups (w : W64) : Nat := fldN w 33 5 + 1
def kRoleMap (w : W64) : Nat := fldN w 27 6
def kScratch (w : W64) : Nat := fldN w 16 11
def kPipe (w : W64) : Bool := bitAt w 15
def kHeld (w : W64) : Bool := bitAt w 14
def kEntry (w : W64) : Nat := fldN w 0 14

/-- The kernel header word of a group's team. -/
def State.kword (s : State) (g : Group) : W64 := ((s.team? g.team).map (·.kword)).getD 0

/-! ### Moving on, waiting, raising -/

/-- Instructions in the clause the group stands in. -/
def Group.count (g : Group) : Nat := (g.clause.map fun c => c.words.length).getD 16

/-- The group past its instruction: the next of the clause, or the word after the clause as a clause position (R52). -/
def Group.advance (g : Group) : Group :=
  if g.idx + 1 < g.count then { g with idx := g.idx + 1, sleep := .awake }
  else { g with hdr := g.hdr + BitVec.ofNat 64 (8 * (g.count + 1)), idx := 0, clause := none, entered := false,
                sleep := .awake }

/-- The group at a clause position (R110). -/
def Group.jump (g : Group) (h : W64) : Group :=
  { g with hdr := h, idx := 0, clause := none, entered := false, sleep := .awake }

/-- The instruction is complete. -/
def done (s : State) : Out := .next (s.modG Group.advance)

/-- The instruction waits without issuing; the group stays at it. -/
def waits (s : State) (why : Sleep) : Out := .next (s.modG fun g => { g with sleep := why })

/-- The address of the group's next instruction word. -/
def Group.iaddr (g : Group) : W64 := g.hdr + BitVec.ofNat 64 (8 * (g.idx + 1))

/-- The group holds a fault to deliver, with the instruction word; no other state changes (R375, R377). -/
def raiseWord (s : State) (w : W64) (code : FaultCode) (addr : W64) (lanes : W32) (info : W64) : Out :=
  .next (s.modG fun g => { g with trap := some ⟨code, addr, lanes, w, info, g.idx, g.hdr⟩, sleep := .awake })

/-- A fault of an instruction. -/
def raise (s : State) (i : Instr) (code : FaultCode) (addr : W64) (lanes : W32) (info : W64) : Out :=
  raiseWord s (encode i) code addr lanes info

/-! ### Faults of decode that depend on state (R74 positions 2 to 5) -/

/-- The misuse of pipes that decode finds (R74 position 5): window names outside a pipe or past its limits (R70, R219),
stage predicates as destinations (R125, R222), instructions out of their place (R111, R113, R212, R223, R224, R227 to
R229, R247). -/
def pipeMisuse (s : State) (g : Group) (i : Instr) : Bool :=
  (match g.iter, s.pipeOf g with
   | some _, some q =>
     (i.ySrc.any fun o => match o with | .y n => q.stride * (q.dist + 1) ≤ n.toNat | _ => false)
     || (i.dstOf.any fun o => match o with | .y n => q.stride ≤ n.toNat | .k n => 12 ≤ n.toNat | _ => false)
   | some _, none => true
   | none, _ => !i.ySrc.isEmpty || i.dstOf.any Opnd.isY)
  ||
  (match i with
   | .exit _ | .reform _ => g.iter.isSome || g.opened.isSome
   | .pipe _ => g.iter.isSome || g.opened.isSome || !kPipe (s.kword g) || kL16 (s.kword g)
   | .pipeH _ => g.iter.isSome || g.opened.isSome || !kPipe (s.kword g) || !kHeld (s.kword g) || kL16 (s.kword g)
   | .pjoin _ => g.iter.isSome || g.opened.isNone
   | .pend _ | .pbrk _ | .yvoid _ => g.iter.isNone
   | .netarr _ | .netwait _ => g.iter.isSome
   | _ => false)

/-- The first fault of decode, with its address (R74, R375). -/
def preFault (s : State) (g : Group) (i : Instr) : Option (FaultCode × W64) :=
  if !i.wf || !i.fits (kVregs (s.kword g)) (kSregs (s.kword g)) || (g.half.isSome && i.wide) || (g.half.isNone && i.pastSlot) then some (.ill, g.iaddr)
  else if i.privileged && !g.sys then some (.priv, g.iaddr)
  else if i.badScope then some (.scope, 0)
  else if i.badAtom then some (.atomsz, g.iaddr)
  else if pipeMisuse s g i then some (.pipestate, 0)
  else none

/-- An instruction of the selected group: nothing where no group is selected, a fault of decode, or its body. A group
that holds an undelivered fault or has stopped issues nothing (R364, R377). -/
def issue (i : Instr) (s : State) (body : Group → Out) : Out :=
  match s.focus with
  | none => .fault .noIssuer
  | some g =>
    if g.trap.isSome || g.stopped then .next s
    else match preFault s g i with
      | some (c, a) => raise s i c a 0 0
      | none => body g

/-! ### Waiting kinds -/

/-- Which wait an EMPTY source is: a window read is a swap candidate (R120, R221); every other is an in-clause stall, a read of
another lane too (R203). DESIGN CHOICE (log entry 107): where an acting lane's own read and another lane's are of one EMPTY window
lane, the wait is a window read. -/
def waitKind (s : State) (g : Group) (srcs : List Src) : Sleep :=
  if anyEmpty s g ((srcs.filter fun c => c.o.isY).map fun c => { c with reads := c.reads.filter fun r => r.1 == r.2 }) then .window
  else .stall

/-- The sources read (R130): a fault or a wait ends the instruction; else VOIDM takes its new bits and the rest goes on. -/
def withSrcs (i : Instr) (s : State) (g : Group) (keepBad : Bool) (srcs : List Src) (k : State → Out) : Out :=
  match readSrcs s g keepBad srcs with
  | .fault c o m => raise s i c (BitVec.ofNat 64 o) m 0
  | .wait => waits s (waitKind s g srcs)
  | .ok vm => k (s.modG fun h => { h with voidm := h.voidm ||| vm })

/-! ### Scalar shape -/

/-- A scalar instruction (R104, R105): where the predicate holds in no active lane it only advances. -/
def scalarOp (i : Instr) (f : VR) (s : State) (val : W64 → W64 → W64 → W64) : Out :=
  issue i s fun g =>
    if g.act f.p = 0 then done s
    else done (s.modG fun h => h.putS f.dst (val (g.rdSc f.a) (g.rdSc f.b) (g.rdSc f.c)))

/-- A mask instruction (R143): acts once, writes all bits of its destination. -/
def maskOp (i : Instr) (f : VR) (s : State) (val : W32 → W32 → W32) : Out :=
  issue i s fun g =>
    if g.act f.p = 0 then done s
    else done (s.modG fun h => h.putK f.dst (val ((g.rdSc f.a).setWidth 32) ((g.rdSc f.b).setWidth 32)))

/-! ### Per-lane shape -/

/-- The sources a VR instruction reads in its acting lanes, with the widths of its signature. -/
def vrSrcs (g : VSig) (f : VR) (m : W32) : List Src :=
  let one : SrcK → Opnd → Bool → List Src := fun cls o t =>
    match cls with
    | .unused => []
    | .lane w => [srcAt o (w.is64 f.ty) t m]
    | .vy w => [srcAt o (w.is64 f.ty) t m]
    | .pair | .dsc => [srcAt o true t m]
    | .triple => [⟨o, 3, t, (lanesOf m).map fun i => (i, i)⟩]
    | _ => [srcAt o false t m]
  one g.a f.a f.ta ++ one g.b f.b f.tb ++ one g.c f.c f.tc

/-- A per-lane instruction: sources read in the acting lanes (R130), destination lanes free (R131), then each acting lane
written FULL with `val lane` (R129, R132). -/
def laneOp (i : Instr) (f : VR) (s : State) (val : Group → Nat → Nat) : Out :=
  issue i s fun g =>
    match i.vsig with
    | none => done s
    | some (sg, _) =>
      withSrcs i s g false (vrSrcs sg f (g.act f.p)) fun s1 =>
        let w := sg.dst.is64 f.ty
        if dstBusy s1 g f.dst (if w then 2 else 1) (lanesOf (g.act f.p)) then waits s .stall
        else done (s1.putDst g f.dst w (lanesOf (g.act f.p)) (val g))

/-- A compare: bit L of the destination mask set to `val L` in each acting lane, the other bits kept (R132, R141). -/
def cmpOp (i : Instr) (f : VR) (s : State) (val : Group → Nat → Bool) : Out :=
  issue i s fun g =>
    match i.vsig with
    | none => done s
    | some (sg, _) =>
      withSrcs i s g false (vrSrcs sg f (g.act f.p)) fun s1 =>
        done (s1.modG fun h => h.putK f.dst
          ((match f.dst with | .k n => h.rdK n.toNat | _ => 0) &&& ~~~ (g.act f.p)
            ||| maskWhere (lanesOf (g.act f.p)) (val g)))

/-- A VI instruction per lane (R142). -/
def immOp (i : Instr) (f : VI) (s : State) (val : W32 → W32) : Out :=
  issue i s fun g =>
    let m := g.act f.p
    withSrcs i s g false (match i with | .movi _ => [] | _ => [srcAt f.a false f.ta m]) fun s1 =>
      if dstBusy s1 g f.dst 1 (lanesOf m) then waits s .stall
      else done (s1.putDst g f.dst false (lanesOf m) fun l => (val (s.rd32 g .f32 f.a l)).toNat)

/-! ### The main register file (R126, R127) -/

/-- The groups are the two halves of one slot. -/
def sameSlot (a b : Group) : Bool :=
  a.half.isSome && b.half.isSome && a.slot == b.slot && a.die == b.die && a.core == b.core && a.part == b.part && a.ctx == b.ctx

/-- The other half of a group's slot, where it has threads. -/
def otherHalf (s : State) (g : Group) : Option Group := s.allGroups.find? fun h => h.gid != g.gid && sameSlot g h

/-- What the file holds in the lanes of the other half of a legacy group's slot: its values, or, where it has no threads, those that the
half which left it last had. DESIGN CHOICE (log entry 15): 0 where none was there. -/
def otherLanes (s : State) (g : Group) (n : Nat) : List W32 :=
  let v := match otherHalf s g with
    | some h => h.v
    | none => (((s.partOf g).vacant.filter fun u => u.slot == g.slot && u.half.isSome && u.half != g.half
        && ((s.team? u.team).map (·.ctx)) == some g.ctx).getLast?.map (·.v)).getD []
  (List.range 16).map fun l => (SMap.get Lane.zero v (n * 32 + l)).val

/-- The 32 values that the main file holds of a group's register: of a legacy slot, half 0's in lanes 0 to 15 and half 1's in lanes 16
to 31 (R126, R204). -/
def fileLanes (s : State) (g : Group) (n : Nat) : List W32 :=
  let own := (List.range g.width).map fun l => (g.laneV n l).val
  match g.half with
  | none => own
  | some 0 => own ++ otherLanes s g n
  | some _ => otherLanes s g n ++ own

/-- Encoding of the lane values of a register: 0 UNIFORM, 1 BD8, 2 BD16, 3 RAW (R126). -/
def regEnc (xs : List W32) : Nat :=
  let ds := xs.map fun x => (x - xs.headD 0).toInt
  if ds.all fun d => d == 0 then 0
  else if ds.all fun d => decide (-128 ≤ d) && decide (d ≤ 127) then 1
  else if ds.all fun d => decide (-32768 ≤ d) && decide (d ≤ 32767) then 2
  else 3

/-- Stall cycles of a partial write that finds a register in one encoding and leaves it in another (R127). -/
def reencCycles (a b : Nat) : Nat := if a = 3 && b = 3 then 0 else if a = b then 1 else 3

/-- Late values have entered lanes of a group's registers, given as register and lane: a partial write that ends with them re-encodes its
register, from the encoding with its own lanes as they were before it, and delays the group's next turn, by the longest of several
(R127). -/
def lateWrote (s : State) (gid : Nat) (cells : List (Nat × Nat)) : State :=
  match s.anyGroup? gid with
  | none => s
  | some g =>
    let left := g.lateWr.map fun w => { w with lanes := w.lanes.filter fun l => !cells.contains (w.reg, l) }
    let found := fun w : PartWrite => w.old.foldl (fun h x => h.setV w.reg x.1 { h.laneV w.reg x.1 with val := x.2 }) g
    let cost := (left.filter fun w => w.lanes.isEmpty).foldl (fun m w =>
      max m (reencCycles (regEnc (fileLanes s (found w) w.reg)) (regEnc (fileLanes s g w.reg)))) 0
    let p := s.partOf g
    let s1 := if cost = 0 then s else s.setPartOf g { p with rfReenc := p.rfReenc + BitVec.ofNat 32 cost }
    if g.lateWr.isEmpty then s
    else s1.modGroup gid fun h => { h with
      lateWr := left.filter fun w => !w.lanes.isEmpty,
      stall := if cost = 0 then h.stall else max h.stall (s.clk g.die g.core) + cost }

end Sys2Proof.Machine
end

