-- ==== Sys2Proof/Machine/Flags.lean ====
section
/-!
DEFINITION. Condition codes and the counts and classes that instructions compute as flags would be elsewhere: compares
(R67), saturation (R136), leading and trailing counts (R105, R139).
-/
namespace Sys2Proof.Machine

/-- An integer condition over two values already read as integers (R67, R105, R141). -/
def condInt (c : Cond) (a b : Int) : Bool :=
  match c with
  | .eq => decide (a = b)
  | .ne => decide (a ≠ b)
  | .lt => decide (a < b)
  | .le => decide (a ≤ b)
  | .gt => decide (b < a)
  | .ge => decide (b ≤ a)
  | .un => false
  | .ord => true

/-- A value below 2^w read as a signed number. -/
def sext (w : Nat) (n : Nat) : Int := if n < 2 ^ (w - 1) then (n : Int) else (n : Int) - 2 ^ w

/-- A value read as its type reads it: signed or unsigned (R134). -/
def extBy (sgn : Bool) (w : Nat) (n : Nat) : Int := if sgn then sext w n else (n : Int)

/-- The low `w` bits of an integer. -/
def wrapTo (w : Nat) (x : Int) : Nat := (x % 2 ^ w).toNat

def clampInt (lo hi x : Int) : Int := if x < lo then lo else if hi < x then hi else x

/-- Saturation to a type's range (R136). -/
def satTo (sgn : Bool) (w : Nat) (x : Int) : Nat :=
  wrapTo w (if sgn then clampInt (-(2 ^ (w - 1))) (2 ^ (w - 1) - 1) x else clampInt 0 (2 ^ w - 1) x)

/-- Number of leading zeros of a value below 2^w; w for 0. -/
def clzNat (w n : Nat) : Nat := if n = 0 then w else w - 1 - Nat.log2 n

/-- Number of trailing zeros of a value below 2^w; w for 0. -/
def ctzNat (w n : Nat) : Nat := ((List.range w).find? fun i => n.testBit i).getD w

def popNat (w n : Nat) : Nat := ((List.range w).filter fun i => n.testBit i).length

/-- wins(p, q): 1 ≤ (p − q) mod 2^16 ≤ 2^15 (R244). -/
def wins (p q : Nat) : Bool :=
  let d := (p + 65536 - q % 65536) % 65536
  1 ≤ d && d ≤ 32768

end Sys2Proof.Machine
end

