-- ==== Sys2Proof/Machine/Groups.lean ====
section
/-!
DEFINITION. Lives of groups: network barrier counts and completion (R246 to R248, R421), retirement and vacated slots
(R111, R114, R116), glades and their draws (R113 to R117).
-/
namespace Sys2Proof.Machine

/-! ### Network barriers -/

/-- The instance of a scope that holds a core: quad, die, package, pod (R246). -/
def netInst (sc : Scope) (die core : Nat) : Nat :=
  match sc with
  | .quad => die * 12 + core / 4
  | .die => die
  | _ => 0

/-- One quad's clock step moved (R421), kept within ±4 and MAXSTEP; with MAXSTEP 0 a donor has always given that many, and only the
count of completions goes on. -/
def rebalance (s : State) (die cq fq : Nat) : State :=
  let d := s.die die
  let k := fldN d.rebal 0 4
  let mx := fldN d.rebal 4 4
  if cq = fq then s
  else
    let s1 := (List.range 12).foldl (fun s q => if q = cq then s else s.setQuad die q { s.quad die q with run := 0 }) s
    let r := s1.quad die cq
    if r.run + 1 < k then s1.setQuad die cq { r with run := r.run + 1 }
    else
      let s2 := s1.setQuad die cq { r with run := 0 }
      let fd := s2.quad die fq
      if mx = 0 || fd.step ≤ -(mx : Int) || (mx : Int) ≤ r.step then s2
      else
        let s3 := s2.setQuad die cq { s2.quad die cq with step := r.step + 1 }
        let s4 := s3.setQuad die fq { s3.quad die fq with step := fd.step - 1 }
        s4.setDie die { s4.die die with lastStep := s4.gtb.toNat }

/-- A pod barrier of a gang with a partition on a lost package (R440). -/
def podCut (s : State) (n : NetBar) : Bool :=
  n.key.scope == .pod && ((n.launch.bind s.launch?).map fun l => l.gang.any fun x => s.lost.contains (x.1 / 1024)) == some true

/-- A generation completes where its arrivals reach the expected count (R246, R247), and the quad of its last arrival is reported (R248).
DESIGN CHOICE (log entry 123): so too where a fall of the count completes it, and none is reported where no group has arrived. -/
def netCheck (s : State) (n : NetBar) : State × NetBar :=
  if n.arr < n.exp || podCut s n then (s, n)
  else
    let cfg := (List.range 4).map fun d => (d, (s.die d).nbcfg, (s.die d).nvt)
    let n' := { n with gen := (n.gen + 1) % 65536, arr := 0, arrived := [],
                       rel := n.rel ++ [⟨(n.gen + 1) % 65536, s.gtb.toNat, cfg⟩] }
    match n.key.scope, n.arrived.head?, n.arrived.getLast? with
    | .die, some a, some b => (rebalance s n.key.inst b.2 a.2, n')
    | _, _, _ => (s, n')

/-- Apply a change to the barriers that a test picks, each completed if its count now allows. -/
def netMap (s : State) (t : NetBar → Bool) (f : NetBar → NetBar) : State :=
  let r := s.nets.foldl (fun (a : State × List NetBar) n =>
    if t n then let c := netCheck a.1 (f n); (c.1, a.2 ++ [c.2]) else (a.1, a.2 ++ [n])) (s, [])
  { r.1 with nets := r.2 }

/-- The barriers of a launch whose instance holds a core. -/
def netHolds (g : Group) (n : NetBar) : Bool :=
  n.launch == some g.launch && n.key.inst == netInst n.key.scope g.die g.core

/-- A group retires or vacates its slot: the counts of the instances that hold it fall by 1 (R246). -/
def netFall (s : State) (g : Group) : State :=
  if g.iter.isSome then s else netMap s (netHolds g) fun n => { n with exp := n.exp - 1 }

/-- A group is drawn: the counts rise by 1 (R246). -/
def netRise (s : State) (g : Group) : State :=
  { s with nets := s.nets.map fun n => if netHolds g n then { n with exp := n.exp + 1 } else n }

/-! ### Slots -/

/-- A pipe launches no further iteration (R224, R227). -/
def Pipe.spent (q : Pipe) : Bool := q.brk.isSome || decide (q.n ≤ q.launched)

/-- A glade of a team on a partition holds a thread, or a draw of it waits (R116). -/
def drawsLeft (p : Partn) (team : Nat) : Bool :=
  (p.glades.any fun d => d.team == team) || (p.draws.any fun d => d.glade.team == team)

/-- A resident slot of a context's frame that some group or pipe of a partition occupies, or that is held for the draws of
a team (R12, R116, R213, R214). DESIGN CHOICE (log entry 121): the slot dedicated to a pipe stays taken until PJOIN. -/
def slotTaken (s : State) (ctx die core part slot : Nat) : Bool :=
  let p := s.partn die core part
  (s.allGroups.any fun g => g.ctx == ctx && g.die == die && g.core == core && g.part == part && g.slot == slot && !g.retired)
  || (p.pipes.any fun q => q.ctx == ctx && (q.slot == slot || (!q.spent && q.spare.contains slot)))
  || (p.vacant.any fun v => v.slot == slot && v.held && ((s.team? v.team).map (·.ctx)) == some ctx && drawsLeft p v.team)

/-- The declared v registers of the group that holds a slot; the register space a slot reserves is 128 B for each (R12). -/
def slotRegs (s : State) (ctx die core part slot : Nat) : Nat :=
  let p := s.partn die core part
  let team : Option Nat := match s.allGroups.find? fun g => g.ctx == ctx && g.die == die && g.core == core && g.part == part && g.slot == slot with
    | some g => some g.team
    | none => match p.pipes.find? fun (q : Pipe) => q.ctx == ctx && (q.slot == slot || (!q.spent && q.spare.contains slot)) with
      | some q => some q.team
      | none => (p.vacant.find? fun v => v.slot == slot && v.held && drawsLeft p v.team).map (·.team)
  match team.bind s.team? with
  | some t => kVregs t.kword
  | none => 0

/-- A context holds wide allocation on a core (R12). -/
def ctxWide (s : State) (ctx die core : Nat) : Bool :=
  s.teams.any fun t => t.ctx == ctx && t.die == die && t.core == core && t.wide

/-- Register space left in a context's frame on a partition, counted in v registers (R12). -/
def regRoom (s : State) (ctx die core part : Nat) : Nat :=
  (if ctxWide s ctx die core then 6144 else 2048) -
    ((List.range 24).map fun n => if slotTaken s ctx die core part n then slotRegs s ctx die core part n else 0).sum

/-- The vacant resident slots of a context's frame on a partition, of 24, lowest first (R12, R118). -/
def freeSlots (s : State) (ctx die core part : Nat) : List Nat :=
  (List.range 24).filter fun n => !slotTaken s ctx die core part n

/-- The slot of a group noted as vacated by its team. REFORM's stays held for the team's draws (R116); EXIT's is free to any taker
(R111), and DESIGN CHOICE (log entry 88): while nobody has taken it, a draw of the team may. -/
def noteVacant (s : State) (g : Group) (held : Bool) : State :=
  let p := s.partOf g
  s.setPartOf g { p with vacant := p.vacant ++ [⟨g.slot, g.half, g.team, g.grp, held, if g.half.isSome then g.v else []⟩] }

/-- The selected group is gone: its counts fall, its slot is vacant, held by REFORM and not by EXIT (R111, R114). -/
def retireFocus (s : State) (g : Group) (held : Bool) : State :=
  { noteVacant (netFall s g) g held with focus := none }

/-! ### Glades -/

/-- Lanes of a glade's group: 32, or 16 in a legacy kernel (R116, R209). -/
def gladeWidth (s : State) (g : Group) : Nat := if kL16 (s.kword g) then 16 else 32

/-- The thread of a lane as a glade keeps it (R114). -/
def fileLane (g : Group) (lane : Nat) : Filed :=
  { tid := g.tids.getD lane 0,
    v := (g.v.filter fun x => x.1 % 32 == lane).map fun x => (x.1 / 32, x.2),
    k := (List.range 16).filter fun n => n != 0 && (g.rdK n).getLsbD lane,
    s := g.s, nbv := g.nbv, trapbase := g.trapbase, trapvec := g.trapvec, sys := g.sys,
    preds := (g.preds.map fun p => (p.1, if p.2.isEmpty then [g.tids.getD lane 0] else p.2.filter (· == g.tids.getD lane 0))).filter
      fun p => !p.2.isEmpty }

/-- A glade taken out of the partition as a draw that waits for its slot. -/
def drawGlade (p : Partn) (gl : Glade) : Partn :=
  { p with glades := p.glades.filter fun x => x != gl, draws := p.draws ++ [⟨gl.id, gl⟩] }

/-- The glade filed earliest. -/
def eldest : List Glade → Option Glade
  | [] => none
  | g :: r =>
    match eldest r with
    | none => some g
    | some h => if h.since < g.since then some h else some g

/-- One thread arrives at a glade of its key, opening or freeing one where none carries it (R115). -/
def fileThread (id now width : Nat) (g : Group) (pc : W64) (t : Filed) (p : Partn) : Partn :=
  let same := fun (x : Glade) => x.team == g.team && x.role == g.role && x.pc == pc
  match p.glades.find? same with
  | some gl =>
    let gl' := { gl with filed := gl.filed ++ [t] }
    let p' := { p with glades := p.glades.map fun x => if x == gl then gl' else x }
    if width ≤ gl'.filed.length then drawGlade p' gl' else p'
  | none =>
    let p1 := if p.glades.length < 16 then p else match eldest p.glades with
      | some e => drawGlade p e
      | none => p
    { p1 with glades := p1.glades ++ [⟨id, g.ctx, g.launch, g.team, g.role, pc, now, [t]⟩] }

/-- Threads of a list in increasing TID order. -/
def insTid (t : Filed) : List Filed → List Filed
  | [] => [t]
  | x :: r => if t.tid ≤ x.tid then t :: x :: r else x :: insTid t r

def sortTid (ts : List Filed) : List Filed := ts.foldr insTid []

/-- One entry for each group, with the threads of all its entries. -/
def mergePreds (p : Preds) : Preds :=
  ((p.map (·.1)).eraseDups).map fun g => (g, ((p.filter fun x => x.1 == g).map (·.2)).flatten.eraseDups)

/-- The group a glade's threads form in a vacated slot (R116). -/
def drawnGroup (s : State) (gid die core part : Nat) (v : Vacancy) (gl : Glade) : Group :=
  let ts := sortTid gl.filed
  let first := ts.head?
  let lanes := List.range ts.length
  { gid := gid, die := die, core := core, part := part, slot := v.slot, half := v.half, ctx := gl.ctx, launch := gl.launch,
    team := gl.team, grp := v.grp, role := gl.role, tids := ts.map (·.tid),
    active := maskWhere lanes fun _ => true,
    s := (first.map (·.s)).getD [],
    v := (ts.zip lanes).foldl (fun m t => t.1.v.foldl (fun m x => SMap.set Lane.zero m (x.1 * 32 + t.2) x.2) m) [],
    k := (List.range 15).foldl (fun m n => SMap.set 0 m (n + 1)
      (maskWhere lanes fun l => ((ts[l]?).map fun t => t.k.contains (n + 1)).getD false)) [],
    x := [], hdr := gl.pc, idx := 0, clause := none, entered := false, voidm := 0, bkpass := 0,
    nbv := (first.map (·.nbv)).getD 3, trapbase := (first.map (·.trapbase)).getD 0,
    trapvec := (first.map (·.trapvec)).getD 0, sys := (first.map (·.sys)).getD false, trap := none,
    framed := false, stopped := false, pass := false, sleep := .awake, iter := none, opened := none, gates := [],
    preds := (gid, []) :: mergePreds (ts.map (·.preds)).flatten, waitFor := none, inSet := false, age := s.clk die core, ready := none, nHold := none,
    stall := 0, fill := 0, fast := [], tried := none, holds := false, sld := none, late := [], lastCmd := none, lateWr := [], retired := false, started := true }

end Sys2Proof.Machine
end

