-- ==== Sys2Proof/Machine/Control.lean ====
section
/-!
DEFINITION. Control transfers, EXIT, REFORM and NOP (R104, R109 to R115).
-/
namespace Sys2Proof.Machine

/-- The clause header at H + 8 × offset (R109). -/
def targetOf (g : Group) (off : W32) : W64 := g.hdr + BitVec.ofInt 64 (8 * off.toInt)

/-- A taken transfer: the group at the target as a clause position, its entry delayed by 3 cycles (R110). -/
def takeTo (s : State) (h : W64) : Out :=
  .next (s.modG fun g => { g.jump h with stall := s.clk g.die g.core + 4 })

/-- A direct transfer taken where a test holds (R104, R109). -/
def branchOp (i : Instr) (f : FC) (s : State) (taken : Group → Bool) : Out :=
  issue i s fun g =>
    if g.act f.p ≠ 0 ∧ taken g then takeTo s (targetOf g f.off) else done s

/-- k of a transfer in the active lanes. -/
def kActive (g : Group) (o : Opnd) : W32 := (match o with | .k n => g.rdK n.toNat | _ => 0) &&& g.active

def execBra (f : FC) (s : State) : Out := branchOp (.bra f) f s fun _ => true
def execBz (f : FC) (s : State) : Out := branchOp (.bz f) f s fun g => g.rdSc f.a == 0
def execBnz (f : FC) (s : State) : Out := branchOp (.bnz f) f s fun g => g.rdSc f.a != 0
def execBany (f : FC) (s : State) : Out := branchOp (.bany f) f s fun g => kActive g f.a != 0
def execBall (f : FC) (s : State) : Out := branchOp (.ball f) f s fun g => kActive g f.a == g.active
def execBnone (f : FC) (s : State) : Out := branchOp (.bnone f) f s fun g => kActive g f.a == 0

/-- CALL: the address of the word after it goes to the link register (R109). -/
def execCall (f : FC) (s : State) : Out :=
  issue (.call f) s fun g =>
    if g.act f.p = 0 then done s
    else takeTo (s.modG fun h => h.wrS f.link.toNat (g.iaddr + 8)) (targetOf g f.off)

/-- A transfer to a held address; one not a multiple of 8 raises ALIGN with the PC unchanged (R110). -/
def indirectOp (i : Instr) (f : FC) (s : State) (dest : Group → W64) : Out :=
  issue i s fun g =>
    if g.act f.p = 0 then done s
    else if (dest g).toNat % 8 ≠ 0 then raise s i .align (dest g) 0 0
    else takeTo s (dest g)

def execRet (f : FC) (s : State) : Out := indirectOp (.ret f) f s fun g => g.rdS f.link.toNat
def execBrx (f : FC) (s : State) : Out := indirectOp (.brx f) f s fun g => g.rdSc f.a

/-- EXIT retires the acting lanes; with no lane left the group retires and frees its slot (R111, R209). -/
def execExit (f : FC) (s : State) : Out :=
  issue (.exit f) s fun g =>
    let left := g.active &&& ~~~ (g.act f.p)
    if left = 0 then .next (retireFocus (s.modG fun h => { h with active := 0 }) { g with active := 0 } false)
    else done (s.modG fun h => { h with active := left })

def execNop (f : FC) (s : State) : Out := issue (.nop f) s fun _ => done s

/-- No v register is EMPTY in any lane (R114). -/
def anyOwed (g : Group) : Bool := g.v.any fun x => x.2.empty

/-- The next PC of a thread (R113). -/
def reformPc (s : State) (g : Group) (f : FC) (lane : Nat) : W64 :=
  let t := if (g.act f.p).getLsbD lane then (s.rd32 g .f32 f.a lane).toNat else 0
  if t = 0 then g.iaddr + 8 else (((s.team? g.team).map (·.kaddr)).getD 0) + BitVec.ofNat 64 (8 * t)

/-- REFORM files each active thread into the glade of its role and next PC and vacates the slot (R113 to R115). DESIGN CHOICE (log entry
126): in increasing lane order. -/
def execReform (f : FC) (s : State) : Out :=
  issue (.reform f) s fun g =>
    if anyOwed g then waits s .stall
    else withSrcs (.reform f) s g false [srcAt f.a false false (g.act f.p)] fun s1 =>
      let now := s.clk g.die g.core
      let p := (lanesOf g.active).foldl (fun (a : Partn × Nat) l =>
        (fileThread a.2 now (gladeWidth s g) g (reformPc s g f l) (fileLane g l) a.1, a.2 + 1)) (s1.partOf g, s1.nextId)
      .next (retireFocus { s1.setPartOf g p.1 with nextId := p.2 } g true)

end Sys2Proof.Machine
end

