-- ==== Sys2Proof/Machine/Fp.lean ====
section
/-!
DEFINITION. Floating formats, exact values, rounding, NaNs and the numeric-behaviour version (R144 to R150, R159, R160).
A finite value is (−1)^neg × m × 2^e with m a natural number, so sums and products are exact and round once.
-/
namespace Sys2Proof.Machine

/-- A floating format (R144): widths of exponent and fraction, bias; `e4` has no Inf and one NaN pattern per sign. -/
structure Fmt where
  eb   : Nat
  mb   : Nat
  bias : Nat
  e4   : Bool
deriving DecidableEq, Repr

def fF32 : Fmt := ⟨8, 23, 127, false⟩
def fF16 : Fmt := ⟨5, 10, 15, false⟩
def fBf16 : Fmt := ⟨8, 7, 127, false⟩
def fE4 : Fmt := ⟨4, 3, 7, true⟩
def fE5 : Fmt := ⟨5, 2, 15, false⟩

def Fmt.width (f : Fmt) : Nat := 1 + f.eb + f.mb
/-- All-ones exponent field. -/
def Fmt.emax (f : Fmt) : Nat := 2 ^ f.eb - 1
/-- The sign bit as a number. -/
def Fmt.signBit (f : Fmt) (neg : Bool) : Nat := if neg then 2 ^ (f.eb + f.mb) else 0
/-- Magnitude code of the largest finite value (R144). -/
def Fmt.maxCode (f : Fmt) : Nat := if f.e4 then f.emax * 2 ^ f.mb + 6 else f.emax * 2 ^ f.mb - 1
/-- Magnitude code of Inf; NaN in E4M3 (R144, R160). -/
def Fmt.infCode (f : Fmt) : Nat := if f.e4 then f.emax * 2 ^ f.mb + 7 else f.emax * 2 ^ f.mb
/-- The canonical NaN (R144). -/
def Fmt.canon (f : Fmt) : Nat := if f.e4 then 0x7F else f.emax * 2 ^ f.mb + 2 ^ (f.mb - 1)

/-- A value read from a format. -/
inductive FV where
  | nan (raw : Nat)
  | inf (neg : Bool)
  | fin (neg : Bool) (m : Nat) (e : Int)
deriving DecidableEq, Repr

/-- The value of a code (R144). -/
def Fmt.dec (f : Fmt) (n : Nat) : FV :=
  let neg := n / 2 ^ (f.eb + f.mb) % 2 == 1
  let ex := n / 2 ^ f.mb % 2 ^ f.eb
  let fr := n % 2 ^ f.mb
  if f.e4 && ex == f.emax && fr == 7 then .nan (n % 2 ^ f.width)
  else if !f.e4 && ex == f.emax then (if fr == 0 then .inf neg else .nan (n % 2 ^ f.width))
  else if ex == 0 then .fin neg fr (1 - (f.bias : Int) - f.mb)
  else .fin neg (2 ^ f.mb + fr) ((ex : Int) - f.bias - f.mb)

def FV.isNan : FV → Bool
  | .nan _ => true
  | _ => false

def FV.isZero : FV → Bool
  | .fin _ 0 _ => true
  | _ => false

def FV.negate : FV → FV
  | .nan r => .nan r
  | .inf n => .inf (!n)
  | .fin n m e => .fin (!n) m e

/-! ### Rounding (R146) -/

/-- Number of bits of a natural number. -/
def bitLen (n : Nat) : Nat := if n = 0 then 0 else Nat.log2 n + 1

/-- Whether to step up from a quotient: `c` compares the remainder with half (0 none, 1 below, 2 tie, 3 above). -/
def roundUp (mode : Rnd) (neg : Bool) (odd : Bool) (c : Nat) : Bool :=
  match mode with
  | .rne => c == 3 || (c == 2 && odd)
  | .rna => 2 ≤ c
  | .rtz => false
  | .rup => c != 0 && !neg
  | .rdn => c != 0 && neg

/-- m / 2^sh rounded, with `sticky` telling that the exact value exceeds m by less than one unit. -/
def roundShift (mode : Rnd) (neg : Bool) (m sh : Nat) (sticky : Bool) : Nat :=
  if bitLen m + 2 < sh then
    (if roundUp mode neg false (if m = 0 && !sticky then 0 else 1) then 1 else 0)
  else if sh = 0 then
    (if roundUp mode neg (m % 2 == 1) (if sticky then 1 else 0) then m + 1 else m)
  else
    let q := m / 2 ^ sh
    let r := m % 2 ^ sh
    let h := 2 ^ (sh - 1)
    let c := if r = 0 && !sticky then 0 else if r < h then 1 else if r = h && !sticky then 2 else 3
    if roundUp mode neg (q % 2 == 1) c then q + 1 else q

/-- Whether an overflow gives Inf and not the largest finite value (R146). -/
def ovfInf (mode : Rnd) (neg : Bool) : Bool :=
  match mode with
  | .rne | .rna => true
  | .rtz => false
  | .rup => !neg
  | .rdn => neg

/-- The code of a magnitude m × 2^e with a sign, rounded once (R146); `sat` saturates an overflow (R160). -/
def Fmt.round (f : Fmt) (mode : Rnd) (sat : Bool) (neg : Bool) (m : Nat) (e : Int) (sticky : Bool) : Nat :=
  if m = 0 && !sticky then f.signBit neg
  else
    let emin : Int := 1 - (f.bias : Int) - f.mb
    let q : Int := max ((bitLen m : Int) + e - (f.mb + 1)) emin
    let r0 := if e ≤ q then roundShift mode neg m (q - e).toNat sticky else m * 2 ^ (e - q).toNat
    let up := r0 == 2 ^ (f.mb + 1)
    let r := if up then 2 ^ f.mb else r0
    let q := if up then q + 1 else q
    let code : Nat := if r < 2 ^ f.mb then r else (q - emin + 1).toNat * 2 ^ f.mb + (r - 2 ^ f.mb)
    f.signBit neg +
      (if f.maxCode < code then (if !sat && ovfInf mode neg then f.infCode else f.maxCode) else code)

/-! ### Exact sums -/

/-- A sum of finite terms as an integer at the least exponent. -/
def sumFin (ts : List (Bool × Nat × Int)) : Int × Int :=
  let e0 := ts.foldl (fun a t => if t.2.1 = 0 then a else min a t.2.2) (ts.foldl (fun a t => max a t.2.2) (-1100))
  (ts.foldl (fun a t => if t.2.1 = 0 then a else
      let x : Int := (t.2.1 : Int) * 2 ^ (t.2.2 - e0).toNat
      if t.1 then a - x else a + x) 0, e0)

/-- The sign of an exact zero sum (R147): the common sign of zero terms, else + (− under `.rdn`). -/
def zeroSign (mode : Rnd) (ts : List (Bool × Nat × Int)) : Bool :=
  if ts.all (fun t => t.1 && t.2.1 == 0) then true
  else if ts.all (fun t => !t.1 && t.2.1 == 0) then false
  else mode == .rdn

/-- Terms of a sum that holds no NaN. -/
def FV.term : FV → Bool × Nat × Int
  | .fin n m e => (n, m, e)
  | .inf n => (n, 0, 0)
  | .nan _ => (false, 0, 0)

def FV.isInf (neg : Bool) : FV → Bool
  | .inf n => n == neg
  | _ => false

/-- The exact sum of values without NaN, rounded once (R146, R147). -/
def Fmt.sum (f : Fmt) (mode : Rnd) (vs : List FV) : Nat :=
  if vs.any (FV.isInf false) && vs.any (FV.isInf true) then f.canon
  else if vs.any (FV.isInf false) then f.infCode
  else if vs.any (FV.isInf true) then f.signBit true + f.infCode
  else
    let ts := vs.map FV.term
    let r := sumFin ts
    if r.1 = 0 then f.signBit (zeroSign mode ts)
    else f.round mode false (decide (r.1 < 0)) r.1.natAbs r.2 false

/-- An exact product; none for 0 × Inf (R147). -/
def FV.mul : FV → FV → Option FV
  | .nan r, _ => some (.nan r)
  | _, .nan r => some (.nan r)
  | .inf a, .inf b => some (.inf (a != b))
  | .inf a, .fin b m _ => if m = 0 then none else some (.inf (a != b))
  | .fin a m _, .inf b => if m = 0 then none else some (.inf (a != b))
  | .fin a m e, .fin b n d => some (.fin (a != b) (m * n) (e + d))

/-- The code of a value rounded into a format. -/
def Fmt.ofFV (f : Fmt) (mode : Rnd) (v : FV) : Nat :=
  match v with
  | .nan _ => f.canon
  | .inf n => f.signBit n + f.infCode
  | .fin n m e => f.round mode false n m e false

/-! ### NaNs (R145, R148, R159) -/

/-- A NaN code of one format as a quiet NaN of another: sign kept, fraction aligned at its top (R159). -/
def convNan (src dst : Fmt) (raw : Nat) : Nat :=
  let neg := raw / 2 ^ (src.eb + src.mb) % 2 == 1
  if dst.e4 then dst.signBit neg + 0x7F
  else if dst.mb == 2 then dst.signBit neg + 0x7E
  else
    let fr := raw % 2 ^ src.mb
    let fr' := if src.mb ≤ dst.mb then fr * 2 ^ (dst.mb - src.mb) else fr / 2 ^ (src.mb - dst.mb)
    dst.signBit neg + dst.emax * 2 ^ dst.mb + (fr' ||| 2 ^ (dst.mb - 1))

/-- The NaN of an operation: the first NaN operand quieted and converted; at NBV 1 the canonical NaN (R148). -/
def nanResult (nbv : Nat) (src dst : Fmt) (vs : List FV) : Nat :=
  if nbv = 1 then dst.canon
  else match vs.find? FV.isNan with
    | some (.nan r) => convNan src dst r
    | _ => dst.canon

/-! ### The version's subnormal rules (R150) -/

/-- FP32 operands at NBV 2 and 1: a subnormal reads as zero of its sign. -/
def finF32 (nbv n : Nat) : Nat :=
  if nbv ≤ 2 && n / 2 ^ 23 % 256 == 0 then n / 2 ^ 31 % 2 * 2 ^ 31 else n

/-- FP32 results at NBV 2 and 1: a result below 2^−126 becomes zero of its sign. -/
def foutF32 (nbv n : Nat) : Nat :=
  if nbv ≤ 2 && n / 2 ^ 23 % 256 == 0 then n / 2 ^ 31 % 2 * 2 ^ 31 else n

/-- The rounding mode in force (R150). -/
def modeAt (nbv : Nat) (r : Rnd) : Rnd := if nbv = 1 then .rne else r

/-! ### The arithmetic of R153, R162, shared by the formats -/

/-- a + b. -/
def Fmt.addOp (f : Fmt) (nbv : Nat) (mode : Rnd) (a b : Nat) : Nat :=
  let x := f.dec a
  let y := f.dec b
  if x.isNan || y.isNan then nanResult nbv f f [x, y] else f.sum mode [x, y]

/-- a × b. -/
def Fmt.mulOp (f : Fmt) (nbv : Nat) (mode : Rnd) (a b : Nat) : Nat :=
  let x := f.dec a
  let y := f.dec b
  if x.isNan || y.isNan then nanResult nbv f f [x, y]
  else match x.mul y with
    | none => f.canon
    | some p => f.ofFV mode p

/-- a × b + c: one rounding, or at NBV 1 the product rounded and then the sum (R150). -/
def Fmt.fmaOp (f : Fmt) (nbv : Nat) (mode : Rnd) (a b c : Nat) : Nat :=
  let x := f.dec a
  let y := f.dec b
  let z := f.dec c
  if x.isNan || y.isNan || z.isNan then nanResult nbv f f [x, y, z]
  else match x.mul y with
    | none => f.canon
    | some p =>
      if nbv = 1 then f.sum .rne [f.dec (f.ofFV .rne p), z]
      else f.sum mode [p, z]

/-! ### Order of values (R154, R155) -/

/-- A key that orders values without NaN; −0 below +0 when `zeros` is set. -/
def FV.lt (zeros : Bool) (a b : FV) : Bool :=
  match a, b with
  | .inf x, .inf y => x && !y
  | .inf x, _ => x
  | _, .inf y => !y
  | .fin x m e, .fin y n d =>
    if m = 0 && n = 0 then zeros && x && !y
    else (sumFin [(x, m, e), (!y, n, d)]).1 < 0
  | _, _ => false

/-- FMIN and FMAX of two codes (R154). -/
def minMaxOp (nbv : Nat) (isMin : Bool) (a b : Nat) : Nat :=
  let x := fF32.dec a
  let y := fF32.dec b
  if x.isNan && y.isNan then nanResult nbv fF32 fF32 [x, y]
  else if x.isNan then b
  else if y.isNan then a
  else if isMin then (if y.lt true x then b else a)
  else (if x.lt true y then b else a)

end Sys2Proof.Machine
end

