-- ==== Sys2Proof/Machine/Angle.lean ====
section
/-!
DEFINITION. Exact mathematics of angles: integer square roots, the circle table (R344), the resultant (R345), angles of
vectors and of radians (R352, R353). Nothing here rounds but where the spec rounds.
-/
namespace Sys2Proof.Machine

/-! ### Square roots -/

/-- Newton steps down to the integer square root. -/
def isqrtGo (n : Nat) : Nat → Nat → Nat
  | 0, x => x
  | k + 1, x =>
    let y := (x + n / x) / 2
    if y < x then isqrtGo n k y else x

/-- The integer square root. -/
def isqrt (n : Nat) : Nat := if n = 0 then 0 else isqrtGo n (bitLen n + 8) (2 ^ ((bitLen n + 1) / 2))

/-! ### The circle table -/

/-- Unit of the fixed-point numbers of the table. -/
def circleOne : Int := 2 ^ 112

/-- The half angle of (c, s), for angles up to a half turn. -/
def halfAngle (c : Int) : Int × Int :=
  (isqrt ((circleOne + c) * (circleOne / 2)).toNat, isqrt ((circleOne - c) * (circleOne / 2)).toNat)

/-- The unit vector (x, y) turned by each bit of an angle code, from the half turn down. -/
def turnBits (a : Nat) : Nat → Int × Int → Int × Int → Int × Int
  | 0, _, v => v
  | k + 1, r, v =>
    let w := if a.testBit k then ((v.1 * r.1 - v.2 * r.2) / circleOne, (v.1 * r.2 + v.2 * r.1) / circleOne) else v
    turnBits a k (halfAngle r.1) w

/-- Nearest multiple of 2^−14. -/
def toTable (x : Int) : Int := (x * 2 ^ 15 + circleOne) / (2 * circleOne)

/-- C(a) and S(a) for a PH16 angle code (R344). The entries' distance from a tie is far above the error of the
fixed-point turn. -/
def circle (a : Nat) : Int × Int :=
  let v := turnBits a 15 (-circleOne, 0) (circleOne, 0)
  (toTable v.1, toTable v.2)

/-! ### The angle of an integer vector -/

/-- Leading bits of the angle of (x, y) as a fraction of a turn: each squaring of x + iy doubles the angle. -/
def angleBits : Nat → Int → Int → Nat
  | 0, _, _ => 0
  | n + 1, x, y =>
    let b := if y < 0 || (y = 0 && x < 0) then 1 else 0
    b * 2 ^ n + angleBits n (x * x - y * y) (2 * x * y)

/-- atan2(y, x) in units of 2^−m of a turn, nearest, modulo 2^m, for (x, y) ≠ (0, 0). No integer vector lies on a
boundary between codes, since the tangent of an odd multiple of 2^−(m + 1) turn is irrational. -/
def angleOf (m : Nat) (x y : Int) : Nat := (angleBits (m + 1) x y + 1) / 2 % 2 ^ m

/-- √(s) / n rounded to nearest, ties to even, for n > 0. -/
def rootQuot (s n : Nat) : Nat :=
  let k := isqrt (s / (n * n))
  let a := 4 * s
  let b := (2 * k + 1) * (2 * k + 1) * (n * n)
  if b < a then k + 1 else if a = b then k + k % 2 else k

/-- resultant(X, Y, n) (R345). -/
def resultant (x y : Int) (n : Nat) : Nat :=
  if n = 0 || (x = 0 && y = 0) then 0xFFFF
  else min 0x8000 (rootQuot (4 * (x * x + y * y).toNat) n) * 65536 + angleOf 15 x y

/-! ### Radians (R353) -/

/-- 2π × 2^400, rounded down. -/
def twoPi : Nat :=
  0x6487ed5110b4611a62633145c06e0e68948127044533e63a0105df531d89cd9128a5043cc71a026ef7ca8cd9e69d218d98158

/-- round_f32 of a PH16 angle in radians. -/
def radOfPh16 (a : Nat) : Nat := fF32.round .rne false false (a * twoPi) (-415) (a != 0)

/-- The PH16 code nearest to a finite number of radians, (−1)^neg × m × 2^e. -/
def ph16OfRad (neg : Bool) (m : Nat) (e : Int) : Nat :=
  let n : Nat := m * 2 ^ (e + 15 + 416).toNat
  let q := (n + twoPi * 2 ^ 15) / (twoPi * 2 ^ 16)
  (if neg then 2 ^ 15 - q % 2 ^ 15 else q) % 2 ^ 15

end Sys2Proof.Machine
end

