-- ==== Sys2Proof/Machine/Planes.lean ====
section
/-!
DEFINITION. Page formats and bit-plane integers: where the bytes of an element lie, views, scale codes, the value LDF
delivers (R175, R176, R184, R273 to R282).
-/
namespace Sys2Proof.Machine

/-! ### A leaf's format fields (R169, R175, R176) -/

def leafFmt (l : W64) : Nat := fldN l 60 4
def leafGeom (l : W64) : Nat := fldN l 52 8
def geomSc (g : Nat) : Bool := g.testBit 7
def geomDir (g : Nat) : Bool := g.testBit 6
def geomMid (g : Nat) : Bool := g.testBit 5
def geomPs (g : Nat) : Nat := g % 32

/-- A plane-major format (R175). -/
def fmtIsBp (f : Nat) : Bool := decide (8 ≤ f) && decide (f ≤ 14)
/-- Nominal element width in bytes (R175). -/
def fmtWidth (f : Nat) : Nat := if f = 1 then 4 else if f = 2 || f = 3 || f = 6 then 2 else 1

/-- FMT and GEOM agree with R175 and R176. -/
def fmtOk (f g : Nat) : Bool :=
  f != 15
    && (!geomSc g || f == 4 || f == 5 || fmtIsBp f)
    && (if fmtIsBp f then decide (7 ≤ geomPs g) && decide (geomPs g ≤ 16) else !geomMid g && geomPs g == 0)

/-! ### Views (R274) -/

/-- The k-plane view of a code byte: its k most significant bits as a signed number, at the centre of the interval in MID
mode. -/
def viewVal (k : Nat) (mid : Bool) (x : Nat) : Int :=
  let y := sext 8 (x % 256)
  let t := y / 2 ^ (8 - k) * 2 ^ (8 - k)
  if mid && decide (k < 8) then t + 2 ^ (7 - k) else t

/-! ### Where an element lies (R184, R276 to R279) -/

/-- The block of element j of a tile (R278). -/
def blockOf (dir : Bool) (j : Nat) : Nat :=
  if dir then 32 * (j / 32 / 32) + j % 32 else j / 32

/-- The bytes of one element: offsets from the page base in the order plane 0 first, or one run; the scale byte last where
the page has scales. `bit` is the bit of each plane byte. -/
structure ElemAt where
  offs : List Nat
  len  : Nat
  bit  : Nat
  sc   : Option Nat
deriving DecidableEq, Repr

/-- Element i of a page of a size; none where its tile or unit does not lie wholly inside the page (R277, R279). -/
def elemAt (fmt geom size i : Nat) : Option ElemAt :=
  if fmtIsBp fmt then
    let k := fmt - 6
    let p := 2 ^ geomPs geom
    let f := k * p + (if geomSc geom then p / 4 else 0)
    let t := i / (8 * p)
    let j := i % (8 * p)
    if size < (t + 1) * f then none
    else some ⟨(List.range k).map fun q => t * f + q * p + j / 8, 1, j % 8,
               if geomSc geom then some (t * f + k * p + blockOf (geomDir geom) j) else none⟩
  else if geomSc geom then
    let u := i / 4096
    let j := i % 4096
    if size < (u + 1) * 4224 then none
    else some ⟨[u * 4224 + j], 1, 0, some (u * 4224 + 4096 + blockOf (geomDir geom) j)⟩
  else some ⟨[i * fmtWidth fmt], fmtWidth fmt, 0, none⟩

/-! ### The value of an element (R184, R281) -/

/-- The code byte whose top bits are the planes read, plane 0 first. -/
def gatherPlanes (bit : Nat) (bs : List Nat) : Nat :=
  (bs.foldl (fun a b => 2 * a + b / 2 ^ bit % 2) 0) * 2 ^ (8 - bs.length)

/-- An integer as FP32; every view is exact. -/
def f32OfInt (x : Int) : Nat := fF32.round .rne false (decide (x < 0)) x.natAbs 0 false

/-- The FP32 value of an element's code in a format, exact, NaN by R159. -/
def elemF32 (fmt geom bit : Nat) (bs : List Nat) : Nat :=
  let n := bs.foldr (fun b a => b + 256 * a) 0
  let widen := fun (f : Fmt) => match f.dec n with
    | .nan r => convNan f fF32 r
    | v => fF32.ofFV .rne v
  if fmtIsBp fmt then f32OfInt (viewVal (fmt - 6) (geomMid geom) (gatherPlanes bit bs))
  else match fmt with
    | 1 => n
    | 2 => widen fBf16
    | 3 => widen fF16
    | 4 => widen fE4
    | 5 => widen fE5
    | _ => n

/-- The product with a block's scale: canonical NaN for a NaN scale, else exact or Inf (R184, R281). -/
def scaleF32 (r : Nat) (sc : Nat) : Nat :=
  if sc = 255 then fF32.canon
  else match fF32.dec r with
    | .nan _ => r
    | .fin n m e => fF32.round .rne false n m (e + sc - 127) false
    | v => fF32.ofFV .rne v

/-- The PH16 code of an element (R184). -/
def elemPh16 (fmt : Nat) (bs : List Nat) : Nat :=
  let n := bs.foldr (fun b a => b + 256 * a) 0
  if fmt = 6 then (if n / 2 ^ 15 % 2 = 1 then 0xFFFF else n)
  else if n / 128 % 2 = 1 then 0xFFFF else n % 128 * 256

/-- What LDF writes from an element's bytes and its scale code. -/
def ldfVal (fmt geom bit : Nat) (bs : List Nat) (sc : Option Nat) : Nat :=
  if fmt = 6 || fmt = 7 then elemPh16 fmt bs
  else match sc with
    | some c => scaleF32 (elemF32 fmt geom bit bs) c
    | none => elemF32 fmt geom bit bs

/-- The LDF result of a format: f32 (true) or ph16; none for RAW (R175). -/
def ldfIsF32 (fmt : Nat) : Option Bool :=
  if fmt = 0 then none else if fmt = 6 || fmt = 7 then some false else some true

end Sys2Proof.Machine
end

