-- ==== Sys2Proof/Machine/Product.lean ====
section
/-!
DEFINITION. The arithmetic of the matrix arrays as functions of slot bytes: slot layouts (R293), block and group sums
(R283, R284, R300), outlier entries (R286), phasor terms (R304).
-/
namespace Sys2Proof.Machine

/-! ### Slot layouts (R293) -/

/-- K of a tag; planes of a bp8 tag. -/
def tagPl (t : SlotTag) : Nat := if t.pl4 then 4 else 8
def tagK (t : SlotTag) : Nat := if t.fmt = 15 then (if t.pl4 then 256 else 128) else if t.fmt = 11 || t.fmt = 12 then 128 else 64

/-- Bytes of one plane of a bp8 slot. -/
def planeBytes (t : SlotTag) : Nat := if t.pl4 then 512 else 256

/-- Bytes of a slot that a view reads (R310). -/
def viewBytes (t : SlotTag) (view : Nat) : Nat := if t.fmt = 15 then planeBytes t * view else 2048

/-- The codes of row r of a slot: element bytes joined, or the planes of the view gathered. -/
def rowCodes (t : SlotTag) (view : Nat) (bs : List Nat) (r : Nat) : List Nat :=
  if t.fmt = 15 then
    let w := planeBytes t / 16
    let ps := (List.range view).map fun p => (bs.drop (planeBytes t * p + w * r)).take w
    (List.range (tagK t)).map fun k => gatherPlanes (k % 8) (ps.map fun b => b.getD (k / 8) 0)
  else if t.fmt = 11 || t.fmt = 12 then (bs.drop (128 * r)).take 128
  else
    let b := (bs.drop (128 * r)).take 128
    (List.range 64).map fun k => b.getD (2 * k) 0 + 256 * b.getD (2 * k + 1) 0

/-- Poison of row r of a slot. -/
def rowBad (t : SlotTag) (view : Nat) (bs : List Bad) (r : Nat) : Bad :=
  let mine := if t.fmt = 15 then
      let w := planeBytes t / 16
      ((List.range view).map fun p => (bs.drop (planeBytes t * p + w * r)).take w).flatten
    else (bs.drop (128 * r)).take 128
  if mine.contains .margin then .margin else if mine.contains .poison then .poison else .ok

/-- The floating format of a slot's elements. -/
def tagFmt (t : SlotTag) : Fmt := match t.fmt with | 9 => fF16 | 11 => fE4 | 12 => fE5 | _ => fBf16

/-! ### The accumulator (R147, R148, R300) -/

/-- z + v where v is a group's contribution. -/
def addToZ (nbv z v : Nat) : Nat :=
  let x := fF32.dec z
  let y := fF32.dec v
  if x.isNan || y.isNan then nanResult nbv fF32 fF32 [x, y] else fF32.sum .rne [x, y]

/-- A finite value times 2^e. -/
def FV.scale (e : Int) : FV → FV
  | .fin n m x => .fin n m (x + e)
  | v => v

/-- Scale code of a block of a row (R282, R300). -/
def scaleAt (xs : List Nat) (row q : Nat) : Nat := if q < 4 then xs.getD (4 * row + q) 127 else xs.getD (64 + 4 * row + q - 4) 127

/-- The sum of a group at NBV 1: each product rounded in turn; a NaN stays. -/
def seqSum (e : Int) (s : Nat) : List FV → Nat
  | [] => s
  | p :: r => seqSum e (if (fF32.dec s).isNan then s else fF32.sum .rne [fF32.dec s, p.scale e]) r

/-- The first NaN of a group, A before B at each K. -/
def firstNan (fa fb : Fmt) : List (FV × FV) → Option Nat
  | [] => none
  | (a, b) :: r =>
    match a, b with
    | .nan x, _ => some (convNan fa fF32 x)
    | _, .nan x => some (convNan fb fF32 x)
    | _, _ => firstNan fa fb r

/-- A floating group's contribution (R300). -/
def groupF (nbv : Nat) (fa fb : Fmt) (ea eb : Nat) (xs : List (FV × FV)) : Nat :=
  let e : Int := (ea : Int) + eb - 254
  if ea = 255 || eb = 255 then fF32.canon
  else match firstNan fa fb xs with
    | some n => if nbv = 1 then fF32.canon else n
    | none =>
      let ps := xs.map fun x => x.1.mul x.2
      if ps.any Option.isNone then fF32.canon
      else
        let qs := ps.filterMap id
        if qs.any (FV.isInf false) && qs.any (FV.isInf true) then fF32.canon
        else if nbv = 1 then
          (match qs with
           | [] => 0
           | p :: r => seqSum e (fF32.ofFV .rne (p.scale e)) r)
        else fF32.sum (if nbv = 2 then .rtz else .rne) (qs.map (FV.scale e))

/-- A bit-plane group's contribution: the exact integer scaled (R283, R284). -/
def groupBp (nbv : Nat) (ea eb : Nat) (xs : List (Int × Int)) : Nat :=
  if ea = 255 || eb = 255 then fF32.canon
  else
    let d := xs.foldl (fun a x => a + x.1 * x.2) 0
    let e : Int := (ea : Int) + eb - 254
    if d = 0 then 0
    else if decide (128 < (bitLen d.natAbs : Int) + e) then fF32.signBit (decide (d < 0)) + fF32.infCode
    else fF32.round (if nbv = 2 then .rtz else .rne) false (decide (d < 0)) d.natAbs e false

/-- Size of a group at a version (R300). -/
def groupSize (nbv : Nat) : Nat := if nbv = 3 then 32 else if nbv = 2 then 8 else 4

/-- Groups of g elements in increasing K added to z; the block of group number n is n / (32 / g). -/
def addGroups {α : Type} (nbv g : Nat) (sa sb : Nat → Nat) (val : Nat → Nat → List α → Nat) : Nat → Nat → Nat → List α → Nat
  | 0, _, z, _ => z
  | k + 1, n, z, xs =>
    match xs with
    | [] => z
    | _ =>
      let q := n / (32 / g)
      addGroups nbv g sa sb val k (n + 1) (addToZ nbv z (val (sa q) (sb q) (xs.take g))) (xs.drop g)

/-- One output element: z after the floating products of row i of A and row j of B. -/
def dotF (nbv : Nat) (fa fb : Fmt) (xa xb : List Nat) (i j z : Nat) (a b : List Nat) : Nat :=
  addGroups nbv (groupSize nbv) (scaleAt xa i) (scaleAt xb j) (groupF nbv fa fb) a.length 0 z
    ((a.zip b).map fun x => (fa.dec x.1, fb.dec x.2))

/-- The same for bit-plane views, which are signed integers. -/
def dotBp (nbv : Nat) (xa xb : List Nat) (i j z : Nat) (a b : List Int) : Nat :=
  addGroups nbv (groupSize nbv) (scaleAt xa i) (scaleAt xb j) (groupBp nbv) a.length 0 z (a.zip b)

/-! ### Outliers (R286) -/

/-- VAL × bval added to an element of z. -/
def outlierInto (nbv : Nat) (fb : Fmt) (val z : Nat) (b : FV) : Nat :=
  let v := fF16.dec val
  let w := fF32.dec z
  if v.isNan || b.isNan || w.isNan then
    if nbv = 1 then fF32.canon
    else match v, b with
      | .nan r, _ => convNan fF16 fF32 r
      | _, .nan r => convNan fb fF32 r
      | _, _ => nanResult nbv fF32 fF32 [w]
  else match v.mul b with
    | none => fF32.canon
    | some p => if nbv = 1 then fF32.sum .rne [fF32.dec (fF32.ofFV .rne p), w] else fF32.sum .rne [p, w]

/-! ### Phasor terms (R304) -/

/-- Sx, Sy and the count after the terms of row i of A and row j of B, modulo 2^32. -/
def phTerms (a b : List Nat) : Int × Int × Nat :=
  (a.zip b).foldl (fun r x =>
    if x.1.testBit 15 || x.2.testBit 15 then r
    else
      let c := circle ((x.1 % 2 ^ 15 + x.2 % 2 ^ 15) % 2 ^ 15)
      (r.1 + c.1, r.2.1 + c.2, r.2.2 + 1)) (0, 0, 0)

end Sys2Proof.Machine
end

