-- ==== Sys2Proof/Machine/Float.lean ====
section
/-!
DEFINITION. Floating-point instructions of majors 0x30 and 0x31 (R151 to R163).
-/
namespace Sys2Proof.Machine

/-- An FP32 operand of the instruction in a lane, flushed as the group's version asks (R150, R153). -/
def fin32 (s : State) (g : Group) (o : Opnd) (l : Nat) : Nat := finF32 g.nbv (s.rd32 g .f32 o l).toNat

def execFadd (f : VR) (s : State) : Out :=
  laneOp (.fadd f) f s fun g l =>
    foutF32 g.nbv (fF32.addOp g.nbv (modeAt g.nbv f.rnd) (fin32 s g f.a l) (fin32 s g f.b l))

/-- a − b is a + (−b), with a NaN b kept as it is (R148). -/
def Fmt.subOp (f : Fmt) (nbv : Nat) (mode : Rnd) (a b : Nat) : Nat :=
  let x := f.dec a
  let y := f.dec b
  if x.isNan || y.isNan then nanResult nbv f f [x, y] else f.sum mode [x, y.negate]

def execFsub (f : VR) (s : State) : Out :=
  laneOp (.fsub f) f s fun g l =>
    foutF32 g.nbv (Fmt.subOp fF32 g.nbv (modeAt g.nbv f.rnd) (fin32 s g f.a l) (fin32 s g f.b l))

def execFmul (f : VR) (s : State) : Out :=
  laneOp (.fmul f) f s fun g l =>
    foutF32 g.nbv (fF32.mulOp g.nbv (modeAt g.nbv f.rnd) (fin32 s g f.a l) (fin32 s g f.b l))

def execFfma (f : VR) (s : State) : Out :=
  laneOp (.ffma f) f s fun g l =>
    foutF32 g.nbv (fF32.fmaOp g.nbv (modeAt g.nbv f.rnd) (fin32 s g f.a l) (fin32 s g f.b l) (fin32 s g f.c l))

def execFmin (f : VR) (s : State) : Out :=
  laneOp (.fmin f) f s fun g l => minMaxOp g.nbv true (fin32 s g f.a l) (fin32 s g f.b l)

def execFmax (f : VR) (s : State) : Out :=
  laneOp (.fmax f) f s fun g l => minMaxOp g.nbv false (fin32 s g f.a l) (fin32 s g f.b l)

/-- A floating condition (R67, R155). -/
def condF (c : Cond) (a b : FV) : Bool :=
  if a.isNan || b.isNan then (match c with | .ne | .un => true | _ => false)
  else match c with
    | .eq => !a.lt false b && !b.lt false a
    | .ne => a.lt false b || b.lt false a
    | .lt => a.lt false b
    | .le => !b.lt false a
    | .gt => b.lt false a
    | .ge => !a.lt false b
    | .un => false
    | .ord => true

def execFcmp (c : Cond) (f : VR) (s : State) : Out :=
  cmpOp (.fcmp c f) f s fun g l => condF c (fF32.dec (fin32 s g f.a l)) (fF32.dec (fin32 s g f.b l))

/-- The format of a floating type code. -/
def Fmt.ofTy : Ty → Fmt
  | .f16 => fF16
  | .bf16 => fBf16
  | .e4 => fE4
  | .e5 => fE5
  | _ => fF32

/-- The class of a code (R156), as its bit number. -/
def classBit (t : Fmt) (n : Nat) : Nat :=
  let neg := n / 2 ^ (t.eb + t.mb) % 2 == 1
  match t.dec (n % 2 ^ t.width) with
  | .nan r => if t.e4 || r.testBit (t.mb - 1) then 9 else 8
  | .inf _ => if neg then 0 else 7
  | .fin _ m _ =>
    if m = 0 then (if neg then 3 else 4)
    else if m < 2 ^ t.mb then (if neg then 2 else 5)
    else (if neg then 1 else 6)

def execFclass (f : VR) (s : State) : Out :=
  laneOp (.fclass f) f s fun g l => 2 ^ classBit (Fmt.ofTy f.ty) (s.rd32 g (RealFmt.ofTy f.ty) f.a l).toNat

/-- FRINT (R157): values of magnitude 2^23 or more, Inf and zeros unchanged; a zero result keeps the sign. -/
def frintVal (nbv : Nat) (mode : Rnd) (a : Nat) : Nat :=
  match fF32.dec a with
  | .nan r => nanResult nbv fF32 fF32 [.nan r]
  | .inf _ => a
  | .fin n m e => if m = 0 || 0 ≤ e then a else fF32.round .rne false n (roundShift mode n m (-e).toNat false) 0 false

def execFrint (f : VR) (s : State) : Out :=
  laneOp (.frint f) f s fun g l => foutF32 g.nbv (frintVal g.nbv (modeAt g.nbv f.rnd) (fin32 s g f.a l))

/-- FSCALE: a × 2^n with n a signed integer (R157). -/
def fscaleVal (nbv : Nat) (mode : Rnd) (a : Nat) (n : Int) : Nat :=
  match fF32.dec a with
  | .nan r => nanResult nbv fF32 fF32 [.nan r]
  | .inf _ => a
  | .fin ng m e => if m = 0 then a else fF32.round mode false ng m (e + n) false

def execFscale (f : VR) (s : State) : Out :=
  laneOp (.fscale f) f s fun g l =>
    foutF32 g.nbv (fscaleVal g.nbv (modeAt g.nbv f.rnd) (fin32 s g f.a l) (sext 32 (s.rd32 g .f32 f.b l).toNat))

/-- Float to integer (R161). -/
def toInt (mode : Rnd) (sgn : Bool) (w : Nat) (v : FV) : Nat :=
  let lo : Int := if sgn then -(2 ^ (w - 1)) else 0
  let hi : Int := if sgn then 2 ^ (w - 1) - 1 else 2 ^ w - 1
  match v with
  | .nan _ => 0
  | .inf n => wrapTo w (if n then lo else hi)
  | .fin n m e =>
    let a : Nat := if 0 ≤ e then m * 2 ^ e.toNat else roundShift mode n m (-e).toNat false
    wrapTo w (clampInt lo hi (if n then -(a : Int) else a))

/-- FCVT of one value (R158 to R161); the source read as its raw encoding at every version, and the only NaN of version 1
the canonical one (R150). -/
def fcvtVal (nbv : Nat) (mode : Rnd) (sat : Bool) (sty dt : Ty) (a : Nat) : Nat :=
  if dt.isInt then toInt mode dt.signed (if dt.is64 then 64 else 32) (fF32.dec a)
  else if sty.isInt then
    let x := extBy sty.signed (if sty.is64 then 64 else 32) a
    fF32.round mode false (decide (x < 0)) x.natAbs 0 false
  else
    let src := Fmt.ofTy sty
    let dst := Fmt.ofTy dt
    let r := match src.dec (a % 2 ^ src.width) with
      | .nan r => nanResult nbv src dst [.nan r]
      | .inf n => if sat then dst.signBit n + dst.maxCode else dst.signBit n + dst.infCode
      | .fin n m e => dst.round mode sat n m e false
    if nbv = 1 && (dst.dec r).isNan then dst.canon
    else if dt == .f32 then foutF32 nbv r else r

def execFcvt (sat : Bool) (sty : Ty) (f : VR) (s : State) : Out :=
  laneOp (.fcvt sat sty f) f s fun g l =>
    fcvtVal g.nbv (modeAt g.nbv f.rnd) sat sty f.ty (s.rdN g (RealFmt.ofTy sty) sty.is64 f.a l)

/-! ### Packed pairs and the dot product (R162, R163) -/

/-- Each half by itself. -/
def halves (op : Nat → Nat → Nat → Nat) (a b c : Nat) : Nat :=
  op (a % 65536) (b % 65536) (c % 65536) + 65536 * op (a / 65536 % 65536) (b / 65536 % 65536) (c / 65536 % 65536)

/-- A packed operation in a lane. -/
def packOp (i : Instr) (f : VR) (s : State) (op : Nat → Rnd → Nat → Nat → Nat → Nat) : Out :=
  laneOp i f s fun g l =>
    halves (op g.nbv (modeAt g.nbv f.rnd)) (s.rd32 g (RealFmt.ofTy f.ty) f.a l).toNat
      (s.rd32 g (RealFmt.ofTy f.ty) f.b l).toNat (s.rd32 g (RealFmt.ofTy f.ty) f.c l).toNat

def execHadd2 (f : VR) (s : State) : Out := packOp (.hadd2 f) f s fun nbv m a b _ => fF16.addOp nbv m a b
def execHmul2 (f : VR) (s : State) : Out := packOp (.hmul2 f) f s fun nbv m a b _ => fF16.mulOp nbv m a b
def execHfma2 (f : VR) (s : State) : Out := packOp (.hfma2 f) f s fun nbv m a b c => fF16.fmaOp nbv m a b c
def execBfma2 (f : VR) (s : State) : Out := packOp (.bfma2 f) f s fun nbv m a b c => fBf16.fmaOp nbv m a b c

/-- The four products of QDOT4; none if a byte is NaN or a product is 0 × Inf (R163). -/
def qdotProds (t : Fmt) (a b : Nat) : Option (List FV) :=
  (List.range 4).foldl (fun acc i =>
    match acc with
    | none => none
    | some ps =>
      let x := t.dec (a / 256 ^ i % 256)
      let y := t.dec (b / 256 ^ i % 256)
      if x.isNan || y.isNan then none else (x.mul y).map fun p => ps ++ [p]) (some [])

def qdotVal (nbv : Nat) (mode : Rnd) (t : Fmt) (a b c : Nat) : Nat :=
  match qdotProds t a b with
  | none => fF32.canon
  | some ps =>
    let z := fF32.dec c
    if z.isNan then nanResult nbv fF32 fF32 [z]
    else if (z :: ps).any (FV.isInf false) && (z :: ps).any (FV.isInf true) then fF32.canon
    else if nbv = 1 then ps.foldl (fun r p => fF32.sum .rne [fF32.dec r, p]) c
    else fF32.sum mode (z :: ps)

def execQdot4 (f : VR) (s : State) : Out :=
  laneOp (.qdot4 f) f s fun g l =>
    foutF32 g.nbv (qdotVal g.nbv (modeAt g.nbv f.rnd) (Fmt.ofTy f.ty) (s.rd32 g .f32 f.a l).toNat
      (s.rd32 g .f32 f.b l).toNat (fin32 s g f.c l))

end Sys2Proof.Machine
end

