-- ==== Sys2Proof/Machine/CrossLane.lean ====
section
/-!
DEFINITION. Cross-lane instructions (R193 to R203, R208). Lanes are those of the group, which in legacy mode is a half.
-/
namespace Sys2Proof.Machine

/-- Sources of a shuffle-like read: operand a in lane `src l` for each acting lane l, at the type's width (R195). -/
def crossSrc (f : VR) (m : W32) (src : Nat → Nat) : Src :=
  ⟨f.a, if f.ty.is64 then 2 else 1, f.ta, (lanesOf m).map fun l => (l, src l)⟩

/-- Read lanes of a, then write every acting lane from the values read (R195: read before write). The lane of a is known
only where b is not EMPTY. -/
def crossOp (i : Instr) (f : VR) (s : State) (extra : Group → List Src) (src : Group → Nat → Nat) : Out :=
  issue i s fun g =>
    let m := g.act f.p
    let known := maskWhere (lanesOf m) fun l => !(extra g).any fun c => s.srcSt g c.o c.regs l == .empty
    withSrcs i s g false (extra g ++ [crossSrc f known (src g)]) fun s1 =>
      if dstBusy s1 g f.dst (if f.ty.is64 then 2 else 1) (lanesOf m) then waits s .stall
      else done (s1.putDst g f.dst f.ty.is64 (lanesOf m) fun l => s.rdN g .f32 f.ty.is64 f.a (src g l))

/-! ### Shuffles (R196) -/

/-- Segment width (R196, R208). -/
def shWidth (g : Group) : ShW → Nat
  | .dflt => g.width
  | .w1 => 1
  | .w2 => 2
  | .w4 => 4
  | .w8 => 8
  | .w16 => 16
  | .w32 => 32

/-- b of a shuffle, read in the acting lane. -/
def shB (s : State) (g : Group) (f : VR) (l : Nat) : Nat := (s.rd32 g .f32 f.b l).toNat

/-- A shuffle. DESIGN CHOICE (log entry 108): where trap-marked a and b are EMPTY or VOID in different lanes, the fault names b. -/
def shflOp (i : Instr) (f : VR) (s : State) (src : Group → Nat → Nat) : Out :=
  crossOp i f s (fun g => [srcAt f.b false f.tb (g.act f.p)]) src

/-- The lane each acting lane reads (R196). -/
def shIdx (s : State) (w : ShW) (f : VR) (g : Group) (l : Nat) : Nat := l - l % shWidth g w + shB s g f l % shWidth g w

def shUp (s : State) (w : ShW) (f : VR) (g : Group) (l : Nat) : Nat :=
  let d := shB s g f l % 64
  if d ≤ l % shWidth g w then l - d else l

def shDn (s : State) (w : ShW) (f : VR) (g : Group) (l : Nat) : Nat :=
  let d := shB s g f l % 64
  if l % shWidth g w + d < shWidth g w then l + d else l

def shXor (s : State) (w : ShW) (f : VR) (g : Group) (l : Nat) : Nat :=
  l - l % shWidth g w + ((l % shWidth g w) ^^^ (shB s g f l % shWidth g w))

def execShflIdx (w : ShW) (f : VR) (s : State) : Out := shflOp (.shflIdx w f) f s (shIdx s w f)
def execShflUp (w : ShW) (f : VR) (s : State) : Out := shflOp (.shflUp w f) f s (shUp s w f)
def execShflDn (w : ShW) (f : VR) (s : State) : Out := shflOp (.shflDn w f) f s (shDn s w f)
def execShflXor (w : ShW) (f : VR) (s : State) : Out := shflOp (.shflXor w f) f s (shXor s w f)

/-- BCAST: lane b[4:0], b[3:0] in a legacy half (R197). -/
def execBcast (f : VR) (s : State) : Out :=
  crossOp (.bcast f) f s (fun _ => []) fun g _ => (g.rdSc f.b).toNat % g.width

/-! ### Votes (R198) -/

/-- A vote over k: acts once (R104). -/
def voteOp (i : Instr) (f : VR) (s : State) (upd : Group → W32 → Group → Group) : Out :=
  issue i s fun g =>
    if g.act f.p = 0 then done s
    else done (s.modG (upd g ((match f.a with | .k n => g.rdK n.toNat | _ => 0) &&& g.act f.p)))

def execVoteBallot (f : VR) (s : State) : Out := voteOp (.voteBallot f) f s fun _ x h => h.putK f.dst x
def execVoteAny (f : VR) (s : State) : Out := voteOp (.voteAny f) f s fun _ x h => h.putS f.dst (if x = 0 then 0 else 1)
def execVoteAll (f : VR) (s : State) : Out :=
  voteOp (.voteAll f) f s fun g x h => h.putS f.dst (if x = g.act f.p then 1 else 0)

/-- All values of a list equal. -/
def allSame : List Nat → Bool
  | [] => true
  | x :: r => r.all fun y => y == x

def execVoteEq (f : VR) (s : State) : Out :=
  issue (.voteEq f) s fun g =>
    if g.act f.p = 0 then done s
    else withSrcs (.voteEq f) s g false [srcAt f.a f.ty.is64 f.ta (g.act f.p)] fun s1 =>
      done (s1.modG fun h => h.putS f.dst
        (if allSame ((lanesOf (g.act f.p)).map fun l => s.rdN g .f32 f.ty.is64 f.a l) then 1 else 0))

/-! ### Reductions and scans (R199, R200) -/

/-- The identity of an operation (R200). -/
def redIdent (op : RedOp) (t : Ty) : Nat :=
  let w := if t.is64 then 64 else 32
  match op with
  | .add | .or | .xor => 0
  | .and => 2 ^ w - 1
  | .min => if t == .f32 then 0x7F800000 else if t.signed then 2 ^ (w - 1) - 1 else 2 ^ w - 1
  | .max => if t == .f32 then 0xFF800000 else if t.signed then 2 ^ (w - 1) else 0

/-- An integer combination. -/
def redInt (op : RedOp) (t : Ty) (a b : Nat) : Nat :=
  let w := if t.is64 then 64 else 32
  match op with
  | .add => (a + b) % 2 ^ w
  | .min => if extBy t.signed w a ≤ extBy t.signed w b then a else b
  | .max => if extBy t.signed w b ≤ extBy t.signed w a then a else b
  | .and => a &&& b
  | .or => a ||| b
  | .xor => a ^^^ b

/-- The exact f32 sum of a list, rounded once (R199). -/
def redFsum (nbv : Nat) (mode : Rnd) (xs : List Nat) : Nat :=
  let vs := xs.map fun x => fF32.dec (finF32 nbv x)
  if vs.any FV.isNan then nanResult nbv fF32 fF32 vs else foutF32 nbv (fF32.sum mode vs)

/-- FMIN or FMAX folded over a list in lane order (R199). -/
def redFold (nbv : Nat) (isMin : Bool) : List Nat → Nat
  | [] => 0
  | x :: r => r.foldl (fun a b => minMaxOp nbv isMin a (finF32 nbv b)) (finF32 nbv x)

/-- The combination of the values of lanes in lane order; the identity for none (R199, R200). At NBV 1 a NaN is the canonical NaN.
DESIGN CHOICE (log entry 109): min or max over one acting lane is that lane's value, a signalling NaN as it stands at NBV 2
and 3. -/
def redAll (op : RedOp) (t : Ty) (nbv : Nat) (mode : Rnd) (xs : List Nat) : Nat :=
  match xs with
  | [] => redIdent op t
  | x :: r =>
    if t == .f32 then
      match op with
      | .add => redFsum nbv mode xs
      | .min => let y := redFold nbv true xs; if nbv = 1 && (fF32.dec y).isNan then fF32.canon else y
      | _ => let y := redFold nbv false xs; if nbv = 1 && (fF32.dec y).isNan then fF32.canon else y
    else r.foldl (redInt op t) x

/-- REDG (R199). An s destination is written once: a 32-bit result sign-extended under s32, zero-extended otherwise. -/
def execRedg (op : RedOp) (f : VR) (s : State) : Out :=
  issue (.redg op f) s fun g =>
    let m := g.act f.p
    let uni := match f.dst with | .s _ => true | _ => false
    if uni && m = 0 then done s
    else withSrcs (.redg op f) s g false [srcAt f.a f.ty.is64 f.ta m] fun s1 =>
      let r := redAll op f.ty g.nbv f.rnd ((lanesOf m).map fun l => s.rdN g .f32 f.ty.is64 f.a l)
      if uni then
        done (s1.modG fun h => h.putS f.dst (if f.ty == .s32 then BitVec.ofInt 64 (sext 32 r) else BitVec.ofNat 64 r))
      else if dstBusy s1 g f.dst (if f.ty.is64 then 2 else 1) (lanesOf m) then waits s .stall
      else done (s1.putDst g f.dst f.ty.is64 (lanesOf m) fun _ => r)

/-- SCANG (R200). -/
def execScang (op : RedOp) (excl : Bool) (f : VR) (s : State) : Out :=
  issue (.scang op excl f) s fun g =>
    let m := g.act f.p
    withSrcs (.scang op excl f) s g false [srcAt f.a f.ty.is64 f.ta m] fun s1 =>
      if dstBusy s1 g f.dst (if f.ty.is64 then 2 else 1) (lanesOf m) then waits s .stall
      else done (s1.putDst g f.dst f.ty.is64 (lanesOf m) fun l =>
        redAll op f.ty g.nbv f.rnd
          (((lanesOf m).filter fun j => if excl then j < l else j ≤ l).map fun j => s.rdN g .f32 f.ty.is64 f.a j))

/-! ### MATCH and CMPCT (R201, R202) -/

/-- MATCH: the mask of the acting lanes with an equal value; under a 64-bit type in the low register of the pair. -/
def execMatch (f : VR) (s : State) : Out :=
  issue (.match_ f) s fun g =>
    let m := g.act f.p
    withSrcs (.match_ f) s g false [srcAt f.a f.ty.is64 f.ta m] fun s1 =>
      if dstBusy s1 g f.dst (if f.ty.is64 then 2 else 1) (lanesOf m) then waits s .stall
      else done (s1.putDst g f.dst f.ty.is64 (lanesOf m) fun l =>
        (maskWhere (lanesOf m) fun j => s.rdN g .f32 f.ty.is64 f.a j == s.rdN g .f32 f.ty.is64 f.a l).toNat)

/-- Lanes CMPCT selects: acting, and set in kb. -/
def cmpctSel (g : Group) (f : VR) : List Nat :=
  lanesOf (g.act f.p &&& (match f.b with | .k n => g.rdK n.toNat | _ => 0))

/-- CMPCT: destination lanes 0 to n − 1 receive the selected values, whether or not they are active (R202). -/
def execCmpct (f : VR) (s : State) : Out :=
  issue (.cmpct f) s fun g =>
    let sel := cmpctSel g f
    withSrcs (.cmpct f) s g false [⟨f.a, if f.ty.is64 then 2 else 1, f.ta, sel.map fun l => (l, l)⟩] fun s1 =>
      if dstBusy s1 g f.dst (if f.ty.is64 then 2 else 1) (List.range sel.length) then waits s .stall
      else done (s1.putDst g f.dst f.ty.is64 (List.range sel.length) fun d =>
        s.rdN g .f32 f.ty.is64 f.a (sel.getD d 0))

end Sys2Proof.Machine
end

