-- ==== Sys2Proof/Machine/Trace.lean ====
section
/-!
DEFINITION. The trace stream of a die up to its buffer: markers, sample records, dependence records, as they are
appended (R368, R433 to R436).
-/
namespace Sys2Proof.Machine

/-- Number of a partition within its die (R248). -/
def partNo (core part : Nat) : Nat := 4 * core + part

/-- Append a record to the trace stream of a die, if EN and the bit of its kind are set (R436): kind 0 MARK, 1 sample,
2 dependence. -/
def traceAdd (s : State) (die kind : Nat) (r : List Byte) : State :=
  let d := s.die die
  if d.trcctl.getLsbD 0 && d.trcctl.getLsbD (2 + kind) then s.setDie die { d with trcWait := d.trcWait ++ [r] }
  else s

/-- The sample record of R433. What only the timing of the memory system decides is a free value (log entry 2). -/
def sampleRec (s : State) (die core part : Nat) (x : Sample) : List Byte :=
  let clk := s.clk die core
  leBytes 1 2 ++ leBytes 1 x.major ++ leBytes 2 (partNo core part) ++ leBytes 4 0 ++ leBytes 8 x.hdr.toNat
    ++ leBytes 4 x.idx ++ leBytes 4 x.mask.toNat ++ leBytes 1 x.lines ++ leBytes 1 x.sectors
    ++ leBytes 1 (Config.sampled s.tick 0) ++ leBytes 1 x.passes ++ leBytes 1 x.last ++ leBytes 3 0
    ++ leBytes 4 (Config.sampled s.tick 1) ++ leBytes 4 (Config.sampled s.tick 2) ++ leBytes 4 (Config.sampled s.tick 3)
    ++ leBytes 4 (min (clk - x.clk0) (2 ^ 32 - 1)) ++ leBytes 8 x.gtb0 ++ leBytes 8 s.gtb.toNat

/-- The sampled instruction (group, instruction) is complete: the partition of the core that sampled it emits its record, also
where the group has ended since (R433). -/
def sampleDone (s : State) (die core gid seq : Nat) : State :=
  (List.range 4).foldl (fun s part =>
    let p := s.partn die core part
    match p.samples.find? fun x => x.gid == gid && x.seq == seq with
    | none => s
    | some x =>
      traceAdd (s.setPartn die core part { p with samples := p.samples.filter fun y => !(y.gid == gid && y.seq == seq) })
        die 1 (sampleRec s die core part x)) s

/-- The last lane of a sampled instruction to write back so far (R433). -/
def sampleLane (s : State) (die core gid seq lane : Nat) : State :=
  (List.range 4).foldl (fun s part =>
    let p := s.partn die core part
    if p.samples.any fun x => x.gid == gid && x.seq == seq then
      s.setPartn die core part { p with samples := p.samples.map fun x =>
        if x.gid == gid && x.seq == seq then { x with last := lane } else x }
    else s) s

/-- The dependence record of R434. -/
def depRec (s : State) (core part slot line clk : Nat) : List Byte :=
  leBytes 16 (clk * 2 ^ 104 + line % 2 ^ 45 * 2 ^ 59 + partNo core part * 2 ^ 49 + slot * 2 ^ 44 + s.gtb.toNat % 2 ^ 44)

/-- a is no higher than b, modulo 2^24. -/
def clk24Le (a b : Nat) : Bool := (b + 2 ^ 24 - a % 2 ^ 24) % 2 ^ 24 < 2 ^ 23

/-- A read of a line by a group at a version of it: logged where another group's write last advanced the clock and no logged pair
implies it; the table holds 64 lines, the least recently used leaves (R434). -/
def logDep (s : State) (die core part slot gid line : Nat) (ver : Option LineVer) : State :=
  let d := s.die die
  let by_ := (ver.getD (0, 0)).2
  if !(bitAt d.trcctl 0 && bitAt d.trcctl 4) || by_ = 0 || by_ = gid + 1 then s
  else
    let p := s.partn die core part
    let clk := (ver.getD (0, 0)).1
    let rest := p.deps.filter fun x => x.1 != line
    match p.deps.find? fun x => x.1 == line with
    | some x =>
      if clk24Le clk x.2 then s.setPartn die core part { p with deps := rest ++ [x] }
      else traceAdd (s.setPartn die core part { p with deps := rest ++ [(line, clk)] }) die 2 (depRec s core part slot line clk)
    | none =>
      traceAdd (s.setPartn die core part { p with deps := (p.deps ++ [(line, clk)]).drop (p.deps.length + 1 - 64) }) die 2
        (depRec s core part slot line clk)

end Sys2Proof.Machine
end

