-- ==== Sys2Proof/Machine/Access.lean ====
section
/-!
DEFINITION. The ordering machine as data (R83 to R98): the bytes each level holds, which accesses hold an access back,
when an access is performed at a scope, publishing, serializing and applying. Host and pod-remote memory has no copy at
the requester (R88).
-/
namespace Sys2Proof.Machine

/-! ### Physical addresses (R15, R171) -/

def paRegion (pa : Nat) : Nat := pa / 2 ^ 48
def paHost (pa : Nat) : Bool := paRegion pa == 2
def paRemote (pa : Nat) : Bool := paRegion pa == 3
/-- Host and pod-remote memory, which no cache of the requester holds (R164). -/
def paFar (pa : Nat) : Bool := paHost pa || paRemote pa

/-- Home die of an address of package or pod-remote memory. -/
def homeDie (pa : Nat) : Nat :=
  if paRegion pa == 0 then pa / 2 ^ 38 % 4 else if paHost pa then 0 else pa / 512 % 4

def lineOf (pa : Nat) : Nat := pa / 128

/-! ### Views -/

def View.byte (v : View) (a : Nat) : Byte × Bad := (v.mem.read a, SMap.get .ok v.bad a)

/-- One location takes a value, its poison and a coherence index. -/
def View.put (v : View) (a : Nat) (b : Byte) (bad : Bad) (idx : Nat) : View :=
  { mem := v.mem.write a b, idx := SMap.set 0 v.idx a idx, bad := SMap.set .ok v.bad a bad }

/-- One location takes a value and its poison; its index stays. -/
def View.putVal (v : View) (a : Nat) (b : Byte) (bad : Bad) : View :=
  { v with mem := v.mem.write a b, bad := SMap.set .ok v.bad a bad }

def View.index (v : View) (a : Nat) : Nat := SMap.get 0 v.idx a

def State.view (s : State) (d : Nat) : View := (s.die d).view
def State.setView (s : State) (d : Nat) (v : View) : State := s.setDie d { s.die d with view := v }

/-- Bytes with their poison from `a` on, written to a view without an index. -/
def View.putMany (v : View) (a : Nat) : List (Byte × Bad) → View
  | [] => v
  | x :: r => (v.putVal a x.1 x.2).putMany (a + 1) r

/-! ### Accesses -/

/-- An access with no effect: the base of every record below. -/
def Acc.blank : Acc :=
  { id := 0, major := 0, gid := none, preds := [], tids := [], seq := 0, ctx := 0, die := 0, core := 0, part := 0, slot := 0, kind := .load, place := .glob 0,
    va := 0, vas := [], len := 0, bytes := [], acq := false, rel := false, scope := .core, stage := .issued, stamp := [], aq := [],
    cidx := 0, ver := (0, 0), cond := none, saved := [], report := false, read := false, got := [], miss := false, dst := none, fin := false, kept := false, cmd := none }

def Acc.isPoint (a : Acc) : Bool :=
  match a.kind with | .fence _ | .fenceRg _ _ _ | .join _ | .counted _ _ => true | _ => false
def Acc.isLoad (a : Acc) : Bool := match a.kind with | .load => true | _ => false
def Acc.isStore (a : Acc) : Bool := match a.kind with | .store => true | _ => false
def Acc.isRmw (a : Acc) : Bool := match a.kind with | .rmw _ => true | _ => false

def Acc.pa (a : Acc) : Nat := match a.place with | .glob p => p | .spad _ o => o
def Acc.isSpad (a : Acc) : Bool := match a.place with | .spad _ _ => true | _ => false
def Acc.far (a : Acc) : Bool := match a.place with | .glob p => paFar p | _ => false

/-- The byte addresses an access touches: a store its bytes, of one line; a read or an atomic its block. -/
def Acc.addrs (a : Acc) : List Nat :=
  if a.isPoint then []
  else if a.isStore then a.bytes.map fun b => a.pa + b.off
  else (List.range a.len).map fun i => a.pa + i

def Acc.sameSpace (a b : Acc) : Bool :=
  match a.place, b.place with
  | .glob _, .glob _ => true
  | .spad t _, .spad u _ => t == u
  | _, _ => false

/-- Overlapping bytes. -/
def Acc.meets (a b : Acc) : Bool := a.sameSpace b && a.addrs.any fun x => b.addrs.contains x

/-- Some lane's access lies wholly in [base, base + n), the end clipped at 2^64 (R87 constraint 5, R189). DESIGN CHOICE (log
entry 83): the range is one of global addresses, and no scratchpad access lies in it. -/
def Acc.within (a : Acc) (base n : Nat) : Bool :=
  !a.isSpad && a.vas.any fun v => base ≤ v && v + a.len ≤ min (base + n) (2 ^ 64)

/-- Scope as a rank; `.quad` orders as `.die` (R8). -/
def Scope.rank : Scope → Nat
  | .core => 0
  | .quad | .die => 1
  | _ => 2

def Stage.rank : Stage → Nat
  | .held => 0 | .issued => 1 | .inCb => 2 | .published => 3 | .sent => 4 | .serialized => 5 | .done => 6

/-- An atomic done at a home (R97 `.die` and wider). -/
def Acc.homeRmw (a : Acc) : Bool := a.isRmw && !a.isSpad && Scope.rank a.scope != 0

/-- The data of a load has come back; the response of an atomic done at a home has reached its die (R97). -/
def Acc.arrived (a : Acc) : Bool :=
  a.read && (!a.homeRmw || a.far || (a.stage.rank == 6 && !a.aq.contains a.die) || (a.stage.rank == 5 && homeDie a.pa == a.die))

/-- The write of an access is performed at a scope (R86). DESIGN CHOICE (log entry 84): an atomic done at a home, which enters
no CB and publishes nothing, is performed at `.core` and `.die` when its response has reached its die. -/
def Acc.written (a : Acc) (sc : Nat) : Bool :=
  if a.isSpad then a.stage.rank == 6
  else if a.far then a.stage.rank == 6
  else if a.homeRmw && decide (sc < 2) then a.arrived
  else match sc with
    | 0 => 2 ≤ a.stage.rank
    | 1 => 3 ≤ a.stage.rank
    | _ => a.stage.rank == 6 && a.aq.isEmpty && !a.report

/-- Performed at a scope; a held store has not issued (R86, R226). -/
def Acc.performed (a : Acc) (sc : Nat) : Bool :=
  match a.kind with
  | .load => a.read
  | .store => a.stage == .held || a.written sc
  | .rmw _ => a.read && a.written sc
  | _ => true

/-- The access has taken its own read-from-view, enter CB or write step (R87 constraint 1). A write to host or pod-remote
memory takes its step at the home, since no CB entry serves a read there (R88), and an atomic done at a home when its result stands in
the die view, since a later read would else take an older value (R89). DEDUCED (log entry 12). -/
def Acc.taken (a : Acc) : Bool :=
  match a.kind with
  | .load => a.read
  | .store => a.stage == .held || (if a.isSpad || a.far then a.stage.rank == 6 else 2 ≤ a.stage.rank)
  | .rmw _ => if a.homeRmw then a.arrived else a.read
  | _ => true

/-- A program order holds the accesses of a group made for some of the threads. -/
def Preds.has (p : Preds) (gid : Option Nat) (tids : List Nat) : Bool :=
  match gid with
  | some g => p.any fun x => x.1 == g && (x.2.isEmpty || x.2.any fun t => tids.contains t)
  | none => false

/-- The program order of some of a group's threads: its own accesses, and those of the earlier groups of these threads. -/
def Preds.of (p : Preds) (tids : List Nat) : Preds :=
  p.filterMap fun x =>
    if x.2.isEmpty then some x
    else if (x.2.filter fun t => tids.contains t).isEmpty then none
    else some (x.1, x.2.filter fun t => tids.contains t)

/-- The access belongs to a program order. -/
def Acc.isOf (a : Acc) (p : Preds) : Bool := p.has a.gid a.tids

/-- The access belongs to the program order of a group. -/
def Acc.ofGroup (a : Acc) (g : Group) : Bool := a.isOf g.preds

/-- `a` is earlier than `b` in program order (R84); accesses of one instruction have one position. -/
def Acc.before (a b : Acc) : Bool := a.seq < b.seq && a.isOf b.preds

/-- Every access among `accs` earlier than `b` is performed at a scope. -/
def priorDone (accs : List Acc) (b : Acc) (sc : Nat) : Bool :=
  accs.all fun a => !a.before b || a.isPoint || a.performed sc

/-- What an order point or an acquire `a` still asks of a later `b` (R87 constraints 2, 4, 5; R217). DESIGN CHOICE (log entry 102): a
FENCE of an old group orders the earlier accesses of all its threads before the later ones of each thread drawn from it. The chunks
that a BARWAIT has counted hold the waiter's reads of global memory, and no write of it (R99; log entry 103). -/
def holdsBack (accs : List Acc) (a b : Acc) : Bool :=
  match a.kind with
  | .fence sc => !priorDone accs a (Scope.rank sc)
  | .fenceRg sc base n =>
    b.within base n && accs.any fun c => c.before a && !c.isPoint && c.within base n && !c.performed (Scope.rank sc)
  | .join ids => accs.any fun c => ids.contains c.id && !c.performed 0
  | .counted cs ids => !b.isStore && !b.isSpad && (!cs.isEmpty || accs.any fun c => ids.contains c.id && !c.performed 1)
  | .load | .rmw _ => a.acq && !a.read
  | .store => false

/-- Constraint 1 (R87): an earlier access to overlapping bytes has not taken its own step; atomics of one instruction on
one word go in lane order (R237). -/
def sameLocation (a b : Acc) : Bool :=
  a.id < b.id && !a.taken && a.isOf b.preds
    && (a.seq != b.seq || a.isRmw) && a.meets b

/-- Some rule of R87 but release holds back the next step of `b` beyond issue. -/
def blocked (accs : List Acc) (b : Acc) : Bool :=
  accs.any fun a => (a.before b && holdsBack accs a b) || (b.gid.isSome && sameLocation a b)

/-- The release of `b` is met (R87 constraint 3). -/
def released (accs : List Acc) (b : Acc) : Bool := !b.rel || priorDone accs b (Scope.rank b.scope)

/-- Every access of a group so far is performed at a scope: what an instruction that is itself a release, or an engine
command's ACQ, waits for (R94, R99, R100). -/
def allDone (s : State) (g : Group) (sc : Scope) : Bool :=
  s.accs.all fun a => a.isPoint || a.performed (Scope.rank sc) || !a.isOf g.preds

/-- Every access of a program order before a position is performed at a scope: an engine command's ACQ, an element's release
(R94, R100). -/
def earlierDone (s : State) (preds : Preds) (seq : Nat) (sc : Scope) : Bool :=
  s.accs.all fun a => a.isPoint || decide (seq ≤ a.seq) || a.performed (Scope.rank sc) || !a.isOf preds

/-- The writes that an engine command has landed are performed at a scope. -/
def landedDone (s : State) (cmd : Nat) (sc : Scope) : Bool :=
  s.accs.all fun a => a.cmd != some cmd || a.performed (Scope.rank sc)

/-- A matrix operation is complete (R309). -/
def MxOp.over (s : State) (m : MxOp) : Bool :=
  (m.qs.all fun q => q.done && (!(m.kind == .drain || m.kind == .phfin) || decide (16 ≤ q.rows.length)))
    && (!m.rel || landedDone s m.id m.scope)

/-- A matrix operation of a program order is not complete. -/
def mxPending (s : State) (preds : Preds) : Bool := s.mxops.any fun m => (preds.any fun p => p.1 == m.gid) && !m.over s

/-- The accesses of a group that are not performed at `.core`, as an acquire names them (R217). -/
def owedBy (s : State) (preds : Preds) : List Nat :=
  (s.accs.filter fun a => !a.isPoint && !a.performed 0 && a.isOf preds).map (·.id)

/-! ### L1 copies and WAITL (R190) -/

def L1Line.byte (x : L1Line) (o : Nat) : Byte × Bad := (x.data.getD o 0, SMap.get .ok x.bad o)

def Core.line? (c : Core) (l : Nat) : Option L1Line := c.l1.find? fun x => x.line == l

/-- A sleeper on a line of a core wakes. -/
def wakeLine (s : State) (die core line : Nat) : State :=
  { s with groups := s.groups.map fun g =>
      match g.sleep with
      | .waitl (some l) _ => if g.die == die && g.core == core && l == line then { g with sleep := .rewoken } else g
      | _ => g }

/-- A core's L1 copy of a line is discarded. -/
def dropL1 (s : State) (die core line : Nat) : State :=
  let c := s.core die core
  if (c.line? line).isNone then s
  else wakeLine (s.setCore die core { c with l1 := c.l1.filter fun x => x.line != line }) die core line

/-- Every L1 copy of a line on a die is invalidated (R85). -/
def dropL1Die (s : State) (die line : Nat) : State :=
  (s.cores.map (·.1)).foldl (fun s i => if i / 48 = die then dropL1 s die (i % 48) line else s) s

def dropLines (s : State) (die : Nat) (a : Acc) : State :=
  ((a.addrs.map lineOf).eraseDups).foldl (fun s l => dropL1Die s die l) s

/-! ### Superblocks of the L2 and the RDC (R167): which lines are present, and which are dirty. No value depends on it. -/

/-- Bit j of a line's place in its superblock. -/
def lineBit (l : Nat) : BitVec 4 := BitVec.ofNat 4 (2 ^ (l % 4))

/-- A line is present in a cache of `cap` superblocks; on a full cache the superblock longest present leaves as a whole
(DESIGN CHOICE, log entry 85). -/
def sbPut (cap : Nat) (c : List SBlock) (l : Nat) (dirty : Bool) : List SBlock :=
  let d := if dirty then lineBit l else 0
  if c.any fun x => x.tag == l / 4 then
    c.map fun x => if x.tag == l / 4 then { x with valid := x.valid ||| lineBit l, dirty := x.dirty ||| d } else x
  else (c ++ [SBlock.mk (l / 4) (lineBit l) d]).drop (c.length + 1 - cap)

/-- A line is clean. -/
def sbClean (c : List SBlock) (l : Nat) : List SBlock :=
  c.map fun x => if x.tag == l / 4 then { x with dirty := x.dirty &&& ~~~ lineBit l } else x

/-- A superblock is invalid. -/
def sbDrop (c : List SBlock) (l : Nat) : List SBlock := c.filter fun x => x.tag != l / 4

/-- The superblocks that leave a full cache for a line. -/
def sbOut (cap : Nat) (c : List SBlock) (l : Nat) : List SBlock :=
  if c.any fun x => x.tag == l / 4 then [] else c.take (c.length + 1 - cap)

/-- Dirty lines of superblocks. -/
def sbDirtyLines (c : List SBlock) : Nat := (c.map fun x => ((List.range 4).filter fun j => x.dirty.getLsbD j).length).sum

/-- Dirty lines of a line's superblock. -/
def sbDirtyAt (c : List SBlock) (l : Nat) : Nat := sbDirtyLines (c.filter fun x => x.tag == l / 4)

def sbHas (c : List SBlock) (l : Nat) : Bool := c.any fun x => x.tag == l / 4 && x.valid &&& lineBit l != 0
def sbDirty (c : List SBlock) (l : Nat) : Bool := c.any fun x => x.tag == l / 4 && x.dirty &&& lineBit l != 0

/-- The L2 of 96 MiB and the RDC of 32 MiB (R13) in superblocks of 512 B. -/
def l2Cap : Nat := 196608
def rdcCap : Nat := 65536

/-- The context number of writes that are no context's: those of the host. No context has it. -/
def nobody : Nat := 2 ^ 64

/-- A context, if one is known, has moved `n` bytes of a kind: 0 L2, 1 RDC, 2 HBM, 3 links (R426). -/
def State.moves (s : State) (ctx : Option Nat) (kind n : Nat) : State :=
  match ctx with
  | some c => if n = 0 || c == nobody then s else { s with moved := SMap.set 0 s.moved (4 * c + kind) (SMap.get 0 s.moved (4 * c + kind) + n) }
  | none => s

/-- Bytes that HBM moves as a line enters its home's L2: the line, where it is fetched and absent, and the dirty lines that leave for
it. DESIGN CHOICE (log entry 113): a written line is not fetched first. -/
def hbmBytes (c : List SBlock) (l : Nat) (dirty : Bool) : Nat :=
  (if dirty || sbHas c l then 0 else 128) + 128 * sbDirtyLines (sbOut l2Cap c l)

/-- A line homed on the die stands in its L2, another in its RDC; what HBM moves for it is a context's (R426). -/
def keepLine (s : State) (ctx : Option Nat) (die l : Nat) (dirty : Bool) : State :=
  let d := s.die die
  if homeDie (128 * l) = die then (s.setDie die { d with l2 := sbPut l2Cap d.l2 l dirty }).moves ctx 2 (hbmBytes d.l2 l dirty)
  else s.setDie die { d with rdc := sbPut rdcCap d.rdc l dirty }

/-- A line is fetched to a die: from the home's L2, through the RDC of a die that is not its home (R185, R187). -/
def fetchLine (s : State) (ctx : Option Nat) (die l : Nat) : State :=
  let s1 := keepLine s ctx (homeDie (128 * l)) l false
  if homeDie (128 * l) = die then s1 else keepLine s1 ctx die l false

/-! ### L1 lines -/

/-- The sectors of a line that bytes of it touch (R185). -/
def sectorsOf (offs : List Nat) : BitVec 4 := offs.foldl (fun m o => m ||| BitVec.ofNat 4 (2 ^ (o / 32 % 4))) 0

/-- Sectors `m` of the line as the die view holds it. -/
def viewLine (v : View) (ver : LineVer) (l : Nat) (m : BitVec 4) : L1Line :=
  { line := l, sectors := m, ver := ver,
    data := (List.range 128).map fun i => if m.getLsbD (i / 32) then v.mem.read (128 * l + i) else 0,
    bad := (List.range 128).foldl (fun b i => if m.getLsbD (i / 32) then SMap.set .ok b i (SMap.get .ok v.bad (128 * l + i)) else b) [] }

/-- The L1 copy of a byte, where its sector is valid. -/
def L1Line.at? (x : L1Line) (o : Nat) : Option (Byte × Bad) :=
  if x.sectors.getLsbD (o / 32) then some (x.byte o) else none

/-- Sectors of a line join those a copy holds. -/
def L1Line.join (x y : L1Line) : L1Line :=
  { x with sectors := x.sectors ||| y.sectors, ver := y.ver,
           data := (List.range 128).map fun i => if x.sectors.getLsbD (i / 32) then x.data.getD i 0 else y.data.getD i 0,
           bad := (List.range 128).foldl (fun b i => if x.sectors.getLsbD (i / 32) then b else SMap.set .ok b i (SMap.get .ok y.bad i)) x.bad }

/-- Version of a line in a die's view. -/
def State.ver (s : State) (die l : Nat) : LineVer := SMap.get (0, 0) (s.die die).vers l

/-- A line request to L1 (R185): the sectors it lacks are fetched. A full L1, of 1,024 lines (R11), first gives up the line
longest held (DESIGN CHOICE, log entry 85), and a sleeper on that line wakes (R190). -/
def fillL1 (s : State) (ctx : Option Nat) (die core l : Nat) (m : BitVec 4) : State :=
  if paFar (128 * l) then s
  else
    let y := viewLine (s.view die) (s.ver die l) l m
    match (s.core die core).line? l with
    | some x =>
      if m &&& ~~~ x.sectors = 0 then s
      else
        let s1 := fetchLine s ctx die l
        let c := s1.core die core
        s1.setCore die core { c with l1 := c.l1.map fun z => if z.line == l then z.join y else z }
    | none =>
      let s1 := fetchLine s ctx die l
      let s2 := (((s1.core die core).l1.take ((s1.core die core).l1.length + 1 - 1024)).map (·.line)).foldl
        (fun s x => dropL1 s die core x) s1
      let c := s2.core die core
      s2.setCore die core { c with l1 := c.l1 ++ [y] }

/-- The line of a physical address with the sectors that `n` bytes there touch. -/
def fillAt (s : State) (ctx : Option Nat) (die core pa n : Nat) : State :=
  fillL1 s ctx die core (lineOf pa) (sectorsOf ((List.range n).map fun i => pa % 128 + i))

/-! ### Reading (R88) -/

/-- The youngest CB entry of a core that holds a byte. -/
def cbByte (accs : List Acc) (die core pa : Nat) : Option (Byte × Bad) :=
  accs.foldl (fun r a =>
    if a.stage == .inCb && a.die == die && a.core == core && !a.isSpad then
      match a.bytes.find? fun b => a.pa + b.off == pa with
      | some b => some (b.val, b.bad)
      | none => r
    else r) none

/-- No link to the package that homes an address is left (R440). -/
def paLost (s : State) (pa : Nat) : Bool := paRemote pa && s.lost.contains (pa / 2 ^ 40 % 64)

/-- A byte of pod-remote memory: poisoned where its package is lost (R440). -/
def remoteByte (s : State) (pa : Nat) : Byte × Bad := if paLost s pa then (0, .poison) else s.home.byte pa

/-- A view without copies takes what a write carries to pod-remote memory; a lost package takes nothing (R440). -/
def putRemote (s : State) (pa : Nat) (bs : List (Byte × Bad)) : State :=
  if paLost s pa then s else { s with home := s.home.putMany pa bs }

/-- A byte of global memory as a core reads it. -/
def readByte (s : State) (die core pa : Nat) : Byte × Bad :=
  if paHost pa then s.host.byte pa
  else if paRemote pa then remoteByte s pa
  else match cbByte s.accs die core pa with
    | some x => x
    | none =>
      match ((s.core die core).line? (lineOf pa)).bind fun l => l.at? (pa % 128) with
      | some x => x
      | none => (s.view die).byte pa

def readBytes (s : State) (die core pa n : Nat) : List (Byte × Bad) :=
  (List.range n).map fun i => readByte s die core (pa + i)

/-- Bytes as an operation of an engine, a queue, an array or a copy node reads them: poison, where the host completes its reads with an
error (R441). -/
def hostRead (s : State) (op pa : Nat) (bs : List (Byte × Bad)) : List (Byte × Bad) :=
  if paHost pa && s.hostErr.contains op then bs.map fun _ => (0, .poison) else bs

/-- Bytes that an operation reads at its core. -/
def opBytes (s : State) (op die core pa n : Nat) : List (Byte × Bad) := hostRead s op pa (readBytes s die core pa n)

/-- The line's L1 copy as the drain port reads it, the CB apart (R97). -/
def l1Byte (s : State) (die core pa : Nat) : Byte × Bad :=
  match ((s.core die core).line? (lineOf pa)).bind fun l => l.at? (pa % 128) with
  | some x => x
  | none => (s.view die).byte pa

/-- The version of the line that a read takes at an address where its die or its core's L1 holds it (R434). -/
def lineVer (s : State) (die core pa : Nat) : Option LineVer :=
  match (s.core die core).line? (lineOf pa) with
    | some l => some (if (l.at? (pa % 128)).isSome then l.ver else s.ver die (lineOf pa))
    | none => some (s.ver die (lineOf pa))

/-- A byte of a team's scratchpad. -/
def Team.byte (t : Team) (o : Nat) : Byte × Bad := (t.spad.read o, SMap.get .ok t.badSpad o)
def Team.put (t : Team) (o : Nat) (b : Byte) (bad : Bad) : Team :=
  { t with spad := t.spad.write o b, badSpad := SMap.set .ok t.badSpad o bad }
def Team.bytes (t : Team) (o n : Nat) : List (Byte × Bad) := (List.range n).map fun i => t.byte (o + i)
def Team.putMany (t : Team) (o : Nat) : List (Byte × Bad) → Team
  | [] => t
  | x :: r => (t.put o x.1 x.2).putMany (o + 1) r

def spadBytes (s : State) (team o n : Nat) : List (Byte × Bad) :=
  match s.team? team with
  | some t => t.bytes o n
  | none => (List.range n).map fun _ => (0, .ok)

/-- The byte at an address of a read that a store of its own iteration holds, the youngest (R226). -/
def heldByte (accs : List Acc) (b : Acc) (x : Nat) : Option (Byte × Bad) :=
  accs.foldl (fun r a =>
    if a.stage == .held && a.gid == b.gid && a.sameSpace b && a.id < b.id then
      match a.bytes.find? fun w => a.pa + w.off == x with
      | some w => some (w.val, w.bad)
      | none => r
    else r) none

/-- The bytes a read takes: held bytes of its own iteration first (R226), then the sources of R88; from host memory poison, where the
host completes its group's reads with an error (R441). -/
def accRead (s : State) (b : Acc) : List (Byte × Bad) :=
  let base := match b.place with
    | .spad t o => spadBytes s t o b.len
    | .glob pa => match b.gid with
      | some g => hostRead s g pa (readBytes s b.die b.core pa b.len)
      | none => readBytes s b.die b.core pa b.len
  (List.range b.len).zip base |>.map fun x => (heldByte s.accs b (b.pa + x.1)).getD x.2

/-- The version of the line that a read takes its value from: none where every byte comes from its own held stores or the CB (R88, R226,
R434). -/
def Acc.readVer (s : State) (a : Acc) : Option LineVer :=
  if (List.range a.len).all fun i =>
      (heldByte s.accs a (a.pa + i)).isSome || (cbByte s.accs a.die a.core (a.pa + i)).isSome then none
  else lineVer s a.die a.core a.pa

/-- The youngest CB entry of a core that holds a byte, by number. -/
def cbOwner (accs : List Acc) (die core pa : Nat) : Option Nat :=
  accs.foldl (fun r a =>
    if a.stage == .inCb && a.die == die && a.core == core && !a.isSpad && a.bytes.any fun b => a.pa + b.off == pa then some a.id
    else r) none

/-- The CB entries that give a group's read some byte are noted as read by the group (R89). -/
def noteSeen (s : State) (a : Acc) : State :=
  match a.gid, a.place with
  | some g, .glob pa =>
    if paFar pa then s
    else
      let own := ((List.range a.len).filter fun i => (heldByte s.accs a (pa + i)).isNone).filterMap fun i => cbOwner s.accs a.die a.core (pa + i)
      { s with cbSeen := own.foldl (fun l n => if l.contains (g, n) then l else l ++ [(g, n)]) s.cbSeen }
  | _, _ => s

/-- A group has read from a CB entry, or made it. -/
def seenBy (s : State) (a : Acc) (g : Nat) : Bool := a.gid == some g || s.cbSeen.contains (g, a.id)

/-- A CB entry waits for an older one of its core with overlapping bytes where some group has seen the older before it: the group would
have read the two against their coherence order (R89). DEDUCED (log entry 114). -/
def seenBefore (s : State) (a : Acc) : Bool :=
  (s.accs.takeWhile fun b => b.id != a.id).any fun b =>
    b.stage == .inCb && b.die == a.die && b.core == a.core && b.meets a
      && (a.gid.toList ++ (s.cbSeen.filter fun x => x.2 == a.id).map (·.1)).any (seenBy s b)

/-- An atomic done at a home waits for an overlapping CB entry that its group has read: it would return an older value (R89). DEDUCED
(log entry 114). -/
def seenInCb (s : State) (a : Acc) : Bool :=
  s.accs.any fun b => b.stage == .inCb && b.die == a.die && b.core == a.core && b.id != a.id && b.meets a
    && a.preds.any fun p => s.cbSeen.contains (p.1, b.id)

/-! ### Changing the list of accesses -/

def State.acc? (s : State) (id : Nat) : Option Acc := s.accs.find? fun a => a.id == id
def State.setAcc (s : State) (a : Acc) : State := { s with accs := s.accs.map fun b => if b.id == a.id then a else b }
/-- The access becomes the youngest of the list: list order is the order of entry into the CBs. -/
def State.lastAcc (s : State) (a : Acc) : State := { s with accs := (s.accs.filter fun b => b.id != a.id) ++ [a] }
def State.addAcc (s : State) (a : Acc) : State := { s with accs := s.accs ++ [{ a with id := s.nextId }], nextId := s.nextId + 1 }

/-- Nothing more happens to the access. -/
def Acc.over (accs : List Acc) (a : Acc) : Bool :=
  match a.kind with
  | .load => a.fin
  | .store => a.written 2
  | .rmw _ => a.fin && a.read && a.written 2
  | .fence sc => priorDone accs a (Scope.rank sc)
  | .fenceRg sc base n => !(accs.any fun c => c.before a && !c.isPoint && c.within base n && !c.performed (Scope.rank sc))
  | .join ids => !(accs.any fun c => ids.contains c.id && !c.performed 0)
  | .counted cs ids => cs.isEmpty && !(accs.any fun c => ids.contains c.id && !c.performed 1)

/-! ### Bytes moved in the uncore (R426) -/

/-- Bytes read or written at a physical address from a die: the home's L2; from another die its RDC and the link between them. What is
written travels to each of the three other dies; host and pod-remote memory lies behind one link. DESIGN CHOICE (log entry 113). -/
def moveBytes (s : State) (ctx die pa n : Nat) (write : Bool) : State :=
  if paFar pa then s.moves (some ctx) 3 n
  else
    let s1 := if homeDie pa = die then s.moves (some ctx) 0 n else (s.moves (some ctx) 0 n).moves (some ctx) 1 n
    if write then s1.moves (some ctx) 3 (3 * n) else if homeDie pa = die then s1 else s1.moves (some ctx) 3 n

/-- Bytes read by an engine or the front end, which no L1 keeps: HBM moves a line that the home's L2 lacks. -/
def pullBytes (s : State) (ctx die pa n : Nat) : State :=
  let s1 := moveBytes s ctx die pa n false
  if paFar pa || sbHas (s.die (homeDie pa)).l2 (lineOf pa) then s1 else s1.moves (some ctx) 2 128

/-- An access that is over has moved its bytes; a load that hit L1 moved none. -/
def moveAcc (s : State) (a : Acc) : State :=
  if a.isSpad || a.isPoint || (a.isLoad && !a.miss) then s
  else moveBytes s a.ctx a.die a.pa (if a.isLoad || a.bytes.isEmpty then a.len else a.bytes.length) (!a.isLoad)

/-- Accesses that are over leave the list, their bytes counted; the sampled instructions they end emit their records (R426, R433). -/
def sweep (s0 : State) : State :=
  let s := (s0.accs.filter fun a => a.over s0.accs).foldl moveAcc s0
  let keep := s.accs.filter fun a => !a.over s.accs
  let gone := s.accs.filter fun a => a.over s.accs && !keep.any fun b => b.gid == a.gid && b.seq == a.seq
  gone.foldl (fun s a => match a.gid with
    | some g => sampleDone s a.die a.core g a.seq
    | none => s) { s with accs := keep }

/-- A read by an access of a group is logged as a dependence on the version it read, but at `.pod`, `.sys` and in memory of
another package or the host (R434). -/
def logRead (s : State) (a : Acc) (ver : Option LineVer) : State :=
  match a.gid with
  | some g => if a.far || a.scope == .pod || a.scope == .sys then s else logDep s a.die a.core a.part a.slot g (lineOf a.pa) ver
  | none => s

/-! ### Vector clocks (R90, R91) -/

/-- Serial-number comparison modulo 2^32. -/
def serialLe (a b : Nat) : Bool := (b + 2 ^ 32 - a % 2 ^ 32) % 2 ^ 32 < 2 ^ 31

/-- Causally ready at die e. -/
def causal (s : State) (e : Nat) (a : Acc) : Bool :=
  let vc := (s.die e).vc
  (List.range 4).all fun j =>
    if j = a.die then a.stamp.getD j 0 == (vc.getD j 0 + 1) % 2 ^ 32 else serialLe (a.stamp.getD j 0) (vc.getD j 0)

def setVc (s : State) (e j v : Nat) : State := s.setDie e { s.die e with vc := (s.die e).vc.set j v }

/-- VC(d)[d] increased by 1. -/
def bumpVc (s : State) (d : Nat) : State := setVc s d d (((s.die d).vc.getD d 0 + 1) % 2 ^ 32)

/-- `n` more writes of die d may publish: none from 2^31 or more publishes ago is then still unapplied (R91). -/
def mayPublishN (s : State) (d n : Nat) : Bool :=
  s.accs.all fun a => a.stamp.isEmpty || a.die != d || ((s.die d).vc.getD d 0 + 2 ^ 32 - a.stamp.getD d 0) % 2 ^ 32 + n < 2 ^ 31

def mayPublish (s : State) (d : Nat) : Bool := mayPublishN s d 1

/-! ### Entering the CB (R85, R87, R93, R226) -/

/-- The bytes of an access with their addresses. -/
def Acc.writes (a : Acc) : List (Nat × Byte × Bad) := a.bytes.map fun b => (a.pa + b.off, b.val, b.bad)

/-- A scratchpad takes the bytes of an access. -/
def Team.putAcc (t : Team) (a : Acc) : Team := a.writes.foldl (fun t w => t.put w.1 w.2.1 w.2.2) t

/-- A store that came out of a hold buffer enters the CB in program order, and one with `.rel` only once its release is met
(R226). -/
def keptWaits (accs : List Acc) (a : Acc) : Bool :=
  a.kept && ((a.rel && !released accs a) ||
    accs.any fun b => b.kept && b.gid == a.gid && b.seq < a.seq && b.stage == .issued && !b.isSpad)

/-- ENTER_CB where it may be taken: a write to global memory joins its core's buffer (R182), or one to scratchpad is written. DESIGN
CHOICE (log entry 130): a store to scratchpad that waited is written without a new check, though its bytes may meet a barrier object that
has been armed since it issued (R183). -/
def enterStep (s : State) (a : Acc) : State :=
  if !a.isStore || a.stage != .issued || blocked s.accs a then s
  else match a.place with
    | .spad t _ =>
      if !released s.accs a then s
      else match s.team? t with
        | none => sweep (s.setAcc { a with stage := .done })
        | some tm => sweep ((s.setTeam (tm.putAcc a)).setAcc { a with stage := .done })
    | .glob _ =>
      if keptWaits s.accs a || (a.rel && Scope.rank a.scope = 0 && !released s.accs a) then s
      else sweep (s.lastAcc { a with stage := .inCb })

/-! ### Serializing (R85, R97, R167) -/

def bumpLine (s : State) (l : Nat) (by_ : Option Nat) : State :=
  { s with lineClk := SMap.set 0 s.lineClk l ((SMap.get 0 s.lineClk l + 1) % 2 ^ 24),
           lineBy := SMap.set 0 s.lineBy l (match by_ with | some g => g + 1 | none => 0) }

/-- The next coherence index of the locations of an access at their home. -/
def nextIdx (s : State) (a : Acc) : Nat := a.addrs.foldl (fun m x => max m (s.home.index x)) 0 + 1

/-- A view takes the bytes of an access with its index. -/
def View.putAcc (v : View) (a : Acc) : View := a.writes.foldl (fun v w => v.put w.1 w.2.1 w.2.2 a.cidx) v

/-- The lines an access touches. -/
def Acc.lines (a : Acc) : List Nat := (a.addrs.map lineOf).eraseDups

/-- The version of an access's line at its home. -/
def homeVer (s : State) (a : Acc) : LineVer :=
  (SMap.get 0 s.lineClk (lineOf a.pa), SMap.get 0 s.lineBy (lineOf a.pa))

/-- A die's view of the lines of an access is at a version. -/
def setVer (s : State) (d : Nat) (a : Acc) (v : LineVer) : State :=
  s.setDie d { s.die d with vers := a.lines.foldl (fun m l => SMap.set (0, 0) m l v) (s.die d).vers }

/-- The home value and the die view of the home take the write; its lines are dirty in the home's L2, and the L1 copies on the
home die are invalidated. DESIGN CHOICE (log entry 86): also where the writer is another die, a case for which the step table
names no invalidation. -/
def atHome (s : State) (h : Nat) (a : Acc) : State :=
  let s1 := { s with home := s.home.putAcc a }
  let s2 := s1.setView h ((s1.view h).putAcc a)
  let s3 := a.lines.foldl (fun s l => keepLine (bumpLine s l a.gid) (some a.ctx) h l true) s2
  let s4 := setVer s3 h a (homeVer s3 a)
  dropLines (match s4.accs.find? fun b => b.id == a.id with
    | some b => { s4 with accs := s4.accs.map fun x => if x.id == a.id then { b with ver := homeVer s4 a } else x }
    | none => s4) h a

/-- `b` was published by the die of `a` after `a`, and still saves what its bytes replaced. -/
def later (a b : Acc) : Bool :=
  b.die == a.die && b.id != a.id && !b.saved.isEmpty && serialLe (a.stamp.getD a.die 0) (b.stamp.getD a.die 0)

/-- The writer die's view learns the index and its RDC copy is clean; later writes of the die still pending save it (R89,
R97). -/
def indexBack (s : State) (a : Acc) : State :=
  let s0 := setVer (s.setView a.die (a.writes.foldl (fun v w => { v with idx := SMap.set 0 v.idx w.1 a.cidx }) (s.view a.die)))
    a.die a (homeVer s a)
  let s1 := s0.setDie a.die { s0.die a.die with rdc := a.lines.foldl sbClean (s0.die a.die).rdc }
  { s1 with accs := s1.accs.map fun b =>
      if later a b then
        { b with saved := b.saved.map fun x => if a.writes.any fun w => w.1 == x.1 then (x.1, x.2.1, a.cidx, x.2.2.2) else x }
      else b }

/-- The home value equals the old value a conditional write-through carries. -/
def condHolds (s : State) (a : Acc) : Bool :=
  match a.cond with
  | none => true
  | some old => a.writes.map (fun w => (s.home.byte w.1).1) == old

/-- Serialize a published write at its home. A write-through that no longer matches is discarded, takes no index, and
only its clock goes on to the other dies. -/
def serializeAcc (s : State) (h : Nat) (a : Acc) : State :=
  let s0 := if h = a.die then s else setVc s h a.die (a.stamp.getD a.die 0)
  if condHolds s a then
    let b := { a with cidx := nextIdx s a, stage := .serialized }
    let s1 := atHome (s0.setAcc b) h b
    if h = a.die then s1 else indexBack s1 b
  else
    dropL1 (s0.setAcc { a with bytes := [], stage := .serialized, report := h != a.die })
      a.die a.core (lineOf a.pa)

/-- Publish an access on its die: stamped, its value in the die view, L1 copies invalidated; at home, serialized in the
same step (R85). -/
def publishAcc (s : State) (a : Acc) : State :=
  let s1 := bumpVc s a.die
  let b := { a with stamp := (s1.die a.die).vc, stage := .published }
  if homeDie a.pa = a.die then dropLines (serializeAcc (s1.setAcc b) a.die b) a.die a
  else
    let v := s1.view a.die
    let b := { b with saved := b.writes.map fun w => (w.1, (v.byte w.1).1, v.index w.1, (v.byte w.1).2) }
    let s2 := (s1.setAcc b).setView a.die (b.writes.foldl (fun v w => v.putVal w.1 w.2.1 w.2.2) v)
    dropLines (a.lines.foldl (fun s l => keepLine s (some a.ctx) a.die l true) s2) a.die a

/-- A die has published a write to bytes of `a` that is not serialized yet, or whose discard is not reported (R89). -/
def pendingOwn (s : State) (e : Nat) (a : Acc) : Bool :=
  s.accs.any fun b => b.die == e && b.id != a.id && (b.stage == .published || b.stage == .sent || b.report)
    && (b.saved.any fun x => a.writes.any fun w => w.1 == x.1)

/-- An AQ entry applied at die e, absorbed where the view holds a higher index (R85, R89). -/
def applyAcc (s : State) (e : Nat) (a : Acc) : State :=
  let v := a.writes.foldl (fun v w => if v.index w.1 > a.cidx then v else v.put w.1 w.2.1 w.2.2 a.cidx) (s.view e)
  let s0 := if clk24Le (s.ver e (lineOf a.pa)).1 a.ver.1 then setVer (s.setView e v) e a a.ver else s.setView e v
  let s1 := s0.setAcc { a with aq := a.aq.filter fun x => x != e }
  let s2 := if e = a.die then s1 else setVc s1 e a.die (a.stamp.getD a.die 0)
  dropLines s2 e a

/-- The one published first after `a`. -/
def nextPub (a : Acc) : List Acc → Option Acc
  | [] => none
  | b :: r =>
    match nextPub a r with
    | none => some b
    | some c => if serialLe (b.stamp.getD a.die 0) (c.stamp.getD a.die 0) then some b else some c

/-- The report of a discard at the writer die: bytes the view still holds from the write-through return to what they
held before; a later write of the die pending on them saves that instead (R97). -/
def revertAcc (s : State) (a : Acc) : State :=
  let step := fun (s : State) (x : Nat × Byte × Nat × Bad) =>
    match nextPub a (s.accs.filter fun b => later a b && b.saved.any fun y => y.1 == x.1) with
    | some b => s.setAcc { b with saved := b.saved.map fun y => if y.1 == x.1 then x else y }
    | none =>
      let v := s.view a.die
      if v.index x.1 = x.2.2.1 then s.setView a.die (v.put x.1 x.2.1 x.2.2.2 x.2.2.1) else s
  let s0 := a.saved.foldl step (s.setAcc { a with report := false, saved := [] })
  let s1 := s0.setDie a.die { s0.die a.die with rdc := sbClean (s0.die a.die).rdc (lineOf a.pa) }
  dropLines s1 a.die { a with bytes := a.saved.map fun x => ⟨x.1 - a.pa, 0, .ok⟩ }

/-! ### Writes of the machine itself -/

/-- Bytes split at 128 B lines: the address and the bytes of each piece. -/
def splitLines : Nat → Nat → List (Byte × Bad) → List (Nat × List (Byte × Bad))
  | 0, _, _ => []
  | _ + 1, _, [] => []
  | n + 1, pa, bs =>
    let m := 128 - pa % 128
    (pa, bs.take m) :: splitLines n (pa + m) (bs.drop m)

def wbytes (bs : List (Byte × Bad)) : List WByte :=
  ((List.range bs.length).zip bs).map fun x => ⟨x.1, x.2.1, x.2.2⟩

/-- One write published on a die without passing a CB, which then follows the steps of any write; one to host or pod-remote
memory leaves for its home (R85 engine-land, R92). The number of the access is the state's next; `va` is none where no translation led to
the address (R373). -/
def landPiece (s : State) (die core ctx : Nat) (cmd : Option Nat) (va : Option Nat) (pa : Nat) (bs : List (Byte × Bad)) : State :=
  let a := { Acc.blank with id := s.nextId, seq := s.nextId, ctx := ctx, die := die, core := core, kind := .store,
                            place := .glob pa, va := va.getD pa, vas := va.toList, len := bs.length, bytes := wbytes bs, cmd := cmd }
  if paFar pa then s.addAcc { a with stage := .sent } else publishAcc (s.addAcc a) a

/-- A run of bytes at a virtual address written by the machine on a die, line by line. -/
def landBytes (s : State) (die core ctx : Nat) (cmd : Option Nat) (va pa : Nat) (bs : List (Byte × Bad)) : State :=
  (splitLines bs.length pa bs).foldl (fun s x => landPiece s die core ctx cmd (some (va + (x.1 - pa))) x.1 x.2) s

/-- A run of `n` bytes may land on a die now (R91). -/
def mayLand (s : State) (die n : Nat) : Bool := mayPublishN s die (n / 128 + 2)

/-- A write that a die has published to a byte and whose fate at the home the die does not know yet. -/
def pendingAt (d x : Nat) (a : Acc) : Bool :=
  a.die == d && (a.stage == .published || a.stage == .sent || a.report) && a.saved.any fun y => y.1 == x

/-- A die's view takes bytes with their index. Where the die has published writes to a byte that are pending yet, its view keeps
their value, which will stand later in coherence order, and knows the new index; should the first of them be discarded, the view
returns to the new value (R89, R97). -/
def putUnder (s : State) (d : Nat) (b : Acc) : State :=
  b.writes.foldl (fun s w =>
    match nextPub { b with die := d } (s.accs.filter (pendingAt d w.1)) with
    | some x =>
      let v := s.view d
      let save := fun (a : Acc) (y : Nat × Byte × Nat × Bad) =>
        if y.1 != w.1 then y else if a.id == x.id then (w.1, w.2.1, b.cidx, w.2.2) else (y.1, y.2.1, b.cidx, y.2.2.2)
      let s1 := s.setView d { v with idx := SMap.set 0 v.idx w.1 b.cidx }
      { s1 with accs := s1.accs.map fun a => if pendingAt d w.1 a then { a with saved := a.saved.map (save a) } else a }
    | none => s.setView d ((s.view d).put w.1 w.2.1 w.2.2 b.cidx)) s

/-- Bytes written by a home or by the front end: performed at every scope in the step that writes them. -/
def homeWrite (s : State) (pa : Nat) (bs : List (Byte × Bad)) (by_ : Option Nat) : State :=
  if paHost pa then { s with host := s.host.putMany pa bs }
  else if paRemote pa then putRemote s pa bs
  else
    let a := { Acc.blank with kind := .store, place := .glob pa, len := bs.length, bytes := wbytes bs }
    let b := { a with cidx := nextIdx s a }
    let s1 := { s with home := s.home.putAcc b }
    let s2 := b.lines.foldl (fun s l => keepLine (bumpLine s l by_) none (homeDie pa) l true) s1
    (List.range 4).foldl (fun s d => dropLines (setVer (putUnder s d b) d b (homeVer s b)) d b) s2

def okBytes (bs : List Byte) : List (Byte × Bad) := bs.map fun b => (b, .ok)

end Sys2Proof.Machine
end

