-- ==== Sys2Proof/Machine/Pipes.lean ====
section
/-!
DEFINITION. Pipe loops and the rotating window: majors 0x58 and 0x59, and the steps that start and end iterations (R211
to R230). An iteration is named by its opener's number in the steps, since pipe numbers are a partition's own.
-/
namespace Sys2Proof.Machine

/-! ### Iterations (R214, R215, R222) -/

def Pipe.iter? (q : Pipe) (k : Nat) : Option IterInfo := q.iters.find? fun x => x.k == k

/-- Iteration k has started and retired. -/
def Pipe.gone (q : Pipe) (k : Nat) : Bool :=
  match q.iter? k with | some x => x.st != .running | none => false

def Pipe.setIter (q : Pipe) (x : IterInfo) : Pipe := { q with iters := q.iters.map fun y => if y.k == x.k then x else y }

/-- Held-store commitment of iteration k at its start (R226). -/
def startCommitted (q : Pipe) (k : Nat) : Bool :=
  !q.held || k == 0 || (match q.iter? (k - 1) with | some x => x.st == .pended && x.committed | none => false)

/-- A condition on an earlier iteration number, met where the number is below 0. -/
def reachedBy (k m : Nat) (t : Nat → Bool) : Bool := decide (k < m) || t (k - m)

/-- Conditions 1 to 5 and 7 of R214 for the next iteration; those on retired iterations that never existed hold. -/
def Pipe.mayStart (q : Pipe) : Bool :=
  let k := q.launched
  q.brk.isNone && decide (k < q.n)
    && reachedBy k (q.dist + 1) q.gone
    && (decide (k + q.dist < 64 / q.stride) || q.gone (k + q.dist - 64 / q.stride))
    && (!q.held || (List.range k).all fun j => decide (k ≤ j + q.dist) ||
          (match q.iter? j with | some x => x.committed | none => false))

/-- The stage predicates of iteration k: kf1 to kf3 and kd in the lanes of P (R222). -/
def stageK (q : Pipe) (k : Nat) (m : List (Nat × W32)) : List (Nat × W32) :=
  let on := fun (b : Bool) => if b then q.lanes else 0
  SMap.set 0 (SMap.set 0 (SMap.set 0 (SMap.set 0 m 12 (on (decide (1 ≤ k)))) 13 (on (decide (2 ≤ k)))) 14
    (on (decide (3 ≤ k)))) 15 (on (decide (k + 1 < q.n)))

/-- The slots of iteration k's own names are EMPTY with data 0 in every lane (R215, R220). -/
def Pipe.clearOwn (q : Pipe) (k : Nat) : Pipe :=
  { q with window := (List.range q.stride).foldl (fun w i =>
      w.filter fun x => x.1 / 32 != winSlot q.stride i k) q.window }

/-- The group of iteration k in a slot (R215, R216). It starts outside system mode, whatever its opener is in: a handler's entry is
the only way into that mode (R363). DESIGN CHOICE (log entry 134): NBV, TRAPBASE and TRAPVEC are its opener's as the iteration starts. -/
def iterGroup (s : State) (o : Group) (q : Pipe) (slot : Nat) : Group :=
  { gid := s.nextId, die := o.die, core := o.core, part := o.part, slot := slot, half := none, ctx := q.ctx,
    launch := o.launch, team := q.team, grp := o.grp, role := o.role, tids := o.tids, active := q.lanes,
    s := q.capS, v := q.capV, k := stageK q q.launched q.capK, x := [], hdr := q.body, idx := 0, clause := none,
    entered := false, voidm := 0, bkpass := 0, nbv := o.nbv, trapbase := o.trapbase, trapvec := o.trapvec, sys := false,
    trap := none, framed := false, stopped := false, pass := false, sleep := .awake,
    iter := some ⟨q.num, q.launched, false⟩, opened := none, gates := [],
    preds := [(s.nextId, [])], waitFor := none, inSet := false, age := s.clk o.die o.core, ready := none, nHold := none, stall := 0, fill := 0,
    fast := [], tried := none, holds := false, sld := none, late := [], lastCmd := none, lateWr := [], retired := false, started := true }

/-- Accesses that the start of iteration k acquires: the opener's before PIPE, and those of every retired iteration below
k − D (R217). -/
def startAcquires (q : Pipe) : List Nat :=
  q.owed ++ ((q.iters.filter fun x => decide (x.k + q.dist < q.launched)).map (·.owed)).flatten

/-- An order point of a group that waits for a list of accesses (R217). -/
def addJoin (s : State) (gid : Nat) (preds : Preds) (ids : List Nat) : State :=
  if ids.isEmpty then s
  else s.addAcc { Acc.blank with seq := s.nextId, gid := some gid, preds := preds, kind := .join ids }

/-- Iteration `launched` starts in a slot. -/
def startIter (s : State) (o : Group) (q : Pipe) (slot : Nat) : State :=
  let g := iterGroup s o q slot
  let q1 := (q.clearOwn q.launched)
  let q2 := { q1 with launched := q.launched + 1, spare := q.spare.filter fun x => x != slot,
                      iters := q.iters ++ [⟨q.launched, .running, false, startCommitted q q.launched, g.gid, []⟩] }
  let s1 := { s.setPartOf o ((s.partOf o).setPipe q2) with groups := s.groups ++ [g], nextId := s.nextId + 1 }
  addJoin s1 g.gid g.preds (startAcquires q)

/-- ITERATION_START: the next iteration of the pipe of opener `pipe`, in the dedicated slot, a slot its iterations
vacated, or a vacant slot (R214). -/
def execIterationStart (pipe slot : Nat) (s : State) : Out :=
  match s.group? pipe with
  | none => .next s
  | some o =>
    match o.opened.bind fun n => (s.partOf o).pipe? n with
    | none => .next s
    | some q =>
      let busy := s.allGroups.any fun g => g.ctx == q.ctx && g.die == o.die && g.core == o.core && g.part == o.part && g.slot == slot
      let own := (q.slot == slot || q.spare.contains slot) && !busy
      let free := !slotTaken s q.ctx o.die o.core o.part slot && decide (slot < 24)
        && decide (kVregs (s.kword o) ≤ regRoom s q.ctx o.die o.core o.part)
      if q.mayStart && !(s.partOf o).stop && (own || free) then .next (startIter s o q slot) else .next s

/-! ### Opening a pipe (R211 to R213) -/

/-- A pipe number and a slot for a new pipe of a group. -/
def pipeRoom (s : State) (g : Group) : Option (Nat × Nat) :=
  let p := s.partOf g
  match [0, 1].find? fun n => (p.pipe? n).isNone, freeSlots s g.ctx g.die g.core g.part with
  | some n, sl :: _ => if kVregs (s.kword g) ≤ regRoom s g.ctx g.die g.core g.part then some (n, sl) else none
  | _, _ => none

def strideOf : Stride → Nat
  | .s4 => 4
  | .s8 => 8
  | .s16 => 16

/-- The pipe that PIPE opens, its captured values taken now. DESIGN CHOICE (log entry 120): a poisoned live-in lane is captured with its
poison and raises nothing. -/
def newPipe (s : State) (g : Group) (f : FPipe) (held : Bool) (num slot : Nat) : Pipe :=
  let m := g.act f.p
  { num := num, opener := g.gid, ctx := g.ctx, team := g.team, grp := g.grp, stride := strideOf f.stride,
    dist := f.dist.val + 1, live := f.live.val, held := held, n := (g.rdSc f.a).toNat % 2 ^ 32, body := targetOf g f.off,
    lanes := m, brk := none, launched := 0, capS := g.s,
    capK := g.k.filter fun x => decide (x.1 ≤ 11),
    capV := g.v.filter fun x => decide (x.1 / 32 < f.live.val) && m.getLsbD (x.1 % 32),
    window := [], slot := slot, spare := [], iters := [], owed := owedBy s g.preds }

def pipeOp (i : Instr) (f : FPipe) (held : Bool) (s : State) : Out :=
  issue i s fun g =>
    let m := g.act f.p
    if m = 0 then done s
    else if (lanesOf m).any fun l => (List.range f.live.val).any fun n => (g.laneV n l).empty then waits s .stall
    else match pipeRoom s g with
      | none => waits s .stall
      | some (num, slot) =>
        let q := newPipe s g f held num slot
        let p := s.partOf g
        let s1 := s.setPartOf g { p with pipes := p.pipes ++ [q] }
        done ((if q.n = 0 then s1 else startIter s1 g q slot).modG fun h => { h with opened := some num })

def execPipe (f : FPipe) (s : State) : Out := pipeOp (.pipe f) f false s
def execPipeH (f : FPipe) (s : State) : Out := pipeOp (.pipeH f) f true s

/-- A group leaves the groups that wait and becomes the one that issues. -/
def select (s : State) (g : Group) : State :=
  { s with focus := some g, groups := s.groups.filter fun h => h.gid != g.gid }

/-- The instruction word a group stands at. -/
def Group.word? (g : Group) : Option W64 := g.clause.bind fun c => c.words[g.idx]?

/-- The instruction a group stands at. -/
def Group.instr? (g : Group) : Option Instr := g.word?.bind fun w => (decode w).instr?

/-- The cycle in which a partition may issue again: one instruction each cycle (R118). -/
def slotOpen (s : State) (g : Group) : Bool :=
  let p := s.partOf g
  !p.stop && p.lastIssue != some (s.clk g.die g.core)

/-- PIPE_LAUNCH_RESOURCE_WAIT: a group that waits at PIPE proceeds once a pipe number and the slot are there (R213). -/
def execPipeLaunchResourceWait (gid slot : Nat) (s : State) : Out :=
  match s.focus, s.group? gid with
  | none, some g =>
    (match g.instr?, pipeRoom s g with
     | some (.pipe _), some r | some (.pipeH _), some r =>
       if g.sleep == .stall && r.2 == slot && slotOpen s g then .next (select s g) else .next s
     | _, _ => .next s)
  | _, _ => .next s

/-! ### Retirement and commitment (R220, R223 to R226) -/

/-- The stores that an iteration holds. -/
def heldIds (s : State) (gid : Nat) : List Nat := (s.accs.filter fun a => a.stage == .held && a.gid == some gid).map (·.id)

/-- An iteration retired before its commitment, by PEND or by a PBRK of its own, owes the stores committed now (R217, R226). -/
def Pipe.oweHeld (q : Pipe) (s : State) (gids : List Nat) : Pipe :=
  { q with iters := q.iters.map fun x =>
      if gids.contains x.gid && x.st != .running then { x with owed := x.owed ++ heldIds s x.gid } else x }

/-- The stores that an iteration holds have the places in program order that they had at issue, one for each instruction, whatever
lines it has (R84). -/
def heldSeqs (s : State) (gid : Nat) : List Nat :=
  ((s.accs.filter fun a => a.stage == .held && a.gid == some gid).map (·.seq)).eraseDups

/-- Held stores of an iteration leave the hold buffer in program order, as issued now, the lines of one instruction together; each
that no rule holds back enters the CB or is written at once (R226). -/
def commitStores (s : State) (gid : Nat) : State :=
  let ids := heldIds s gid
  let old := heldSeqs s gid
  let s1 := { s with nextId := s.nextId + old.length, accs := s.accs.map fun a =>
    if a.stage == .held && a.gid == some gid then
      { a with stage := .issued, kept := true, seq := s.nextId + old.idxOf a.seq }
    else a }
  ids.foldl (fun s id => match s.acc? id with
    | some a => enterStep s a
    | none => s) s1

/-- Commitment passes from iteration k upward, as far as each is committed and retired by PEND (R226). -/
def commitFrom (fuel : Nat) (q : Pipe) (k : Nat) (gids : List Nat) : Pipe × List Nat :=
  match fuel with
  | 0 => (q, gids)
  | n + 1 =>
    match q.iter? k, q.iter? (k + 1) with
    | some x, some y =>
      if x.st == .pended && x.committed && !y.committed then
        commitFrom n (q.setIter { y with committed := true }) (k + 1) (gids ++ [y.gid])
      else (q, gids)
    | _, _ => (q, gids)

/-- Every lane of the iteration's own slots that is EMPTY is VOID, data 0 (R220). -/
def Pipe.voidOwn (q : Pipe) (k : Nat) : Pipe :=
  (List.range q.stride).foldl (fun q i => (List.range 32).foldl (fun q l =>
    let sl := winSlot q.stride i k
    if (q.slotLane sl l).st == .empty then q.setSlot sl l ⟨0, .void, false, .ok⟩ else q) q) q

/-- A write to some own slot is pending. -/
def Pipe.owedOwn (q : Pipe) (k : Nat) : Bool :=
  (List.range q.stride).any fun i => (List.range 32).any fun l => (q.slotLane (winSlot q.stride i k) l).owed

/-- Held stores of the iterations of a list are discarded (R226). -/
def discardHeld (s : State) (gids : List Nat) : State :=
  { s with accs := s.accs.filter fun a => !(a.stage == .held && (match a.gid with | some g => gids.contains g | none => false)) }

/-- Iteration g retires: by PEND, or by PBRK or cancellation. Its group is gone and its slot passes to the pipe. A cancelled
iteration is never committed: what it still holds is discarded (R226). -/
def retireIter (s : State) (g : Group) (q : Pipe) (k : Nat) (how : IterSt) : State :=
  let x := (q.iter? k).getD ⟨k, .running, false, false, g.gid, []⟩
  let q1 := (q.voidOwn k).setIter { x with st := how, owed := owedBy s [(g.gid, [])] }
  let c := commitFrom q1.iters.length q1 k []
  let q2 := { c.1.oweHeld s c.2 with spare := if g.slot = q.slot then q.spare else q.spare ++ [g.slot] }
  let p := s.partOf g
  let s1 := s.setPartOf g (p.setPipe q2)
  let s2 := if x.cancelled then discardHeld s1 [g.gid] else c.2.foldl commitStores s1
  { s2 with focus := s2.focus.filter fun h => h.gid != g.gid, groups := s2.groups.filter fun h => h.gid != g.gid }

def pendAct (s : State) (g : Group) (q : Pipe) (k : Nat) (how : IterSt) : Out :=
  if q.owedOwn k then waits s .stall else .next (retireIter s g q k how)

/-- The state as an iteration sees it: its pipe and its number. -/
def inIter (s : State) (g : Group) (f : Pipe → IterRec → Out) : Out :=
  match g.iter, s.pipeOf g with
  | some it, some q => f q it
  | _, _ => done s

/-- An iteration is cancelled. -/
def Pipe.isCancelled (q : Pipe) (k : Nat) : Bool := match q.iter? k with | some x => x.cancelled | none => false

/-- PEND. DEDUCED (log entry 132): a cancelled iteration that issues it has retired by cancellation, as its record says (R232). -/
def execPend (f : VR) (s : State) : Out :=
  issue (.pend f) s fun g =>
    if g.act f.p = 0 then done s
    else inIter s g fun q it => pendAct s g q it.k (if q.isCancelled it.k then .broken else .pended)

/-- The pipe after PBRK by iteration k, done again alike where the retirement waited: brk, and every running iteration above k cancelled (R224). -/
def Pipe.breakAt (q : Pipe) (k : Nat) : Pipe :=
  { q with brk := some (match q.brk with | none => k | some b => min b k),
           iters := q.iters.map fun x => if k < x.k && x.st == .running then { x with cancelled := true } else x }

def execPbrk (f : VR) (s : State) : Out :=
  issue (.pbrk f) s fun g =>
    if g.act f.p = 0 then done s
    else inIter s g fun q it =>
      if q.isCancelled it.k then pendAct s g q it.k .broken
      else
        let q1 := q.breakAt it.k
        let s1 := s.setPartOf g ((s.partOf g).setPipe q1)
        let s2 := if q.held then discardHeld s1 ((q1.iters.filter fun x => decide (it.k < x.k)).map (·.gid)) else s1
        pendAct s2 g q1 it.k .broken

/-- A cancelled iteration sleeps in an instruction that it abandons, or has been woken in it and has not performed it; in any other
wait it issues the rest of its clause (R225, R271). DEDUCED (log entry 116): LNCH is left as ENQ is, which it follows in every wait (R370). -/
def abandons (g : Group) : Bool :=
  match g.sleep, g.instr? with
  | .barrier, some (.barwait _) | .full _, some (.enq _) | .empty _, some (.deq _) | .waitl _ _, some (.waitl _)
  | .woken _ _, some (.enq _) | .woken _ _, some (.deq _) | .rewoken, some (.waitl _)
  | .full _, some (.lnch _) | .woken _ _, some (.lnch _) => true
  | _, _ => false

/-! ### PJOIN, YVOID, PSTAT (R227 to R230) -/

/-- PJOIN of a pipe waits: more iterations may start, one runs, or a held store is not committed (R227). -/
def joinWaits (s : State) (q : Pipe) : Bool :=
  !q.spent || (q.iters.any fun x => x.st == .running)
    || s.accs.any fun a => a.stage == .held && q.iters.any fun x => a.gid == some x.gid

def execPjoin (f : VR) (s : State) : Out :=
  issue (.pjoin f) s fun g =>
    if g.act f.p = 0 then done s
    else match g.opened.bind fun n => (s.partOf g).pipe? n with
      | none => done s
      | some q =>
        if joinWaits s q then waits s .window
        else
          let p := s.partOf g
          let s1 := s.setPartOf g { p with pipes := p.pipes.filter fun r => r.num != q.num }
          let s2 := addJoin s1 g.gid g.preds (q.iters.map (·.owed)).flatten
          done (s2.modG fun h => { h.putS f.dst (BitVec.ofNat 64 (q.brk.getD q.n)) with opened := none })

def execYvoid (f : VR) (s : State) : Out :=
  issue (.yvoid f) s fun g =>
    let m := lanesOf (g.act f.p)
    if dstBusy s g f.dst 1 m then waits s .stall
    else inIter s g fun q it =>
      match f.dst with
      | .y n => done (s.setPartOf g ((s.partOf g).setPipe
          (m.foldl (fun q l => q.setSlot (winSlot q.stride n.toNat it.k) l ⟨0, .void, false, .ok⟩) q)))
      | _ => done s

def strideCode (n : Nat) : Nat := if n = 4 then 0 else if n = 8 then 1 else 2

/-- The word of R230 for a pipe. -/
def pstatWord (q : Pipe) (isIter cancelled : Bool) : W64 :=
  BitVec.ofNat 64 (2 ^ 63 + isIter.toNat * 2 ^ 62 + q.brk.isSome.toNat * 2 ^ 61 + cancelled.toNat * 2 ^ 60
    + q.held.toNat * 2 ^ 59 + q.dist * 2 ^ 57 + strideCode q.stride * 2 ^ 55
    + (q.iters.filter fun x => x.st == .running).length % 8 * 2 ^ 52 + q.launched)

def execPstat (f : VR) (s : State) : Out :=
  issue (.pstat f) s fun g =>
    if g.act f.p = 0 then done s
    else
      let w := match g.iter, s.pipeOf g with
        | some it, some q => pstatWord q true (q.isCancelled it.k)
        | _, _ => match g.opened.bind fun n => (s.partOf g).pipe? n with
          | some q => pstatWord q false false
          | none => 0
      done (s.modG fun h => h.putS f.dst w)

/-- An iteration of a held pipe that is not committed: its stores are held, and every other instruction that writes memory
waits (R226). DESIGN CHOICE (log entry 122): one that is cancelled, and so never committed, waits there for ever. -/
def uncommitted (s : State) (g : Group) : Bool :=
  match g.iter, s.pipeOf g with
  | some it, some q => q.held && match q.iter? it.k with | some x => !x.committed | none => false
  | _, _ => false

/-- Lines the hold buffer of an iteration holds (R226). -/
def heldLines (s : State) (gid : Nat) : List Nat :=
  ((s.accs.filter fun a => a.stage == .held && a.gid == some gid).map fun a =>
    (if a.isSpad then 2 ^ 60 else 0) + a.va / 128).eraseDups

end Sys2Proof.Machine
end

