-- ==== Sys2Proof/Machine/Translate.lean ====
section
/-!
DEFINITION. Translation (R168 to R173, R446, R447), the checks of an access (R165, R166, R174, R179), data watches (R369),
armed barrier objects (R183, R239).
-/
namespace Sys2Proof.Machine

/-! ### Populated windows (R171, R172, R446, R447) -/

def sdwBytes (s : State) (d : Nat) : Nat := fldN (s.die d).memsplit 0 8 * 2 ^ 30

/-- A die's interleaved share (R446). -/
def ilShare (s : State) (d : Nat) : Nat := (144 * 10 ^ 9 - sdwBytes s d) / 2 ^ 21 * 2 ^ 21

def ilWindow (s : State) : Nat :=
  4 * min (min (ilShare s 0) (ilShare s 1)) (min (ilShare s 2) (ilShare s 3))

def hostWindow (s : State) : Nat :=
  let l := fldN s.hostlim 0 27
  if l = 0 then 2 ^ 48 else l * 2 ^ 21

/-- The bytes [pa, pa + n) lie in the populated part of pa's window. -/
def populated (s : State) (pa n : Nat) : Bool :=
  let off := pa % 2 ^ 48
  match paRegion pa with
  | 0 => off / 2 ^ 40 == 0 && decide (off % 2 ^ 38 + n ≤ sdwBytes s (off / 2 ^ 38 % 4))
  | 1 => off / 2 ^ 40 == 0 && decide (off % 2 ^ 40 + n ≤ ilWindow s)
  | 2 => decide (off + n ≤ hostWindow s)
  | 3 => off / 2 ^ 46 == 0 && decide (off % 2 ^ 40 + n ≤ SMap.get 0 s.remote (off / 2 ^ 40 % 64))
  | _ => false

/-! ### The walk (R168 to R172) -/

/-- A die reads memory apart from the cores: its view, the home of pod-remote memory, the host (R169, R448). DESIGN CHOICE (log
entry 93): a table outside package memory, of which R169 does not speak, is read where its address lies. -/
def dieByte (s : State) (die pa : Nat) : Byte × Bad :=
  if paHost pa then s.host.byte pa else if paRemote pa then remoteByte s pa else (s.view die).byte pa

def dieBytes (s : State) (die pa n : Nat) : List (Byte × Bad) := (List.range n).map fun i => dieByte s die (pa + i)

/-- A word as a walk of the tables, or the front end, takes it from a die view. DESIGN CHOICE (log entry 104): poison in it is dropped. -/
def dieWord (s : State) (die pa : Nat) : W64 := BitVec.ofNat 64 (leNat ((dieBytes s die pa 8).map (·.1)))

/-- The state as an operation reads words from it whose poison is dropped (log entry 104): host memory reads 0 where the host completes
its reads with an error (R441). -/
def readBy (s : State) (op : Nat) : State := if s.hostErr.contains op then { s with host := View.blank } else s

/-- A leaf of a page size passes R172. -/
def leafOk (s : State) (l : W64) (size : Nat) : Bool :=
  let pa := fldN l 16 36 * 65536
  fldN l 14 2 == 0 && !bitAt l 9 && fldN l 1 4 == 0
    && pa % size == 0 && populated s pa size
    && (if bitAt l 13 then paRegion pa == 1 || paRegion pa == 3 else paRegion pa == 0 || paRegion pa == 2)
    && (paRegion pa != 0 || fldN l 11 2 == pa / 2 ^ 38 % 4)
    && fmtOk (leafFmt l) (leafGeom l)

/-- A pointer to the next table passes R172. DESIGN CHOICE (log entry 91): one whose table is not aligned to its size, which
R172 does not list, ends the walk in XLATE too. -/
def pointerOk (l : W64) (align : Nat) : Bool := bitAt l 0 && fldN l 52 12 == 0 && fldN l 1 7 == 0 && fldN l 0 52 / 256 * 256 % align == 0

def nextTable (l : W64) : Nat := fldN l 8 44 * 256

/-- The leaf of a virtual address with its page size, or a failure. -/
def walk (s : State) (die root va : Nat) : Option (W64 × Nat) :=
  let e3 := dieWord s die (root + 8 * (va / 2 ^ 39 % 8192))
  if !pointerOk e3 4096 then none
  else
    let e2 := dieWord s die (nextTable e3 + 8 * (va / 2 ^ 30 % 512))
    if bitAt e2 10 then (if bitAt e2 0 && leafOk s e2 (2 ^ 30) then some (e2, 2 ^ 30) else none)
    else if !pointerOk e2 4096 then none
    else
      let e1 := dieWord s die (nextTable e2 + 8 * (va / 2 ^ 21 % 512))
      if bitAt e1 10 then (if bitAt e1 0 && leafOk s e1 (2 ^ 21) then some (e1, 2 ^ 21) else none)
      else if !pointerOk e1 256 then none
      else
        let e0 := dieWord s die (nextTable e1 + 8 * (va / 2 ^ 16 % 32))
        if bitAt e0 0 && bitAt e0 10 && leafOk s e0 (2 ^ 16) then some (e0, 2 ^ 16) else none

/-- Addresses of the entries that the walk reads. -/
def walkReads (s : State) (die root va : Nat) : List Nat :=
  let a3 := root + 8 * (va / 2 ^ 39 % 8192)
  let e3 := dieWord s die a3
  if !pointerOk e3 4096 then [a3]
  else
    let a2 := nextTable e3 + 8 * (va / 2 ^ 30 % 512)
    let e2 := dieWord s die a2
    if bitAt e2 10 || !pointerOk e2 4096 then [a3, a2]
    else
      let a1 := nextTable e2 + 8 * (va / 2 ^ 21 % 512)
      let e1 := dieWord s die a1
      if bitAt e1 10 || !pointerOk e1 256 then [a3, a2, a1] else [a3, a2, a1, nextTable e1 + 8 * (va / 2 ^ 16 % 32)]

/-! ### TLBs (R173) -/

def TlbEntry.hits (e : TlbEntry) (ctx va : Nat) : Bool := e.ctx == ctx && decide (e.va ≤ va) && decide (va < e.va + e.size)

def tlbFind (l : List TlbEntry) (ctx va : Nat) : Option TlbEntry := l.find? fun e => e.hits ctx va

/-- An entry added; the oldest leaves a full TLB. -/
def tlbAdd (cap : Nat) (l : List TlbEntry) (e : TlbEntry) : List TlbEntry := (l ++ [e]).drop (l.length + 1 - cap)

/-- The entry a core uses, brought from the die TLB where it lacks it. -/
def tlbOf (s : State) (die core ctx va : Nat) : State × Option TlbEntry :=
  let c := s.core die core
  match tlbFind c.tlb ctx va with
  | some e => (s, some e)
  | none =>
    match tlbFind (s.die die).tlb ctx va with
    | some e => (s.setCore die core { c with tlb := tlbAdd 256 c.tlb e }, some e)
    | none => (s, none)

/-- The walk under way that a miss merges into. DESIGN CHOICE (log entry 92): before the leaf is known, two misses are for the same
page where they lie in one 64 KiB of virtual addresses. -/
def walkFor (s : State) (die ctx va : Nat) : Option Walk :=
  (s.die die).walks.find? fun w => w.ctx == ctx && w.va == va / 65536 && !w.dead && !w.failed

/-- A walk that failed has yet to answer the miss of a group or a command. -/
def failedFor (s : State) (die ctx who va : Nat) : Bool :=
  (s.die die).walks.any fun w => w.ctx == ctx && w.va == va / 65536 && w.failed && w.asks.contains who

/-- At most 512 walks run at once; the further ones queue, and start in arrival order (R173). -/
def runWalks (lim : W64) : Nat → List Walk → List Walk
  | 0, ws => ws
  | _, [] => []
  | n + 1, w :: r =>
    if w.failed then w :: runWalks lim (n + 1) r
    else { w with limit := some (w.limit.getD lim) } :: runWalks lim n r

/-- A miss of a group or a command merges into the walk under way for its page, or starts one (R173). -/
def joinWalk (s : State) (die ctx who va : Nat) : State :=
  let d := s.die die
  match walkFor s die ctx va with
  | some w =>
    if w.asks.contains who then s
    else s.setDie die { d with walks := d.walks.map fun v => if v.id == w.id then { v with asks := v.asks ++ [who] } else v }
  | none =>
    { s.setDie die { d with walks := runWalks s.hostlim 512 (d.walks ++ [⟨s.nextId, ctx, va / 65536, die, [who], none, false, false⟩]) }
      with nextId := s.nextId + 1 }

/-- PAGE_WALK: a walk that runs ends; the populated part of the host window is that of its start (R173, R447). The bytes of the entries
read are its context's (R426). DESIGN CHOICE (log entry 129): it reads all its entries in this one step. -/
def execPageWalk (id : Nat) (s : State) : Out :=
  let at_ := (List.range 4).find? fun d => (s.die d).walks.any fun w => w.id == id && !w.failed && w.limit.isSome
  match at_ with
  | none => .next s
  | some d =>
    let x := s.die d
    match x.walks.find? fun w => w.id == id with
    | none => .next s
    | some w =>
      let rest := x.walks.filter fun v => v.id != id
      if w.dead then .next (s.setDie d { x with walks := runWalks s.hostlim 512 rest })
      else
        let root := ((s.ctx? w.ctx).map (·.root)).getD 0
        let s0 := { readBy s id with hostlim := w.limit.getD s.hostlim }
        let s1 := (walkReads s0 d root (w.va * 65536)).foldl (fun s a => pullBytes s w.ctx d a 8) s
        match walk s0 d root (w.va * 65536) with
        | some (l, size) =>
          .next (s1.setDie d { x with walks := runWalks s.hostlim 512 rest, tlb := tlbAdd 32768 x.tlb ⟨w.ctx, w.va * 65536 / size * size, size, l⟩ })
        | none => .next (s1.setDie d { x with walks := runWalks s.hostlim 512 (x.walks.map fun v => if v.id == id then { v with failed := true } else v) })

/-! ### Translating a list of addresses -/

/-- A translated access of a lane. -/
structure Xl where
  lane : Nat
  va   : Nat
  pa   : Nat
  leaf : W64
  base : Nat
  size : Nat
deriving DecidableEq, Repr

/-- What translating one address gives. -/
inductive XlRes where
  | ok (x : Xl)
  | bad
  | miss
deriving DecidableEq, Repr

def XlRes.hit? : XlRes → Option Xl
  | .ok y => some y
  | _ => none

def xlOf (lane va : Nat) (e : TlbEntry) : Xl :=
  { lane := lane, va := va, pa := fldN e.leaf 16 36 * 65536 + (va - e.va), leaf := e.leaf, base := e.va, size := e.size }

/-- One address of a group or a command: above 52 bits it does not translate (R165). -/
def xlate1 (s : State) (die core ctx who lane va : Nat) : State × XlRes :=
  if 2 ^ 52 ≤ va then (s, .bad)
  else
    let r := tlbOf s die core ctx va
    match r.2 with
    | some e => (r.1, .ok (xlOf lane va e))
    | none =>
      if failedFor s die ctx who va then (s, .bad) else (joinWalk s die ctx who va, .miss)

/-- Every address of a list, walks started for those that miss. -/
def xlateAll (s : State) (die core ctx who : Nat) : List (Nat × Nat) → State × List (Nat × Nat × XlRes)
  | [] => (s, [])
  | (lane, va) :: r =>
    let a := xlate1 s die core ctx who lane va
    let b := xlateAll a.1 die core ctx who r
    (b.1, (lane, va, a.2) :: b.2)

/-- The failed walks of a list of addresses have answered a group or a command; one that has answered all is gone. -/
def takeFailed (s : State) (die ctx who : Nat) (vas : List Nat) : State :=
  let d := s.die die
  let hit := fun (w : Walk) => w.failed && w.ctx == ctx && vas.any fun v => v / 65536 == w.va
  let ws := d.walks.map fun w => if hit w then { w with asks := w.asks.filter fun x => x != who } else w
  s.setDie die { d with walks := ws.filter fun w => !(w.failed && w.asks.isEmpty) }

/-! ### Permissions (R174) -/

/-- What an access needs of its page. -/
inductive Need where
  | rd | wr | both
deriving DecidableEq, Repr

/-- The page refuses the access. -/
def refused (leaf : W64) (sys : Bool) (n : Need) : Bool :=
  (bitAt leaf 8 && !sys) || (match n with
    | .rd => !bitAt leaf 5
    | .wr => !bitAt leaf 6
    | .both => !bitAt leaf 5 || !bitAt leaf 6)

/-! ### Data watches (R369) and debug stops (R428) -/

def bkKind (b : Bkpt) : Nat := fldN b.ctl 0 2

/-- A slot that a watch compares with: an access [va, va + w), a write or a read (R369). -/
def watchHits (b : Bkpt) (g : Group) (write : Bool) (va w : Nat) : Bool :=
  (!bitAt b.ctl 2 || b.team == g.team) && (bkKind b == 3 || (bkKind b == 2 && write))
    && decide (va < b.addr.toNat + 2 ^ fldN b.ctl 8 4) && decide (b.addr.toNat < va + w)

/-- The first slot of the group's context that a lane hits: slot, lane's address, lanes. -/
def watchFind (s : State) (g : Group) (write : Bool) (w : Nat) (ls : List (Nat × Nat)) : Option (Nat × Nat × W32) :=
  if g.pass then none
  else
    let bs := ((s.ctx? g.ctx).map (·.bkpts)).getD []
    match ls.find? fun x => bs.any fun b => watchHits b.2 g write x.2 w with
    | none => none
    | some x =>
      (bs.find? fun b => watchHits b.2 g write x.2 w).map fun b =>
        (b.1, x.2, maskWhere (ls.map (·.1)) fun l => (ls.find? fun y => y.1 == l).map (fun y => bs.any fun c => watchHits c.2 g write y.2 w) == some true)

/-- A partition holds groups of a context, with their threads or filed in glades and draws (R114, R116). -/
def holdsCtx (s : State) (ctx die core part : Nat) : Bool :=
  let p := s.partn die core part
  (s.allGroups.any fun g => g.ctx == ctx && g.die == die && g.core == core && g.part == part)
    || (p.glades.any fun x => x.ctx == ctx) || p.draws.any fun x => x.glade.ctx == ctx

/-- A partition freezes (R427, R429): cause 0 STOP, 1 breakpoint, 2 a peer's stop. The deferral of its contexts' saves stops
counting (R430). -/
def freeze (s : State) (die core part cause slot : Nat) : State :=
  let p := s.partn die core part
  if p.stop then s
  else
    let s1 := s.setPartn die core part { p with stop := true, dumped := false, cause := cause, bkslot := slot,
                                                stopClk := s.clk die core, stopGtb := s.gtb.toNat, stopNo := s.tick }
    { s1 with contexts := s1.contexts.map fun c =>
        if holdsCtx s c.id die core part then
          { c with saves := c.saves.map fun r =>
              if r.die == die && r.core == core then { r with frozen := some (r.frozen.getD s.gtb.toNat) } else r }
        else c }

/-- A breakpoint hit: BKPT with the slot in the info word, or a stop of the partition where BKSTOP is set, after which the
instruction passes once (R369, R428). -/
def bkptHit (i : Instr) (s : State) (g : Group) (slot : Nat) (addr : W64) (lanes : W32) : Out :=
  if bitAt (s.partOf g).dbgctl 4 then
    .next ((freeze s g.die g.core g.part 1 slot).modG fun h => { h with pass := true, sleep := .awake })
  else raise s i .bkpt addr lanes (BitVec.ofNat 64 slot)

/-! ### The checks of an access (R179, R238) -/

/-- What the checks ask: need, width, an alignment that the page decides, watch (none: not compared; else whether a
write), and the further faults of a translated lane. -/
structure GChk where
  need  : Need
  w     : Nat
  align : Xl → Nat
  watch : Option Bool
  more  : Xl → Option FaultCode
  moreOrder : List FaultCode

/-- The checks of a plain access of a width. -/
def plainChk (need : Need) (w : Nat) (watch : Option Bool) : GChk := ⟨need, w, fun _ => 1, watch, fun _ => none, []⟩

/-- The lanes of a list as a mask; 0 for an access made once (R375). -/
def laneMask (single : Bool) (ls : List Nat) : W32 := if single then 0 else maskWhere ls fun _ => true

/-- The first of the further faults, in order, with its lanes. -/
def moreFault (c : GChk) (xs : List Xl) : List FaultCode → Option (FaultCode × Nat × List Nat)
  | [] => none
  | k :: r =>
    match xs.filter fun x => c.more x == some k with
    | [] => moreFault c xs r
    | x :: t => some (k, x.va, (x :: t).map (·.lane))

/-- Check the global accesses of an instruction: watch, ALIGN, XLATE, PROT, then the further faults; translation completes
for every lane before it issues (R179). `s` is the state before the instruction; `ok` gets the state with its TLBs. -/
def withGlob (i : Instr) (s : State) (g : Group) (c : GChk) (single : Bool) (ls : List (Nat × Nat))
    (ok : State → List Xl → Out) : Out :=
  let hit := match c.watch with
    | some w => watchFind s g w c.w ls
    | none => none
  match hit with
  | some (slot, a, m) => bkptHit i s g slot (BitVec.ofNat 64 a) (if single then 0 else m)
  | none =>
    match ls.filter fun x => x.2 % c.w != 0 with
    | x :: r => raise s i .align (BitVec.ofNat 64 x.2) (laneMask single ((x :: r).map (·.1))) 0
    | [] =>
      let r := xlateAll s g.die g.core g.ctx g.gid ls
      let xs := r.2.filterMap fun x => x.2.2.hit?
      if r.2.any fun x => x.2.2 == .miss then waits r.1 .stall
      else match xs.filter fun x => x.va % c.align x != 0 with
      | x :: t => raise r.1 i .align (BitVec.ofNat 64 x.va) (laneMask single ((x :: t).map (·.lane))) 0
      | [] =>
        match r.2.filter fun x => x.2.2 == .bad with
        | x :: t => raise (takeFailed r.1 g.die g.ctx g.gid ((x :: t).map (·.2.1))) i .xlate (BitVec.ofNat 64 x.2.1)
            (laneMask single ((x :: t).map (·.1))) 0
        | [] =>
          match xs.filter fun x => refused x.leaf g.sys c.need with
          | x :: t => raise r.1 i .prot (BitVec.ofNat 64 x.va) (laneMask single ((x :: t).map (·.lane))) 0
          | [] =>
            match moreFault c xs c.moreOrder with
            | some (k, a, t) => raise r.1 i k (BitVec.ofNat 64 a) (laneMask single t) 0
            | none => ok r.1 xs

/-! ### Armed barrier objects (R183, R239) -/

def objState (t : Team) (o : Nat) : Nat := (t.byte (o + 15)).1.toNat / 64

/-- The bytes [a, a + w) touch a registered block whose state is armed. -/
def touchesArmed (t : Team) (a w : Nat) : Bool :=
  t.bars.any fun o => objState t o == 1 && decide (a < o + 16) && decide (o < a + w)

/-- Check the scratchpad accesses of an instruction: ALIGN, PROT, BARCLOB where it writes. -/
def withSpad (i : Instr) (s : State) (g : Group) (w : Nat) (writes : Bool) (ls : List (Nat × Nat)) (ok : Team → Out) : Out :=
  match s.team? g.team with
  | none => .next s
  | some t =>
    match ls.filter fun x => x.2 % w != 0 with
    | x :: r => raise s i .align (BitVec.ofNat 64 x.2) (laneMask false ((x :: r).map (·.1))) 0
    | [] =>
      match ls.filter fun x => decide (t.spadLen < x.2 + w) with
      | x :: r => raise s i .prot (BitVec.ofNat 64 x.2) (laneMask false ((x :: r).map (·.1))) 0
      | [] =>
        match (if writes then ls.filter fun x => touchesArmed t x.2 w else []) with
        | x :: r => raise s i .barclob (BitVec.ofNat 64 x.2) (laneMask false ((x :: r).map (·.1))) 0
        | [] => ok t

end Sys2Proof.Machine
end

