-- ==== Sys2Proof/Machine/Memory.lean ====
section
/-!
DEFINITION. Memory instructions, majors 0x60 to 0x6B (R165, R177 to R190). A load marks its lanes EMPTY and puts one
access for each lane in flight; a store puts one access for each line; the steps of Ordering.lean take them on.
-/
namespace Sys2Proof.Machine

/-! ### Addresses -/

def scaleOf : Scale → Nat
  | .x1 => 0 | .x2 => 1 | .x4 => 2 | .x8 => 3 | .x16 => 4

/-- Effective address of a lane (R165). -/
def eaOf (g : Group) (f : FM) (lane : Nat) : Nat :=
  let idx := match f.x with
    | some r => (g.laneV r.toNat lane).val.toNat * 2 ^ scaleOf f.scale
    | none => 0
  (g.rdS f.base.toNat + BitVec.ofNat 64 idx + BitVec.signExtend 64 f.disp).toNat

/-- The index register as a source. -/
def idxSrc (f : FM) (m : W32) : List Src :=
  match f.x with
  | some r => [srcAt (.v r) false false m]
  | none => []

/-- Width in bytes of a memory type (R178). -/
def memW (t : Ty) : Nat := t.memBytes.getD 4

/-- v registers a value of a width fills. -/
def memRegs (w : Nat) : Nat := (w + 3) / 4

/-- Accesses of one instruction take consecutive numbers and one position. -/
def addAccs (s : State) (l : List Acc) : State :=
  let q := s.nextId
  l.foldl (fun s a => s.addAcc { a with seq := q }) s

/-- An access of a group, for all its threads. -/
def gAcc (g : Group) (major : Nat) (kind : AccKind) (place : Place) (va len : Nat) (acq rel : Bool) (sc : Scope) : Acc :=
  { Acc.blank with major := major, gid := some g.gid, preds := g.preds, tids := g.tids, ctx := g.ctx, die := g.die, core := g.core,
                   part := g.part, slot := g.slot, kind := kind, place := place, va := va, vas := [va], len := len, acq := acq,
                   rel := rel, scope := sc }

/-- The access as some lanes of the group perform it: it follows the accesses of their threads (R84). -/
def Acc.byLanes (a : Acc) (g : Group) (ls : List Nat) : Acc :=
  let ts := ls.map fun l => g.tids.getD l 0
  { a with tids := ts, preds := g.preds.of ts }

/-! ### Scratchpad passes (R186) -/

/-- Passes of one sub-group: the most distinct rows in any bank. -/
def subPasses (w : Nat) (offs : List Nat) : Nat :=
  let words := ((offs.map fun o => (List.range ((w + 3) / 4)).map fun j => o / 4 + j).flatten).eraseDups
  (List.range 32).foldl (fun m b => max m (((words.filter fun x => x % 32 == b).map fun x => x / 32).eraseDups).length) 0

/-- Passes of an LDS or STS (R186). DESIGN CHOICE (log entry 106): accesses of 1 B and 2 B are one sub-group, each lane of one word. -/
def bankPasses (w : Nat) (ls : List (Nat × Nat)) : Nat :=
  let n := if w = 16 then 4 else if w = 8 then 2 else 1
  ((List.range n).map fun q => subPasses w ((ls.filter fun x => x.1 / (32 / n) == q).map (·.2))).sum

def addPasses (n : Nat) (h : Group) : Group := { h with bkpass := h.bkpass + BitVec.ofNat 64 n }

/-- The line requests of a load, in the order of the lowest lane that touches each line; each covers the sectors that the lanes
touch there (R185). The list holds each read's address and length, lanes rising. -/
def lineReqs (rs : List (Nat × Nat)) : List (Nat × BitVec 4) :=
  ((rs.map fun r => lineOf r.1).eraseDups).map fun l =>
    (l, (rs.filter fun r => lineOf r.1 == l).foldl
      (fun m r => m ||| sectorsOf ((List.range r.2).map fun i => r.1 % 128 + i)) 0)

/-- A read misses L1: some of its sectors are not there; host and pod-remote memory never is (R120, R185). -/
def missesL1 (s : State) (g : Group) (pa n : Nat) : Bool :=
  !((s.core g.die g.core).l1.any fun x => x.line == lineOf pa &&
    (List.range n).all fun i => x.sectors.getLsbD (pa % 128 / 32 + i / 32))

/-- A read that a group makes within a step: its dependence is logged (R434), the CB entries that it reads are noted (R89), and where L1
lacks the bytes they are moved (R426). -/
def stepRead (s : State) (g : Group) (a : Acc) : State :=
  let s1 := noteSeen (logRead s a (a.readVer s)) a
  if a.far || missesL1 s g a.pa a.len then moveBytes s1 a.ctx a.die a.pa a.len false else s1

/-- The line requests go to the core's L1. -/
def reqLines (s : State) (g : Group) (rs : List (Nat × Nat)) : State :=
  (lineReqs rs).foldl (fun s r => fillL1 s (some g.ctx) g.die g.core r.1 r.2) s

/-! ### Loads (R180, R181) -/

/-- LD. -/
def execLd (f : FM) (s : State) : Out :=
  issue (.ld f) s fun g =>
    let m := g.act f.p
    let w := memW f.ty
    withSrcs (.ld f) s g false (idxSrc f m) fun s1 =>
      if dstBusy s g f.data (memRegs w) (lanesOf m) then waits s .stall
      else withGlob (.ld f) s g (plainChk .rd w (some false)) false ((lanesOf m).map fun l => (l, eaOf g f l)) fun s2 xs =>
        let s3 := ({ s2 with focus := s1.focus }).oweDst g f.data (memRegs w) (lanesOf m)
        done (addAccs (reqLines s3 g (xs.map fun x => (x.pa, w))) (xs.map fun x =>
          { gAcc g 0x60 .load (.glob x.pa) x.va w f.acq false f.scope with
            dst := some ⟨f.data, x.lane, f.ty, none⟩, miss := missesL1 s g x.pa w }.byLanes g [x.lane]))

/-- LDS. -/
def execLds (f : FM) (s : State) : Out :=
  issue (.lds f) s fun g =>
    let m := g.act f.p
    let w := memW f.ty
    let ls := (lanesOf m).map fun l => (l, eaOf g f l)
    withSrcs (.lds f) s g false (idxSrc f m) fun s1 =>
      if dstBusy s g f.data (memRegs w) (lanesOf m) then waits s .stall
      else withSpad (.lds f) s g w false ls fun t =>
        let s3 := (s1.oweDst g f.data (memRegs w) (lanesOf m)).modG (addPasses (bankPasses w ls))
        done (addAccs s3 (ls.map fun x =>
          { gAcc g 0x62 .load (.spad t.id x.2) x.2 w f.acq false f.scope with dst := some ⟨f.data, x.1, f.ty, none⟩ }.byLanes g [x.1]))

/-- The reads of one LDF element: its plane bytes or its code, then its scale (R184, R288). -/
def ldfReads (x : Xl) : List (Nat × Nat) :=
  match elemAt (leafFmt x.leaf) (leafGeom x.leaf) x.size ((x.va - x.base) / fmtWidth (leafFmt x.leaf)) with
  | some e => (e.offs.map fun o => (o, e.len)) ++ (match e.sc with | some o => [(o, 1)] | none => [])
  | none => []

def ldfBit (x : Xl) : Nat :=
  ((elemAt (leafFmt x.leaf) (leafGeom x.leaf) x.size ((x.va - x.base) / fmtWidth (leafFmt x.leaf))).map (·.bit)).getD 0

/-- LDF. -/
def execLdf (f : FM) (s : State) : Out :=
  issue (.ldf f) s fun g =>
    let m := g.act f.p
    let chk : GChk := ⟨.rd, 1, fun x => fmtWidth (leafFmt x.leaf), some false,
      fun x => if ldfIsF32 (leafFmt x.leaf) == some (f.ty == .f32) && !(ldfReads x).isEmpty then none else some .fmtattr,
      [.fmtattr]⟩
    withSrcs (.ldf f) s g false (idxSrc f m) fun s1 =>
      if dstBusy s g f.data 1 (lanesOf m) then waits s .stall
      else withGlob (.ldf f) s g chk false ((lanesOf m).map fun l => (l, eaOf g f l)) fun s2 xs =>
        let s3 := ({ s2 with focus := s1.focus }).oweDst g f.data 1 (lanesOf m)
        let rs := (xs.map fun x => (ldfReads x).map fun r => (x, x.pa + r.1 - (x.va - x.base), r)).flatten
        done (addAccs (reqLines s3 g (rs.map fun y => (y.2.1, y.2.2.2))) (rs.map fun y =>
          { gAcc g 0x64 .load (.glob y.2.1) (y.1.base + y.2.2.1) y.2.2.2 f.acq false f.scope with
            dst := some ⟨f.data, y.1.lane, f.ty, some (leafFmt y.1.leaf, leafGeom y.1.leaf + 256 * ldfBit y.1)⟩,
            miss := missesL1 s g y.2.1 y.2.2.2 }.byLanes g [y.1.lane]))

/-- Sign or zero extension of a loaded value to a width (R178). -/
def extendTo (t : Ty) (w target : Nat) (n : Nat) : Nat := wrapTo target (extBy t.signed (8 * w) n)

/-- SLD: the read is taken when the ordering rules allow it, before the next instruction of the group issues. One that misses L1
and stands last in its clause leaves the group at the next clause entry, where it waits for the value (R181). -/
def execSld (f : FM) (s : State) : Out :=
  issue (.sld f) s fun g =>
    if g.act f.p = 0 then done s
    else
      let w := memW f.ty
      withGlob (.sld f) s g (plainChk .rd w (some false)) true [(0, eaOf g f 0)] fun s2 xs =>
        match xs with
        | [] => done s2
        | x :: _ =>
          let a := { gAcc g 0x65 .load (.glob x.pa) x.va w f.acq false f.scope with id := s2.nextId, seq := s2.nextId }
          if g.idx + 1 = g.count && missesL1 s2 g x.pa w then
            done ((s2.addAcc { a with dst := some ⟨f.data, 0, f.ty, none⟩, miss := true }).modG fun h =>
              { h with sld := some (g.hdr, g.idx, (g.word?).getD 0) })
          else if blocked s2.accs a then waits s2 .stall
          else
            let bs := accRead s2 a
            match bs.find? fun b => b.2 != .ok with
            | some b => raise (stepRead s2 g a) (.sld f) (if b.2 == .margin then .margin else .poison) (BitVec.ofNat 64 x.va) 0 0
            | none =>
              let s3 := stepRead s2 g a
              let s4 := { fillAt s3 (some g.ctx) g.die g.core x.pa w with nextId := s3.nextId + 1 }
              done (s4.modG fun h => h.putS f.data (BitVec.ofNat 64 (extendTo f.ty w 64 (leNat (bs.map (·.1))))))

/-! ### Stores (R182, R183) -/

/-- Sources of a store: the index faults where it is poisoned, the data carries its poison to memory (R378). -/
def withStoreSrcs (i : Instr) (s : State) (g : Group) (idx dat : List Src) (k : State → Out) : Out :=
  withSrcs i s g true (idx ++ dat) fun s1 =>
    match firstBad s g idx with
    | some (c, o, m) => raise s i c (BitVec.ofNat 64 o) m 0
    | none => k s1

/-- Poison of a source in a lane. -/
def badOf (s : State) (g : Group) (o : Opnd) (lane : Nat) : Bad :=
  match o with
  | .v n => (g.laneV n.toNat lane).bad
  | .y n => match s.ySt g n.toNat lane with | .bad b => b | _ => .ok
  | _ => .ok

/-- The bytes of a source in a lane, with its poison. -/
def dataBytes (s : State) (g : Group) (o : Opnd) (w lane : Nat) : List (Byte × Bad) :=
  match o with
  | .v n =>
    if w ≤ 4 then (leBytes w (g.laneV n.toNat lane).val.toNat).map fun b => (b, (g.laneV n.toNat lane).bad)
    else ((List.range (w / 4)).map fun j =>
      (leBytes 4 (g.laneV (n.toNat + j) lane).val.toNat).map fun b => (b, (g.laneV (n.toNat + j) lane).bad)).flatten
  | _ => (leBytes w (s.rd64 g .f32 o lane).toNat).map fun b => (b, badOf s g o lane)

/-- What one lane of a store writes: its lane, physical and virtual address, bytes. -/
structure LaneWrite where
  lane  : Nat
  at_   : Nat
  va    : Nat
  bytes : List (Byte × Bad)

/-- A write as it goes on: its address, the virtual address there, the virtual addresses of its lanes, the lanes, its bytes. -/
structure Gathered where
  at_   : Nat
  va    : Nat
  vas   : List Nat
  lanes : List Nat
  bytes : List WByte

/-- The writes of a list of lanes gathered by line, in order of the lowest lane that touches it; the highest lane names a
byte (R182). -/
def gatherLines (ws : List LaneWrite) : List Gathered :=
  ((ws.map fun x => lineOf x.at_).eraseDups).map fun l =>
    let mine := ws.filter fun x => lineOf x.at_ == l
    let m := mine.foldl (fun (m : List (Nat × Option (Byte × Bad))) x =>
      ((List.range x.bytes.length).zip x.bytes).foldl (fun m b => SMap.set none m (x.at_ % 128 + b.1) (some b.2)) m) []
    { at_ := 128 * l, va := (mine.head?.map fun x => x.va - x.at_ % 128).getD 0, vas := mine.map (·.va),
      lanes := mine.map (·.lane), bytes := m.filterMap fun x => x.2.map fun b => (⟨x.1, b.1, b.2⟩ : WByte) }

/-- The writes of a list of lanes one by one; a byte that a higher lane also writes belongs to the higher lane (R182, R84). -/
def apart : List LaneWrite → List Gathered
  | [] => []
  | x :: r =>
    { at_ := x.at_, va := x.va, vas := [x.va], lanes := [x.lane],
      bytes := (wbytes x.bytes).filter fun b =>
        !(r.any fun y => decide (y.at_ ≤ x.at_ + b.off) && decide (x.at_ + b.off < y.at_ + y.bytes.length)) } :: apart r

/-- The store's accesses join the stream, or the hold buffer of an uncommitted iteration; there a seventeenth line stalls
(R226). -/
def storeAccs (s0 s : State) (g : Group) (major w : Nat) (place : Nat → Place) (rel : Bool) (sc : Scope)
    (ls : List Gathered) : Out :=
  let held := uncommitted s g
  let mk := ls.map fun x =>
    ({ gAcc g major .store (place x.at_) x.va w false rel sc with
      vas := x.vas, bytes := x.bytes, stage := if held then .held else .issued } : Acc).byLanes g x.lanes
  let lines := (heldLines s g.gid ++ mk.map fun (a : Acc) => (if a.isSpad then 2 ^ 60 else 0) + a.va / 128).eraseDups
  if held && 16 < lines.length then waits s0 .stall else done (addAccs s mk)

/-- ST. -/
def execSt (f : FM) (s : State) : Out :=
  issue (.st f) s fun g =>
    let m := g.act f.p
    let w := memW f.ty
    withStoreSrcs (.st f) s g (idxSrc f m) [⟨f.data, memRegs w, f.t, (lanesOf m).map fun l => (l, l)⟩] fun s1 =>
      withGlob (.st f) s g (plainChk .wr w (some true)) false ((lanesOf m).map fun l => (l, eaOf g f l)) fun s2 xs =>
        storeAccs s { s2 with focus := s1.focus } g 0x61 w Place.glob f.rel f.scope
          (gatherLines (xs.map fun x => ⟨x.lane, x.pa, x.va, dataBytes s g f.data w x.lane⟩))

/-- STS. -/
def execSts (f : FM) (s : State) : Out :=
  issue (.sts f) s fun g =>
    let m := g.act f.p
    let w := memW f.ty
    let ls := (lanesOf m).map fun l => (l, eaOf g f l)
    withStoreSrcs (.sts f) s g (idxSrc f m) [⟨f.data, memRegs w, f.t, (lanesOf m).map fun l => (l, l)⟩] fun s1 =>
      withSpad (.sts f) s g w true ls fun t =>
        storeAccs s (s1.modG (addPasses (bankPasses w ls))) g 0x63 w (Place.spad t.id) f.rel f.scope
          (apart (ls.map fun x => ⟨x.1, x.2, x.2, dataBytes s g f.data w x.1⟩))

/-- SST. -/
def execSst (f : FM) (s : State) : Out :=
  issue (.sst f) s fun g =>
    if g.act f.p = 0 then done s
    else
      let w := memW f.ty
      withGlob (.sst f) s g (plainChk .wr w (some true)) true [(0, eaOf g f 0)] fun s2 xs =>
        storeAccs s s2 g 0x66 w Place.glob f.rel f.scope
          ((apart (xs.map fun x => ⟨x.lane, x.pa, x.va, okBytes (leBytes w (g.rdSc f.data).toNat)⟩)).map fun x =>
            { x with lanes := List.range 32 })

/-! ### Prefetch and cache control (R187, R188) -/

/-- A die holds a line in its L2, or in its RDC where it is not the home. -/
def dieHas (s : State) (die l : Nat) : Bool :=
  sbHas (if homeDie (128 * l) = die then (s.die die).l2 else (s.die die).rdc) l

/-- A line that a PREF brings moves its bytes (R426). -/
def prefMoved (s : State) (g : Group) (l : Nat) (comes : Bool) : State := if comes then moveBytes s g.ctx g.die (128 * l) 128 false else s

/-- PREF: lanes that do not translate, may not be read, or lie in far memory are skipped; `.l1` brings the lines
into L1, and `.l2` as far as the home's L2 or the die's RDC. DESIGN CHOICE (log entry 105): `.l1` brings all four sectors. -/
def execPref (lvl : PrefLvl) (f : FM) (s : State) : Out :=
  issue (.pref lvl f) s fun g =>
    let m := g.act f.p
    withSrcs (.pref lvl f) s g false (idxSrc f m) fun s1 =>
      let r := xlateAll s g.die g.core g.ctx g.gid ((lanesOf m).map fun l => (l, eaOf g f l))
      if r.2.any fun x => x.2.2 == .miss then waits r.1 .stall
      else
        let s2 := takeFailed { r.1 with focus := s1.focus } g.die g.ctx g.gid (r.2.map (·.2.1))
        let pas := r.2.filterMap fun x => match x.2.2 with
          | .ok y => if refused y.leaf g.sys .rd || paFar y.pa then none else some y.pa
          | _ => none
        match lvl with
        | .l1 => done (((pas.map lineOf).eraseDups).foldl (fun s l => fillL1 (prefMoved s g l (missesL1 s g (128 * l) 128)) (some g.ctx) g.die g.core l 15) s2)
        | .l2 => done (((pas.map lineOf).eraseDups).foldl (fun s l => fetchLine (prefMoved s g l (!dieHas s g.die l)) (some g.ctx) g.die l) s2)

/-- CCTL: once for each line among the acting lanes; faults like a load. DESIGN CHOICE (log entry 87): the address names a line
and has no width, so it is checked as one byte, and ALIGN never arises. -/
def cctlOp (i : Instr) (f : FM) (s : State) (act : State → Group → Nat → State) : Out :=
  issue i s fun g =>
    let m := g.act f.p
    withSrcs i s g false (idxSrc f m) fun s1 =>
      withGlob i s g (plainChk .rd 1 none) false ((lanesOf m).map fun l => (l, eaOf g f l)) fun s2 xs =>
        done (((xs.filter fun x => !paFar x.pa).map fun x => lineOf x.pa).eraseDups.foldl
          (fun s l => act s g l) { s2 with focus := s1.focus })

def execCctlInv1 (f : FM) (s : State) : Out := cctlOp (.cctlInv1 f) f s fun s g l => dropL1 s g.die g.core l

/-- The dirty lines of a superblock in its home's L2 go to HBM, at a context's cost (R426), and stay valid. -/
def cleanHome (s : State) (ctx l : Nat) : State :=
  let h := homeDie (128 * l)
  (s.setDie h { s.die h with l2 := (List.range 4).foldl (fun c j => sbClean c (l / 4 * 4 + j)) (s.die h).l2 }).moves
    (some ctx) 2 (128 * sbDirtyAt (s.die h).l2 l)

/-- No value that any access reads changes. -/
def execCctlWb (f : FM) (s : State) : Out := cctlOp (.cctlWb f) f s fun s g l => cleanHome s g.ctx l

/-- As `.wb`; then the superblock leaves the home's L2, every RDC and every L1 of the package; the values the dies read stay. -/
def execCctlEvict (f : FM) (s : State) : Out :=
  cctlOp (.cctlEvict f) f s fun s g l =>
    (List.range 4).foldl (fun s d =>
      let s1 := s.setDie d { s.die d with l2 := sbDrop (s.die d).l2 l, rdc := sbDrop (s.die d).rdc l }
      (List.range 4).foldl (fun s j => dropL1Die s d (l / 4 * 4 + j)) s1) (cleanHome s g.ctx l)

/-! ### Fences and WAITL (R189, R190) -/

/-- FENCE. -/
def execFence (f : FM) (s : State) : Out :=
  issue (.fence f) s fun g =>
    if g.act f.p = 0 then done s
    else done (addAccs s [gAcc g 0x69 (.fence f.scope) (.glob 0) 0 0 false false f.scope])

/-- FENCE.RG over [base, base + N); an empty range orders nothing. -/
def execFenceRg (f : FM) (s : State) : Out :=
  issue (.fenceRg f) s fun g =>
    let n := (g.rdSc f.data).toNat
    if g.act f.p = 0 || n = 0 then done s
    else done (addAccs s [gAcc g 0x6A (.fenceRg f.scope (g.rdS f.base.toNat).toNat n) (.glob 0) 0 0 false false f.scope])

/-- WAITL: at once where t is 0 or L1 holds no copy; else asleep until a wake, after which it completes. DESIGN CHOICE (log
entry 87): its address is checked as one byte. -/
def execWaitl (f : FM) (s : State) : Out :=
  issue (.waitl f) s fun g =>
    if g.act f.p = 0 || g.sleep == .rewoken then done s
    else
      let t := min (g.rdSc f.data).toNat (2 ^ 20)
      withGlob (.waitl f) s g (plainChk .rd 1 none) true [(0, eaOf g f 0)] fun s2 xs =>
        match xs with
        | [] => done s2
        | x :: _ =>
          if t = 0 then done s2
          else if paFar x.pa then waits s2 (.waitl none (s.clk g.die g.core + t))
          else if ((s2.core g.die g.core).line? (lineOf x.pa)).isNone then done s2
          else waits s2 (.waitl (some (lineOf x.pa)) (s.clk g.die g.core + t))

end Sys2Proof.Machine
end

