-- ==== Sys2Proof/Machine/Ordering.lean ====
section
/-!
DEFINITION. The steps of the ordering machine on accesses of groups (R85, R87, R88, R92, R96, R97, R180, R190). A step
whose condition does not hold leaves the state as it is.
-/
namespace Sys2Proof.Machine

/-! ### Atomic arithmetic (R237) -/

/-- FP32 minimum and maximum as at NBV 3, sums rounded to nearest even, the first NaN quieted (R237). -/
def atomF (f : Fmt) (op : AtomOp) (old x : Nat) : Nat :=
  match op with
  | .add => f.addOp 3 .rne old x
  | .min => let a := f.dec old; let b := f.dec x
            if a.isNan && b.isNan then nanResult 3 f f [a, b] else if a.isNan then x else if b.isNan then old
            else if b.lt true a then x else old
  | .max => let a := f.dec old; let b := f.dec x
            if a.isNan && b.isNan then nanResult 3 f f [a, b] else if a.isNan then x else if b.isNan then old
            else if a.lt true b then x else old
  | _ => x

/-- The new word of an atomic of width w bytes. -/
def atomNew (r : Rmw) (w old : Nat) : Nat :=
  let lt := fun (a b : Nat) => decide (extBy r.ty.signed (8 * w) a < extBy r.ty.signed (8 * w) b)
  match r.ty with
  | .f32 => atomF fF32 r.op old r.x
  | .f16 => atomF fF16 r.op (old % 65536) (r.x % 65536) + 65536 * atomF fF16 r.op (old / 65536) (r.x / 65536 % 65536)
  | _ =>
    match r.op with
    | .add => (old + r.x) % 2 ^ (8 * w)
    | .min => if lt r.x old then r.x else old
    | .max => if lt old r.x then r.x else old
    | .and => old &&& r.x
    | .or => old ||| r.x
    | .xor => old ^^^ r.x
    | .xchg => r.x
    | .cas => if old = r.x then r.sw else old
    | .inc => if r.x ≤ old then 0 else old + 1
    | .dec => if old = 0 || r.x < old then r.x else old - 1

/-- The bytes an atomic writes from the bytes it read; poison of the old word stays with the word. -/
def atomBytes (r : Rmw) (old : List (Byte × Bad)) : List WByte :=
  let bad := if old.any fun b => b.2 == .margin then Bad.margin else if old.any fun b => b.2 == .poison then .poison else .ok
  wbytes ((leBytes old.length (atomNew r old.length (leNat (old.map (·.1))))).map fun b => (b, bad))

/-! ### Writes (R85, R87, R93) -/

/-- A memory without copies takes the bytes of an access. -/
def View.putVals (v : View) (a : Acc) : View := a.writes.foldl (fun v w => v.putVal w.1 w.2.1 w.2.2) v

/-- ENTER_CB: a write joins its core's buffer, or is written to scratchpad. -/
def execEnterCb (id : Nat) (s : State) : Out :=
  match s.acc? id with
  | none => .next s
  | some a => .next (enterStep s a)

/-- An earlier entry of the same group with overlapping bytes is still in the CB (R85). -/
def cbBefore (s : State) (a : Acc) : Bool :=
  s.accs.any fun b => b.stage == .inCb && b.id < a.id && b.isOf a.preds && b.meets a

/-- PUBLISH_TO_DIE. -/
def execPublishToDie (id : Nat) (s : State) : Out :=
  match s.acc? id with
  | none => .next s
  | some a =>
    if a.stage != .inCb || a.far || cbBefore s a || seenBefore s a || !mayPublish s a.die || (blocked s.accs a && a.isStore)
        || (a.isStore && a.rel && Scope.rank a.scope != 0 && !released s.accs a) then .next s
    else .next (sweep (publishAcc { s with cbSeen := s.cbSeen.filter fun x => x.2 != a.id } a))

/-- The stage from which an access leaves for its home unpublished: a store to far memory from the CB, an atomic from its issue. -/
def Acc.leaves (a : Acc) : Bool := (a.isStore && a.far && a.stage == .inCb) || (a.homeRmw && a.stage == .issued)

/-- SEND_TO_HOME: a published write travels; an atomic is stamped by its die and travels; a write in the CB, or an atomic, to far
memory leaves. -/
def execSendToHome (id : Nat) (s : State) : Out :=
  match s.acc? id with
  | none => .next s
  | some a =>
    if a.stage == .published then .next (s.setAcc { a with stage := .sent })
    else if !a.leaves || a.read || blocked s.accs a || !released s.accs a || (a.far && cbBefore s a) then .next s
    else if a.far then .next (s.setAcc { a with stage := .sent })
    else if cbBefore s a || seenInCb s a || !mayPublish s a.die || homeDie a.pa = a.die then .next s
    else
      let s1 := bumpVc s a.die
      .next (s1.setAcc { a with stage := .sent, stamp := (s1.die a.die).vc })

/-- SERIALIZE: a causally ready write at its home; a pod-remote write at the remote home (R92). -/
def execSerialize (id : Nat) (s : State) : Out :=
  match s.acc? id with
  | none => .next s
  | some a =>
    if a.stage != .sent || a.homeRmw then .next s
    else if paRemote a.pa then
      .next (sweep ({ s with home := if paLost s a.pa then s.home else s.home.putVals a }.setAcc { a with stage := .done }))
    else if paHost a.pa || !causal s (homeDie a.pa) a then .next s
    else .next (serializeAcc s (homeDie a.pa) a)

/-- DISCARD_REPORT. -/
def execDiscardReport (id : Nat) (s : State) : Out :=
  match s.acc? id with
  | none => .next s
  | some a => if a.report then .next (sweep (revertAcc s a)) else .next s

/-- PROPAGATE: a serialized write enters the apply queues of the dies that have not taken it; the die of an atomic takes
the result with the response. -/
def execPropagate (id : Nat) (s : State) : Out :=
  match s.acc? id with
  | none => .next s
  | some a =>
    if a.stage != .serialized then .next s
    else
      let h := homeDie a.pa
      let q := (List.range 4).filter fun d => d != h && (d != a.die || a.homeRmw)
      .next (sweep (s.setAcc { a with stage := .done, aq := q }))

/-- APPLY: an AQ entry enters a die view once it is causally ready and no write of the die to its bytes is pending (R89,
R90). -/
def execApply (die id : Nat) (s : State) : Out :=
  match s.acc? id with
  | none => .next s
  | some a =>
    if !a.aq.contains die || (die != a.die && !causal s die a) || pendingOwn s die a then .next s
    else .next (sweep (applyAcc s die a))

/-! ### Reads (R88) -/

/-- The sectors of an access's line that its instruction touches there: one line request covers them (R185). -/
def lineSectors (s : State) (a : Acc) : BitVec 4 :=
  (s.accs.filter fun b => b.gid == a.gid && b.seq == a.seq && lineOf b.pa == lineOf a.pa).foldl
    (fun m b => m ||| sectorsOf (b.addrs.map (· % 128))) 0

/-- READ_FROM_VIEW: a load takes its value; `evict` names a line that leaves the core's L1 in the same step. -/
def execReadFromView (id : Nat) (evict : Option Nat) (s : State) : Out :=
  match s.acc? id with
  | none => .next s
  | some a =>
    if !a.isLoad || a.read || a.cmd.isSome || blocked s.accs a then .next s
    else
      let s1 := s.setAcc { a with read := true, got := accRead s a }
      let s2 := match a.place with
        | .spad _ _ => s1
        | .glob pa =>
          let s2 := match evict with
            | some l => dropL1 s1 a.die a.core l
            | none => s1
          noteSeen (logRead (fillL1 s2 (some a.ctx) a.die a.core (lineOf pa) (lineSectors s a)) a (a.readVer s)) a
      .next (sweep s2)

/-! ### Write-back (R180) -/

/-- The value of a load's bytes in the registers of its destination, lowest first. -/
def loadVals (d : LDst) (bs : List Byte) : List W32 :=
  match d.fmt with
  | some (fmt, ge) =>
    let geom := ge % 256
    let n := bs.map (·.toNat)
    let sc := if geomSc geom then n.getLast? else none
    let code := if geomSc geom then n.dropLast else n
    [BitVec.ofNat 32 (ldfVal fmt geom (ge / 256) code sc)]
  | none =>
    if bs.length ≤ 4 then [BitVec.ofNat 32 (extendTo d.ty bs.length 32 (leNat bs))]
    else (List.range (bs.length / 4)).map fun j => BitVec.ofNat 32 (leNat ((bs.drop (4 * j)).take 4))

/-- Write the registers of a lane FULL; a lane whose thread has retired keeps its value and is owed nothing. -/
def fillV (g : Group) (n lane : Nat) (bad : Bad) : List W32 → Group
  | [] => g
  | x :: r =>
    let old := g.laneV n lane
    fillV (g.setV n lane (if g.active.getLsbD lane then ⟨x, false, bad⟩ else { old with empty := false })) (n + 1) lane bad r

/-- A destination lane takes its late value. -/
def writeBack (s : State) (gid : Nat) (o : Opnd) (lane : Nat) (vals : List W32) (bad : Bad) : State :=
  match o with
  | .v n => lateWrote (s.modGroup gid fun g => fillV g n.toNat lane bad vals) gid ((List.range vals.length).map fun j => (n.toNat + j, lane))
  | .y n =>
    (match s.anyGroup? gid with
     | some g =>
       (match g.iter, s.pipeOf g with
        | some it, some q =>
          s.setPartOf g ((s.partOf g).setPipe
            (q.setSlot (winSlot q.stride n.toNat it.k) lane ⟨vals.headD 0, .full, false, bad⟩))
        | _, _ => s)
     | none => s)
  | _ => s

/-- The poison of bytes together. -/
def worst (bs : List (Byte × Bad)) : Bad :=
  if bs.any fun b => b.2 == .margin then .margin else if bs.any fun b => b.2 == .poison then .poison else .ok

/-- An SLD that its group waits for at a clause entry takes its value, or raises the poison it read (R181, R378). -/
def fillS (s : State) (gid : Nat) (a : Acc) (d : LDst) (bs : List (Byte × Bad)) : State :=
  s.modGroup gid fun g =>
    let h := { g with sld := none }
    match worst bs, g.sld with
    | .ok, _ | _, none => h.putS d.o (BitVec.ofNat 64 (extendTo d.ty a.len 64 (leNat (bs.map (·.1)))))
    | b, some (hdr, idx, w) =>
      { h with trap := some ⟨if b == .margin then .margin else .poison, BitVec.ofNat 64 a.va, 0, w, 0, idx, hdr⟩ }

/-- The reads that fill one lane of one instruction. -/
def siblings (s : State) (a : Acc) : List Acc :=
  s.accs.filter fun b => b.gid == a.gid && b.seq == a.seq && b.dst == a.dst

/-- Write back one lane now; a sample records the lane, but of SLD, whose data returns to none (R433). -/
def fillLane (s : State) (a : Acc) : State :=
  match a.gid, a.dst with
  | some g, some d =>
    let sib := siblings s a
    let bs := (sib.map (·.got)).flatten
    let s1 := match d.o with
      | .s _ => fillS s g a d bs
      | _ => writeBack s g d.o d.lane (loadVals d (bs.map (·.1))) (worst bs)
    let s2 := match d.o with
      | .s _ => s1
      | _ => sampleLane s1 a.die a.core g a.seq d.lane
    let s3 : State := { s2 with accs := s2.accs.map fun b => if sib.any fun c => c.id == b.id then { b with fin := true } else b }
    sweep (if s3.accs.any fun b => b.gid == a.gid && b.seq == a.seq && b.dst.isSome && !b.fin then s3
      else sampleDone s3 a.die a.core g a.seq)
  | _, _ => sweep (s.setAcc { a with fin := true })

/-- A frozen partition holds a late result in its pending buffer (R427). -/
def holdLate (s : State) (gid : Nat) (w : HeldWb) (apply : State → State) : State :=
  match s.anyGroup? gid with
  | none => apply s
  | some g =>
    let p := s.partOf g
    if !p.stop then apply s
    else if p.pendingBuf.contains w then s
    else s.setPartOf g { p with pendingBuf := p.pendingBuf ++ [w] }

/-- LOAD_WRITEBACK. -/
def execLoadWriteback (id : Nat) (s : State) : Out :=
  match s.acc? id with
  | none => .next s
  | some a =>
    if a.fin || !(a.isLoad || a.isRmw) || !(siblings s a).all Acc.arrived then .next s
    else match a.gid with
      | some g => .next (holdLate s g (.load id) fun s => fillLane s a)
      | none => .next (fillLane s a)

/-! ### Atomics at their ports (R96, R97) -/

/-- An atomic of a group is taken: the old bytes it returns and the bytes it writes. -/
def tookRmw (a : Acc) (r : Rmw) (old : List (Byte × Bad)) : Acc :=
  { a with read := true, got := old, bytes := atomBytes r old, fin := a.fin || a.dst.isNone }

/-- Some CB entry of the core overlaps the word (R97). -/
def cbOverlap (s : State) (a : Acc) : Bool :=
  s.accs.any fun b => b.stage == .inCb && b.die == a.die && b.core == a.core && b.id != a.id && b.meets a

/-- An L1 copy takes bytes; a sleeper on the line wakes (R97, R190). -/
def writeL1 (s : State) (a : Acc) : State :=
  let s1 := fillL1 s (some a.ctx) a.die a.core (lineOf a.pa) 15
  let c := s1.core a.die a.core
  let upd := fun (l : L1Line) => a.writes.foldl (fun (l : L1Line) w =>
    { l with data := l.data.set (w.1 % 128) w.2.1, bad := SMap.set .ok l.bad (w.1 % 128) w.2.2 }) l
  wakeLine (s1.setCore a.die a.core { c with l1 := c.l1.map fun l => if l.line == lineOf a.pa then upd l else l })
    a.die a.core (lineOf a.pa)

/-- DRAIN_APPLY of an access of ATOM, ATOMS or REDM. -/
def drainAccess (s : State) (id : Nat) : State :=
  match s.acc? id with
  | none => s
  | some a =>
    match a.kind with
    | .rmw r =>
      if a.read || blocked s.accs a || (a.stage == .issued && !released s.accs a) then s
      else match a.place with
        | .spad t o =>
          (match s.team? t with
           | none => s
           | some tm =>
             let b := { tookRmw a r (tm.bytes o a.len) with stage := .done }
             sweep ((s.setTeam (tm.putAcc b)).setAcc b))
        | .glob pa =>
          if paHost pa then s
          else if paRemote pa then
            if a.stage != .sent then s
            else
              let b := { tookRmw a r ((List.range a.len).map fun i => remoteByte s (pa + i)) with stage := .done }
              sweep ({ s with home := if paLost s pa then s.home else s.home.putVals b }.setAcc b)
          else if Scope.rank a.scope = 0 then
            if cbOverlap s a then s
            else
              let old := (List.range a.len).map fun i => l1Byte s a.die a.core (pa + i)
              let b := { tookRmw a r old with stage := .inCb, cond := some (old.map (·.1)) }
              sweep (writeL1 (logRead (s.lastAcc b) a (a.readVer s)) b)
          else
            let h := homeDie pa
            let old := (List.range a.len).map fun i => s.home.byte (pa + i)
            if h = a.die then
              if a.stage != .issued || cbBefore s a || seenInCb s a || !mayPublish s h then s
              else
                let s1 := bumpVc s h
                let b := { tookRmw a r old with stamp := (s1.die h).vc }
                serializeAcc ((logRead s1 a (some (homeVer s a))).setAcc b) h b
            else if a.stage != .sent || !causal s h a then s
            else
              let b := tookRmw a r old
              let s0 := setVc (logRead s a (some (homeVer s a))) h a.die (a.stamp.getD a.die 0)
              let c := { b with cidx := nextIdx s b, stage := .serialized }
              atHome (s0.setAcc c) h c
    | _ => s

/-! ### The host's completions (R86, R92, R441) -/

/-- What reads memory in a step of its own has a number: a group, which also fetches code and is read from its frame; a team, read from
its image, and the first of a core that core's frame with it; a copy command, a queue move, a matrix operation, a packet in dispatch, a
walk of the tables. -/
def isOp (s : State) (id : Nat) : Bool :=
  s.allGroups.any (fun g => g.gid == id) || s.cmds.any (fun c => c.id == id) || s.qmoves.any (fun m => m.id == id) || s.mxops.any (fun (m : MxOp) => m.id == id)
    || s.launches.any (fun l => l.id == id) || s.teams.any (fun t => t.id == id) || s.dies.any (fun d => d.2.walks.any fun w => w.id == id)
    || s.contexts.any fun c => c.saves.any fun r => r.groups.any (fun g => g.gid == id) || r.teams.any fun t => t.id == id

/-- HOST_CXL_COMPLETION: a device access to host memory is done at the host; with an error a read or an atomic returns
poison and a write is dropped. For a host write over CXL.mem, its completion returns to the host, once each of its writes is
performed (R438). Of an operation that reads by itself, it says how its next reads of host memory complete. -/
def execHostCxlCompletion (id : Nat) (err : Bool) (s : State) : Out :=
  match s.acc? id with
  | none =>
    match s.hostWr.find? fun x => x.1 == id with
    | some x =>
      if s.accs.any fun a => decide (x.2.1 ≤ a.id) && decide (a.id < x.2.2) then .next s
      else .next { s with hostWr := s.hostWr.filter fun y => y.1 != id, hostDone := s.hostDone ++ [id] }
    | none =>
      if isOp s id then .next { s with hostErr := (s.hostErr.filter fun x => x != id) ++ (if err then [id] else []) } else .next s
  | some a =>
    if !paHost a.pa || a.isSpad || a.isPoint then .next s
    else
      let old := (List.range a.len).map fun i => if err then ((0 : Byte), Bad.poison) else s.host.byte (a.pa + i)
      match a.kind with
      | .load =>
        if a.read || a.cmd.isSome || blocked s.accs a then .next s
        else .next (sweep (s.setAcc { a with read := true, got := old }))
      | .store =>
        if a.stage != .sent then .next s
        else
          let s1 := if err then s else { s with host := s.host.putVals a }
          .next (sweep (s1.setAcc { a with stage := .done }))
      | .rmw r =>
        if a.stage != .sent || a.read then .next s
        else
          let b := { tookRmw a r old with stage := .done }
          let s1 := if err then s else { s with host := s.host.putVals b }
          .next (sweep (s1.setAcc b))
      | _ => .next s

/-! ### WAITL (R190) -/

/-- WAITL_TIMEOUT: the count of a sleeping WAITL has passed. -/
def execWaitlTimeout (gid : Nat) (s : State) : Out :=
  match s.group? gid with
  | none => .next s
  | some g =>
    match g.sleep with
    | .waitl _ till => if till ≤ s.clk g.die g.core && !(s.partOf g).stop then .next (s.setGroup { g with sleep := .rewoken }) else .next s
    | _ => .next s

/-- SPURIOUS_WAKE: the machine wakes a sleeper of WAITL or of a queue without its condition (R190, R264). -/
def execSpuriousWake (gid : Nat) (s : State) : Out :=
  match s.group? gid with
  | none => .next s
  | some g =>
    match g.sleep with
    | .waitl _ _ => .next (s.setGroup { g with sleep := .rewoken })
    | .full q => .next (s.setGroup { g with sleep := .woken q true })
    | .empty q => .next (s.setGroup { g with sleep := .woken q false })
    | _ => .next s

end Sys2Proof.Machine
end

