-- ==== Sys2Proof/Machine/Sync.lean ====
section
/-!
DEFINITION. Atomics, scratchpad barrier objects, network barriers: majors 0x78 to 0x81 (R234 to R249).
-/
namespace Sys2Proof.Machine

/-! ### Atomics (R235 to R238) -/

/-- Byte address of an atomic in a lane. -/
def atomEa (s : State) (g : Group) (f : FQ) (lane : Nat) : Nat :=
  (g.rdS f.base.toNat + (s.rd32 g .f32 f.a lane).setWidth 64).toNat

/-- Sources of an atomic; CAS reads its destination for the swap value. -/
def atomSrcs (f : FQ) (op : AtomOp) (t : Ty) (m : W32) : List Src :=
  [srcAt f.a false false m, srcAt f.b t.is64 false m] ++ (if op == .cas then [srcAt f.dst t.is64 false m] else [])

def atomRmw (s : State) (g : Group) (f : FQ) (op : AtomOp) (t : Ty) (lane : Nat) : Rmw :=
  { op := op, ty := t, x := s.rdN g (RealFmt.ofTy t) t.is64 f.b lane,
    sw := if op == .cas then s.rdN g .f32 t.is64 f.dst lane else 0 }

/-- SCOPE of a lane: pod-remote memory narrower than `.pod`, host memory at another scope than `.sys` (R238). -/
def atomScope (sc : Scope) (x : Xl) : Option FaultCode :=
  if paRemote x.pa && !(sc == .pod || sc == .sys) then some .scope
  else if paHost x.pa && sc != .sys then some .scope else none

/-- ATOM and REDM. -/
def atomOp (i : Instr) (f : FQ) (op : AtomOp) (t : Ty) (red : Bool) (s : State) : Out :=
  issue i s fun g =>
    let m := g.act f.p
    let w := if t.is64 then 8 else 4
    if uncommitted s g then waits s .stall
    else withSrcs i s g false (atomSrcs f op t m) fun s1 =>
      if !red && dstBusy s g f.dst (memRegs w) (lanesOf m) then waits s .stall
      else
        let chk : GChk := ⟨.both, w, fun _ => 1, some true, atomScope f.scope, [.scope]⟩
        withGlob i s g chk false ((lanesOf m).map fun l => (l, atomEa s g f l)) fun s2 xs =>
          let s3 := { s2 with focus := s1.focus }
          let s4 := if red then s3 else s3.oweDst g f.dst (memRegs w) (lanesOf m)
          done (addAccs s4 (xs.map fun x =>
            { gAcc g (if red then 0x7A else 0x78) (.rmw (atomRmw s g f op t x.lane)) (.glob x.pa) x.va w f.acq f.rel f.scope with
              dst := if red then none else some ⟨f.dst, x.lane, t, none⟩ }.byLanes g [x.lane]))

def execAtom (op : AtomOp) (t : Ty) (f : FQ) (s : State) : Out := atomOp (.atom op t f) f op t false s
def execRedm (op : AtomOp) (t : Ty) (f : FQ) (s : State) : Out := atomOp (.redm op t f) f op t true s

/-- ATOMS. -/
def execAtoms (op : AtomOp) (t : Ty) (f : FQ) (s : State) : Out :=
  issue (.atoms op t f) s fun g =>
    let m := g.act f.p
    let w := if t.is64 then 8 else 4
    if uncommitted s g then waits s .stall
    else withSrcs (.atoms op t f) s g false (atomSrcs f op t m) fun s1 =>
      if dstBusy s g f.dst (memRegs w) (lanesOf m) then waits s .stall
      else
        let ls := (lanesOf m).map fun l => (l, atomEa s g f l)
        withSpad (.atoms op t f) s g w true ls fun tm =>
          done (addAccs (s1.oweDst g f.dst (memRegs w) (lanesOf m)) (ls.map fun x =>
            { gAcc g 0x79 (.rmw (atomRmw s g f op t x.1)) (.spad tm.id x.2) x.2 w f.acq f.rel f.scope with
              dst := some ⟨f.dst, x.1, t, none⟩ }.byLanes g [x.1]))

/-! ### Barrier objects (R239 to R242) -/

/-- The fields of a barrier object; `resv` holds bits [29:24] of word 3 as they stand. -/
structure BObj where
  expa  : Nat
  arr   : Nat
  expb  : Nat
  land  : Nat
  st    : Nat
  resv  : Nat
  cause : Nat
  phase : Nat
deriving DecidableEq, Repr

/-- The object at an offset. DESIGN CHOICE (log entry 124): its poisoned bytes count with the values they hold. -/
def readObj (t : Team) (o : Nat) : BObj :=
  let w := fun j => leNat ((t.bytes (o + 4 * j) 4).map (·.1))
  { expa := w 0 / 65536, arr := w 0 % 65536, expb := w 1, land := w 2,
    st := w 3 / 2 ^ 30, resv := w 3 / 2 ^ 24 % 64, cause := w 3 / 65536 % 256, phase := w 3 % 65536 }

def objBytes (b : BObj) : List Byte :=
  leBytes 4 (b.expa * 65536 + b.arr) ++ leBytes 4 b.expb ++ leBytes 4 b.land
    ++ leBytes 4 (b.st * 2 ^ 30 + b.resv * 2 ^ 24 + b.cause * 65536 + b.phase)

/-- The object written back; its bytes are unpoisoned then (log entry 124). -/
def writeObj (t : Team) (o : Nat) (b : BObj) : Team := t.putMany o (okBytes (objBytes b))

/-- The port's rules after an arrival or a count (R241). -/
def settle (b : BObj) : BObj :=
  if b.expa < b.arr || b.expb < b.land then { b with st := 2, cause := 0x0D }
  else if b.arr = b.expa && b.land = b.expb then { b with arr := 0, land := 0, phase := (b.phase + 1) % 65536 }
  else b

/-- The object and its waiters see a fault (R241). -/
def poisonObj (b : BObj) (cause : Nat) : BObj := { b with st := 2, cause := cause }

/-- The fault a cause names (R244). -/
def causeFault (c : Nat) : FaultCode := if c = 0x14 then .copylost else .barrun

/-- BARRUN of a dead object, or the fault of its cause (R244). -/
def objFault (b : BObj) : FaultCode := if b.st = 0 then .barrun else causeFault b.cause

/-- Offset of the object a barrier instruction names (R240). -/
def objAt (g : Group) (f : FQ) : Nat := (g.rdS f.base.toNat).toNat % 2 ^ 32 + 16 * f.obj.toNat

/-- The iteration is cancelled (R225). -/
def cancelled (s : State) (g : Group) : Bool :=
  match g.iter, s.pipeOf g with
  | some it, some q => q.isCancelled it.k
  | _, _ => false

/-- The group waits at BARWAIT on the object of the team at an offset. -/
def waitsOn (s : State) (team o : Nat) (g : Group) : Bool :=
  g.team == team && g.sleep == .barrier && g.trap.isNone && !cancelled s g &&
    match g.instr? with | some (.barwait f) => objAt g f == o | _ => false

/-- Every waiter of the object holds a fault to deliver at its BARWAIT (R241, R244). -/
def faultWaiters (s : State) (team o : Nat) (code : FaultCode) : State :=
  { s with groups := s.groups.map fun g =>
      if waitsOn s team o g then
        { g with trap := some ⟨code, BitVec.ofNat 64 o, 0, g.word?.getD 0, 0, g.idx, g.hdr⟩, sleep := .awake, pass := false }
      else g }

/-- The object after a step at the drain port; where it is no longer armed, its waiters are released with its fault. -/
def setObj (s : State) (t : Team) (o : Nat) (b : BObj) : State :=
  let s1 := s.setTeam (writeObj t o b)
  if b.st = 1 then s1 else faultWaiters s1 t.id o (objFault b)

/-- Bytes counted into an object: nothing where it is not armed (R242). -/
def countInto (s : State) (team o n : Nat) : State :=
  match s.team? team with
  | none => s
  | some t =>
    let b := readObj t o
    if b.st = 1 then setObj s t o (settle { b with land := b.land + n }) else s

/-- The core's barrier unit registers a block for its team (R239). -/
def register (t : Team) (o : Nat) : Team := if t.bars.contains o then t else { t with bars := t.bars ++ [o] }

/-- A barrier instruction at its object: ALIGN, PROT, the block registered, an object in the reserved state poisoned
(R240), which a held iteration does once it is committed (R226). The rest goes on once the port may act for the group under the
ordering rules. -/
def withObj (i : Instr) (f : FQ) (s : State) (g : Group) (rel : Bool) (k : State → Team → Nat → BObj → Out) : Out :=
  match s.team? g.team with
  | none => .next s
  | some t0 =>
    let o := objAt g f
    if o % 16 ≠ 0 then raise s i .align (BitVec.ofNat 64 o) 0 0
    else if t0.spadLen < o + 16 then raise s i .prot (BitVec.ofNat 64 o) 0 0
    else
      let a := { gAcc g 0 (.rmw ⟨.add, .n32, 0, 0⟩) (.spad g.team o) o 16 false rel f.scope with id := s.nextId, seq := s.nextId }
      if blocked s.accs a || !released s.accs a then waits s .stall
      else
        let t := register t0 o
        let b := readObj t o
        if b.st = 3 then
          if uncommitted s g then waits s .stall
          else raise (setObj s t o (poisonObj b 0x0D)) i .barrun (BitVec.ofNat 64 o) 0 0
        else k (s.setTeam t) t o b

def execBarinit (f : FQ) (s : State) : Out :=
  issue (.barinit f) s fun g =>
    if g.act f.p = 0 then done s
    else if uncommitted s g then waits s .stall
    else withObj (.barinit f) f s g false fun s1 t o b =>
      let e := (g.rdSc f.a).toNat % 2 ^ 32
      if e = 0 || 65535 < e then raise s1 (.barinit f) .barrun (BitVec.ofNat 64 o) 0 0
      else if b.st = 1 && (b.arr ≠ 0 || b.land ≠ 0) then raise s1 (.barinit f) .barclob (BitVec.ofNat 64 o) 0 0
      else done (s1.setTeam (writeObj t o
        { b with expa := e, expb := (g.rdSc f.b).toNat % 2 ^ 32, arr := 0, land := 0, resv := 0, cause := 0, st := 1 }))

def execBararr (f : FQ) (s : State) : Out :=
  issue (.bararr f) s fun g =>
    if g.act f.p = 0 then done s
    else if uncommitted s g then waits s .stall
    else withObj (.bararr f) f s g true fun s1 t o b =>
      let n := popcount (g.act f.p)
      if b.st ≠ 1 then raise s1 (.bararr f) (objFault b) (BitVec.ofNat 64 o) 0 0
      else if b.expa < b.arr + n then
        raise (setObj s1 t o (poisonObj b 0x0D)) (.bararr f) .barrun (BitVec.ofNat 64 o) 0 0
      else
        done ((setObj s1 t o (settle { b with arr := b.arr + n })).modG fun h =>
          h.putS f.dst (BitVec.ofNat 64 b.phase))

/-- What a group that BARWAIT returns to will see: the global chunks without REL that were counted into the object for a completed phase
and are not in its die's view yet, and the writes that landed ones became (R95, R99). -/
def seesChunks (s : State) (g : Group) (o phase : Nat) : State :=
  let cs := s.cmds.filter fun c => c.team == g.team && 16 * c.bar == o && !c.rel
  let wait := (cs.map fun c => (c.chunks.filter fun k => k.counted && !k.landed && k.phase != phase).map fun k => (c.id, k.n)).flatten
  let mine := s.sights.filter fun x => x.team == g.team && x.off == o && x.phase != phase
  let ids := (s.accs.filter fun a => !a.performed 1 && mine.any fun x => x.ids.contains a.id).map (·.id)
  if wait.isEmpty && ids.isEmpty then s else addAccs s [gAcc g 0 (.counted wait ids) (.glob 0) 0 0 false false .core]

def execBarwait (f : FQ) (s : State) : Out :=
  issue (.barwait f) s fun g =>
    if g.act f.p = 0 then done s
    else withObj (.barwait f) f s g false fun s1 _ o b =>
      if b.st ≠ 1 then raise s1 (.barwait f) (objFault b) (BitVec.ofNat 64 o) 0 0
      else if wins b.phase ((g.rdSc f.a).toNat % 65536) then done (seesChunks s1 g o b.phase)
      else waits s1 .barrier

/-- BARTEST. DESIGN CHOICE (log entry 136): one that writes 1 does not wait for the chunks counted for completed phases, which R99 has the
group of a BARWAIT see. -/
def execBartest (f : FQ) (s : State) : Out :=
  issue (.bartest f) s fun g =>
    if g.act f.p = 0 then done s
    else withObj (.bartest f) f s g false fun s1 _ o b =>
      if b.st ≠ 1 then raise s1 (.bartest f) (objFault b) (BitVec.ofNat 64 o) 0 0
      else done (s1.modG fun h => h.putS f.dst (if wins b.phase ((g.rdSc f.a).toNat % 65536) then 1 else 0))

/-- BARKILL: every group that waits on the object finds it dead and raises BARRUN. -/
def execBarkill (f : FQ) (s : State) : Out :=
  issue (.barkill f) s fun g =>
    if g.act f.p = 0 then done s
    else if uncommitted s g then waits s .stall
    else withObj (.barkill f) f s g false fun s1 t o b =>
      done (setObj s1 t o { b with st := 0, arr := 0, land := 0 })

/-! ### Network barriers (R246 to R248) -/

/-- The barrier an instruction names: of its group's launch, in the group's instance (R246). -/
def netOf (s : State) (g : Group) (f : FQ) : Option NetBar :=
  s.nets.find? fun n => n.virt == f.obj.toNat && n.key.scope == f.scope && netHolds g n

def Scope.code3 : Scope → Nat
  | .core => 0 | .quad => 1 | .die => 2 | .pkg => 3 | .pod => 4 | .sys => 5

def netProt (f : FQ) : W64 := BitVec.ofNat 64 (Scope.code3 f.scope * 256 + f.obj.toNat)

/-- The generation of a barrier as a partition sees it: the last released to it; where none was since the releases began that are
still under way, the one before them (R247, R248). -/
def seenGen (p : Partn) (n : NetBar) : Nat :=
  match p.seen.find? fun x => x.1 == n.key with
  | some x => x.2
  | none => match n.rel with
    | r :: _ => (r.gen + 65535) % 65536
    | [] => n.gen

def Partn.see (p : Partn) (k : NetKey) (gen : Nat) : Partn :=
  { p with seen := (p.seen.filter fun x => x.1 != k) ++ [(k, gen)] }

def execNetarr (f : FQ) (s : State) : Out :=
  issue (.netarr f) s fun g =>
    if g.act f.p = 0 then done s
    else match netOf s g f with
      | none => raise s (.netarr f) .prot (netProt f) 0 0
      | some n =>
        if n.arrived.any fun x => x.1 == g.gid then waits s .barrier
        else if !allDone s g f.scope then waits s .stall
        else
          let s1 := netMap s (fun m => m.key == n.key) fun m =>
            { m with arr := m.arr + 1, arrived := m.arrived ++ [(g.gid, g.core / 4)] }
          done (s1.modG fun h => h.putS f.dst (BitVec.ofNat 64 n.gen))

def execNetwait (f : FQ) (s : State) : Out :=
  issue (.netwait f) s fun g =>
    if g.act f.p = 0 then done s
    else match netOf s g f with
      | none => raise s (.netwait f) .prot (netProt f) 0 0
      | some n =>
        if wins (seenGen (s.partOf g) n) ((g.rdSc f.a).toNat % 65536) then done s else waits s .barrier

/-- Sixteen cycles of a quad's clock at a rebalancing step of 60 MHz from its base, in twelfths of a nanosecond, rounded up (R20, R421). -/
def quadCycles16 (step : Int) : Nat := ((3239 + step) / (40 + step)).toNat

/-- Delay of a partition after completion, in twelfths of a nanosecond: T in cycles of the 2.4 GHz base clock, the network latency of a
quad in those of the quad (R20, R248). DESIGN CHOICE (log entry 115): those of the step that the
quad has as the partition looks, and the cycles of the `.die` and `.pkg` networks, which no one quad holds, at 2.4 GHz. -/
def volleyDelay (s : State) (r : Release) (k : NetKey) (p : PartId) : Nat :=
  let c : W64 × List (Nat × W64) := match r.cfg.find? fun (x : Nat × W64 × List (Nat × W64)) => x.1 == p.die with
    | some x => x.2
    | none => (0, [])
  let n := partNo p.core p.part
  let vol := fldN (SMap.get 0 c.2 (n / 16)) (4 * (n % 16)) 4
  let vm1 := fldN c.1 0 4
  let t := fldN c.1 10 11
  (match k.scope with
    | .quad => quadCycles16 (s.quad (k.inst / 12) (k.inst % 12)).step
    | .die => 48 * 5
    | .pkg => 180 * 5
    | _ => 1800 * 12) + 5 * t * min vol vm1

/-- The releases a partition has not seen. -/
def unseen (rel : List Release) (gen : Nat) : List Release :=
  if rel.any fun r => r.gen == gen then (rel.dropWhile fun r => r.gen != gen).drop 1 else rel

/-- The partitions of an instance (R246). -/
def instParts (k : NetKey) : List PartId :=
  let cores : List (Nat × Nat) := match k.scope with
    | .quad => (List.range 4).map fun j => (k.inst / 12, k.inst % 12 * 4 + j)
    | .die => (List.range 48).map fun c => (k.inst, c)
    | _ => ((List.range 4).map fun d => (List.range 48).map fun c => (d, c)).flatten
  (cores.map fun x => (List.range 4).map fun p => (⟨x.1, x.2, p⟩ : PartId)).flatten

/-- A release is over: every partition of the instance has seen its generation. -/
def releaseOver (s : State) (n : NetBar) (r : Release) : Bool :=
  (instParts n.key).all fun p => !(unseen n.rel (seenGen (s.partn p.die p.core p.part) n)).any fun t => t.gen == r.gen

/-- VOLLEY_RELEASE: a partition sees the newest generation whose time has come (R248). -/
def execVolleyRelease (k : NetKey) (p : PartId) (s : State) : Out :=
  match s.nets.find? fun n => n.key == k with
  | none => .next s
  | some n =>
    let q := s.partn p.die p.core p.part
    let due := (unseen n.rel (seenGen q n)).filter fun r => decide (12 * r.gtb + volleyDelay s r k p ≤ 12 * s.gtb.toNat)
    match due.getLast? with
    | none => .next s
    | some r =>
      let s1 := s.setPartn p.die p.core p.part (q.see k r.gen)
      .next { s1 with nets := s1.nets.map fun m =>
        if m.key == k && releaseOver s1 n r then { m with rel := unseen m.rel r.gen } else m }

end Sys2Proof.Machine
end

