-- ==== Sys2Proof/Machine/Queues.lean ====
section
/-!
DEFINITION. Queues: the control block and its checks, enqueue and dequeue in their phases, opening, closing, status,
majors 0x88 to 0x8E (R252 to R272), and the posts of the front end to event queues (R403).
-/
namespace Sys2Proof.Machine

/-- Number of a fault (R375). -/
def FaultCode.num : FaultCode → Nat
  | .ill => 0x01 | .rsvd => 0x02 | .frame => 0x03 | .role => 0x04 | .empty => 0x05 | .void => 0x06 | .pipestate => 0x07
  | .align => 0x08 | .xlate => 0x09 | .prot => 0x0A | .fmtattr => 0x0B | .barclob => 0x0C | .barrun => 0x0D
  | .qcbbad => 0x0E | .qclosed => 0x0F | .slot => 0x10 | .mxnores => 0x11 | .qnonuni => 0x12 | .shape => 0x13
  | .copylost => 0x14 | .poison => 0x15 | .margin => 0x16 | .swtrap => 0x17 | .bkpt => 0x18 | .priv => 0x19
  | .budget => 0x1A | .scope => 0x1B | .atomsz => 0x1C

/-! ### The control block (R253 to R256) -/

/-- The eight 64-bit words of a block, w0 to w6 and CHECK. -/
abbrev Qcb := List Nat

/-- A field of a word. -/
def Qcb.f (q : Qcb) (i lo n : Nat) : Nat := q.getD i 0 / 2 ^ lo % 2 ^ n

/-- A field of a word replaced. -/
def Qcb.put (q : Qcb) (i lo n v : Nat) : Qcb := q.set i (q.getD i 0 - q.f i lo n * 2 ^ lo + v % 2 ^ n * 2 ^ lo)

def Qcb.esz (q : Qcb) : Nat := q.f 0 32 8
def Qcb.logc (q : Qcb) : Nat := q.f 0 40 8
def Qcb.base (q : Qcb) : Nat := q.f 1 0 64
def Qcb.head (q : Qcb) : Nat := q.f 2 0 64
def Qcb.tail (q : Qcb) : Nat := q.f 3 0 64
def Qcb.free (q : Qcb) : Nat := q.f 4 0 32
def Qcb.st (q : Qcb) : Nat := q.f 4 32 2
def Qcb.pd (q : Qcb) : Nat := q.f 5 21 21
def Qcb.pe (q : Qcb) : Nat := q.f 5 0 21
def Qcb.scope (q : Qcb) : Nat := q.f 6 2 3
/-- Element size in bytes. -/
def Qcb.e (q : Qcb) : Nat := 2 ^ q.esz
/-- Capacity. -/
def Qcb.cap (q : Qcb) : Nat := 2 ^ q.logc

def rotl64 (x n : Nat) : Nat := (x * 2 ^ n + x / 2 ^ (64 - n)) % 2 ^ 64

/-- CHECK (R254). -/
def Qcb.sum (q : Qcb) : Nat :=
  2 ^ 64 - 1 - (List.range 7).foldl (fun a i => a ^^^ rotl64 (q.getD i 0) (8 * i)) 0

/-- The scope a block names (R257). -/
def scopeOfCode : Nat → Scope
  | 0 => .core | 1 => .quad | 2 => .die | 3 => .pkg | 4 => .pod | _ => .sys

/-- Package that homes an address (R171). -/
def homePkg (s : State) (pa : Nat) : Nat := if paRemote pa then pa / 2 ^ 40 % 64 else s.pkg

/-- The checks of R256 but the check word's. -/
def Qcb.sound (s : State) (pa : Nat) (q : Qcb) : Bool :=
  q.f 0 0 16 == 0x51C3 && q.f 0 16 16 == 1 && decide (3 ≤ q.esz) && decide (q.esz ≤ 8) && decide (1 ≤ q.logc)
    && decide (q.logc ≤ 20) && q.base % 64 == 0 && q.f 0 48 16 == 0 && q.f 4 48 16 == 0 && q.f 4 34 6 == 0
    && q.f 6 17 47 == 0 && q.f 6 14 2 == 0 && q.f 6 5 3 == 0 && decide (2 ≤ q.scope) && decide (q.scope ≤ 5)
    && q.f 6 0 2 == homeDie pa && q.f 6 8 6 == homePkg s pa
    && decide (q.head + q.pe ≤ q.tail) && q.free + q.tail == q.cap + q.head && decide (q.pe + q.pd ≤ q.cap)

def Qcb.ok (s : State) (pa : Nat) (q : Qcb) : Bool := q.sound s pa && q.f 7 0 64 == q.sum

/-- The block at a home. DESIGN CHOICE (log entry 104): its poisoned bytes count with the values they hold. -/
def readQcb (s : State) (pa : Nat) : Qcb :=
  (List.range 8).map fun i => leNat ((List.range 8).map fun j => (s.home.byte (pa + 8 * i + j)).1)

/-- The home's exact record of a queue. -/
def State.qhome (s : State) (pa : Nat) : QHome :=
  match s.qhomes.find? fun h => h.qcb == pa with
  | some h => h
  | none => ⟨pa, [], [], [], [], []⟩

/-- The block and the record change in one step: WE, WF and CHECK are written anew (R253, R254). -/
def changeQ (s : State) (pa : Nat) (by_ : Option Nat) (q : Qcb) (h : QHome) : State :=
  let q1 := (q.put 5 53 11 (min h.empty.length 2047)).put 5 42 11 (min h.full.length 2047)
  let q2 := q1.put 7 0 64 q1.sum
  let s1 := homeWrite s pa (okBytes ((q2.map (leBytes 8)).flatten)) by_
  { s1 with qhomes := (s1.qhomes.filter fun x => x.qcb != pa) ++ [h] }

/-! ### Sleepers (R264) -/

/-- Sleepers of a queue that a test picks are woken, to retry phase 1. -/
def wakeQ (s : State) (pa : Nat) (full : Bool) : State :=
  { s with groups := s.groups.map fun g =>
      match g.sleep with
      | .full p => if full && p == pa then { g with sleep := .woken pa true } else g
      | .empty p => if !full && p == pa then { g with sleep := .woken pa false } else g
      | _ => g }

def wakeAll (s : State) (pa : Nat) : State := wakeQ (wakeQ s pa true) pa false

/-- A group no longer sleeps on a queue: its record falls by 1 (R261, R262, R270, R271). -/
def unsleep (s : State) (g : Group) : State :=
  match g.sleep with
  | .full pa | .empty pa | .woken pa _ =>
    let h := s.qhome pa
    if h.full.contains g.gid || h.empty.contains g.gid then
      changeQ s pa (some g.gid) (readQcb s pa)
        { h with full := h.full.filter fun x => x != g.gid, empty := h.empty.filter fun x => x != g.gid }
    else s
  | _ => s

/-- STATE leaves open for poisoned, with a cause; every sleeper wakes (R256, R269). -/
def poisonQ (s : State) (pa : Nat) (by_ : Option Nat) (cause : Nat) : State :=
  let q := readQcb s pa
  if q.st ≤ 1 then wakeAll (changeQ s pa by_ ((q.put 4 32 2 2).put 4 40 8 cause) (s.qhome pa)) pa else s

/-! ### The event queues of the front end (R386, R403) -/

/-- Physical address of a byte of a context, with its leaf, as the front end translates it; none where it does not. -/
def feLeaf (s : State) (c : Context) (die va : Nat) : Option (Nat × W64) :=
  if 2 ^ 52 ≤ va then none
  else (walk s die c.root va).map fun e => (fldN e.1 16 36 * 65536 + va % e.2, e.1)

def fePa (s : State) (c : Context) (die va : Nat) : Option Nat := (feLeaf s c die va).map (·.1)

/-- The home holds a grant back while PE + PD = C, which no grant may raise further (R255). DEDUCED (log entry 95). -/
def Qcb.held (q : Qcb) : Bool := decide (q.cap ≤ q.pe + q.pd)

/-- Where the slot of a sequence number lies, translated in the issuer's context in pieces of 64 B; a fault has the element's address
(R269). -/
inductive SlotX where
  | ok (va : Nat) (pas : List Nat)
  | miss
  | fault (c : FaultCode) (a : Nat)
deriving DecidableEq, Repr

/-- Addresses of the pieces of a slot, the element's own first. -/
def slotVas (q : Qcb) (n : Nat) : List Nat :=
  (List.range (max 1 (q.e / 64))).map fun j => (q.base + q.e * (n % q.cap) + 64 * j) % 2 ^ 64

/-- A slot as the front end of a die translates it. DEDUCED (log entry 55): it acts as system mode does. -/
def feSlot (s : State) (c : Context) (die : Nat) (q : Qcb) (need : Need) (n : Nat) : SlotX :=
  let vas := slotVas q n
  let ls := vas.map fun a => feLeaf s c die a
  if ls.any Option.isNone then .fault .xlate (vas.headD 0)
  else if (ls.filterMap id).any fun x => refused x.2 true need then .fault .prot (vas.headD 0)
  else .ok (vas.headD 0) ((ls.filterMap id).map (·.1))

/-- The block with the reservation of an enqueue taken (R261), and with that of a dequeue (R262). -/
def Qcb.takeTail (q : Qcb) : Qcb := ((q.put 3 0 64 (q.tail + 1)).put 4 0 32 (q.free - 1)).put 5 0 21 (q.pe + 1)
def Qcb.takeHead (q : Qcb) : Qcb := ((q.put 2 0 64 (q.head + 1)).put 4 0 32 (q.free + 1)).put 5 21 21 (q.pd + 1)

/-- What phase 2 needs of a reservation that has been granted. -/
def QMove.granted (m : QMove) (id pa n va : Nat) (pas : List Nat) (q : Qcb) : QMove :=
  { m with id := id, seq := id, n := n, va := va, pas := pas, esz := q.e, cap := q.cap, qcb := pa, scope := scopeOfCode q.scope }

/-- A move of the front end of a die for a context. -/
def feMove (c : Context) (die : Nat) (kind : MoveKind) : QMove :=
  { id := 0, kind := kind, gid := 0, preds := [], seq := 0, ctx := c.id, die := die, core := 48, team := 0, qcb := 0, n := 0, cap := 1,
    esz := 0, va := 0, pas := [], scope := .die, data := [], dst := 0, width := 32, src := 0, srcVa := 0, major := 0, moved := 0,
    landed := false, acc := 0, fe := true, cut := 0 }

/-- What an enqueue of the front end comes to: the queue takes no element now, it has been poisoned, or the element has its
reservation. -/
inductive FeEnq where
  | no
  | bad (s : State)
  | ok (s : State)

/-- The front end of a die reserves a slot of a queue for an element, as ENQ does (R261); phase 2 moves it (R263, R403). A failed check
poisons the queue with CAUSE 0x0E (R256), a slot that faults with the fault's code, its reservation taken (R269); a block of a lost
package grants nothing (R440). -/
def feReserve (s : State) (c : Context) (die pa : Nat) (mv : QMove) : FeEnq :=
  let q := readQcb s pa
  if paLost s pa then .no
  else if !q.ok s pa then .bad (poisonQ s pa none 0x0E)
  else if q.st != 0 || q.free == 0 || q.held then .no
  else
    let h := s.qhome pa
    let s1 := changeQ s pa none q.takeTail { h with unpub := h.unpub ++ [q.tail] }
    match feSlot s c die q .wr q.tail with
    | .ok va pas => .ok { s1 with qmoves := s.qmoves ++ [mv.granted s.nextId pa q.tail va pas q], nextId := s.nextId + 1 }
    | .fault e _ => .bad (poisonQ s1 pa none e.num)
    | .miss => .no

/-- The front end enqueues what it holds for an event queue, as far as the queue takes it. -/
def flushPosts (fuel : Nat) (s : State) (cid : Nat) : State :=
  match fuel with
  | 0 => s
  | n + 1 =>
    match s.ctx? cid with
    | none => s
    | some c =>
      match c.posts, fePa s c 0 c.evq.toNat with
      | r :: rest, some pa =>
        if (readQcb s pa).ok s pa && (readQcb s pa).e != 32 then s
        else match feReserve s c 0 pa { feMove c 0 .enq with data := okBytes r } with
          | .no => s
          | .bad s1 => s1
          | .ok s1 => flushPosts n (s1.setCtx { c with posts := rest }) cid
      | _, _ => s

/-- An element of a context's event queue (R403): kind, fault code, address, reply address. -/
def postEvent (s : State) (cid kind code addr reply : Nat) : State :=
  match s.ctx? cid with
  | none => s
  | some c =>
    let r := leBytes 1 kind ++ leBytes 1 code ++ leBytes 6 0 ++ leBytes 8 addr ++ leBytes 8 s.gtb.toNat ++ leBytes 8 reply
    flushPosts (c.posts.length + 1) (s.setCtx { c with posts := c.posts ++ [r] }) cid

/-- The front end's posts for a queue go on. -/
def flushHeld (s : State) (pa : Nat) : State :=
  (s.contexts.map (·.id)).foldl (fun s c =>
    match s.ctx? c with
    | some x => if x.posts.isEmpty || fePa s x 0 x.evq.toNat != some pa then s else flushPosts x.posts.length s c
    | none => s) s

/-- FREE of a queue has risen: its sleepers wake, and the front end's posts go on. -/
def freeRose (s : State) (pa : Nat) : State := flushHeld (wakeQ s pa true) pa

/-! ### Entering a queue instruction (R256, R257, R260) -/

/-- The issuer is within a scope of a queue homed at an address (R257). -/
def mayUse (g : Group) (pa sc : Nat) : Bool :=
  match sc with
  | 2 => !paRemote pa && g.die == homeDie pa
  | 3 | 5 => !paRemote pa
  | _ => true

/-- The block's page: ALIGN, XLATE, PROT (R260). The block of a lost package comes back poisoned, and the instruction that asked
for it raises POISON (R378, R440). DEDUCED (log entry 72). -/
def withQpage (i : Instr) (f : FQ) (s : State) (g : Group) (k : State → Nat → Nat → Out) : Out :=
  let a := (g.rdS f.base.toNat).toNat
  withGlob i s g ⟨.both, 64, fun _ => 1, none, fun x => if paHost x.pa then some .prot else none, [.prot]⟩ true [(0, a)]
    fun s1 xs => match xs with
      | x :: _ => if paLost s1 x.pa then raise s1 i .poison (BitVec.ofNat 64 a) 0 0 else k s1 a x.pa
      | [] => .next s1

/-- An operation at the home: QCBBAD, with the queue poisoned where the check fails; then SCOPE. -/
def withQueue (i : Instr) (f : FQ) (s : State) (g : Group) (k : State → Nat → Nat → Qcb → Out) : Out :=
  withQpage i f s g fun s1 a pa =>
    let q := readQcb s1 pa
    let addr := BitVec.ofNat 64 a
    if !q.ok s1 pa then raise (poisonQ s1 pa (some g.gid) 0x0E) i .qcbbad addr 0 0
    else if 2 ≤ q.st then raise s1 i .qcbbad addr 0 0
    else if !mayUse g pa q.scope then raise s1 i .scope addr 0 0
    else k s1 a pa q

/-- A group that a queue woke has left its record when it retries. -/
def retrying (s : State) (g : Group) : State := (unsleep s g).modG fun h => { h with sleep := .awake }

/-! ### Elements (R259, R269) -/

/-- v registers of an element. -/
def elemRegs (g : Group) (e : Nat) : Nat := (e + 4 * g.width - 1) / (4 * g.width)

/-- Lanes of the registers of an element. -/
def elemLanes (g : Group) (e : Nat) : List Nat := List.range (min (e / 4) g.width)

/-- Bytes of an element with their poison. -/
def elemData (g : Group) (r e : Nat) : List (Byte × Bad) :=
  (List.range e).map fun o =>
    let l := g.laneV (r + o / (4 * g.width)) (o % (4 * g.width) / 4)
    (BitVec.ofNat 8 (l.val.toNat / 256 ^ (o % 4)), l.bad)

/-- A slot as a group's core translates it. -/
def slotX (s : State) (g : Group) (q : Qcb) (need : Need) (n : Nat) : State × SlotX :=
  let vas := slotVas q n
  let va := vas.headD 0
  let r := xlateAll s g.die g.core g.ctx g.gid (vas.map fun a => (0, a))
  if r.2.any fun x => x.2.2 == .miss then (r.1, .miss)
  else match r.2.find? fun x => x.2.2 == .bad with
    | some x => (takeFailed r.1 g.die g.ctx g.gid [x.2.1], .fault .xlate va)
    | none =>
      let xs := r.2.filterMap fun x => x.2.2.hit?
      if xs.any fun x => refused x.leaf g.sys need then (r.1, .fault .prot va) else (r.1, .ok va (xs.map (·.pa)))

/-! ### ENQ, ENQT and LNCH, phase 1 (R261, R370) -/

/-- A reservation of an element: `mv` carries what phase 2 needs; a fault of the slot's address poisons the queue with
the reservation taken (R269). `post` is what the instruction writes once it is granted sequence number n. -/
def reserveEnq (i : Instr) (s : State) (g : Group) (pa : Nat) (q : Qcb) (mv : QMove) (post : Nat → Group → Group) : Out :=
  let n := q.tail
  let r := slotX s g q .wr n
  let h := r.1.qhome pa
  let s1 := changeQ r.1 pa (some g.gid) q.takeTail { h with unpub := h.unpub ++ [n] }
  if q.held then waits s .stall
  else match r.2 with
  | .miss => waits r.1 .stall
  | .fault c a => raise (poisonQ s1 pa (some g.gid) c.num) i c (BitVec.ofNat 64 a) 0 0
  | .ok va pas =>
    done ({ s1 with qmoves := s1.qmoves ++ [mv.granted s1.nextId pa n va pas q], nextId := s1.nextId + 1 }.modG (post n))

/-- The group sleeps on a full or an empty queue, its record one more (R264). -/
def sleepOn (s : State) (g : Group) (pa : Nat) (q : Qcb) (full : Bool) : Out :=
  let h := s.qhome pa
  let h1 := if full then { h with full := h.full ++ [g.gid] } else { h with empty := h.empty ++ [g.gid] }
  waits (changeQ s pa (some g.gid) q h1) (if full then .full pa else .empty pa)

def blankMove (g : Group) (kind : MoveKind) : QMove :=
  { id := 0, kind := kind, gid := g.gid, preds := g.preds, seq := 0, ctx := g.ctx, die := g.die, core := g.core, team := g.team, qcb := 0,
    n := 0, cap := 1, esz := 0, va := 0, pas := [], scope := .die, data := [], dst := 0, width := g.width, src := 0, srcVa := 0, major := 0,
    moved := 0, landed := false, acc := 0, fe := false, cut := 0 }

/-- ENQ; ENQT names a status register and never sleeps. -/
def enqOp (i : Instr) (f : FQ) (test : Bool) (s : State) : Out :=
  issue i s fun g =>
    if g.act f.p = 0 then done s
    else if uncommitted s g then waits s .stall
    else withQueue i f (retrying s g) g fun s1 a pa q =>
      let r := match f.b with | .v n => n.toNat | _ => 0
      if q.st != 0 then raise s1 i .qclosed (BitVec.ofNat 64 a) 0 0
      else if kVregs (s.kword g) < r + elemRegs g q.e then raise s1 i .ill g.iaddr 0 0
      else withSrcs i s1 g true [⟨f.b, elemRegs g q.e, false, (elemLanes g q.e).map fun l => (l, l)⟩] fun s2 =>
        if q.free == 0 then (if test then done (s2.modG fun h => h.putK f.dst 0) else sleepOn s2 g pa q true)
        else reserveEnq i s2 g pa q { blankMove g .enq with data := elemData g r q.e }
          fun _ h => if test then h.putK f.dst ones32 else h

def execEnq (f : FQ) (s : State) : Out := enqOp (.enq f) f false s
def execEnqt (f : FQ) (s : State) : Out := enqOp (.enqt f) f true s

/-! ### DEQ and DEQT, phase 1 (R262) -/

/-- A reservation of the element at the head. The access that stands for its acquire is later accesses' order point
(R100). -/
def reserveDeq (i : Instr) (s : State) (g : Group) (pa : Nat) (q : Qcb) (r : Nat) (post : Group → Group) : Out :=
  let n := q.head
  let x := slotX s g q .rd n
  let h := x.1.qhome pa
  let s1 := freeRose (changeQ x.1 pa (some g.gid) q.takeHead { h with unread := h.unread ++ [n] }) pa
  if q.held then waits s .stall
  else match x.2 with
  | .miss => waits x.1 .stall
  | .fault c a => raise (poisonQ s1 pa (some g.gid) c.num) i c (BitVec.ofNat 64 a) 0 0
  | .ok va pas =>
    let mid := s1.nextId
    let acq := { gAcc g (match i with | .deqt _ => 0x8D | _ => 0x8B) .load (.spad g.team 0) 0 0 true false (scopeOfCode q.scope) with seq := mid + 1, cmd := some mid }
    let m := { (blankMove g .deq).granted mid pa n va pas q with major := acq.major, dst := r, acc := mid + 1 }
    let s2 := { s1 with qmoves := s1.qmoves ++ [m], nextId := mid + 1 }.addAcc acq
    done ((s2.oweDst g (.v (BitVec.ofNat 8 r)) (elemRegs g q.e) (elemLanes g q.e)).modG post)

def deqOp (i : Instr) (f : FQ) (test : Bool) (s : State) : Out :=
  issue i s fun g =>
    if g.act f.p = 0 then done s
    else if uncommitted s g then waits s .stall
    else withQueue i f (retrying s g) g fun s1 a pa q =>
      let r := match f.dst with | .v n => n.toNat | _ => 0
      if q.st != 0 then raise s1 i .qclosed (BitVec.ofNat 64 a) 0 0
      else if kVregs (s.kword g) < r + elemRegs g q.e then raise s1 i .ill g.iaddr 0 0
      else if dstBusy s1 g f.dst (elemRegs g q.e) (elemLanes g q.e) then waits s1 .stall
      else if q.tail - q.pe ≤ q.head then (if test then done (s1.modG fun h => h.putK f.a 0) else sleepOn s1 g pa q false)
      else reserveDeq i s1 g pa q r fun h => if test then h.putK f.a ones32 else h

def execDeq (f : FQ) (s : State) : Out := deqOp (.deq f) f false s
def execDeqt (f : FQ) (s : State) : Out := deqOp (.deqt f) f true s

/-- QUEUE_RETRY: a woken sleeper leaves the home's record and may issue its instruction again (R261, R262, R264); a cancelled
iteration does not perform it (R271). -/
def execQueueRetry (gid : Nat) (s : State) : Out :=
  match s.group? gid with
  | none => .next s
  | some g =>
    match g.sleep with
    | .woken _ _ => if (s.partOf g).stop || (cancelled s g && abandons g) then .next s else .next ((unsleep s g).setGroup { g with sleep := .awake })
    | _ => .next s

/-! ### Phase 2 (R261 to R263) -/

def State.move? (s : State) (id : Nat) : Option QMove := s.qmoves.find? fun m => m.id == id

/-- Landed reservations from a sequence number upward, without a gap. -/
def runFrom (landed : List Nat) : Nat → Nat → Nat
  | 0, _ => 0
  | k + 1, n => if landed.contains n then 1 + runFrom landed k (n + 1) else 0

/-- Reservation n has landed: it and the landed ones after it are published in order (R263). -/
def publishQ (s : State) (pa n : Nat) (by_ : Option Nat) : State :=
  let h := s.qhome pa
  if !h.unpub.contains n then s
  else
    let q := readQcb s pa
    let landed := h.landed ++ [n]
    let w := q.tail - q.pe
    let k := runFrom landed landed.length w
    let s1 := changeQ s pa by_ (q.put 5 0 21 (q.pe - k))
      { h with unpub := h.unpub.filter fun x => decide (w + k ≤ x), landed := landed.filter fun x => decide (w + k ≤ x) }
    if k = 0 then s1 else wakeQ s1 pa false

def State.setMove (s : State) (m : QMove) : State := { s with qmoves := s.qmoves.map fun x => if x.id == m.id then m else x }
def State.dropMove (s : State) (id : Nat) : State := { s with qmoves := s.qmoves.filter fun x => x.id != id }

/-- The element's bytes: a launch packet is read when its first piece is written. -/
def moveData (s : State) (m : QMove) : List (Byte × Bad) :=
  if m.kind == .lnch && m.moved == 0 then opBytes s m.id m.die m.core m.src m.esz else m.data

/-- The next piece of 64 B of an element is written, in one step of the die (R85). -/
def movePiece (s : State) (m : QMove) : State :=
  let bs := moveData s m
  let s1 := if m.kind == .lnch && m.moved == 0 then pullBytes s m.ctx m.die m.src m.esz else s
  (landBytes s1 m.die m.core m.ctx (some m.id) (m.va + 64 * m.moved) (m.pas.getD m.moved 0) ((bs.drop (64 * m.moved)).take 64)).setMove
    { m with data := bs, moved := m.moved + 1, landed := decide (m.pas.length ≤ m.moved + 1) }

/-- The group that a queue's line records for a move: none where the front end enqueues (R434). -/
def QMove.by_ (m : QMove) : Option Nat := if m.fe then none else some m.gid

/-- The accesses that an enqueue follows are performed at the queue's scope: the group's earlier ones; of the front end's, what it has
written for the context (R90, R100, R403). -/
def enqMay (s : State) (m : QMove) : Bool :=
  if m.fe then s.accs.all fun a => a.core != 48 || a.ctx != m.ctx || a.isPoint || decide (m.id ≤ a.id) || a.performed (Scope.rank m.scope)
  else earlierDone s m.preds m.seq m.scope

/-- ENQ_ELEMENT_MOVE: the element is written, piece by piece, once its slot has no unread earlier element and the group's earlier
accesses are performed at the queue's scope; once its writes are performed there too it lands, and it is under way until it is
published (R263, R270). -/
def execEnqElementMove (mv : Nat) (s : State) : Out :=
  match s.move? mv with
  | none => .next s
  | some m =>
    if m.kind == .deq then .next s
    else if !m.landed then
      if (s.qhome m.qcb).unread.any (fun u => u != m.n && u % m.cap == m.n % m.cap) || !enqMay s m
          || !mayLand s m.die 64 then .next s
      else .next (movePiece s m)
    else if !(s.qhome m.qcb).unpub.contains m.n then .next (s.dropMove mv)
    else if (s.qhome m.qcb).landed.contains m.n || !landedDone s m.id m.scope then .next s
    else
      let s1 := publishQ s m.qcb m.n m.by_
      .next (if (s1.qhome m.qcb).unpub.contains m.n then s1 else s1.dropMove mv)

/-- The element lanes of a dequeue take their bytes, each lane FULL, whether or not its thread is active (R259). -/
def fillElem (g : Group) (m : QMove) (bs : List (Byte × Bad)) : Group :=
  (List.range (m.esz / 4)).foldl (fun g j =>
    let b := (bs.drop (4 * j)).take 4
    g.setV (m.dst + j / m.width) (j % m.width) ⟨BitVec.ofNat 32 (leNat (b.map (·.1))), false, worst b⟩) g

/-- A dequeue's element, read before, enters its lanes. -/
def fillMove (s : State) (mv : Nat) : State :=
  match s.move? mv with
  | none => s
  | some m => (lateWrote (s.modGroup m.gid fun g => fillElem g m m.data) m.gid
      ((List.range (m.esz / 4)).map fun j => (m.dst + j / m.width, j % m.width))).dropMove mv

/-- The bytes of a dequeue's element. -/
def elemBytes (s : State) (m : QMove) : List (Byte × Bad) := (m.pas.map fun p => opBytes s m.id m.die m.core p (min m.esz 64)).flatten

/-- A dequeue's element is read: its bytes have moved (R426), and its slot may be overwritten (R262). -/
def readSlot (s : State) (m : QMove) : State :=
  let h := s.qhome m.qcb
  let q := readQcb s m.qcb
  let s1 := m.pas.foldl (fun s p => pullBytes s m.ctx m.die p (min m.esz 64)) s
  if h.unread.contains m.n then
    flushHeld (changeQ s1 m.qcb m.by_ (q.put 5 21 21 (q.pd - 1)) { h with unread := h.unread.filter fun x => x != m.n }) m.qcb
  else s1

/-- The element of a group's DEQ: its lanes take it now, or, in a frozen partition, from the pending buffer at the resume (R427). -/
def readElement (s : State) (m : QMove) : State :=
  let s1 := (readSlot s m).setMove { m with data := elemBytes s m, landed := true }
  let s2 := { s1 with accs := s1.accs.map fun a => if a.id == m.acc then { a with read := true, fin := true } else a }
  sweep (holdLate s2 m.gid (.deq m.id) fun s => fillMove s m.id)

/-! ### QOPEN, QCLOSE, QSTAT (R266 to R268) -/

/-- The block QOPEN writes. -/
def freshQcb (s : State) (pa esz logc sc base : Nat) : Qcb :=
  [0x51C3 + 2 ^ 16 + esz * 2 ^ 32 + logc * 2 ^ 40, base, 0, 0, 2 ^ logc, 0,
   homePkg s pa * 256 + sc * 4 + homeDie pa, 0]

def execQopen (f : FQ) (s : State) : Out :=
  issue (.qopen f) s fun g =>
    if g.act f.p = 0 then done s
    else if uncommitted s g then waits s .stall
    else withQpage (.qopen f) f s g fun s1 a pa =>
      let q := readQcb s1 pa
      let sp := g.rdSc f.a
      let base := (g.rdSc f.b).toNat
      let esz := fldN sp 0 4
      let logc := fldN sp 8 5
      let sc := fldN sp 16 3
      let sc1 := if sc = 1 then 2 else sc
      let addr := BitVec.ofNat 64 a
      if q.f 0 0 16 == 0x51C3 && q.f 7 0 64 == q.sum && q.st == 0 then raise s1 (.qopen f) .qcbbad addr 0 0
      else if esz < 3 || 8 < esz || logc < 1 || 20 < logc || sc = 0 || 5 < sc || fldN sp 4 4 ≠ 0 || fldN sp 13 3 ≠ 0
          || fldN sp 19 45 ≠ 0 || base % 64 ≠ 0 then raise s1 (.qopen f) .qcbbad addr 0 0
      else if !mayUse g pa sc1 then raise s1 (.qopen f) .scope addr 0 0
      else if !allDone s1 g (scopeOfCode sc1) then waits s1 .stall
      else done (changeQ s1 pa (some g.gid) (freshQcb s1 pa esz logc sc1 base) ⟨pa, [], [], [], [], []⟩)

/-- Packets whose elements the front end has still to read are to be cut short with a status, as those in dispatch are. -/
def cutMoves (ms : List QMove) (pick : QMove → Bool) (st : Nat) : List QMove :=
  ms.map fun m => if m.fe && m.kind == .deq && m.cut == 0 && pick m then { m with cut := st } else m

/-- No more of a packet's teams are placed, with a status. -/
def Launch.cut (l : Launch) (st : Nat) : Launch :=
  { l with killed := true, boundary := true, status := if l.status = 0 then st else l.status }

/-- A kill reaches the packet in dispatch of a front-end work queue: no more of its teams are placed (R402). -/
def killPacket (s : State) (pa : Nat) : State :=
  { s with
    launches := s.launches.map fun l =>
      if !l.boundary && s.workqs.any (fun w => w.qcb == pa && w.inFlight == some l.id) then
        l.cut 0x45
      else l,
    qmoves := cutMoves s.qmoves (fun m => m.qcb == pa) 0x45,
    workqs := s.workqs.map fun w => if w.qcb == pa then { w with inFlight := none } else w }

/-- QCLOSE: STATE becomes closed and every sleeper wakes. -/
def qcloseOp (i : Instr) (f : FQ) (kill : Bool) (s : State) : Out :=
  issue i s fun g =>
    if g.act f.p = 0 then done s
    else if uncommitted s g then waits s .stall
    else withQueue i f s g fun s1 _ pa q =>
      if q.st != 0 then done s1
      else
        let s2 := wakeAll (changeQ s1 pa (some g.gid) (q.put 4 32 2 1) (s1.qhome pa)) pa
        done (if kill && q.f 6 16 1 == 1 then killPacket s2 pa else s2)

def execQclose (f : FQ) (s : State) : Out := qcloseOp (.qclose f) f false s
def execQcloseKill (f : FQ) (s : State) : Out := qcloseOp (.qcloseKill f) f true s

/-- The word of R268. -/
def qstatWord (q : Qcb) : Nat :=
  q.st * 2 ^ 54 + q.esz * 2 ^ 50 + q.logc * 2 ^ 45 + q.scope * 2 ^ 42 + q.free * 2 ^ 21 + (q.tail - q.pe - q.head)

def execQstat (f : FQ) (s : State) : Out :=
  issue (.qstat f) s fun g =>
    if g.act f.p = 0 then done s
    else withQpage (.qstat f) f s g fun s1 a pa =>
      let q := readQcb s1 pa
      if !q.ok s1 pa then done (s1.modG fun h => h.putS f.dst (BitVec.ofNat 64 (2 ^ 63)))
      else if !mayUse g pa q.scope then raise s1 (.qstat f) .scope (BitVec.ofNat 64 a) 0 0
      else done (s1.modG fun h => h.putS f.dst (BitVec.ofNat 64 (qstatWord q)))

/-! ### Cancelled iterations (R225, R271) -/

/-- CANCELLED_RETIRE: a cancelled iteration at a clause entry, or asleep in BARWAIT, ENQ, DEQ or WAITL, retires once no
write to its slots is pending; its sleeper count is removed. In a stopped partition every group is frozen (R427). -/
def execCancelledRetire (gid : Nat) (s : State) : Out :=
  match s.group? gid with
  | none => .next s
  | some g =>
    match g.iter, s.pipeOf g with
    | some it, some q =>
      if q.isCancelled it.k && (!g.entered || abandons g) && g.trap.isNone && !q.owedOwn it.k && !(s.partOf g).stop then
        .next (retireIter (unsleep s g) g q it.k .broken)
      else .next s
    | _, _ => .next s

end Sys2Proof.Machine
end

