-- ==== Sys2Proof/Machine/Scalar.lean ====
section
/-!
DEFINITION. Scalar instructions, special registers, VTOS and the immediate moves (R102 to R108).
-/
namespace Sys2Proof.Machine

/-! ### Arithmetic and logic of major 0x00 (R105) -/

def execSadd (f : VR) (s : State) : Out := scalarOp (.sadd f) f s fun a b _ => a + b
def execSsub (f : VR) (s : State) : Out := scalarOp (.ssub f) f s fun a b _ => a - b
def execSmul (f : VR) (s : State) : Out := scalarOp (.smul f) f s fun a b _ => a * b
def execSmulh (f : VR) (s : State) : Out :=
  scalarOp (.smulh f) f s fun a b _ => BitVec.ofInt 64 (a.toInt * b.toInt / 2 ^ 64)
def execSmad (f : VR) (s : State) : Out := scalarOp (.smad f) f s fun a b c => a * b + c
def execSand (f : VR) (s : State) : Out := scalarOp (.sand f) f s fun a b _ => a &&& b
def execSor (f : VR) (s : State) : Out := scalarOp (.sor f) f s fun a b _ => a ||| b
def execSxor (f : VR) (s : State) : Out := scalarOp (.sxor f) f s fun a b _ => a ^^^ b
def execSandn (f : VR) (s : State) : Out := scalarOp (.sandn f) f s fun a b _ => a &&& ~~~ b
def execSshl (f : VR) (s : State) : Out := scalarOp (.sshl f) f s fun a b _ => a <<< (b.toNat % 64)
def execSshr (f : VR) (s : State) : Out := scalarOp (.sshr f) f s fun a b _ => a >>> (b.toNat % 64)
def execSsra (f : VR) (s : State) : Out := scalarOp (.ssra f) f s fun a b _ => a.sshiftRight (b.toNat % 64)
def execSmin (f : VR) (s : State) : Out := scalarOp (.smin f) f s fun a b _ => if a.toInt ≤ b.toInt then a else b
def execSmax (f : VR) (s : State) : Out := scalarOp (.smax f) f s fun a b _ => if b.toInt ≤ a.toInt then a else b
def execSminu (f : VR) (s : State) : Out := scalarOp (.sminu f) f s fun a b _ => if a.toNat ≤ b.toNat then a else b
def execSmaxu (f : VR) (s : State) : Out := scalarOp (.smaxu f) f s fun a b _ => if b.toNat ≤ a.toNat then a else b

/-- SCMP: signed under s64, unsigned under n64 (R67, R105). -/
def execScmp (c : Cond) (f : VR) (s : State) : Out :=
  scalarOp (.scmp c f) f s fun a b _ =>
    if condInt c (extBy f.ty.signed 64 a.toNat) (extBy f.ty.signed 64 b.toNat) then 1 else 0

def execSsel (f : VR) (s : State) : Out := scalarOp (.ssel f) f s fun a b c => if a = 0 then c else b
def execSmov (f : VR) (s : State) : Out := scalarOp (.smov f) f s fun a _ _ => a
def execSclz (f : VR) (s : State) : Out := scalarOp (.sclz f) f s fun a _ _ => BitVec.ofNat 64 (clzNat 64 a.toNat)
def execSpopc (f : VR) (s : State) : Out := scalarOp (.spopc f) f s fun a _ _ => BitVec.ofNat 64 (popNat 64 a.toNat)

/-- The lane VTOS copies: b[4:0], b[3:0] in a legacy half (R107). -/
def vtosLane (g : Group) (b : W64) : Nat := b.toNat % g.width

/-- The one lane VTOS reads; where it acts it is the acting lane's own read (R107, R195, R221). -/
def vtosSrc (g : Group) (f : VR) : Src :=
  let l := vtosLane g (g.rdSc f.b)
  ⟨f.a, 1, f.ta, [(if (g.act f.p).getLsbD l then l else 32 + l, l)]⟩

/-- VTOS (R107): the presence state of the one lane governs the read, whether or not the lane is active. -/
def execVtos (f : VR) (s : State) : Out :=
  issue (.vtos f) s fun g =>
    if g.act f.p = 0 then done s
    else
      let l := vtosLane g (g.rdSc f.b)
      withSrcs (.vtos f) s g false [vtosSrc g f] fun s1 =>
        done (s1.modG fun h => h.putS f.dst ((s.rd32 g .f32 f.a l).setWidth 64))

/-! ### Immediate moves (R106) -/

def execSmovi (f : VI) (s : State) : Out :=
  issue (.smovi f) s fun g =>
    if g.act f.p = 0 then done s else done (s.modG fun h => h.putS f.dst (f.imm.signExtend 64))

/-- SMOVH writes bits [63:32] and keeps bits [31:0]. -/
def execSmovh (f : VI) (s : State) : Out :=
  issue (.smovh f) s fun g =>
    if g.act f.p = 0 then done s
    else done (s.modG fun h => h.putS f.dst (BitVec.ofNat 64 (f.imm.toNat * 2 ^ 32 + (h.rdSc f.dst).toNat % 2 ^ 32)))

/-! ### Special registers (R103, R108) -/

/-- TEAMS: the packet's team counts, each less 1 (R103, R392). -/
def teamsWord (packet : List Byte) : W64 :=
  let w := leNat ((packet.drop 16).take 8)
  BitVec.ofNat 64 ((w % 2 ^ 21 + 2 ^ 21 - 1) % 2 ^ 21 + ((w / 2 ^ 21 % 2 ^ 21 + 2 ^ 21 - 1) % 2 ^ 21) * 2 ^ 21
    + ((w / 2 ^ 42 % 2 ^ 21 + 2 ^ 21 - 1) % 2 ^ 21) * 2 ^ 42)

/-- FRAME: the frame the context holds on the core, 3 for wide allocation (R103, R380). -/
def frameNo (s : State) (g : Group) : Nat :=
  match (s.core g.die g.core).frames.find? fun f => f.ctx == g.ctx with
  | some f => if f.wide then 3 else f.first
  | none => 0

def roleNo : Role → Nat
  | .copy => 0
  | .matrix => 1
  | .vector => 2

/-- The value of a special register in a lane. -/
def spVal (s : State) (g : Group) (r : SpReg) (lane : Nat) : W64 :=
  match r with
  | .lane => BitVec.ofNat 64 lane
  | .tid => BitVec.ofNat 64 (g.tids.getD lane 0)
  | .grp => BitVec.ofNat 64 g.grp
  | .team => BitVec.ofNat 64 (((s.team? g.team).map (·.index)).getD 0)
  | .teams => ((s.launch? g.launch).map fun l => teamsWord l.packet).getD 0
  | .core => BitVec.ofNat 64 g.core
  | .part => BitVec.ofNat 64 g.part
  | .quad => BitVec.ofNat 64 (g.core / 4)
  | .die => BitVec.ofNat 64 g.die
  | .pkg => BitVec.ofNat 64 s.pkg
  | .iter => (match g.iter with | some it => BitVec.ofNat 64 it.k | none => 0xFFFFFFFFFFFFFFFF)
  | .niter => (match s.pipeOf g with | some q => BitVec.ofNat 64 q.n | none => 0)
  | .clk => BitVec.ofNat 64 (s.clk g.die g.core)
  | .gtb => s.gtb
  | .nbv => BitVec.ofNat 64 g.nbv
  | .voidm => g.voidm.setWidth 64
  | .bkpass => g.bkpass
  | .energy => BitVec.ofNat 64 (((s.ctx? g.ctx).map (·.energy)).getD 0)
  | .role => BitVec.ofNat 64 (roleNo g.role)
  | .trapbase => g.trapbase
  | .trapvec => g.trapvec
  | .age => ((s.partOf g).age).setWidth 64
  | .frame => BitVec.ofNat 64 (frameNo s g)

/-- SRD into an s register writes it whole; into a v or y register, every active lane, truncated to 32 bits (R108). -/
def execSrd (r : SpReg) (f : VR) (s : State) : Out :=
  issue (.srd r f) s fun g =>
    if g.act f.p = 0 then done s
    else match f.dst with
      | .s _ => done (s.modG fun h => h.putS f.dst (spVal s g r 0))
      | _ =>
        if dstBusy s g f.dst 1 (lanesOf g.active) then waits s .stall
        else done (s.putDst g f.dst false (lanesOf g.active) fun l => (spVal s g r l).toNat % 2 ^ 32)

/-- The value lies in the register's stated range (R103, R108). DESIGN CHOICE (log entry 90): of a 32-bit register the range is held
against bits [31:0], which are what SWR writes. -/
def spRange (r : SpReg) (x : W64) : Bool :=
  match r with
  | .nbv => let n := x.toNat % 2 ^ 32; 1 ≤ n && n ≤ 3
  | .age => let n := x.toNat % 2 ^ 32; 16 ≤ n && n ≤ 65535
  | _ => true

/-- The special register with a new value (R108). -/
def spWrite (s : State) (g : Group) (r : SpReg) (x : W64) : State :=
  match r with
  | .nbv => s.modG fun h => { h with nbv := x.toNat % 2 ^ 32 }
  | .voidm => s.modG fun h => { h with voidm := x.setWidth 32 }
  | .bkpass => s.modG fun h => { h with bkpass := x }
  | .trapbase => s.modG fun h => { h with trapbase := x }
  | .trapvec => s.modG fun h => { h with trapvec := x }
  | .age =>
    let p := s.partOf g
    let now := s.clk g.die g.core
    s.setPartOf g { p with age := x.setWidth 32, ageOld := if p.ageAt = now then p.ageOld else p.age, ageAt := now }
  | _ => s

/-- SWR (R108): a value outside the register's range changes nothing and raises ILL, only when the SWR takes effect. -/
def execSwr (r : SpReg) (f : VR) (s : State) : Out :=
  issue (.swr r f) s fun g =>
    if g.act f.p = 0 then done s
    else if !spRange r (g.rdSc f.a) then raise s (.swr r f) .ill g.iaddr 0 0
    else done (spWrite s g r (g.rdSc f.a))

end Sys2Proof.Machine
end

