-- ==== Sys2Proof/Machine/Ready.lean ====
section
/-!
DEFINITION. Which sources the next instruction of a group reads, whether the presence rules let it read them (R118, R130,
R195, R221), and whether a wait it is in is over: what the scheduler asks of a group inside a clause.
-/
namespace Sys2Proof

/-- The index register of an address, in the acting lanes. -/
def copyIdx (x : Option (BitVec 8)) (m : W32) : List Machine.Src :=
  match x with
  | some r => [Machine.srcAt (.v r) false false m]
  | none => []

end Sys2Proof

namespace Sys2Proof.Machine

/-- The element size of the queue that an ENQ names (R254, R261); 0 where the address does not translate in the TLBs. -/
def enqSize (s : State) (g : Group) (f : FQ) : Nat :=
  match (xlate1 s g.die g.core g.ctx g.gid 0 (g.rdS f.base.toNat).toNat).2 with
  | .ok x => (readQcb s x.pa).e
  | _ => 0

/-- Registers of the element that an ENQ reads (R259). -/
def enqSrc (s : State) (g : Group) (f : FQ) : Src :=
  ⟨f.b, max 1 (elemRegs g (enqSize s g f)), false, (elemLanes g (enqSize s g f)).map fun l => (l, l)⟩

/-- All lanes of the quarters in which some lane acts. -/
def quarterLanes (g : Group) (m : W32) : List Nat :=
  (List.range g.width).filter fun l => (lanesOf m).any fun x => x / 8 == l / 8

/-- The v and y sources of an instruction, with the lanes it reads. -/
def Instr.srcs (s : State) (g : Group) (i : Instr) : List Src :=
  match i with
  | .shflIdx w f => [srcAt f.b false f.tb (g.act f.p), crossSrc f (g.act f.p) (shIdx s w f g)]
  | .shflUp w f => [srcAt f.b false f.tb (g.act f.p), crossSrc f (g.act f.p) (shUp s w f g)]
  | .shflDn w f => [srcAt f.b false f.tb (g.act f.p), crossSrc f (g.act f.p) (shDn s w f g)]
  | .shflXor w f => [srcAt f.b false f.tb (g.act f.p), crossSrc f (g.act f.p) (shXor s w f g)]
  | .bcast f => [crossSrc f (g.act f.p) fun _ => (g.rdSc f.b).toNat % g.width]
  | .vtos f => if g.act f.p = 0 then [] else [vtosSrc g f]
  | .voteEq f | .redg _ f | .scang _ _ f | .match_ f => [srcAt f.a f.ty.is64 f.ta (g.act f.p)]
  | .cmpct f => [⟨f.a, if f.ty.is64 then 2 else 1, f.ta, (cmpctSel g f).map fun l => (l, l)⟩]
  | .phredAcc f => [srcAt f.a false f.ta (g.act f.p), ⟨f.dst, 3, false, (lanesOf (g.act f.p)).map fun l => (l, l)⟩]
  | .movi _ => []
  | .iaddi f | .andi f | .ori f | .xori f => [srcAt f.a false f.ta (g.act f.p)]
  | .ld f | .lds f | .ldf f | .pref _ f | .cctlInv1 f | .cctlWb f | .cctlEvict f => idxSrc f (g.act f.p)
  | .st f | .sts f => idxSrc f (g.act f.p) ++ [⟨f.data, memRegs (memW f.ty), f.t, (lanesOf (g.act f.p)).map fun l => (l, l)⟩]
  | .atom op t f | .atoms op t f | .redm op t f => atomSrcs f op t (g.act f.p)
  | .enq f | .enqt f => if g.act f.p = 0 then [] else [enqSrc s g f]
  | .reform f => [srcAt f.a false false (g.act f.p)]
  | .tfree f => [srcAt (.v f.va) false false (g.act f.p)]
  | .tfill _ _ _ f | .mmq _ f | .mmqx _ f | .phmma _ f =>
    [srcAt (.v f.va) false false (g.act f.p), srcAt (.v f.vb) false false (g.act f.p)]
  | .mxldz _ f | .mxdrain _ f | .phfin _ f =>
    [srcAt (.v f.va) true false (g.act f.p), srcAt (.v f.vb) false false (g.act f.p)]
  | .scld f => [⟨.v f.va, 2, false, (quarterLanes g (g.act f.p)).map fun l => (l, l)⟩]
  | .cpyIn f | .cpyOut f | .cpyr _ f => copyIdx f.x (g.act f.p)
  | .cpytOm f | .cpytSp f => if g.act f.p = 0 then [] else [⟨.v (f.x.getD 0), 1, false, (List.range 4).map fun l => (l, l)⟩]
  | .pipe f | .pipeH f => [⟨.v 0, f.live.val, false, (lanesOf (g.act f.p)).map fun l => (l, l)⟩]
  | _ =>
    match i.vsig with
    | some (sg, f) => vrSrcs sg f (g.act f.p)
    | none => []

def majorOf (w : W64) : Nat := fldN w 56 8

/-- A word raises a fault of decode before it reads any source (R74 positions 1 to 5); `i` is what it decodes to. -/
def faultsFirst (s : State) (g : Group) (w : W64) (i : Instr) : Bool :=
  (kMagic (s.kword g) == 0xC2 && newInCk3 (majorOf w)) || (preFault s g i).isSome
    || match i with | .idivs _ | .idivu _ => true | _ => false

/-- The wait that the presence rules ask of a group before its instruction, if any (R118, R130): none where the word raises a fault
of decode, which no EMPTY source holds back (R74). REFORM waits for every register lane (R111). -/
def srcWait (s : State) (g : Group) : Option Sleep :=
  match g.word?, g.instr? with
  | some w, some i =>
    if faultsFirst s g w i then none
    else if (match i with | .reform _ => anyOwed g | _ => false) then some .stall
    else if readSrcs s g true (Instr.srcs s g i) == .wait then some (waitKind s g (Instr.srcs s g i))
    else none
  | _, _ => none

/-- The presence rules let an instruction of a group read its sources, or raise the fault they ask for (R118). -/
def readable (s : State) (g : Group) : Bool := (srcWait s g).isNone

/-! ### Waits that end (R120, R241, R247, R309, R373) -/

/-- An access is over for TLBI: performed at `.pkg`, or written back where it has a destination (R373). -/
def Acc.settled (a : Acc) : Bool :=
  if a.isRmw && a.dst.isNone then a.performed 2 else a.fin || (a.isStore && a.stage != .held && a.written 2)

/-- No further chunk of a command lands (R337). -/
def Cmd.ended (c : Cmd) : Bool := c.fw == .losing || c.fw == .lost || c.fw == .lostReply || c.chunks.all (·.landed)

/-- One of the things a TLBI waits for is still under way. -/
def tlbiHeld (s : State) (id : Nat) : Bool :=
  (s.accs.any fun a => a.id == id && !a.settled)
    || (s.cmds.any fun c => c.id == id && !c.ended)
    || (s.mxops.any fun m => m.id == id && !m.over s) || (s.qmoves.any fun m => m.id == id)
    || s.dies.any fun d => d.2.walks.any fun w => w.id == id && !w.failed

/-- Every earlier write of the group is performed at `.pkg`. -/
def writesDone (s : State) (g : Group) : Bool :=
  s.accs.all fun a => !(a.isStore || a.isRmw) || a.performed 2 || !a.ofGroup g

/-- The object of a BARWAIT is not armed, or the phase it waits for has completed (R241). -/
def objOver (s : State) (g : Group) (f : FQ) : Bool :=
  match s.team? g.team with
  | some t =>
    let b := readObj t (objAt g f)
    b.st != 1 || wins b.phase ((g.rdSc f.a).toNat % 65536)
  | none => true

/-- What a group has been found to wait for in its instruction is there, as far as the machine's state says: barriers, the arrays,
translations, the iterations of its pipe. -/
def waitOver (s : State) (g : Group) : Bool :=
  match g.sleep, g.instr? with
  | .barrier, some (.barwait f) => objOver s g f
  | .barrier, some (.netarr f) => (netOf s g f).all fun n => !(n.arrived.any fun x => x.1 == g.gid)
  | .barrier, some (.netwait f) => (netOf s g f).all fun n => wins (seenGen (s.partOf g) n) ((g.rdSc f.a).toNat % 65536)
  | .barrier, some (.mxsync _) => !mxPending s g.preds
  | .barrier, some (.tlbiPage _) | .barrier, some (.tlbiRange _) | .barrier, some (.tlbiAll _) =>
    (match g.waitFor with | some ids => !ids.any (tlbiHeld s) | none => writesDone s g)
  | .window, some (.pjoin _) => (g.opened.bind fun n => (s.partOf g).pipe? n).all fun q => !joinWaits s q
  | _, _ => true

/-- A group is blocked inside a clause in a wait that makes it a swap candidate: a barrier, the arrays, a TLBI, PJOIN, or a window
read (R120). -/
def blockedIn (s : State) (g : Group) : Bool := g.entered && (!waitOver s g || srcWait s g == some .window)

end Sys2Proof.Machine
end

