-- ==== Sys2Proof/Machine/Sched.lean ====
section
/-!
DEFINITION. Clause entry and the group scheduler (R47 to R52, R116 to R123, R376, R416 to R418, R448): which group may issue,
places of the active set, glade draws, the umpire of a quad.
-/
namespace Sys2Proof.Machine

/-! ### Clause headers (R48, R49) -/

def cTag (h : W64) : Nat := fldN h 61 3
def cClass (h : W64) : Nat := fldN h 58 3
def cCount (h : W64) : Nat := fldN h 54 4
def cWait (h : W64) (n : Nat) : Bool := bitAt h (48 + n)
def cN (h : W64) : Bool := bitAt h 47
def cY (h : W64) : Bool := bitAt h 46
def cE (h : W64) : Bool := bitAt h 45

/-- The four working-set entries: first register and length; an entry of zeros is unused. -/
def cWs (h : W64) : List (Nat × Nat) :=
  ([33, 22, 11, 0].map fun b => (fldN h (b + 3) 8, fldN h b 3 + 1)).filter fun e => !(e.1 == 0 && e.2 == 1)

/-- The v registers of the working set. -/
def wsRegs (h : W64) : List Nat := ((cWs h).map fun e => (List.range e.2).map fun j => e.1 + j).flatten.eraseDups

/-- Class of a major (R32). -/
def classOf (m : Nat) : Nat :=
  if m < 0x60 then 0 else if m < 0x78 then 1 else if m < 0x90 then 4 else if m < 0xA0 then 2 else if m < 0xB0 then 3
  else if m < 0xBC then 0 else 5

/-- A terminal instruction by its major and minor alone (R51). DESIGN CHOICE (log entry 101): so it counts in the check of an entry
whatever its other fields hold. In a kernel of magic 0xC2 a major new in CK3 is no instruction (R79). -/
def isTerminal (magic : Nat) (w : W64) : Bool :=
  let m := majorOf w
  !(magic == 0xC2 && newInCk3 m) && ((m == 0x04 && decide (fldN w 32 4 < 10)) || (m == 0x05 && fldN w 32 4 == 0) || (m == 0x59 && fldN w 10 5 == 1)
    || (m == 0xBC && fldN w 20 4 == 1))

/-- A word may stand at a place of a clause of a class (R50 step 6). -/
def wordOk (magic cls : Nat) (w : W64) (last : Bool) : Bool :=
  let m := majorOf w
  decide (m < 0xE0) && (m == 0x04 || decide (0xC0 ≤ m) || classOf m == cls) && (!isTerminal magic w || last)

/-- Roles and classes (R18). -/
def roleOk (r : Role) (cls : Nat) : Bool :=
  match r with
  | .copy => cls != 2
  | .matrix => cls != 3
  | .vector => cls != 2 && cls != 3

/-! ### Fetch (R376, R448) -/

/-- A code word of a group through its core's code cache; a fresh fetch reads memory again. -/
def codeWord (s : State) (gid die core ctx va pa : Nat) (fresh : Bool) : State × W64 :=
  let c := s.core die core
  match (if fresh then none else c.code.find? fun x => x.ctx == ctx && x.va == va) with
  | some x => (s, x.word)
  | none =>
    let w := dieWord (readBy s gid) die pa
    ((pullBytes s ctx die pa 8).setCore die core { c with code := (c.code.filter fun x => !(x.ctx == ctx && x.va == va)) ++ [⟨ctx, va, w⟩] }, w)

/-- What fetching one word gives. -/
inductive Fetched where
  | word (w : W64)
  | miss
  | fault (c : FaultCode)
deriving DecidableEq, Repr

def fetchWord (s : State) (g : Group) (va : Nat) (fresh : Bool) : State × Fetched :=
  let r := xlate1 s g.die g.core g.ctx g.gid 0 va
  match r.2 with
  | .miss => (r.1, .miss)
  | .bad => (takeFailed r.1 g.die g.ctx g.gid [va], .fault .xlate)
  | .ok x =>
    if !bitAt x.leaf 7 || (bitAt x.leaf 8 && !g.sys) then (r.1, .fault .prot)
    else
      let c := codeWord r.1 g.gid g.die g.core g.ctx va x.pa fresh
      (c.1, .word c.2)

/-- The words of a clause after its header, each with its address; the lowest faulting word is reported. -/
def fetchWords (s : State) (g : Group) (fresh : Nat) : List Nat → State × List (Nat × Fetched)
  | [] => (s, [])
  | j :: r =>
    let va := g.hdr.toNat + 8 * (j + 1)
    let a := fetchWord s g va (fresh.testBit (j + 1))
    let b := fetchWords a.1 g fresh r
    (b.1, (va, a.2) :: b.2)

/-- The first word that no clause of the class may hold there, with its address. -/
def badWord (magic cls n : Nat) : List (Nat × W64) → Nat → Option (Nat × W64)
  | [], _ => none
  | (va, w) :: r, j => if wordOk magic cls w (j == n) then badWord magic cls n r (j + 1) else some (va, w)

/-! ### Clause entry -/

/-- An entry fault of a waiting group (R50, R375, R376). -/
def entryFault (s : State) (g : Group) (c : FaultCode) (addr : Nat) (word : W64) : State :=
  s.setGroup { g with trap := some ⟨c, BitVec.ofNat 64 addr, 0, word, 0, 0, g.hdr⟩, sleep := .awake }

/-- Energy reached the budget of the group's context (R371); all ones is no limit. -/
def overBudget (s : State) (g : Group) : Bool :=
  match s.ctx? g.ctx with
  | some c => c.budget != 2 ^ 64 - 1 && decide (c.budget ≤ c.energy)
  | none => false

/-- Current units of a vector clause (R416). -/
def clauseCu (ws : List W64) : Nat :=
  (ws.map fun w =>
    let m := majorOf w
    if (decide (0x10 ≤ m) && decide (m < 0x58)) || m == 0xB0 then 2 else if m == 0xB8 then 3 else 0).sum

/-- A request joins its quad's umpire (R416). -/
def request (s : State) (die core owner kind cu cls ctx : Nat) : State :=
  let q := s.quad die (core / 4)
  s.setQuad die (core / 4) { q with reqs := q.reqs ++ [⟨owner, kind, cu, cls, q.clk, ctx⟩] }

/-- A grant stands for an owner. -/
def granted (s : State) (die core owner kind : Nat) : Bool :=
  (s.quad die (core / 4)).granted.any fun x => x.1 == owner && x.2.1 == kind

/-- The cycle of an owner's grant. -/
def grantAt (s : State) (die core owner kind : Nat) : Nat :=
  (((s.quad die (core / 4)).granted.find? fun x => x.1 == owner && x.2.1 == kind).map (·.2.2)).getD 0

/-- What an owner asked of its umpire, and was granted, for a clause entry falls away where it leaves the entry without issuing (R416). -/
def dropClaim (s : State) (die core owner : Nat) : State :=
  let q := s.quad die (core / 4)
  s.setQuad die (core / 4) { q with reqs := q.reqs.filter fun r => !(r.owner == owner && r.kind == 0),
                                    granted := q.granted.filter fun x => !(x.1 == owner && x.2.1 == 0) }

/-- A grant is used. -/
def useGrant (s : State) (die core owner kind : Nat) : State :=
  let q := s.quad die (core / 4)
  s.setQuad die (core / 4) { q with granted := q.granted.filter fun x => !(x.1 == owner && x.2.1 == kind) }

/-- Main-file reads of a list of a group's registers counted by encoding (R432). -/
def countReads (s : State) (g : Group) (rs : List Nat) (p : Partn) : Partn :=
  rs.foldl (fun p n => match regEnc (fileLanes s g n) with
    | 0 => { p with rfUnif := p.rfUnif + 1 }
    | 1 => { p with rfBd8 := p.rfBd8 + 1 }
    | 2 => { p with rfBd16 := p.rfBd16 + 1 }
    | _ => { p with rfRaw := p.rfRaw + 1 }) p

/-- The working set of the clause a group stands in is filled: the registers not held take 4 a cycle (R120, R121). -/
def fillSet (s : State) (g : Group) (from_ : Nat) : State × Group :=
  match g.clause with
  | none => (s, g)
  | some c =>
    let ws := wsRegs c.head
    let new := ws.filter fun n => !g.fast.contains n
    (s.setPartOf g (countReads s g new (s.partOf g)), { g with fast := ws, fill := from_ + (new.length + 3) / 4 })

/-- A partition of a core is stopped that holds groups of a context, resident or filed in glades and draws (R427, R430). -/
def frozenOn (s : State) (ctx die core : Nat) : Bool :=
  (List.range 4).any fun j => (s.partn die core j).stop && holdsCtx s ctx die core j

/-- The teams of a context, those that a save has taken off their cores too. -/
def ctxTeams (s : State) (ctx : Nat) : List Team :=
  (s.teams.filter fun t => t.ctx == ctx) ++ (((s.ctx? ctx).map fun c => (c.saves.map (·.teams)).flatten).getD [])

/-- A context has a barrier partly arrived, on whichever core (R250). DESIGN CHOICE (log entry 135): at a network barrier the arrival of a
group that has since retired or vacated its slot does not count. -/
def partArrived (s : State) (ctx : Nat) : Bool :=
  ((ctxTeams s ctx).any fun t => t.bars.any fun o =>
    let b := readObj t o
    b.st == 1 && (b.arr != 0 || b.land != 0))
  || (s.nets.any fun n => n.arrived.any fun a =>
      ((s.anyGroup? a.1).map (·.ctx)) == some ctx
        || ((s.ctx? ctx).map fun c => c.saves.any fun r => r.groups.any fun g => g.gid == a.1) == some true)

/-- A save request of a context on a core is deferred: a barrier is partly arrived, or a partition stopped (R250, R430). -/
def deferred (s : State) (ctx die core : Nat) : Bool := partArrived s ctx || frozenOn s ctx die core

/-- Groups of a context stop at their stop points: the save is requested and nothing defers it, or it is forced or under
way (R250, R380). -/
def stopping (s : State) (ctx die core : Nat) : Bool :=
  match s.ctx? ctx with
  | none => false
  | some c => c.saves.any fun r => r.die == die && r.core == core &&
      (match r.st with
       | .requested => !deferred s ctx die core
       | .forced | .streaming => true
       | .resident | .saved => false)

/-- The group belongs to the context that runs on its core, and nothing holds it. -/
def live (s : State) (g : Group) : Bool :=
  (s.core g.die g.core).running == some g.ctx && ((s.ctx? g.ctx).bind (·.stopped)).isNone && !g.stopped && !g.retired && g.trap.isNone && (g.late.isEmpty || g.sys) && g.started && !(s.partOf g).stop

/-- The clause entered: fetched and checked, its working set filled where the group is active, a vector clause's request
made. -/
def enterClause (s : State) (g : Group) (h : W64) (ws : List W64) : State :=
  let g1 := { g with clause := some ⟨h, ws⟩, entered := false, sleep := .entry, tried := none, fast := if g.inSet then g.fast else [] }
  let r := if g.inSet then fillSet s g1 (s.clk g.die g.core) else (s, g1)
  let s1 := r.1.setGroup r.2
  let cu := if cClass h = 0 then clauseCu ws else 0
  if cu = 0 then s1 else request s1 g.die g.core g.gid 0 cu 0 g.ctx

/-- CLAUSE_ENTRY of a group. DEDUCED (log entry 20): a position that is no multiple of 8 raises FRAME as one outside the section
does. `fresh` bit j asks that word j be fetched anew though the code cache holds it (R448). -/
def execClauseEntry (gid fresh : Nat) (s : State) : Out :=
  match s.group? gid with
  | none => .next s
  | some g =>
    if g.clause.isSome || !live s g || cancelled s g || stopping s g.ctx g.die g.core then .next s
    else match s.team? g.team with
      | none => .next s
      | some t =>
        let h := g.hdr.toNat
        if h % 8 ≠ 0 || h < t.secLo || t.secHi < h + 8 then .next (entryFault s g .frame h 0)
        else
          let r0 := fetchWord s g h (fresh.testBit 0)
          match r0.2 with
          | .miss => .next r0.1
          | .fault c => .next (entryFault r0.1 g c h 0)
          | .word hw =>
            let n := cCount hw
            if t.secHi < h + 8 * (n + 2) then .next (entryFault r0.1 g .frame (h + 8 * (n + 1)) 0)
            else
              let r1 := fetchWords r0.1 g fresh (List.range (n + 1))
              match r1.2.find? fun x => match x.2 with | .word _ => false | _ => true with
              | some (va, .fault c) => .next (entryFault r1.1 g c va 0)
              | some _ => .next r1.1
              | none =>
                let ws := r1.2.filterMap fun x => match x.2 with | .word w => some (x.1, w) | _ => none
                if cTag hw ≠ 7 || 5 < cClass hw || bitAt hw 53 || bitAt hw 44
                    || (cWs hw).any fun e => decide (kVregs t.kword < e.1 + e.2) then
                  .next (entryFault r1.1 g .frame h hw)
                else match badWord (kMagic t.kword) (cClass hw) n ws 0 with
                  | some (va, w) => .next (entryFault r1.1 g .frame va w)
                  | none =>
                    if !roleOk g.role (cClass hw) then .next (entryFault r1.1 g .role h 0)
                    else if !g.sys && overBudget r1.1 g then .next (entryFault r1.1 g .budget 0 0)
                    else .next (enterClause r1.1 g hw (ws.map (·.2)))

/-! ### Wait conditions (R48) -/

/-- A command holds its entry of the issue queue (R314). -/
def Cmd.inQueue (c : Cmd) : Bool := !c.handed && !(c.chunks.all (·.counted) && (!c.cmp || c.recorded))

/-- Free entries of the copy issue queue of a core, which holds 32 commands (R314). -/
def copyFree (s : State) (die core : Nat) : Nat :=
  32 - (s.cmds.filter fun c => c.die == die && c.core == core && c.inQueue).length

/-- Instructions of a clause that take an entry (R314). -/
def copyCount (ws : List W64) : Nat := (ws.filter fun w => decide (0xA0 ≤ majorOf w) && decide (majorOf w ≤ 0xA2)).length

/-- The wait conditions of the clause a group stands before hold; an SLD that ended the clause before has its value (R48,
R181). -/
def waitsHold (s : State) (g : Group) (c : Clause) : Bool :=
  let h := c.head
  g.sld.isNone && (!cWait h 0 || (wsRegs h).all fun n => (List.range 32).all fun l => !(g.laneV n l).empty)
    && (!cWait h 1 || s.accs.all fun a => !(a.isStore && !a.isSpad && a.ofGroup g && decide (a.stage.rank < 2)))
    && (!cWait h 2 || !mxPending s g.preds)
    && (!cWait h 3 || decide (copyCount c.words ≤ copyFree s g.die g.core))
    && (!cWait h 4 || (s.accs.all fun a => !((a.isLoad || (a.isRmw && a.dst.isSome)) && a.ofGroup g && !a.fin))
        && s.qmoves.all fun m => !(m.kind == .deq && g.preds.any fun p => p.1 == m.gid))

/-! ### Readiness (R118 to R120) -/

/-- The group stands before a clause it has fetched. -/
def Group.atEntry (g : Group) : Bool := g.clause.isSome && !g.entered

/-- Asleep until something else wakes it. -/
def dormant (g : Group) : Bool :=
  match g.sleep with
  | .waitl _ _ | .full _ | .empty _ => true
  | _ => false

/-- Its instruction may be tried again: it has not been found to wait, or something has changed since; an in-clause stall may also
end with time. -/
def anew (s : State) (g : Group) : Bool :=
  match g.tried with
  | none => true
  | some (c, t) => c != s.changes || (g.sleep == .stall && t != s.clk g.die g.core)

/-- The group may be tried: it stands in a clause, nothing holds it, its instruction's sources are readable, and what it was found to
wait for is there (R118). A cancelled iteration performs no instruction that it is to abandon (R225, R271). -/
def mayTry (s : State) (g : Group) : Bool :=
  live s g && g.clause.isSome && !dormant g && anew s g && decide (g.stall ≤ s.clk g.die g.core)
    && (match g.clause with
        | some c => if g.entered then readable s g && waitOver s g && !(cancelled s g && abandons g) else (waitsHold s g c && !stopping s g.ctx g.die g.core && !cancelled s g
            && (cClass c.head != 0 || clauseCu c.words == 0 || granted s g.die g.core g.gid 0))
        | none => false)

/-- An active group is ready. -/
def ready (s : State) (g : Group) : Bool := g.inSet && mayTry s g && decide (g.fill ≤ s.clk g.die g.core)

/-- Of the halves of one slot, the one ready first comes first, then half 0; a half not yet counted ready comes last (R207). -/
def halfFirst (a b : Group) : Bool :=
  match a.ready, b.ready with
  | some x, some y => decide (x < y) || (x == y && decide (a.half.getD 0 ≤ b.half.getD 0))
  | some _, none => true
  | none, some _ => false
  | none, none => decide (a.half.getD 0 ≤ b.half.getD 0)

/-- Older: the earlier age, then the lower slot (R118). -/
def older (a b : Group) : Bool := decide (a.age < b.age) || (a.age == b.age && decide (a.slot ≤ b.slot))

/-- Among some groups, a half of a slot that the other half goes before (R207). -/
def behind (gs : List Group) (g : Group) : Bool :=
  gs.any fun h => h.gid != g.gid && sameSlot g h && halfFirst h g && !halfFirst g h

def oldest : List Group → Option Group
  | [] => none
  | g :: r =>
    match oldest r with
    | none => some g
    | some h => if older g h then some g else some h

/-- The group that the issue slot goes to, of those that may take it: the oldest, of the two halves of a slot the first (R119, R207). -/
def firstOf (gs : List Group) : Option Group := oldest (gs.filter fun g => !behind gs g)

def State.onPart (s : State) (p : PartId) : List Group :=
  s.groups.filter fun g => g.die == p.die && g.core == p.core && g.part == p.part

/-- Ready for 64 cycles without issuing (R119). -/
def starving (s : State) (g : Group) : Bool :=
  ready s g && (match g.ready with | some c => decide (c + 64 ≤ s.clk g.die g.core) | none => false)

/-- The other half of a group's slot holds the turn and is ready; while it is not, this half takes the turns (R207). -/
def halfBlocked (s : State) (g : Group) : Bool :=
  s.groups.any fun h => h.gid != g.gid && sameSlot g h && h.holds && ready s h

/-- The other half of a group's slot holds the turn. -/
def otherHolds (s : State) (g : Group) : Bool := s.groups.any fun h => h.gid != g.gid && sameSlot g h && h.holds

/-- A group passes a clause entry, which a translation swapped out may wait for (R415). -/
def passEntry (s : State) (gid : Nat) : State :=
  { s with transl := s.transl.map fun t => { t with wait := t.wait.map fun l => l.filter fun x => x != gid } }

/-- The group takes the issue slot; a clause it stands before is entered, its grant used. -/
def takeSlot (s : State) (g : Group) : State :=
  let s1 := if g.entered then s else passEntry (useGrant s g.die g.core g.gid 0) g.gid
  select s1 { g with entered := true, holds := g.half.isSome && !otherHolds s g, nHold := none, sleep := if g.sleep == .entry || g.sleep == .passed then .awake else g.sleep }

/-- The group of a partition that the issue slot goes to: the oldest ready active group; one that starves comes first (R118, R119).
DESIGN CHOICE (log entry 119): a half that starves comes first also while the other half of its slot holds the turn. -/
def chosen (s : State) (p : PartId) : Option Group :=
  match firstOf ((s.onPart p).filter (starving s)) with
  | some g => some g
  | none => firstOf ((s.onPart p).filter fun g => ready s g && !halfBlocked s g)

/-- ISSUE_CYCLE: the chosen group of a partition takes the slot. -/
def execIssueCycle (p : PartId) (s : State) : Out :=
  let q := s.partn p.die p.core p.part
  if s.focus.isSome || q.stop || q.lastIssue == some (s.clk p.die p.core) || s.clk p.die p.core < q.busy then .next s
  else match chosen s p with
    | some g => .next (takeSlot s g)
    | none => .next s

/-- STARVATION_GUARD: the oldest active group that has been ready for 64 cycles takes the slot (R119). -/
def execStarvationGuard (p : PartId) (s : State) : Out :=
  let q := s.partn p.die p.core p.part
  if s.focus.isSome || q.stop || q.lastIssue == some (s.clk p.die p.core) || s.clk p.die p.core < q.busy then .next s
  else match firstOf ((s.onPart p).filter (starving s)) with
    | some g => .next (takeSlot s g)
    | none => .next s

/-! ### Places of the active set (R120, R121) -/

/-- NO_SWAP_EXPIRY: the hold of an N clause ends. -/
def execNoSwapExpiry (gid : Nat) (s : State) : Out :=
  match s.group? gid with
  | none => .next s
  | some g =>
    match g.nHold with
    | some c => if c ≤ s.clk g.die g.core then .next (s.setGroup { g with nHold := none }) else .next s
    | none => .next s

/-- A load of the group that missed L1 has not written back. -/
def missPending (s : State) (g : Group) : Bool := s.accs.any fun a => a.isLoad && a.miss && !a.fin && a.gid == some g.gid

/-- A swap candidate (R120): waiting at a clause entry, at one with a load that missed L1, asleep on a queue or a line, or in one of
the other waits that may stand inside a clause. -/
def candidate (s : State) (g : Group) : Bool :=
  match g.sleep with
  | .full _ | .empty _ | .waitl _ _ => true
  | _ => blockedIn s g || !g.entered && g.nHold.isNone && (missPending s g || match g.clause with
    | some c => !waitsHold s g c
    | none => false)

/-- The halves of a slot together, or the group alone (R207). -/
def slotMates (s : State) (g : Group) : List Group :=
  s.groups.filter fun h => h.die == g.die && h.core == g.core && h.part == g.part && h.slot == g.slot && h.ctx == g.ctx
    && (h.gid == g.gid || (h.half.isSome && g.half.isSome))

/-- Active slots of a partition. -/
def activeSlots (s : State) (g : Group) : Nat :=
  ((s.groups.filter fun h => h.die == g.die && h.core == g.core && h.part == g.part && h.inSet && h.ctx == g.ctx).map
    (·.slot)).eraseDups.length

/-- A pending group ready but for its working set, which is filled once it has a place (R118, R120): at a clause fetched and
checked whose wait conditions hold, or inside one with readable sources. DESIGN CHOICE (log entry 127): one at a vector clause whose
umpire grant is outstanding (R416) is not ready. -/
def pendingReady (s : State) (g : Group) : Bool := !g.inSet && mayTry s g

def oldestPending (s : State) (g : Group) : Option Group :=
  oldest (s.groups.filter fun h => h.die == g.die && h.core == g.core && h.part == g.part && pendingReady s h)

/-- A slot's groups enter the active set, their working sets filled from a cycle on; a half that is there already stays as it is. -/
def enterSet (s : State) (g : Group) (from_ : Nat) : State :=
  ((slotMates s g).filter fun h => !h.inSet).foldl (fun s h =>
    let r := fillSet s { h with inSet := true, fast := [], stall := max h.stall from_ } from_
    r.1.setGroup r.2) s

def leaveSet (s : State) (g : Group) : State :=
  (slotMates s g).foldl (fun s h => s.setGroup { h with inSet := false, fast := [] }) s

/-- GROUP_SWAP: a candidate is exchanged with the oldest ready pending group; 4 cycles, then the fill. -/
def execGroupSwap (out inn : Nat) (s : State) : Out :=
  match s.group? out, s.group? inn with
  | some a, some b =>
    if a.inSet && live s a && (slotMates s a).all (candidate s) && a.die == b.die && a.core == b.core && a.part == b.part
        && (oldestPending s a).map (·.gid) == some inn then
      .next (enterSet (leaveSet s a) b (s.clk a.die a.core + 4))
    else .next s
  | _, _ => .next s

/-- VACANCY_FILL: the oldest ready pending group enters a vacant place, or that which its slot's other half has. -/
def execVacancyFill (gid : Nat) (s : State) : Out :=
  match s.group? gid with
  | none => .next s
  | some g =>
    if (oldestPending s g).map (·.gid) == some gid && (decide (activeSlots s g < 8) || (slotMates s g).any (·.inSet)) then .next (enterSet s g (s.clk g.die g.core))
    else .next s

/-! ### Glades (R116) -/

def allParts : List PartId :=
  ((List.range 4).map fun d => ((List.range 48).map fun c => (List.range 4).map fun p => (⟨d, c, p⟩ : PartId)).flatten).flatten

/-- The partitions that hold something. -/
def State.partIds (s : State) : List PartId := s.parts.map fun x => ⟨x.1 / 192, x.1 / 4 % 48, x.1 % 4⟩

/-- AGE as it acts in a cycle: a write of this cycle acts from the next (R117). -/
def Partn.ageNow (q : Partn) (clk : Nat) : W32 := if clk ≤ q.ageAt then q.ageOld else q.age

/-- GLADE_AGE_EXPIRY: a glade whose first thread has waited more than AGE cycles is drawn. -/
def execGladeAgeExpiry (glade : Nat) (s : State) : Out :=
  match s.partIds.find? fun p => (s.partn p.die p.core p.part).glades.any fun x => x.id == glade with
  | none => .next s
  | some p =>
    let q := s.partn p.die p.core p.part
    match q.glades.find? fun x => x.id == glade with
    | none => .next s
    | some x =>
      if q.stop || s.clk p.die p.core ≤ x.since + (q.ageNow (s.clk p.die p.core)).toNat then .next s
      else .next (s.setPartn p.die p.core p.part (drawGlade q x))

/-- Nobody has taken a vacancy of a team: no group stands there, no pipe has the slot, no other team's draws hold it; and one that
EXIT left free has its register space still, or the slot's other half has it, with its threads or held for the team's draws (R12, R111,
R116, R209). -/
def openPlace (s : State) (p : PartId) (q : Partn) (ctx : Nat) (v : Vacancy) : Bool :=
  !(s.allGroups.any fun g => g.ctx == ctx && g.die == p.die && g.core == p.core && g.part == p.part && g.slot == v.slot
      && (g.half.isNone || v.half.isNone || g.half == v.half || g.team != v.team))
    && !(q.pipes.any fun x => x.ctx == ctx && (x.slot == v.slot || (!x.spent && x.spare.contains v.slot)))
    && !(q.vacant.any fun u => u.slot == v.slot && u.team != v.team && u.held && ((s.team? u.team).map (·.ctx)) == some ctx
      && drawsLeft q u.team)
    && (v.held || (s.allGroups.any fun g => g.ctx == ctx && g.die == p.die && g.core == p.core && g.part == p.part && g.slot == v.slot)
      || (q.vacant.any fun u => u.slot == v.slot && u.team == v.team && u.held && drawsLeft q u.team)
      || decide ((((s.team? v.team).map fun t => kVregs t.kword)).getD 0 ≤ regRoom s ctx p.die p.core p.part))

/-- The vacant place of a team with the lowest index (R116, R209). -/
def drawPlace (s : State) (p : PartId) (q : Partn) (gl : Glade) : Option Vacancy :=
  let free := q.vacant.filter fun v => v.team == gl.team && openPlace s p q gl.ctx v
  free.foldl (fun (r : Option Vacancy) v => match r with
    | none => some v
    | some u => if v.grp < u.grp then some v else some u) none

/-- A group joins its slot: where the slot's other half has a place of the active set, it has that place too (R207). -/
def joinSlot (s : State) (g : Group) : Group := { g with inSet := g.inSet || (slotMates s g).any (·.inSet) }

/-- DRAWN_GROUP_PLACE. -/
def execDrawnGroupPlace (draw : Nat) (s : State) : Out :=
  match s.partIds.find? fun p => (s.partn p.die p.core p.part).draws.any fun x => x.id == draw with
  | none => .next s
  | some p =>
    let q := s.partn p.die p.core p.part
    match q.draws.find? fun x => x.id == draw with
    | none => .next s
    | some d =>
      match drawPlace s p q d.glade with
      | none => .next s
      | some v =>
        if q.stop then .next s
        else
          let g := joinSlot s (drawnGroup s s.nextId p.die p.core p.part v d.glade)
          let s1 := s.setPartn p.die p.core p.part { q with draws := q.draws.filter fun x => x.id != draw,
                                                            vacant := q.vacant.filter fun u => u != v }
          .next (netRise { s1 with groups := s1.groups ++ [g], nextId := s1.nextId + 1 } g)

/-! ### The umpire (R417, R418) -/

def umpRate (c : W64) : Nat := fldN c 32 16
def umpCap (c : W64) : Nat := fldN c 16 16
def umpAge (c : W64) : Nat := fldN c 0 10

/-- Insertion of a request by arrival. -/
def insReq (r : UReq) : List UReq → List UReq
  | [] => [r]
  | x :: t => if r.since < x.since then r :: x :: t else x :: insReq r t

def byArrival (l : List UReq) : List UReq := l.foldl (fun a r => insReq r a) []

/-- The candidates in order: those past AGELIM, oldest first, then each class in arrival order. -/
def umpOrder (q : Quad) (ok : UReq → Bool) : List UReq :=
  let rs := byArrival (q.reqs.filter ok)
  let old := fun (r : UReq) => decide (r.since + umpAge q.umpcfg < q.clk)
  rs.filter old ++ ((List.range 3).map fun c => rs.filter fun r => !old r && r.cls == c).flatten

/-- Grants in order until one does not fit; the balance is in 1/256 CU. -/
def umpGrant (cap : Nat) : Nat → List UReq → Int → List UReq → Int × List UReq
  | 0, _, b, got => (b, got)
  | _ + 1, [], b, got => (b, got)
  | n + 1, r :: rest, b, got =>
    if r.cu ≤ cap && decide (256 * (r.cu : Int) ≤ b) then umpGrant cap n rest (b - 256 * r.cu) (got ++ [r])
    else if cap < r.cu && decide (b = 256 * (cap : Int)) then umpGrant cap n rest (b - 256 * r.cu) (got ++ [r])
    else (b, got)

def isPass (k : MxKind) : Bool := k == .mmq || k == .mmqx || k == .phmma

/-- An operation of a core that goes before another on the arrays: an earlier one of its context, or a pass of another context
that has started (R310, R380). -/
def ahead (x m : MxOp) : Bool :=
  x.die == m.die && x.core == m.core && x.id != m.id && (if x.ctx == m.ctx then decide (x.id < m.id) else isPass x.kind && x.running)

/-- It has no further cycle on the arrays of another operation after a cycle: it has ended there, or is a pass without outliers in
its last compute cycle; an earlier wave of the same instruction has computed (R291, R310). -/
def clearedBy (x m : MxOp) (clk : Nat) : Bool :=
  (isPass x.kind && x.running && decide (x.till ≤ clk) && x.qs.all fun q => q.outm == 0)
    || ((x.qs.all fun q => q.done || !(m.qs.any fun y => y.arr == q.arr)) && (x.first != m.first || x.dense || !isPass x.kind))

/-- A pass may be granted: its context runs, and its arrays are free in the next cycle (R289, R310). -/
def passOpen (s : State) (m : MxOp) (clk : Nat) : Bool :=
  (s.core m.die m.core).running == some m.ctx && s.mxops.all fun x => !ahead x m || clearedBy x m clk

/-- A request may be granted: not one of a vector clause of a frozen partition (R430), nor one of a pass that could not start
(R310). -/
def reqOpen (s : State) (r : UReq) (clk : Nat) : Bool :=
  match r.kind with
  | 0 => (match s.anyGroup? r.owner with | some g => !(s.partOf g).stop | none => true)
  | 2 => (match s.mxops.find? fun m => m.id == r.owner with | some m => passOpen s m clk | none => true)
  | _ => true

/-- The cycle since which a group has been ready without issuing. -/
def noteReady (s : State) (die quad : Nat) : State :=
  { s with groups := s.groups.map fun g =>
      if g.die == die && g.core / 4 == quad then
        if ready s g then (match g.ready with | some _ => g | none => { g with ready := some (s.clk die g.core) })
        else { g with ready := none }
      else g }

/-- UMPIRE_CYCLE: one cycle of a quad's clock: refill, grants (requests of this cycle wait for the next), and the readiness
of its groups. -/
def execUmpireCycle (die quad : Nat) (s : State) : Out :=
  let q0 := s.quad die quad
  let q := { q0 with clk := q0.clk + 1 }
  let cap := umpCap q.umpcfg
  let b := min (256 * (cap : Int)) (q.bal + (umpRate q.umpcfg * s.ffac : Nat))
  let live := q.reqs.filter fun r => r.kind != 0 || (s.anyGroup? r.owner).isSome
  let r := umpGrant cap 8 (umpOrder { q with reqs := live } fun r => decide (r.since < q.clk) && reqOpen s r q.clk) b []
  let q1 := { q with bal := r.1, reqs := live.filter fun x => !r.2.contains x,
                     granted := q.granted ++ r.2.map fun x => (x.owner, x.kind, q.clk),
                     spent := r.2.foldl (fun m x => SMap.set 0 m x.ctx (SMap.get 0 m x.ctx + x.cu)) q.spent }
  if die < 4 && quad < 12 then .next (noteReady (s.setQuad die quad q1) die quad) else .next s

end Sys2Proof.Machine
end

