-- ==== Sys2Proof/Machine/Matrix.lean ====
section
/-!
DEFINITION. Matrix instructions, majors 0x90 to 0x9D (R289 to R313), and the steps of the arrays: passes, outliers, array
cycles, tiles read and written.
-/
namespace Sys2Proof.Machine

/-! ### Frames (R12, R289) -/

def blankFrame (ctx : Nat) : Frame :=
  { ctx := ctx, first := 0, wide := false, owner := [], tags := [], slots := [], badSlot := [],
    arrays := [none, none, none, none], tiles := [], badTile := [] }

/-- What a context holds on a core. -/
def State.frame (s : State) (die core ctx : Nat) : Frame :=
  match (s.core die core).frames.find? fun f => f.ctx == ctx with
  | some f => f
  | none => blankFrame ctx

def State.setFrame (s : State) (die core : Nat) (f : Frame) : State :=
  let c := s.core die core
  if c.frames.any fun x => x.ctx == f.ctx then
    s.setCore die core { c with frames := c.frames.map fun x => if x.ctx == f.ctx then f else x }
  else s.setCore die core { c with frames := c.frames ++ [f] }

def State.frameOf (s : State) (g : Group) : Frame := s.frame g.die g.core g.ctx

/-- Slots of a context (R289). -/
def Frame.count (f : Frame) : Nat := if f.wide then 192 else 64

def Frame.holder (f : Frame) (slot : Nat) : Option Nat := SMap.get none f.owner slot

/-- A slot that has not been filled. -/
def noTag : SlotTag := ⟨0, false, false, false⟩
def Frame.tag (f : Frame) (slot : Nat) : SlotTag := SMap.get noTag f.tags slot

def Frame.byte (f : Frame) (slot off : Nat) : Byte × Bad :=
  (SMap.get 0 f.slots (2048 * slot + off), SMap.get .ok f.badSlot (2048 * slot + off))
def Frame.putByte (f : Frame) (slot off : Nat) (b : Byte) (bad : Bad) : Frame :=
  { f with slots := SMap.set 0 f.slots (2048 * slot + off) b, badSlot := SMap.set .ok f.badSlot (2048 * slot + off) bad }
def Frame.putBytes (f : Frame) (slot off : Nat) : List (Byte × Bad) → Frame
  | [] => f
  | x :: r => (f.putByte slot off x.1 x.2).putBytes slot (off + 1) r

/-- Key of element (i, j) of tile z of an array. -/
def tileKey (arr z i j : Nat) : Nat := ((arr * 16 + z) * 16 + i) * 16 + j

def Frame.tile (f : Frame) (arr z i j : Nat) : W32 × Bad :=
  (SMap.get 0 f.tiles (tileKey arr z i j), SMap.get .ok f.badTile (tileKey arr z i j))
def Frame.putTile (f : Frame) (arr z i j : Nat) (x : W32) (bad : Bad) : Frame :=
  { f with tiles := SMap.set 0 f.tiles (tileKey arr z i j) x, badTile := SMap.set .ok f.badTile (tileKey arr z i j) bad }

/-- The pairs (i, j) of a tile. -/
def tilePairs : List (Nat × Nat) := ((List.range 16).map fun i => (List.range 16).map fun j => (i, j)).flatten

/-- A tile set to +0. -/
def Frame.zeroTile (f : Frame) (arr z : Nat) : Frame :=
  let out := fun (k : Nat) => k / 256 != arr * 16 + z
  { f with tiles := f.tiles.filter fun x => out x.1, badTile := f.badTile.filter fun x => out x.1 }

/-- Every tile of an array set to +0. -/
def Frame.zeroArray (f : Frame) (arr : Nat) : Frame :=
  { f with tiles := f.tiles.filter fun x => x.1 / 4096 != arr, badTile := f.badTile.filter fun x => x.1 / 4096 != arr }

/-! ### Arrays and slots of a team (R290, R292) -/

/-- Arrays a team holds, in increasing physical order: logical numbers 0, 1, …. -/
def Frame.arraysOf (f : Frame) (team : Nat) : List Nat := (List.range 4).filter fun a => f.arrays.getD a none == some team

def maskOnes (b : Bool) : W32 := if b then ones32 else 0

def execMxacq (n : Fin 4) (f : FX) (s : State) : Out :=
  issue (.mxacq n f) s fun g =>
    if g.act f.p = 0 then done s
    else
      let fr := s.frameOf g
      let want := n.val + 1
      let mine := fr.arraysOf g.team
      let free := (List.range 4).filter fun a => fr.arrays[a]? == some none
      if !mine.isEmpty then done (s.modG fun h => h.wrK f.z.toNat (maskOnes (decide (want ≤ mine.length))))
      else if want ≤ free.length then
        let take := free.take want
        let fr1 := take.foldl (fun (fr : Frame) a => { fr.zeroArray a with arrays := fr.arrays.set a (some g.team) }) fr
        done ((s.setFrame g.die g.core fr1).modG fun h => h.wrK f.z.toNat ones32)
      else done (s.modG fun h => h.wrK f.z.toNat 0)

/-- A team gives up its arrays. -/
def Frame.dropArrays (f : Frame) (team : Nat) : Frame :=
  (f.arraysOf team).foldl (fun (f : Frame) a => { f.zeroArray a with arrays := f.arrays.set a none }) f

/-- Operations of a team under way. -/
def teamBusy (s : State) (team : Nat) : Bool := s.mxops.any fun m => m.team == team && !m.over s

def execMxrel (f : FX) (s : State) : Out :=
  issue (.mxrel f) s fun g =>
    if g.act f.p = 0 then done s
    else if teamBusy s g.team then waits s .stall
    else done (s.setFrame g.die g.core ((s.frameOf g).dropArrays g.team))

def execTclaim (n : Fin 16) (f : FX) (s : State) : Out :=
  issue (.tclaim n f) s fun g =>
    if g.act f.p = 0 then done s
    else
      let fr := s.frameOf g
      let want := n.val + 1
      let free := ((List.range fr.count).filter fun t => fr.holder t == none).take want
      let lanes := List.range want
      if free.length < want then done (s.modG fun h => h.wrK f.z.toNat 0)
      else if dstBusy s g (.v f.va) 1 lanes then waits s .stall
      else
        let fr1 := free.foldl (fun (fr : Frame) t =>
          { fr with owner := SMap.set none fr.owner t (some g.team), tags := SMap.set noTag fr.tags t noTag }) fr
        done ((s.setFrame g.die g.core fr1).modG fun h =>
          (h.putLanes f.va.toNat false (fun l => free.getD l 0) lanes).wrK f.z.toNat ones32)

/-- A slot a team may not name. -/
def Frame.badRef (f : Frame) (team slot : Nat) : Bool := decide (f.count ≤ slot) || f.holder slot != some team

/-- The value of a v register in a lane. -/
def vAt (g : Group) (n : BitVec 8) (l : Nat) : Nat := (g.laneV n.toNat l).val.toNat

/-- Some issued operation of the context reads or writes a slot of a list (R292). -/
def slotsBusy (s : State) (ctx die core : Nat) (slots : List Nat) : Bool :=
  (s.mxops.any fun m => m.ctx == ctx && m.die == die && m.core == core && !m.over s
    && (m.kind == .mmq || m.kind == .mmqx || m.kind == .phmma)
    && m.qs.any fun q => slots.contains q.sa || slots.contains q.sb)
  || s.cmds.any fun c => c.ctx == ctx && c.die == die && c.core == core && c.kind == .cpytOm && slots.contains c.slot

def execTfree (f : FX) (s : State) : Out :=
  issue (.tfree f) s fun g =>
    let m := g.act f.p
    withSrcs (.tfree f) s g false [srcAt (.v f.va) false false m] fun s1 =>
      let fr := s.frameOf g
      let slots := (lanesOf m).map (vAt g f.va)
      match (lanesOf m).filter fun l => fr.badRef g.team (vAt g f.va l) with
      | l :: r => raise s (.tfree f) .slot (BitVec.ofNat 64 (vAt g f.va l)) (maskWhere (l :: r) fun _ => true) 0
      | [] =>
        if slotsBusy s g.ctx g.die g.core slots then waits s .stall
        else done (s1.setFrame g.die g.core (slots.foldl (fun (fr : Frame) t =>
          { fr with owner := SMap.set none fr.owner t none, tags := SMap.set noTag fr.tags t noTag }) fr))

def execTfill (mid pl4 : Bool) (u : BitVec 5) (f : FX) (s : State) : Out :=
  issue (.tfill mid pl4 u f) s fun g =>
    let m := g.act f.p
    withSrcs (.tfill mid pl4 u f) s g false [srcAt (.v f.va) false false m, srcAt (.v f.vb) false false m] fun s1 =>
      match lanesOf m with
      | [] => done s1
      | l :: r =>
        let slot := vAt g f.va l
        let fr := s.frameOf g
        if r.any fun x => vAt g f.va x != slot then raise s (.tfill mid pl4 u f) .qnonuni (BitVec.ofNat 64 slot) m 0
        else if fr.badRef g.team slot then raise s (.tfill mid pl4 u f) .slot (BitVec.ofNat 64 slot) m 0
        else
          let fr1 := (l :: r).foldl (fun (fr : Frame) x =>
            fr.putBytes slot (64 * u.toNat + 4 * x) (okBytes (leBytes 4 (vAt g f.vb x)))) fr
          done (s1.setFrame g.die g.core { fr1 with
            tags := SMap.set noTag fr1.tags slot ⟨f.tA.code, pl4, mid, true⟩ })

/-! ### Scale registers (R295) -/

/-- Code n of scale register r of a quarter. -/
def Group.xCode (g : Group) (q r n : Nat) : Byte := SMap.get 0x7F g.x ((q * 8 + r) * 64 + n)

/-- Physical quarters of a group that act, and their lanes (R291, R313). -/
def quarterOf (g : Group) (l : Nat) : Nat := l / 8 + 2 * g.half.getD 0
def actQs (g : Group) (m : W32) : List Nat := ((lanesOf m).map (quarterOf g)).eraseDups
def qLanes (g : Group) (q : Nat) : List Nat := (List.range g.width).filter fun l => quarterOf g l == q
def qAct (g : Group) (m : W32) (q : Nat) : List Nat := (qLanes g q).filter fun l => m.getLsbD l

def execScld (f : FX) (s : State) : Out :=
  issue (.scld f) s fun g =>
    let qs := actQs g (g.act f.p)
    let lanes := (qs.map (qLanes g)).flatten
    withSrcs (.scld f) s g false [⟨.v f.va, 2, false, lanes.map fun l => (l, l)⟩] fun s1 =>
      let x := lanes.foldl (fun x l =>
        let bs := leBytes 4 (vAt g f.va l) ++ leBytes 4 (vAt g (f.va + 1) l)
        ((List.range 8).zip bs).foldl (fun x b =>
          SMap.set 0x7F x ((quarterOf g l * 8 + f.xa.toNat) * 64 + 8 * (l % 8) + b.1) b.2) x) g.x
      done (s1.modG fun h => { h with x := x })

/-! ### Faults of the instructions that act per quarter (R299) -/

/-- The lanes of a list of quarters. -/
def qMask (g : Group) (qs : List Nat) : W32 := maskWhere ((qs.map (qLanes g)).flatten) fun _ => true

/-- The first check of a list that some quarter fails: its fault, the address of the lowest such quarter, the quarters. -/
def qFault (qs : List Nat) : List (FaultCode × (Nat → Option Nat)) → Option (FaultCode × Nat × List Nat)
  | [] => none
  | (c, t) :: r =>
    match qs.filter fun q => (t q).isSome with
    | q :: more => some (c, (t q).getD 0, q :: more)
    | [] => qFault qs r

/-- A value in the lowest acting lane of a quarter. -/
def qVal (g : Group) (m : W32) (v : Nat → Nat) (q : Nat) : Nat := v ((qAct g m q).headD 0)

/-- A value that differs within a quarter. -/
def qDiffers (g : Group) (m : W32) (v : Nat → Nat) (q : Nat) : Bool :=
  (qAct g m q).any fun l => v l != qVal g m v q

/-- Entries of an array's queue of 8 that a context has taken: that of another stays with its frame (R310, R380). -/
def queued (s : State) (ctx die core arr : Nat) : Nat :=
  ((s.mxops.filter fun m => m.ctx == ctx && m.die == die && m.core == core).map fun m =>
    (m.qs.filter fun q => q.arr == arr && !q.done).length).sum

/-- Room for an instruction's quarters in the queues of their arrays. -/
def queueRoom (s : State) (g : Group) (arrs : List Nat) : Bool :=
  arrs.all fun a => decide (queued s g.ctx g.die g.core a + (arrs.filter fun b => b == a).length ≤ 8)

/-- Array of a quarter (R291). -/
def arrayOf (arrs : List Nat) (ab q : Nat) : Nat := arrs.getD ((ab + q) % arrs.length) 0

def blankQ (q arr : Nat) : MxQ :=
  { q := q, arr := arr, sa := 0, sb := 0, tagA := noTag, tagB := noTag, pa := 0, pb := 0, xa := [], xb := [], outl := 0,
    outm := 0, outs := 0, ents := [], base := 0, pitch := 0, pas := [], rows := [], data := [], bad := [], done := false }

def blankOp (i : Instr) (g : Group) (kind : MxKind) (z : Nat) : MxOp :=
  { id := 0, kind := kind, gid := g.gid, preds := g.preds, seq := 0, first := 0, ctx := g.ctx, die := g.die, core := g.core,
    team := g.team, z := z, tA := .s32, tB := .s32, nbv := g.nbv, sc := false, g := false, add := false, zr := false,
    acq := false, rel := false, scope := .core, qs := [], running := false, till := 0, dense := false, units := [],
    hdr := g.hdr, idx := g.idx, word := encode i }

/-- An operation joins the queues and requests its current (R310, R416); `first` is the first wave of its instruction. -/
def addOp (s : State) (m : MxOp) (first kind cu : Nat) : State :=
  let id := s.nextId
  request { s with mxops := s.mxops ++ [{ m with id := id, seq := id, first := first }], nextId := id + 1 } m.die m.core id kind cu 2 m.ctx

/-! ### Products (R300 to R304) -/

/-- Current units of one array of a pass (R416). -/
def passCu (kind : MxKind) (t : Ty) (pp : Nat) : Nat :=
  match kind with
  | .phmma => 12
  | _ => match t with
    | .e4 | .e5 => 20
    | .bp8 => if pp ≤ 16 then 24 else 16
    | _ => 16

/-- Planes of a view: 0 names all that are stored (R297). -/
def viewOf (p : BitVec 3) (t : SlotTag) : Nat := if p = 0 then tagPl t else p.toNat + 1

/-- FMTATTR of one quarter's slots (R299). -/
def fmtBad (fr : Frame) (f : FX) (pa pb : BitVec 3) (a b : Nat) : Option Nat :=
  let ta := fr.tag a
  let tb := fr.tag b
  if !ta.filled || ta.fmt != f.tA.code then some a
  else if !tb.filled || tb.fmt != f.tB.code then some b
  else if f.tA == .bp8 && decide (tagPl ta < viewOf pa ta) then some a
  else if f.tB == .bp8 && decide (tagPl tb < viewOf pb tb) then some b
  else if tagK ta != tagK tb then some a
  else none

/-- The 128 codes a quarter captures: its register and the next (R300). -/
def captured (g : Group) (sc : Bool) (q : Nat) (x : BitVec 3) : List Byte :=
  if sc then (List.range 128).map fun n => g.xCode q ((x.toNat + n / 64) % 8) (n % 64) else []

/-- MMQ, MMQX and PHMMA: checks, then one pass for each wave of quarters. -/
def prodOp (i : Instr) (f : FX) (kind : MxKind) (ab : BitVec 2) (pa pb : BitVec 3) (sc : Bool) (so : BitVec 6)
    (s : State) : Out :=
  issue i s fun g =>
    let m := g.act f.p
    withSrcs i s g false [srcAt (.v f.va) false false m, srcAt (.v f.vb) false false m] fun s1 =>
      let fr := s.frameOf g
      let qs := actQs g m
      let arrs := fr.arraysOf g.team
      let va := qVal g m (vAt g f.va)
      let vb := qVal g m (vAt g f.vb)
      let o := (g.rdS so.toNat).toNat % 2 ^ 32
      let n := fldN (g.rdS so.toNat) 32 16
      let len := ((s.team? g.team).map (·.spadLen)).getD 0
      let lists := kind == .mmqx && n != 0
      let checks : List (FaultCode × (Nat → Option Nat)) :=
        [(.mxnores, fun _ => if arrs.isEmpty then some 0 else none),
         (.qnonuni, fun q => if qDiffers g m (vAt g f.va) q then some (va q)
            else if qDiffers g m (vAt g f.vb) q then some (vb q) else none),
         (.slot, fun q => if fr.badRef g.team (va q) then some (va q) else if fr.badRef g.team (vb q) then some (vb q) else none),
         (.fmtattr, fun q => fmtBad fr f pa pb (va q) (vb q)),
         (.align, fun _ => if lists && o % 8 != 0 then some o else none),
         (.prot, fun q => if lists && 4096 < n then some o
            else if lists && decide (len < o + 8 * n * (q + 1)) then some o else none)]
      match qFault qs checks with
      | some (c, a, bad) => raise s i c (BitVec.ofNat 64 a) (qMask g bad) 0
      | none =>
        if !queueRoom s g (qs.map (arrayOf arrs ab.toNat)) then waits s .stall
        else
          let mk := fun (q : Nat) => { blankQ q (arrayOf arrs ab.toNat q) with
            sa := va q, sb := vb q, tagA := fr.tag (va q), tagB := fr.tag (vb q), pa := viewOf pa (fr.tag (va q)),
            pb := viewOf pb (fr.tag (vb q)), xa := captured g sc q f.xa, xb := captured g sc q f.xb,
            outl := o + 8 * n * q, outm := if kind == .mmqx then n else 0 }
          let wave := fun (w : Nat) => (qs.filter fun q => q / max 1 arrs.length == w).map mk
          done ((List.range 4).foldl (fun s w =>
            match wave w with
            | [] => s
            | q :: r =>
              let op := { blankOp i g kind f.z.toNat with tA := f.tA, tB := f.tB, sc := sc, qs := q :: r }
              addOp s op s1.nextId 2 (((q :: r).map fun x => passCu kind f.tA (x.pa * x.pb)).sum)) s1)

def execMmq (x : AuxProd) (f : FX) (s : State) : Out := prodOp (.mmq x f) f .mmq x.ab x.pa x.pb x.sc 0 s
def execMmqx (x : AuxProd) (f : FX) (s : State) : Out := prodOp (.mmqx x f) f .mmqx x.ab x.pa x.pb x.sc x.so s
def execPhmma (ab : BitVec 2) (f : FX) (s : State) : Out := prodOp (.phmma ab f) f .phmma ab 0 0 false 0 s

/-! ### Tiles (R306 to R308) -/

def execMxzero (ab : BitVec 2) (f : FX) (s : State) : Out :=
  issue (.mxzero ab f) s fun g =>
    let qs := actQs g (g.act f.p)
    let arrs := (s.frameOf g).arraysOf g.team
    if qs.isEmpty then done s
    else if arrs.isEmpty then raise s (.mxzero ab f) .mxnores 0 (qMask g qs) 0
    else if !queueRoom s g (qs.map (arrayOf arrs ab.toNat)) then waits s .stall
    else done (addOp s { blankOp (.mxzero ab f) g .zero f.z.toNat with
      qs := qs.map fun q => blankQ q (arrayOf arrs ab.toNat q) } s.nextId 3 (4 * qs.length))

/-- The value of the pair dA in a lane. -/
def pairAt (g : Group) (n : BitVec 8) (l : Nat) : Nat := vAt g n l + 2 ^ 32 * vAt g (n + 1) l

/-- The byte addresses of a tile's rows. -/
def rowAddrs (base pitch : Nat) : List Nat := (List.range 16).map fun r => (base + r * pitch) % 2 ^ 64

/-- The lanes-and-rows list that translation walks: each quarter's rows under its number. -/
def tileRows (qs : List Nat) (e p : Nat → Nat) : List (Nat × Nat) :=
  (qs.map fun q => (rowAddrs (e q) (p q)).map fun a => (q, a)).flatten

/-- MXLDZ, MXDRAIN and PHFIN. -/
def tileOp (i : Instr) (f : FX) (x : AuxTile) (kind : MxKind) (s : State) : Out :=
  issue i s fun g =>
    let m := g.act f.p
    let wr := kind != .ldz
    if wr && uncommitted s g then waits s .stall
    else withSrcs i s g false [srcAt (.v f.va) true false m, srcAt (.v f.vb) false false m] fun s1 =>
      let qs := actQs g m
      let arrs := (s.frameOf g).arraysOf g.team
      let pv := qVal g m (pairAt g f.va)
      let e := fun (q : Nat) => if x.g then pv q else pv q % 2 ^ 32
      let p := qVal g m (vAt g f.vb)
      let checks : List (FaultCode × (Nat → Option Nat)) :=
        [(.mxnores, fun _ => if arrs.isEmpty then some 0 else none),
         (.qnonuni, fun q => if qDiffers g m (pairAt g f.va) q || qDiffers g m (vAt g f.vb) q then some (e q) else none),
         (.align, fun q =>
            if e q % 64 != 0 || p q % 64 != 0 || decide (p q < 64) || decide (65536 < p q)
                || (x.add && x.g && e q / 2048 != (e q + 15 * p q + 63) / 2048) then some (e q) else none)]
      match qFault qs checks with
      | some (c, a, bad) => raise s i c (BitVec.ofNat 64 a) (qMask g bad) 0
      | none =>
        let mk := fun (pas : Nat → List Nat) (q : Nat) =>
          { blankQ q (arrayOf arrs x.ab.toNat q) with base := e q, pitch := p q, pas := pas q }
        let go := fun (s2 : State) (pas : Nat → List Nat) =>
          if !queueRoom s g (qs.map (arrayOf arrs x.ab.toNat)) then waits s2 .stall
          else if qs.isEmpty then done s2
          else done (addOp s2 { blankOp i g kind f.z.toNat with
            g := x.g, add := x.add, zr := x.zr, acq := x.acq, rel := x.rel, scope := x.scope, qs := qs.map (mk pas) } s2.nextId 3 (4 * qs.length))
        if x.g then
          let r := xlateAll s g.die g.core g.ctx g.gid (tileRows qs e p)
          let xs := r.2.filterMap fun y => match y.2.2 with | .ok z => some z | _ => none
          let bad := (r.2.filter fun y => y.2.2 == .bad)
          let prot := xs.filter fun y => refused y.leaf g.sys (if wr then .wr else .rd) || (x.add && paRegion y.pa != 0)
          if r.2.any fun y => y.2.2 == .miss then waits r.1 .stall
          else match bad, prot with
            | y :: t, _ => raise (takeFailed r.1 g.die g.ctx g.gid ((y :: t).map (·.2.1))) i .xlate (BitVec.ofNat 64 y.2.1)
                (qMask g (((y :: t).map (·.1)).eraseDups)) 0
            | [], y :: t => raise r.1 i .prot (BitVec.ofNat 64 y.va) (qMask g (((y :: t).map (·.lane)).eraseDups)) 0
            | [], [] => go { r.1 with focus := s1.focus } fun q => (xs.filter fun y => y.lane == q).map (·.pa)
        else match s.team? g.team with
          | none => done s1
          | some t =>
            let out := fun (a : Nat) => decide (t.spadLen < a + 64)
            let checks2 : List (FaultCode × (Nat → Option Nat)) :=
              [(.prot, fun q => (rowAddrs (e q) (p q)).find? out),
               (.barclob, fun q => if wr then (rowAddrs (e q) (p q)).find? fun a => touchesArmed t a 64 else none)]
            match qFault qs checks2 with
            | some (c, a, bad) => raise s i c (BitVec.ofNat 64 a) (qMask g bad) 0
            | none => go s1 fun _ => []

def execMxldz (x : AuxTile) (f : FX) (s : State) : Out := tileOp (.mxldz x f) f x .ldz s
def execMxdrain (x : AuxTile) (f : FX) (s : State) : Out := tileOp (.mxdrain x f) f x .drain s
def execPhfin (x : AuxTile) (f : FX) (s : State) : Out := tileOp (.phfin x f) f x .phfin s

def execMxsync (f : FX) (s : State) : Out :=
  issue (.mxsync f) s fun g =>
    if g.act f.p = 0 then done s
    else if mxPending s g.preds then waits s .barrier
    else done s

/-! ### The steps of the arrays (R303, R310, R311) -/

def State.mxop? (s : State) (id : Nat) : Option MxOp := s.mxops.find? fun m => m.id == id

/-- An operation changes; complete ones leave the list. -/
def State.setOp (s : State) (m : MxOp) : State :=
  let s1 := { s with mxops := s.mxops.map fun (x : MxOp) => if x.id == m.id then m else x }
  { s1 with mxops := s1.mxops.filter fun x => !x.over s1 }

def MxOp.setQ (m : MxOp) (q : MxQ) : MxOp := { m with qs := m.qs.map fun x => if x.q == q.q then q else x }

/-- Every operation that goes before on an array has ended there, and earlier waves of the same instruction have computed (R291,
R310). -/
def arrayFree (s : State) (m : MxOp) (arr : Nat) : Bool :=
  s.mxops.all fun (x : MxOp) =>
    !ahead x m || ((x.first != m.first || x.dense || !isPass x.kind) && x.qs.all fun q => q.arr != arr || q.done)

/-- The context of an operation runs on its core: the arrays compute for it (R289, R380). -/
def runsNow (s : State) (m : MxOp) : Bool := (s.core m.die m.core).running == some m.ctx

/-- The last cycle that an operation took on an array (R310). -/
def lastCycle (s : State) (m : MxOp) (arr : Nat) : Nat := (s.core m.die m.core).arrAt.getD arr 0

/-- Operations take a cycle on arrays. -/
def takeCycle (s : State) (m : MxOp) (arrs : List Nat) (clk : Nat) : State :=
  let c := s.core m.die m.core
  s.setCore m.die m.core { c with arrAt := (List.range 4).map fun a => if arrs.contains a then clk else c.arrAt.getD a 0 }

/-- The quarter whose B operand a quarter shares (R310). -/
def fusedWith (qs : List MxQ) (q : MxQ) : MxQ := (qs.find? fun x => x.sb == q.sb && x.pb == q.pb).getD q

/-- Keys of the units a pass reads: 32 × quarter + unit for A, and 16 more for B (R311). -/
def unitKeys (m : MxOp) : List Nat :=
  ((m.qs.map fun q =>
    ((List.range ((viewBytes q.tagA q.pa + 127) / 128)).map fun u => 32 * q.q + u) ++
    (if (fusedWith m.qs q).q == q.q then (List.range ((viewBytes q.tagB q.pb + 127) / 128)).map fun u => 32 * q.q + 16 + u
     else [])).flatten)

/-- Slot bytes of a unit now. -/
def readUnit (s : State) (m : MxOp) (key : Nat) : List (Byte × Bad) :=
  match m.qs.find? fun q => q.q == key / 32 with
  | none => []
  | some q =>
    let fr := s.frame m.die m.core m.ctx
    let slot := if key % 32 < 16 then q.sa else q.sb
    (List.range 128).map fun o => fr.byte slot (128 * (key % 16) + o)

/-- Key of entry e of the outlier list of a quarter, above those of the units (R302). -/
def entKey (q e : Nat) : Nat := 4096 * (q + 1) + e

/-- Outlier entries of a list of keys that are neither applied nor read before, read now: at any time from issue on (R302). -/
def readEnts (s : State) (m : MxOp) (keys : List Nat) : MxOp :=
  { m with qs := m.qs.map fun q =>
      let new := keys.filter fun k => decide (entKey q.q q.outs ≤ k) && decide (k < entKey q.q q.outm) && !(q.ents.any fun x => x.1 == k)
      { q with ents := q.ents ++ new.eraseDups.map fun k => (k, spadBytes s m.team (q.outl + 8 * (k - entKey q.q 0)) 8) } }

/-- The units of a list not read before, read now, and its outlier entries. -/
def readUnits (s : State) (m : MxOp) (keys : List Nat) : MxOp :=
  { readEnts s m keys with units := m.units ++ ((keys.filter fun k => (unitKeys m).contains k && !(m.units.any fun u => u.1 == k)).eraseDups.map
      fun k => (k, readUnit s m k)) }

/-- Bytes of an operand of a quarter as the pass read them. -/
def operand (m : MxOp) (q : Nat) (b : Nat) : List (Byte × Bad) :=
  ((List.range 16).map fun u => match m.units.find? fun x => x.1 == 32 * q + 16 * b + u with
    | some x => x.2
    | none => (List.range 128).map fun _ => (0, .ok)).flatten

/-- Compute cycles of a pass (R287, R298, R310). -/
def passCycles (m : MxOp) : Nat :=
  let tc := (m.qs.map fun q => match m.kind with
    | .phmma => 32
    | _ => if q.tagA.fmt = 15 then (tagK q.tagA * max 16 (q.pa * q.pb) + 511) / 512 else 16).foldl max 0
  max tc (((unitKeys m).length * 128 + 767) / 768 - 1)

/-- MATRIX_PASS: a granted pass whose arrays are free starts, and reads the listed units of its slots. Its compute cycles follow the
cycle of its grant (R310). Before the start and after the pass the step reads the listed entries of the outlier lists alone (R302). -/
def execMatrixPass (op : Nat) (units : List Nat) (s : State) : Out :=
  match s.mxop? op with
  | none => .next s
  | some m =>
    if !isPass m.kind then .next s
    else if m.dense then .next (s.setOp (readEnts s m units))
    else if m.running then .next (s.setOp (readUnits s m units))
    else if !granted s m.die m.core op 2 || !runsNow s m || !(m.qs.all fun q => arrayFree s m q.arr) then
      .next (s.setOp (readEnts s m units))
    else
      let m1 := { readUnits s m units with running := true, till := grantAt s m.die m.core op 2 + passCycles m }
      .next ((useGrant s m.die m.core op 2).setOp m1)

/-- The worse of two poisons. -/
def worse (a b : Bad) : Bad := if a == .margin || b == .margin then .margin else if a == .poison then .poison else b

/-- A quarter's tile after the dense product of its operands. -/
def denseTile (m : MxOp) (fr : Frame) (q : MxQ) : Frame :=
  let a := operand m q.q 0
  let b := operand m (fusedWith m.qs q).q 1
  let an := a.map fun x => x.1.toNat
  let bn := b.map fun x => x.1.toNat
  let rowsA := (List.range 16).map (rowCodes q.tagA q.pa an)
  let rowsB := (List.range 16).map (rowCodes q.tagB q.pb bn)
  let badA := (List.range 16).map (rowBad q.tagA q.pa (a.map (·.2)))
  let badB := (List.range 16).map (rowBad q.tagB q.pb (b.map (·.2)))
  let xa := q.xa.map (·.toNat)
  let xb := q.xb.map (·.toNat)
  let isBp := q.tagA.fmt == 15
  let viewsA := rowsA.map fun r => r.map (viewVal q.pa q.tagA.mid)
  let viewsB := rowsB.map fun r => r.map (viewVal q.pb q.tagB.mid)
  let bad := fun (i j : Nat) (b : Bad) => worse b (worse (badA.getD i .ok) (badB.getD j .ok))
  tilePairs.foldl (fun fr ij =>
    let i := ij.1
    let j := ij.2
    if m.kind == .phmma then
      let r := phTerms (rowsA.getD i []) (rowsB.getD j [])
      let add := fun (fr : Frame) (k : Nat) (x : Int) =>
        let z := fr.tile q.arr (m.z + k) i j
        fr.putTile q.arr (m.z + k) i j (BitVec.ofNat 32 (wrapTo 32 (z.1.toNat + x))) (bad i j z.2)
      add (add (add fr 0 r.1) 1 r.2.1) 2 r.2.2
    else
      let z := fr.tile q.arr m.z i j
      let v := if isBp then dotBp m.nbv xa xb i j z.1.toNat (viewsA.getD i []) (viewsB.getD j [])
        else dotF m.nbv (tagFmt q.tagA) (tagFmt q.tagB) xa xb i j z.1.toNat (rowsA.getD i []) (rowsB.getD j [])
      fr.putTile q.arr m.z i j (BitVec.ofNat 32 v) (bad i j z.2)) fr

/-- MATRIX_PASS_COMPLETE: at the end of its last cycle a pass, its last units read, updates its tiles. -/
def execMatrixPassComplete (op : Nat) (s : State) : Out :=
  match s.mxop? op with
  | none => .next s
  | some m =>
    if !isPass m.kind || !m.running || m.dense || s.clk m.die m.core ≤ m.till then .next s
    else
      let m1 := readUnits s m (unitKeys m)
      let fr := m1.qs.foldl (denseTile m1) (s.frame m.die m.core m.ctx)
      .next ((takeCycle (s.setFrame m.die m.core fr) m (m.qs.map (·.arr)) m.till).setOp
        { m1 with dense := true, qs := m1.qs.map fun q => { q with done := q.outm == 0 } })

/-- B's element at (k, j) as an outlier takes it: its value times its block's scale. -/
def outlierB (m : MxOp) (q : MxQ) (k j : Nat) : FV :=
  let bn := (operand m (fusedWith m.qs q).q 1).map fun x => x.1.toNat
  let code := (rowCodes q.tagB q.pb bn j).getD k 0
  let sc := scaleAt (q.xb.map (·.toNat)) j (k / 32)
  if sc = 255 then .nan fF32.canon
  else if q.tagB.fmt = 15 then
    let v := viewVal q.pb q.tagB.mid code
    (FV.fin (decide (v < 0)) v.natAbs 0).scale (sc - 127)
  else ((tagFmt q.tagB).dec code).scale (sc - 127)

/-- The format of a NaN that outlierB answers. -/
def outlierFmt (q : MxQ) (k j : Nat) : Fmt :=
  if q.tagB.fmt = 15 || scaleAt (q.xb.map (·.toNat)) j (k / 32) = 255 then fF32 else tagFmt q.tagB

/-- One entry of an outlier list applied to a quarter's tile. -/
def applyEntry (m : MxOp) (q : MxQ) (fr : Frame) (w : Nat) (bad : Bad) : Frame :=
  let row := w % 256
  let k := w / 2 ^ 16 % 2 ^ 16
  let val := w / 2 ^ 32 % 2 ^ 16
  if 15 < row || tagK q.tagB ≤ k then fr
  else (List.range 16).foldl (fun fr j =>
    let z := fr.tile q.arr m.z row j
    fr.putTile q.arr m.z row j (BitVec.ofNat 32 (outlierInto m.nbv (outlierFmt q k j) val z.1.toNat (outlierB m q k j)))
      (worse z.2 bad)) fr

/-- OUTLIER_APPLY: the side unit of a quarter's array takes its next entry, one a cycle after the pass, the terminating one too (R302,
R310). -/
def execOutlierApply (op quarter : Nat) (s : State) : Out :=
  match s.mxop? op with
  | none => .next s
  | some m =>
    match m.qs.find? fun q => q.q == quarter with
    | none => .next s
    | some q =>
      if m.kind != .mmqx || !m.dense || q.done || s.clk m.die m.core ≤ lastCycle s m q.arr then .next s
      else
        let bs := ((q.ents.find? fun x => x.1 == entKey q.q q.outs).map (·.2)).getD (spadBytes s m.team (q.outl + 8 * q.outs) 8)
        let w := leNat (bs.map (·.1))
        if w = 2 ^ 64 - 1 then
          .next ((takeCycle s m [q.arr] (s.clk m.die m.core)).setOp (m.setQ { q with done := true }))
        else
          let fr := applyEntry m q (s.frame m.die m.core m.ctx) w (worst bs)
          .next ((takeCycle (s.setFrame m.die m.core fr) m [q.arr] (s.clk m.die m.core)).setOp
            (m.setQ { q with outs := q.outs + 1, done := decide (q.outm ≤ q.outs + 1) }))

/-- Earlier quarters of the same operation on the same array have ended. -/
def quarterFirst (m : MxOp) (q : MxQ) : Bool := (m.qs.takeWhile fun (x : MxQ) => x.q != q.q).all fun (x : MxQ) => x.arr != q.arr || x.done

/-- What a drain reads of element (i, j): the word to write and its poison (R305). -/
def drainWord (fr : Frame) (m : MxOp) (q : MxQ) (i j : Nat) : W32 × Bad :=
  if m.kind == .phfin then
    let x := fr.tile q.arr m.z i j
    let y := fr.tile q.arr (m.z + 1) i j
    let c := fr.tile q.arr (m.z + 2) i j
    (BitVec.ofNat 32 (resultant x.1.toInt y.1.toInt c.1.toNat), worse x.2 (worse y.2 c.2))
  else fr.tile q.arr m.z i j

/-- A drain met a poisoned element: the group takes POISON or MARGIN at its instruction (R378), and the quarter's tile is
not written. DESIGN CHOICE (log entry 98): while the group holds another fault, this one waits until its handler is entered. -/
def drainFault (s : State) (m : MxOp) (q : MxQ) (b : Bad) : State :=
  s.modGroup m.gid fun g =>
    let r : FaultRec := ⟨if b == .margin then .margin else .poison, BitVec.ofNat 64 m.z, qMask g [q.q], m.word, 0, m.idx, m.hdr⟩
    if g.trap.isSome then { g with late := g.late ++ [r] } else { g with trap := some r, sleep := .awake }

/-- TILE_ARRAY_CYCLE: one cycle on a quarter's array after its grant, in order with the passes, while the context runs (R310,
R380). -/
def execTileArrayCycle (op quarter : Nat) (s : State) : Out :=
  match s.mxop? op with
  | none => .next s
  | some m =>
    match m.qs.find? fun q => q.q == quarter with
    | none => .next s
    | some q =>
      let clk := s.clk m.die m.core
      if isPass m.kind || q.done || !runsNow s m || !(m.running || (granted s m.die m.core op 3 && decide (grantAt s m.die m.core op 3 < clk)))
          || clk ≤ lastCycle s m q.arr || !arrayFree s m q.arr
          || !quarterFirst m q || (m.kind == .ldz && decide (q.rows.length < 16)) then .next s
      else
        let s1 := takeCycle (useGrant s m.die m.core op 3) m [q.arr] clk
        let fr := s.frame m.die m.core m.ctx
        let m1 := { m with running := true }
        match m.kind with
        | .ldz =>
          let fr1 := tilePairs.foldl (fun fr ij =>
            fr.putTile q.arr m.z ij.1 ij.2 (SMap.get 0 q.data (16 * ij.1 + ij.2)) (SMap.get .ok q.bad (16 * ij.1 + ij.2))) fr
          .next ((s1.setFrame m.die m.core fr1).setOp (m1.setQ { q with done := true }))
        | .drain | .phfin =>
          let ws := tilePairs.map fun ij => (16 * ij.1 + ij.2, drainWord fr m q ij.1 ij.2)
          let zs := if m.kind == .phfin then [m.z, m.z + 1, m.z + 2] else [m.z]
          let fr1 := if m.zr then zs.foldl (fun fr z => fr.zeroTile q.arr z) fr else fr
          let s2 := s1.setFrame m.die m.core fr1
          (match ws.find? fun w => w.2.2 != .ok with
           | some w => .next ((drainFault s2 m q w.2.2).setOp (m1.setQ { q with done := true, rows := List.range 16 }))
           | none =>
             let data := ws.foldl (fun d w => SMap.set 0 d w.1 w.2.1) []
             .next (s2.setOp (m1.setQ { q with done := true, data := data })))
        | _ => .next ((s1.setFrame m.die m.core (fr.zeroTile q.arr m.z)).setOp (m1.setQ { q with done := true }))

/-- ACQ of an engine command holds back its reads (R94, R308). -/
def mxMayRead (s : State) (m : MxOp) : Bool := !m.acq || earlierDone s m.preds m.seq m.scope

/-- MXLDZ_DATA_ARRIVE: row r of quarter q, numbered q + 4 r, is read from memory. -/
def execMxldzDataArrive (op quarter : Nat) (s : State) : Out :=
  match s.mxop? op with
  | none => .next s
  | some m =>
    let r := quarter / 4
    match m.qs.find? fun q => q.q == quarter % 4 with
    | none => .next s
    | some q =>
      if m.kind != .ldz || q.done || 16 ≤ r || q.rows.contains r || !mxMayRead s m then .next s
      else
        let bs := if m.g then opBytes s m.id m.die m.core (q.pas.getD r 0) 64 else spadBytes s m.team (q.base + r * q.pitch) 64
        let q1 := (List.range 16).foldl (fun (q : MxQ) j =>
          let b := (bs.drop (4 * j)).take 4
          { q with data := SMap.set 0 q.data (16 * r + j) (BitVec.ofNat 32 (leNat (b.map (·.1)))),
                   bad := SMap.set .ok q.bad (16 * r + j) (worst b) }) { q with rows := q.rows ++ [r] }
        .next ((if m.g then pullBytes s m.ctx m.die (q.pas.getD r 0) 64 else s).setOp (m.setQ q1))

/-- The bytes of row r that a drain writes. -/
def rowBytes (q : MxQ) (r : Nat) : List (Byte × Bad) :=
  ((List.range 16).map fun j => okBytes (leBytes 4 (SMap.get 0 q.data (16 * r + j)).toNat)).flatten

/-- A row of a plain drain is written to memory (R308): chunk number q + 4 r. -/
def landTile (s : State) (m : MxOp) (chunk : Nat) : State :=
  let r := chunk / 4
  match m.qs.find? fun q => q.q == chunk % 4 with
  | none => s
  | some q =>
    if !(m.kind == .drain || m.kind == .phfin) || m.add || !q.done || 16 ≤ r || q.rows.contains r || (m.g && !mayLand s m.die 64) then s
    else
      let s1 := if m.g then landBytes s m.die m.core m.ctx (some m.id) (q.base + r * q.pitch) (q.pas.getD r 0) (rowBytes q r)
        else match s.team? m.team with
          | some t => s.setTeam (t.putMany (q.base + r * q.pitch) (rowBytes q r))
          | none => s
      s1.setOp (m.setQ { q with rows := q.rows ++ [r] })

/-- dest := RNE(dest + z) over the bytes of a row; the poison of dest stays (R148, R308). -/
def addRow (nbv : Nat) (old : List (Byte × Bad)) (q : MxQ) (r : Nat) : List (Byte × Bad) :=
  ((List.range 16).map fun j =>
    let b := (old.drop (4 * j)).take 4
    let v := fF32.addOp nbv .rne (leNat (b.map (·.1))) (SMap.get 0 q.data (16 * r + j)).toNat
    (leBytes 4 v).map fun x => (x, worst b)).flatten

/-- DRAIN_APPLY of an add-on-store: the whole tile of a quarter in one step, at the scratchpad port or on the home value of
single-die memory, stamped by the core's die (R96, R234, R308). -/
def drainTile (s : State) (op quarter : Nat) : State :=
  match s.mxop? op with
  | none => s
  | some m =>
    match m.qs.find? fun q => q.q == quarter with
    | none => s
    | some q =>
      if m.kind != .drain || !m.add || !q.done || !q.rows.isEmpty || !mxMayRead s m then s
      else
        let q1 := { q with rows := List.range 16 }
        if !m.g then
          match s.team? m.team with
          | none => s.setOp (m.setQ q1)
          | some t =>
            let t1 := (List.range 16).foldl (fun (t : Team) r =>
              t.putMany (q.base + r * q.pitch) (addRow m.nbv (t.bytes (q.base + r * q.pitch) 64) q r)) t
            (s.setTeam t1).setOp (m.setQ q1)
        else
          let base := q.pas.headD 0
          let h := homeDie base
          let s1 := bumpVc s m.die
          let new := ((List.range 16).map fun r =>
            let pa := q.pas.getD r 0
            let row := addRow m.nbv ((List.range 64).map fun i => s.home.byte (pa + i)) q r
            ((List.range 64).zip row).map fun x => (⟨pa + x.1 - base, x.2.1, x.2.2⟩ : WByte)).flatten
          let a := { Acc.blank with
            id := s.nextId, seq := s.nextId, ctx := m.ctx, die := m.die, core := m.core, kind := .rmw ⟨.add, .f32, 0, 0⟩,
            place := .glob base, va := q.base, vas := (List.range 16).map fun r => q.base + r * q.pitch, len := 15 * q.pitch + 64, bytes := new, scope := .die, read := true, fin := true,
            stamp := (s1.die m.die).vc, cmd := some m.id }
          if !mayPublish s m.die || (h != m.die && !causal s h a) then s
          else
            let s2 := { s1 with accs := s1.accs ++ [a], nextId := s1.nextId + 1 }
            let s3 := if h = m.die then s2 else setVc s2 h m.die (a.stamp.getD m.die 0)
            let b := { a with cidx := nextIdx s3 a, stage := .serialized }
            (atHome (s3.setAcc b) h b).setOp (m.setQ q1)

end Sys2Proof.Machine
end

