-- ==== Sys2Proof/Machine/Copy.lean ====
section
/-!
DEFINITION. Copy instructions, majors 0xA0 to 0xA3 (R314 to R339), the engine that lands their chunks, the firmware path
that finishes or loses a command, and the end of a team.
-/
namespace Sys2Proof.Machine

/-! ### Addresses and objects (R319, R320, R333) -/

def CpSize.n : CpSize → Nat
  | .b4 => 4
  | .b8 => 8
  | .b16 => 16

/-- The index of a lane, scaled. -/
def copyX (g : Group) (f : FP) (l : Nat) : Nat :=
  match f.x with
  | some r => (g.laneV r.toNat l).val.toNat * 2 ^ scaleOf f.scale
  | none => 0

/-- The two addresses of a lane; the physical one is not known yet. -/
def copyLane (g : Group) (f : FP) (l : Nat) : ChunkLane :=
  { lane := l, va := (g.rdS f.g.toNat + BitVec.ofNat 64 (copyX g f l)).toNat, pa := 0,
    off := (g.rdS f.sp.toNat).toNat % 2 ^ 32 + copyX g f l + 16 * f.disp.toNat }

/-- Offset of the barrier object a copy names, and of its ring descriptor. -/
def copyObj (f : FP) : Nat := 16 * f.bar.toNat
def copyRing (f : FP) : Nat := copyObj f + 16

/-- The object or the descriptor that lies outside the allocation. -/
def objProt (t : Team) (f : FP) : List Nat :=
  if t.spadLen < copyObj f + 16 then [copyObj f]
  else if f.cmp && decide (t.spadLen < copyRing f + 16) then [copyRing f] else []

/-- A word of the descriptor. -/
def ringWord (t : Team) (o n : Nat) : Nat := leNat ((t.bytes o n).map (·.1))

/-- The descriptor breaks R333. -/
def ringShape (t : Team) (f : FP) : Bool :=
  let w2 := ringWord t (copyRing f + 8) 4
  f.cmp && (ringWord t (copyRing f) 8 % 32 != 0 || decide (32 ≤ w2) || w2 % 32 == 0 || decide (16 < w2 % 32))

def ringArmed (t : Team) (f : FP) : Bool := f.cmp && touchesArmed t (copyRing f) 16

/-- The first lane of a list of (lane, address) faults, with every such lane. -/
def laneFault (i : Instr) (s : State) (c : FaultCode) (bad : List (Nat × Nat)) (k : Out) : Out :=
  match bad with
  | [] => k
  | x :: r => raise s i c (BitVec.ofNat 64 x.2) (maskWhere ((x :: r).map (·.1)) fun _ => true) 0

/-- Faults of the instruction as a whole name every acting lane (R320). -/
def allLanes (m : W32) (addrs : List Nat) : List (Nat × Nat) :=
  match addrs with
  | [] => []
  | a :: _ => (lanesOf m).map fun l => (l, a)

/-! ### Commands (R314) -/

def State.cmd? (s : State) (id : Nat) : Option Cmd := s.cmds.find? fun c => c.id == id

/-- Nothing more happens to a command. -/
def Cmd.gone (c : Cmd) : Bool :=
  (!c.cmp || c.recorded) && (c.fw == .lost || c.chunks.all fun k => k.landed && k.counted)

/-- A command changes; one that is over leaves the list. -/
def State.setCmd (s : State) (c : Cmd) : State :=
  { s with cmds := (s.cmds.map fun d => if d.id == c.id then c else d).filter fun d => !d.gone }

def Cmd.setChunk (c : Cmd) (k : Chunk) : Cmd := { c with chunks := c.chunks.map fun x => if x.n == k.n then k else x }

def blankChunk : Chunk :=
  { n := 0, lanes := [], doff := 0, len := 0, count := 0, data := [], read := false, landed := false, counted := false,
    lo := 0, hi := 0, phase := 0, runs := [] }

/-- Chunks numbered in order. -/
def numbered (ks : List Chunk) : List Chunk := ((List.range ks.length).zip ks).map fun x => { x.2 with n := x.1 }

/-- A command of a group, with what it captures at issue (R133, R314). -/
def mkCmd (s : State) (g : Group) (f : FP) (kind : CmdKind) (chunks : List Chunk) : Cmd :=
  { id := s.nextId, kind := kind, gid := g.gid, preds := g.preds, ctx := g.ctx, die := g.die, core := g.core, team := g.team,
    acq := f.acq, rel := f.rel, cmp := f.cmp, scope := f.scope, bar := f.bar.toNat,
    after := if f.seq then g.lastCmd else none,
    chunks := numbered chunks, started := false, credit := 0, recData := [], slot := 0, dst := 0, coords := [], sys := g.sys,
    iaddr := g.iaddr, fw := .engine, handed := false, faulted := none, bads := [], recBad := false, retried := [], overran := false,
    recorded := false }

/-- The command joins the issue queue as its group's last; the block its bar field names is registered (R94, R239). -/
def addCmd (s : State) (t : Team) (c : Cmd) : State :=
  let s1 := (s.setTeam (register t (16 * c.bar))).modG fun h => { h with lastCmd := some c.id }
  { s1 with cmds := s1.cmds ++ [c], nextId := s1.nextId + 1 }

/-- The index register in the acting lanes. -/
def copySrc (f : FP) (m : W32) : List Src :=
  match f.x with
  | some r => [srcAt (.v r) false false m]
  | none => []

/-! ### CPY and CPYR -/

/-- The acting lanes gathered by the line of their global side (R315). -/
def lineChunks (n : Nat) (ls : List ChunkLane) : List Chunk :=
  ((ls.map fun x => lineOf x.pa).eraseDups).map fun l =>
    let mine := ls.filter fun x => lineOf x.pa == l
    { blankChunk with lanes := mine, len := n, count := n * mine.length }

/-- One chunk for each 4 B element. -/
def elemChunks (n : Nat) (ls : List ChunkLane) : List Chunk :=
  (ls.map fun x => (List.range (n / 4)).map fun j =>
    { blankChunk with lanes := [⟨x.lane, x.va + 4 * j, x.pa + 4 * j, x.off + 4 * j⟩], len := 4, count := 4 }).flatten

/-- CPY and CPYR (R319 to R322). -/
def cpyOp (i : Instr) (f : FP) (kind : CmdKind) (s : State) : Out :=
  issue i s fun g =>
    let m := g.act f.p
    if m = 0 then done s
    else if uncommitted s g then waits s .stall
    else withSrcs i s g false (copySrc f m) fun s1 =>
      match s.team? g.team with
      | none => .next s
      | some t =>
        let n := CpSize.n f.size
        let into := kind == .cpyIn
        let red := !into && kind != .cpyOut
        let ls := (lanesOf m).map (copyLane g f)
        match watchFind s g (!into) n (ls.map fun x => (x.lane, x.va)) with
        | some (slot, a, w) => bkptHit i s g slot (BitVec.ofNat 64 a) w
        | none =>
          laneFault i s .align (ls.filterMap fun x =>
            if x.va % n != 0 then some (x.lane, x.va) else if x.off % n != 0 then some (x.lane, x.off) else none) <|
          let r := xlateAll s g.die g.core g.ctx g.gid (ls.map fun x => (x.lane, x.va))
          let s2 := r.1
          let xs := r.2.filterMap fun x => x.2.2.hit?
          let bad := r.2.filter fun x => x.2.2 == .bad
          if r.2.any fun x => x.2.2 == .miss then waits s2 .stall
          else
            laneFault i (takeFailed s2 g.die g.ctx g.gid (bad.map (·.2.1))) .xlate (bad.map fun x => (x.1, x.2.1)) <|
            let cl := (ls.zip xs).map fun x => { x.1 with pa := x.2.pa }
            laneFault i s2 .prot ((ls.zip xs).filterMap fun x =>
              if refused x.2.leaf g.sys (if into then .rd else .wr) || (red && paFar x.2.pa) then some (x.1.lane, x.1.va)
              else if t.spadLen < x.1.off + n then some (x.1.lane, x.1.off) else none) <|
            laneFault i s2 .prot (allLanes m (objProt t f)) <|
            laneFault i s2 .shape (allLanes m (if ringShape t f then [copyRing f] else [])) <|
            laneFault i s2 .barclob (if into then (ls.filter fun x => touchesArmed t x.off n).map fun x => (x.lane, x.off) else []) <|
            laneFault i s2 .barclob (allLanes m (if ringArmed t f then [copyRing f] else [])) <|
            if copyFree s g.die g.core = 0 then waits s2 .stall
            else
              let s3 := { s2 with focus := s1.focus }
              done (addCmd s3 t (mkCmd s3 g f kind (if red then elemChunks n cl else lineChunks n cl)))

def execCpyIn (f : FP) (s : State) : Out := cpyOp (.cpyIn f) f .cpyIn s
def execCpyOut (f : FP) (s : State) : Out := cpyOp (.cpyOut f) f .cpyOut s
def execCpyr (op : CpyrOp) (f : FP) (s : State) : Out := cpyOp (.cpyr op f) f (.cpyr op) s

/-! ### Shape records (R323 to R326) -/

def recN (r : List Byte) (o n : Nat) : Nat := leNat ((r.drop o).take n)
def recBase (r : List Byte) : Nat := recN r 0 8
def recExt (r : List Byte) (d : Nat) : Nat := recN r (8 + 4 * d) 4
def recStr (r : List Byte) (d : Nat) : Int := sext 48 (recN r (0x18 + 6 * d) 6)
def recBox (r : List Byte) (d : Nat) : Nat := recN r (0x30 + d) 1 + 1
def recPad (r : List Byte) : Nat := recN r 0x34 4
def recFmt (r : List Byte) : Nat := recN r 0x38 1 % 16
def recPl4 (r : List Byte) : Bool := (recN r 0x39 1).testBit 6
def recMid (r : List Byte) : Bool := (recN r 0x39 1).testBit 5
def recLayout (r : List Byte) : Nat := recN r 0x39 1 / 8 % 4
def recTrans (r : List Byte) : Bool := (recN r 0x39 1).testBit 2
def recDims (r : List Byte) : Nat := recN r 0x39 1 % 4 + 1

/-- Element width in bytes. -/
def recW (r : List Byte) : Nat :=
  match recFmt r with
  | 0 | 1 | 8 => 4
  | 2 | 3 => 8
  | 4 | 5 | 9 | 10 | 13 => 2
  | _ => 1

/-- The tag a record gives a slot (R293, R328). -/
def recTag (r : List Byte) : SlotTag := ⟨recFmt r, recPl4 r, recMid r, true⟩

/-- Bytes of the destination image. -/
def recSize (r : List Byte) : Nat :=
  if recLayout r = 1 then 2048 else recW r * (recBox r 0 * recBox r 1 * recBox r 2 * recBox r 3)

/-- The record breaks R325; `om`: it is for CPYT.om. -/
def shapeBad (om : Bool) (r : List Byte) : Bool :=
  let ds := List.range 4
  let slotFmt := recFmt r == 9 || decide (10 ≤ recFmt r) && recFmt r != 14
  let k := tagK (recTag r)
  recN r 0x38 1 / 16 != 0 || (recN r 0x39 1).testBit 7 || recN r 0x3A 6 != 0 || decide (2 ≤ recLayout r)
    || (ds.any fun d => decide (d < recDims r) && recExt r d == 0)
    || (ds.any fun d => decide (recDims r ≤ d) && (recExt r d != 1 || recStr r d != 0 || recBox r d != 1))
    || recBase r % recW r != 0 || (ds.any fun d => recStr r d % (recW r : Int) != 0)
    || ((recMid r || recPl4 r) && recFmt r != 15)
    || (if recLayout r = 1 then !slotFmt || recBox r 2 != 1 || recBox r 3 != 1
          || (if recTrans r then recBox r 0 != 16 || recBox r 1 != k else recBox r 0 != k || recBox r 1 != 16)
        else decide (16384 < recSize r) || om)

/-- A page agrees with a record (R326). -/
def pageAgrees (r : List Byte) (leaf : W64) : Bool :=
  let k := leafFmt leaf - 6
  match leafFmt leaf with
  | 0 => recFmt r != 15
  | 1 => recFmt r == 8
  | 2 => recFmt r == 10
  | 3 => recFmt r == 9
  | 4 => recFmt r == 11
  | 5 => recFmt r == 12
  | 6 => recFmt r == 13
  | 7 => recFmt r == 14
  | _ => recFmt r == 15 && geomMid (leafGeom leaf) == recMid r
      && (if recLayout r = 1 then (if recPl4 r then decide (4 ≤ k) else k == 8) else true)

/-! ### Elements (R324, R329) -/

/-- Where an element's bytes lie: physical addresses of runs of a length, and the bit of each plane byte. -/
inductive ElemRes where
  | ok (pas : List Nat) (len bit : Nat)
  | miss
  | fault (c : FaultCode) (va : Nat)
deriving DecidableEq, Repr

/-- The element at an address, translated and checked. -/
def elemX (s : State) (die core ctx who : Nat) (sys : Bool) (r : List Byte) (va : Nat) : State × ElemRes :=
  let x := xlate1 s die core ctx who 0 va
  match x.2 with
  | .miss => (x.1, .miss)
  | .bad => (takeFailed x.1 die ctx who [va], .fault .xlate va)
  | .ok y =>
    if refused y.leaf sys .rd then (x.1, .fault .prot va)
    else if !pageAgrees r y.leaf then (x.1, .fault .fmtattr va)
    else
      let page := y.pa - (va - y.base)
      if leafFmt y.leaf = 0 then (x.1, .ok [y.pa] (recW r) 0)
      else match elemAt (leafFmt y.leaf) (leafGeom y.leaf) y.size ((va - y.base) / fmtWidth (leafFmt y.leaf)) with
        | some e => (x.1, .ok (e.offs.map fun o => page + o) e.len e.bit)
        | none => (x.1, .fault .fmtattr va)

/-- Address of a box element, or none where it lies outside the extents. -/
def boxVa (r : List Byte) (c : List Int) (b : List Nat) : Option Nat :=
  let e := fun d => c.getD d 0 + (b.getD d 0 : Nat)
  let ds := List.range (recDims r)
  if ds.all fun d => decide (0 ≤ e d) && decide (e d < (recExt r d : Nat)) then
    some (((recBase r : Int) + (ds.map fun d => e d * recStr r d).sum) % (2 ^ 64 : Nat)).toNat
  else none

/-- The first box element that lies within the extents: the lowest index of each dimension. -/
def firstIn (r : List Byte) (c : List Int) : Option (List Nat) :=
  let b := (List.range 4).map fun d => if d < recDims r then (max 0 (- c.getD d 0)).toNat else 0
  if (List.range 4).all fun d => decide (b.getD d 0 < recBox r d) then
    (if (boxVa r c b).isSome then some b else none)
  else none

/-- The box element at a place of the destination image: a linear index under row, row and k of the slot image else. -/
def boxAt (r : List Byte) (p : Nat) : List Nat :=
  if recLayout r = 1 then
    let k := tagK (recTag r)
    if recTrans r then [p / k, p % k, 0, 0] else [p % k, p / k, 0, 0]
  else
    let b0 := recBox r 0
    let b1 := recBox r 1
    let rest := p / (b0 * b1)
    (if recTrans r then [p / b1 % b0, p % b1] else [p % b0, p / b0 % b1]) ++ [rest % recBox r 2, rest / recBox r 2]

/-- A bp8 slot image: each byte holds one plane of 8 elements. -/
def planar (r : List Byte) : Bool := recLayout r == 1 && recFmt r == 15

/-- The box elements of the image bytes [o, o + n). -/
def unitBoxes (r : List Byte) (o n : Nat) : List (List Nat) :=
  if planar r then
    let pb := planeBytes (recTag r)
    ((List.range n).map fun j => (List.range 8).map fun i => boxAt r (8 * ((o + j) % pb) + i)).flatten
  else (List.range (n / recW r)).map fun j => boxAt r (o / recW r + j)

/-- What an element outside the extents is: its bytes, or its planes in bit 0. -/
def padParts (r : List Byte) : List (Byte × Bad) × Nat :=
  if recFmt r = 15 then (okBytes ((List.range 8).map fun p => BitVec.ofNat 8 (recPad r / 2 ^ (7 - p) % 2)), 0)
  else (okBytes (leBytes (recW r) (recPad r)), 0)

/-- Where the elements of a unit lie: for each its runs, their length and the bit of each plane byte, or none where it is outside the
extents. -/
inductive UnitRes where
  | ok (l : List (Option (List Nat × Nat × Nat)))
  | miss
  | fault (c : FaultCode) (va : Nat)
deriving DecidableEq, Repr

/-- The elements of a list of box places, with the translations current now. -/
def findElems (s : State) (c : Cmd) : List (List Nat) → State × UnitRes
  | [] => (s, .ok [])
  | b :: rest =>
    match boxVa c.recData c.coords b with
    | none =>
      (match findElems s c rest with
       | (s1, .ok l) => (s1, .ok (none :: l))
       | x => x)
    | some va =>
      match elemX s c.die c.core c.ctx c.id c.sys c.recData va with
      | (s1, .miss) => (s1, .miss)
      | (s1, .fault f a) => (s1, .fault f a)
      | (s1, .ok pas len bit) =>
        match findElems s1 c rest with
        | (s2, .ok l) => (s2, .ok (some (pas, len, bit) :: l))
        | x => x

/-- The plane bytes of a unit's elements that are not read yet: number 16 · element + plane, address, length (R288). -/
def planeRuns (k : Chunk) (l : List (Option (List Nat × Nat × Nat))) : List (Nat × Nat × Nat) :=
  ((l.zipIdx.map fun x => match x.1 with
    | some (pas, len, _) => if pas.length < 2 then [] else pas.zipIdx.map fun p => (16 * x.2 + p.2, p.1, len)
    | none => []).flatten).filter fun r => !k.runs.any fun y => y.1 == r.1

/-- The plane bytes that one step reads of those left: any of them, as the free value says, and at least one (log entry 34). -/
def stepRuns (s : State) (rs : List (Nat × Nat × Nat)) : List (Nat × Nat × Nat) :=
  let now := rs.filter fun r => !Config.planeLater s.tick r.1
  if now.isEmpty then rs.take 1 else now

/-- Runs of bytes an engine reads have moved (R426). -/
def pullRuns (s : State) (c : Cmd) (rs : List (Nat × Nat)) : State := rs.foldl (fun s r => pullBytes s c.ctx c.die r.1 r.2) s

/-- The parts of a unit's elements: plane bytes read in earlier steps, and the rest as they stand now. -/
def elemParts (s : State) (c : Cmd) (k : Chunk) (l : List (Option (List Nat × Nat × Nat))) : List (List (Byte × Bad) × Nat) :=
  l.zipIdx.map fun x => match x.1 with
    | none => padParts c.recData
    | some (pas, len, bit) => ((pas.zipIdx.map fun p =>
        ((k.runs.find? fun y => y.1 == 16 * x.2 + p.2).map (·.2)).getD (opBytes s c.id c.die c.core p.1 len)).flatten, bit)

/-- Eight elements as one byte of a plane. -/
def planeByte (p : Nat) (es : List (List (Byte × Bad) × Nat)) : Byte × Bad :=
  let bits := es.map fun e => (((e.1.getD p (0, .ok)).1.toNat / 2 ^ e.2) % 2, (e.1.getD p (0, .ok)).2)
  (BitVec.ofNat 8 (((List.range 8).zip bits).foldl (fun a x => a + x.2.1 * 2 ^ x.1) 0),
   worst (bits.map fun x => (0, x.2)))

/-- The bytes of a unit [o, o + n) of the image from its elements. -/
def unitBytes (r : List Byte) (o n : Nat) (es : List (List (Byte × Bad) × Nat)) : List (Byte × Bad) :=
  if planar r then
    (List.range n).map fun j => planeByte ((o + j) / planeBytes (recTag r)) ((es.drop (8 * j)).take 8)
  else (es.map fun e =>
    if recFmt r = 15 then [(BitVec.ofNat 8 (gatherPlanes e.2 (e.1.map fun x => x.1.toNat)), worst e.1)] else e.1).flatten

/-- The aligned 128 B units of a destination [d, d + n). -/
def unitChunks (d n : Nat) : List Chunk :=
  ((List.range ((d + n + 127) / 128 - d / 128)).map fun j =>
    let lo := max d (128 * (d / 128 + j))
    let hi := min (d + n) (128 * (d / 128 + j + 1))
    { blankChunk with doff := lo, len := hi - lo, count := hi - lo })

/-! ### CPYT (R320, R328, R330) -/

/-- The record as it enters the cache: the youngest of 64 (R330). -/
def cacheRec (c : Core) (e : RecEntry) : Core :=
  let rest := c.recs.filter fun x => !(x.ctx == e.ctx && x.addr == e.addr)
  { c with recs := (rest ++ [e]).drop (rest.length + 1 - 64) }

/-- The record of a CPYT: the cache's, or 64 B read as a read of the group. -/
def withRecord (i : Instr) (s : State) (g : Group) (m : W32) (addr : Nat) (k : State → List Byte → Out) : Out :=
  laneFault i s .align (allLanes m (if addr % 64 != 0 then [addr] else [])) <|
  match (s.core g.die g.core).recs.find? fun e => e.ctx == g.ctx && e.addr == addr with
  | some e => k (s.setCore g.die g.core (cacheRec (s.core g.die g.core) e)) e.data
  | none =>
    let x := xlate1 s g.die g.core g.ctx g.gid 0 addr
    match x.2 with
    | .miss => waits x.1 .stall
    | .bad => laneFault i (takeFailed x.1 g.die g.ctx g.gid [addr]) .xlate (allLanes m [addr]) (.next s)
    | .ok y =>
      if refused y.leaf g.sys .rd then laneFault i x.1 .prot (allLanes m [addr]) (.next s)
      else
        let a := { gAcc g 0xA2 .load (.glob y.pa) addr 64 false false .core with id := x.1.nextId, seq := x.1.nextId }
        if blocked x.1.accs a then waits x.1 .stall
        else
          let bs := accRead x.1 a
          match worst bs with
          | .ok =>
            let s2 := stepRead x.1 g a
            let s3 := { fillAt s2 (some g.ctx) g.die g.core y.pa 64 with nextId := s2.nextId + 1 }
            k (s3.setCore g.die g.core (cacheRec (s3.core g.die g.core) ⟨g.ctx, addr, bs.map (·.1)⟩)) (bs.map (·.1))
          | b => laneFault i (stepRead x.1 g a) (if b == .margin then .margin else .poison) (allLanes m [addr]) (.next s)

/-- The origin of the box: lanes 0 to 3 of the index register, whether or not they are active (R195, R328). -/
def boxOrigin (g : Group) (f : FP) : List Int :=
  match f.x with
  | some r => (List.range 4).map fun d => (g.laneV r.toNat d).val.toInt
  | none => []

/-- The fault of the first element within the extents (R320 step 8). -/
def firstElem (i : Instr) (s : State) (g : Group) (m : W32) (r : List Byte) (c : List Int) (k : State → Out) : Out :=
  match (firstIn r c).bind (boxVa r c) with
  | none => k s
  | some va =>
    match elemX s g.die g.core g.ctx g.gid g.sys r va with
    | (s1, .miss) => waits s1 .stall
    | (s1, .fault fc a) => laneFault i s1 fc (allLanes m [a]) (.next s)
    | (s1, .ok _ _ _) => k s1

def cpytOp (i : Instr) (f : FP) (om : Bool) (s : State) : Out :=
  issue i s fun g =>
    let m := g.act f.p
    if m = 0 then done s
    else if uncommitted s g then waits s .stall
    else withSrcs i s g false [⟨.v (f.x.getD 0), 1, false, (List.range 4).map fun l => (l, l)⟩] fun s1 =>
      match s.team? g.team with
      | none => .next s
      | some t =>
        if copyFree s g.die g.core = 0 then waits s1 .stall
        else
          let addr := (g.rdS f.g.toNat).toNat
          let sv := (g.rdS f.sp.toNat).toNat % 2 ^ 32
          withRecord i s g m addr fun s2 r =>
            laneFault i s2 .prot (allLanes m (objProt t f)) <|
            laneFault i s2 .shape (allLanes m (if shapeBad om r then [addr] else if ringShape t f then [copyRing f] else [])) <|
            let d := if om then 0 else sv + 16 * f.disp.toNat
            let al := if recLayout r = 1 then 128 else recW r
            laneFault i s2 .align (allLanes m (if d % al != 0 then [d] else [])) <|
            laneFault i s2 .prot (allLanes m (if !om && decide (t.spadLen < d + recSize r) then [d] else [])) <|
            laneFault i s2 .slot (allLanes m (if om && (s2.frameOf g).badRef g.team sv then [sv] else [])) <|
            firstElem i s2 g m r (boxOrigin g f) fun s3 =>
              laneFault i s3 .barclob (allLanes m
                (if !om && touchesArmed t d (recSize r) then [d] else if ringArmed t f then [copyRing f] else [])) <|
              let s4 := { s3 with focus := s1.focus }
              done (addCmd s4 t { mkCmd s4 g f (if om then .cpytOm else .cpytSp) (unitChunks d (recSize r)) with
                recData := r, slot := sv, dst := d, coords := boxOrigin g f })

def execCpytOm (f : FP) (s : State) : Out := cpytOp (.cpytOm f) f true s
def execCpytSp (f : FP) (s : State) : Out := cpytOp (.cpytSp f) f false s

/-- Record cache entries of the group's context in [lo, hi) go (R332). -/
def dropRecs (s : State) (g : Group) (lo hi : Nat) : State :=
  let c := s.core g.die g.core
  s.setCore g.die g.core { c with recs := c.recs.filter fun e => !(e.ctx == g.ctx && decide (lo ≤ e.addr) && decide (e.addr < hi)) }

def execRcfence (f : FP) (s : State) : Out :=
  issue (.rcfence f) s fun g =>
    if g.act f.p = 0 then done s
    else
      let b := (g.rdS f.g.toNat).toNat
      done (dropRecs s g b (min (b + (g.rdS f.sp.toNat).toNat) (2 ^ 64)))

def execRcfenceAll (f : FP) (s : State) : Out :=
  issue (.rcfenceAll f) s fun g => if g.act f.p = 0 then done s else done (dropRecs s g 0 (2 ^ 64))

/-! ### The engine (R85, R94, R95, R315 to R317, R338) -/

/-- The command a `.seq` command follows has landed its last chunk, or is lost (R94). -/
def afterLanded (s : State) (c : Cmd) : Bool :=
  match c.after.bind s.cmd? with
  | none => true
  | some d => d.ended

/-- A burst of up to 16 chunks asks the umpire of the quad: 8 CU, class 1 (R315, R416). -/
def askBurst (s : State) (c : Cmd) : State := request s c.die c.core c.id 1 8 1 c.ctx

/-- ENGINE_START: a command whose ACQ and `.seq` allow starts; CPYT.om writes its slot's tag (R94, R328). -/
def execEngineStart (cmd : Nat) (s : State) : Out :=
  match s.cmd? cmd with
  | none => .next s
  | some c =>
    if c.started || !afterLanded s c || (c.acq && !earlierDone s c.preds c.id c.scope) then .next s
    else
      let fr := s.frame c.die c.core c.ctx
      let s1 := if c.kind == .cpytOm then s.setFrame c.die c.core { fr with tags := SMap.set noTag fr.tags c.slot (recTag c.recData) } else s
      .next ((askBurst s1 c).setCmd { c with started := true })

/-- One chunk more of the current burst: the reservation used, the next one asked for where chunks remain. -/
def takeCredit (s : State) (c : Cmd) : Option (State × Cmd) :=
  let left := decide (1 < (c.chunks.filter fun k => !k.read).length)
  let go := fun (s : State) (n : Nat) => (if n = 0 && left then askBurst s c else s, { c with credit := n })
  if 0 < c.credit then some (go s (c.credit - 1))
  else if granted s c.die c.core c.id 1 then some (go (useGrant s c.die c.core c.id 1) 15)
  else none

/-- What reading a chunk's source comes to. -/
inductive SrcRes where
  | ok (bs : List (Byte × Bad))
  | part (runs : List (Nat × List (Byte × Bad)))
  | miss
  | fault (c : FaultCode) (va : Nat)
deriving DecidableEq, Repr

/-- The bytes of a chunk's source now, or some of its plane bytes, where the rest is read in later steps (R288). -/
def chunkSrc (s : State) (c : Cmd) (k : Chunk) : State × SrcRes :=
  match c.kind with
  | .cpyIn => (k.lanes.foldl (fun s x => pullBytes s c.ctx c.die x.pa k.len) s,
      .ok (k.lanes.map fun x => opBytes s c.id c.die c.core x.pa k.len).flatten)
  | .cpyOut | .cpyr _ => (s, .ok (k.lanes.map fun x => spadBytes s c.team x.off k.len).flatten)
  | .cpytOm | .cpytSp =>
    match findElems s c (unitBoxes c.recData (k.doff - c.dst) k.len) with
    | (s1, .ok l) =>
      let rs := planeRuns k l
      let now := stepRuns s1 rs
      if now.length < rs.length then
        (pullRuns s1 c (now.map (·.2)), .part (now.map fun r => (r.1, opBytes s1 c.id c.die c.core r.2.1 r.2.2)))
      else
        let single := (l.map fun e => match e with
          | some (pas, len, _) => if pas.length < 2 then pas.map fun p => (p, len) else []
          | none => []).flatten
        (pullRuns s1 c (rs.map (·.2) ++ single), .ok (unitBytes c.recData (k.doff - c.dst) k.len (elemParts s1 c k l)))
    | (s1, .miss) => (s1, .miss)
    | (s1, .fault f a) => (s1, .fault f a)

/-- The part of a chunk's data that a lane gave. -/
def laneData (k : Chunk) (j : Nat) : List (Byte × Bad) := (k.data.drop (k.len * j)).take k.len

/-- The scratchpad writes of a chunk: offset and bytes, a higher lane later (R317). -/
def spadWrites (c : Cmd) (k : Chunk) : List (Nat × List (Byte × Bad)) :=
  match c.kind with
  | .cpyIn => ((List.range k.lanes.length).zip k.lanes).map fun x => (x.2.off, laneData k x.1)
  | .cpytSp => [(k.doff, k.data)]
  | _ => []

/-- Writes of an engine that lie in one line become one write of its die (R85). -/
def landLanes (s : State) (c : Cmd) (ws : List LaneWrite) : State :=
  (gatherLines ws).foldl (fun s x =>
    let a := { Acc.blank with id := s.nextId, seq := s.nextId, ctx := c.ctx, die := c.die, core := c.core, kind := .store,
                              place := .glob x.at_, va := x.va, vas := x.vas, len := 1, bytes := x.bytes, cmd := some c.id }
    if paFar x.at_ then s.addAcc { a with stage := .sent } else publishAcc (s.addAcc a) a) s

/-- The writes of a landed chunk that was counted into a command's object, while they are on their way (R99). -/
def addSight (s : State) (c : Cmd) (phase : Nat) (ids : List Nat) : State :=
  let left := fun (l : List Nat) => l.filter fun n => s.accs.any fun a => a.id == n && !a.performed 1
  if c.rel || (left ids).isEmpty then s
  else { s with sights := (s.sights.filter fun x => !(left x.ids).isEmpty) ++ [⟨c.team, 16 * c.bar, phase, ids⟩] }

/-- A chunk has become the writes numbered [lo, hi): what waited for the chunk waits for them (R99). -/
def chunkLanded (s : State) (c : Cmd) (k : Chunk) (lo hi : Nat) : State :=
  let ids := (List.range (hi - lo)).map fun i => lo + i
  let s1 := { s with accs := s.accs.map fun a => match a.kind with
      | .counted cs l => if cs.contains (c.id, k.n) then { a with kind := .counted (cs.filter fun x => x != (c.id, k.n)) (l ++ ids) } else a
      | _ => a }
  if k.counted then addSight s1 c k.phase ids else s1

/-- A chunk lands; one that meets an armed object does not, and its command is to be lost (R338). -/
def landChunk (s : State) (c : Cmd) (k : Chunk) : State :=
  let fin := fun (s1 : State) =>
    (chunkLanded s1 c k s.nextId s1.nextId).setCmd (c.setChunk { k with landed := true, lo := s.nextId, hi := s1.nextId })
  match c.kind with
  | .cpyOut =>
    if !mayPublish s c.die then s
    else fin (landLanes s c (((List.range k.lanes.length).zip k.lanes).map fun x => ⟨x.2.lane, x.2.pa, x.2.va, laneData k x.1⟩))
  | .cpytOm => if (s.team? c.team).isNone then s
    else fin (s.setFrame c.die c.core ((s.frame c.die c.core c.ctx).putBytes c.slot k.doff k.data))
  | .cpyr _ => s
  | .cpyIn | .cpytSp =>
    match s.team? c.team with
    | none => s
    | some t =>
      let ws := spadWrites c k
      if ws.any fun w => touchesArmed t w.1 w.2.length then s.setCmd { c with fw := .losing, faulted := some (.barclob, 0) }
      else fin (s.setTeam (ws.foldl (fun (t : Team) w => t.putMany w.1 w.2) t))

/-- ENGINE_LAND: a chunk's source is read, which uses up the current burst's credit unless a translation is missing (R315), then its
bytes land; a row of a drained tile lands. -/
def execEngineLand (cmd chunk : Nat) (s : State) : Out :=
  match s.mxop? cmd with
  | some m => .next (landTile s m chunk)
  | none =>
    match s.cmd? cmd with
    | none => .next s
    | some c =>
      match c.chunks.find? fun k => k.n == chunk with
      | none => .next s
      | some k =>
        if !c.started || c.fw != .engine || k.landed then .next s
        else if k.read then .next (landChunk s c k)
        else if c.faulted.isSome then .next s
        else if (takeCredit s c).isNone then .next s
        else match chunkSrc s c k with
          | (s1, .miss) => .next s1
          | (s1, .part rs) => .next (s1.setCmd (c.setChunk { k with runs := k.runs ++ rs }))
          | (s1, .ok bs) => .next (match takeCredit s1 c with
            | some (s2, c2) => s2.setCmd (c2.setChunk { k with read := true, data := bs })
            | none => s1)
          | (s1, .fault f a) => .next (match takeCredit s1 c with
            | some (s2, c2) => s2.setCmd { c2 with faulted := some (f, a),
                                                   bads := if f == .xlate then c.bads else c.bads ++ [(k.n, f, a)] }
            | none => s1)

/-- The atomic word a CPYR element applies: as a REDM at `.die`, at every NBV (R322). -/
def cpyrRmw (op : CpyrOp) (x : Nat) : Rmw :=
  match op with
  | .addS32 => ⟨.add, .s32, x, 0⟩
  | .addF32 => ⟨.add, .f32, x, 0⟩
  | .minS32 => ⟨.min, .s32, x, 0⟩
  | .maxS32 => ⟨.max, .s32, x, 0⟩
  | .or => ⟨.or, .n32, x, 0⟩

/-- DRAIN_APPLY of one element of a CPYR: read at its source if it has not been, and applied on the home value. -/
def drainElem (s : State) (cmd chunk : Nat) : State :=
  match s.cmd? cmd with
  | none => s
  | some c =>
    match c.kind, c.chunks.find? fun k => k.n == chunk with
    | .cpyr op, some k =>
      if !k.read || k.landed || c.fw != .engine then s
      else match k.lanes with
        | [] => s
        | l :: _ =>
          let h := homeDie l.pa
          let s1 := bumpVc s c.die
          let old := (List.range 4).map fun i => s.home.byte (l.pa + i)
          let r := cpyrRmw op (leNat (k.data.map (·.1)))
          let bytes := (atomBytes r old).map fun b => { b with bad := worse b.bad (worst k.data) }
          let a := { Acc.blank with
            id := s.nextId, seq := s.nextId, ctx := c.ctx, die := c.die, core := c.core, kind := .rmw r, place := .glob l.pa,
            va := l.va, len := 4, bytes := bytes, scope := .die, read := true, fin := true, stamp := (s1.die c.die).vc,
            cmd := some c.id }
          if !mayPublish s c.die || (h != c.die && !causal s h a) then s
          else
            let s2 := { s1 with accs := s1.accs ++ [a], nextId := s1.nextId + 1 }
            let s3 := if h = c.die then s2 else setVc s2 h c.die (a.stamp.getD c.die 0)
            let b := { a with cidx := nextIdx s3 a, stage := .serialized }
            (chunkLanded (atHome (s3.setAcc b) h b) c k s.nextId (s.nextId + 1)).setCmd (c.setChunk { k with landed := true, lo := s.nextId, hi := s.nextId + 1 })
    | _, _ => s

/-- DRAIN_APPLY (R96). -/
def execDrainApply (t : DrainTarget) (s : State) : Out :=
  match t with
  | .access id => .next (drainAccess s id)
  | .cpyr cmd elem => .next (drainElem s cmd elem)
  | .tile op q => .next (drainTile s op q)

/-- A chunk may be counted (R95). A global chunk without REL counts once read; a waiter that the count releases sees it all the same
(`seesChunks`, R99). -/
def mayCount (s : State) (c : Cmd) (k : Chunk) : Bool :=
  match c.kind with
  | .cpyIn | .cpytOm | .cpytSp => k.landed
  | .cpyOut | .cpyr _ =>
    if c.rel then k.landed && s.accs.all fun a => !(decide (k.lo ≤ a.id) && decide (a.id < k.hi)) || a.performed (Scope.rank c.scope)
    else k.read

/-- State of a barrier object of a team. -/
def objStateOf (s : State) (team o : Nat) : Nat := ((s.team? team).map fun t => objState t o).getD 0

/-- Phase of a barrier object of a team. -/
def objPhase (s : State) (team o : Nat) : Nat := ((s.team? team).map fun t => (readObj t o).phase).getD 0

/-- CHUNK_COUNT: a chunk's bytes are counted into the command's object, once (R316); while the team is saved, the count waits. -/
def execChunkCount (cmd chunk : Nat) (s : State) : Out :=
  match s.cmd? cmd with
  | none => .next s
  | some c =>
    match c.chunks.find? fun k => k.n == chunk with
    | none => .next s
    | some k =>
      if k.counted || !mayCount s c k || (s.team? c.team).isNone then .next s
      else
        let ph := objPhase s c.team (16 * c.bar)
        let s0 := if k.landed then addSight s c ph ((List.range (k.hi - k.lo)).map fun i => k.lo + i) else s
        let s1 := countInto s0 c.team (16 * c.bar) k.count
        let ovr := objStateOf s c.team (16 * c.bar) == 1 && objStateOf s1 c.team (16 * c.bar) == 2
        .next (s1.setCmd { c.setChunk { k with counted := true, phase := ph } with overran := c.overran || ovr })

/-! ### Completion records (R334, R335) -/

/-- One bit of CRC-32C, reflected. -/
def crcBit (c : Nat) : Nat := if c % 2 = 1 then (c / 2) ^^^ 0x82F63B78 else c / 2
def crcByte (c : Nat) (b : Nat) : Nat := crcBit (crcBit (crcBit (crcBit (crcBit (crcBit (crcBit (crcBit (c ^^^ b))))))))
def crc32c (bs : List Byte) : Nat := bs.foldl (fun c b => crcByte c b.toNat) (2 ^ 32 - 1) ^^^ (2 ^ 32 - 1)

/-- The payload: lane by lane, or in increasing destination offset (R335). -/
def payload (c : Cmd) : List Byte :=
  match c.kind with
  | .cpytOm | .cpytSp => ((c.chunks.map (·.data)).flatten).map (·.1)
  | _ => ((List.range 32).map fun l => (c.chunks.map fun k =>
      (((List.range k.lanes.length).zip k.lanes).filter fun x => x.2.lane == l).map fun x => laneData k x.1).flatten.flatten).flatten.map (·.1)

/-- The 32 B record. -/
def recordBytes (s : State) (c : Cmd) (num : Nat) : List Byte :=
  let lost := c.fw == .lost
  let fault := if lost then (match c.faulted with | some (f, _) => f.num | none => 0) else if c.overran then 0x0D else 0
  let st := if lost then 3 else if c.overran then 4 else if c.handed then 2 else 1
  leBytes 1 st ++ leBytes 1 fault ++ leBytes 2 0 ++ leBytes 4 ((c.chunks.filter (·.counted)).map (·.count)).sum
    ++ leBytes 4 (if lost then 0 else crc32c (payload c)) ++ leBytes 4 num ++ leBytes 8 s.gtb.toNat ++ leBytes 8 c.iaddr.toNat

/-- The event that a failed translation of a copy posts, and the wait for its reply (R336, R403). -/
def postXlate (s : State) (c : Cmd) (va : Nat) : State :=
  (postEvent s c.ctx 1 FaultCode.xlate.num va (Config.replyAddr c.id)).setCmd
    { c with fw := .reply, handed := true, faulted := some (.xlate, va) }

/-- The record cannot be written: it goes to the firmware path, which fails on it once it has retried, and not before every chunk has
landed (R337, R338); the record of a command already lost is retried too, after its own event and reply. -/
def recordFails (s : State) (c : Cmd) (f : FaultCode) (va : Nat) : State :=
  match c.fw with
  | .engine => s.setCmd { c with faulted := some (f, va), recBad := true }
  | .finish =>
    if c.chunks.any fun k => !k.landed then s
    else if f == .xlate && !c.retried.contains va then postXlate s { c with recBad := true } va
    else s.setCmd { c with fw := .losing, faulted := some (f, va), recBad := true }
  | _ =>
    if f == .xlate && !c.retried.contains va then
      (postEvent s c.ctx 1 FaultCode.xlate.num va (Config.replyAddr c.id)).setCmd { c with fw := .lostReply, retried := c.retried ++ [va] }
    else s.setCmd { c with recorded := true }

/-- The record may be written: after the last count, or once the command is lost. -/
def mayRecord (c : Cmd) : Bool :=
  c.cmp && !c.recorded && (match c.fw with
    | .engine => c.faulted.isNone && c.chunks.all (·.counted)
    | .finish => c.chunks.all (·.counted) && !(c.recBad && (c.faulted.map (·.1)) != some .xlate)
    | .lost => true
    | _ => false)

/-- Address of a command's completion record: entry NEXT of the ring (R334). -/
def recordVa (t : Team) (c : Cmd) : Nat :=
  let d := 16 * c.bar + 16
  (ringWord t d 8 + 32 * (ringWord t (d + 12) 4 % 2 ^ (ringWord t (d + 8) 4 % 32))) % 2 ^ 64

/-- COMPLETION_RECORD_WRITE: the record is written and NEXT rises in one step (R334); one whose descriptor lies in an armed object
cannot be written (R338). -/
def execCompletionRecordWrite (cmd : Nat) (s : State) : Out :=
  match s.cmd? cmd with
  | none => .next s
  | some c =>
    match s.team? c.team with
    | none => .next s
    | some t =>
      let d := 16 * c.bar + 16
      if !mayRecord c then .next s
      else if touchesArmed t d 16 then
        .next (recordFails s c .barclob d)
      else
        let num := ringWord t (d + 12) 4
        let va := recordVa t c
        let x := xlate1 s c.die c.core c.ctx c.id 0 va
        match x.2 with
        | .miss => .next x.1
        | .bad => .next (recordFails (takeFailed x.1 c.die c.ctx c.id [va]) c .xlate va)
        | .ok y =>
          if refused y.leaf c.sys .wr then .next (recordFails x.1 c .prot va)
          else if !mayPublish x.1 c.die then .next s
          else
            let s1 := landBytes x.1 c.die c.core c.ctx (some c.id) va y.pa (okBytes (recordBytes s c num))
            let s2 := s1.setTeam (t.putMany (d + 12) (okBytes (leBytes 4 (num + 1))))
            .next (s2.setCmd { c with recorded := true })

/-! ### The firmware path (R336, R337) -/

/-- FIRMWARE_HANDOVER: the chunks in flight have landed and the rest goes to an FE core; the entry is free. -/
def execFirmwareHandover (cmd : Nat) (s : State) : Out :=
  match s.cmd? cmd with
  | none => .next s
  | some c =>
    match c.fw, c.faulted with
    | .engine, some (f, va) =>
      if c.chunks.any fun k => k.read && !k.landed then .next s
      else if f == .xlate then .next (postXlate s c va)
      else .next (s.setCmd { c with fw := .finish, handed := true })
    | _, _ => .next s

/-- COPY_XLATE_REPLY: system software has replied; the firmware path retries, an address once (R336, R403). -/
def execCopyXlateReply (cmd : Nat) (s : State) : Out :=
  match s.cmd? cmd with
  | none => .next s
  | some c =>
    match c.fw with
    | .reply => .next (s.setCmd { c with fw := .finish, retried := c.retried ++ (c.faulted.map (·.2)).toList })
    | .lostReply => .next (s.setCmd { c with fw := .lost })
    | _ => .next s

/-- FIRMWARE_COPY_FINISH: the next remaining chunk in increasing destination offset; the first that cannot be completed, one that
met PROT or FMTATTR before the handover among them, ends the work, and so does a record that cannot be written (R336 to R338). -/
def execFirmwareCopyFinish (cmd : Nat) (s : State) : Out :=
  match s.cmd? cmd with
  | none => .next s
  | some c =>
    if c.fw != .finish then .next s
    else match c.chunks.find? fun k => !k.landed with
      | none => if c.recBad && (c.faulted.map (·.1)) != some .xlate then .next (s.setCmd { c with fw := .losing }) else .next s
      | some k =>
        match c.bads.find? fun b => b.1 == k.n with
        | some b => .next (s.setCmd { c with fw := .losing, faulted := some b.2 })
        | none =>
          match chunkSrc s c k with
          | (s1, .miss) => .next s1
          | (s1, .part rs) => .next (s1.setCmd (c.setChunk { k with runs := k.runs ++ rs }))
          | (s1, .fault f a) =>
            if f == .xlate && !c.retried.contains a then .next (postXlate s1 c a)
            else .next (s1.setCmd { c with fw := .losing, faulted := some (f, a) })
          | (s1, .ok bs) =>
            let k1 := { k with read := true, data := bs }
            .next (landChunk s1 (c.setChunk k1) k1)

/-- COPY_LOST: the landed chunks are counted, and the command's own object, if armed, is poisoned with COPYLOST (R337); while the
team is saved, the loss waits. -/
def execCopyLost (cmd : Nat) (s : State) : Out :=
  match s.cmd? cmd with
  | none => .next s
  | some c =>
    if c.fw != .losing || c.chunks.any fun k => k.landed && !k.counted then .next s
    else
      let c1 := { c with fw := .lost, recorded := c.recBad }
      match s.team? c.team with
      | none => .next s
      | some t =>
        let b := readObj t (16 * c.bar)
        .next ((if b.st = 1 then setObj s t (16 * c.bar) (poisonObj b 0x14) else s).setCmd c1)

/-! ### The end of a team (R290, R292, R314) -/

/-- Something of a team is still on its core. -/
def teamHeld (s : State) (t : Team) : Bool :=
  (s.allGroups.any fun g => g.team == t.id && !g.retired)
    || (s.parts.any fun p => (p.2.glades.any fun x => x.team == t.id) || (p.2.draws.any fun x => x.glade.team == t.id)
        || (p.2.pipes.any fun x => x.team == t.id))
    || (s.cmds.any fun c => c.team == t.id) || teamBusy s t.id || (s.qmoves.any fun m => m.team == t.id)
    || (s.accs.any fun a => match a.place with | .spad x _ => x == t.id && !a.isPoint && !a.performed 0 | _ => false)

/-- The arrays and slots of a team are free again. -/
def Frame.release (f : Frame) (team : Nat) : Frame :=
  let f1 := f.dropArrays team
  let mine := (f1.owner.filter fun x => x.2 == some team).map (·.1)
  { f1 with owner := f1.owner.filter fun x => x.2 != some team, tags := f1.tags.filter fun x => !mine.contains x.1 }

end Sys2Proof.Machine
end

