-- ==== Sys2Proof/Machine/Gates.lean ====
section
/-!
DEFINITION. Gate instructions, major 0xB8 (R356 to R362): the six functions rounded to nearest even from 384-bit fixed
point, cell updates with one rounding, and the write-back after 16 or 24 cycles.
-/
namespace Sys2Proof.Machine

/-! ### Fixed point -/

/-- Fraction bits of the fixed-point numbers; the functions are transcendental at every FP32 argument that is not listed as
a special case, so no value lies on a rounding boundary (log entry 5). -/
def fxBits : Nat := 384
def fxOne : Nat := 2 ^ fxBits

/-- Terms t, t·z, t·z², … each divided by its odd index: the sum of atanh with z = t². -/
def atanhGo (z : Nat) : Nat → Nat → Nat → Nat
  | 0, _, _ => 0
  | k + 1, n, t => t / n + atanhGo z k (n + 2) (t * z / fxOne)

/-- atanh of a fixed-point number of magnitude at most 1/3. -/
def fxAtanh (t : Nat) : Nat := atanhGo (t * t / fxOne) 160 1 t

/-- ln 2 = 2 atanh(1/3). -/
def fxLn2 : Nat := 2 * fxAtanh (fxOne / 3)

/-- Terms of the exponential series. -/
def expGo (y : Nat) : Nat → Nat → Nat → Nat
  | 0, _, _ => 0
  | k + 1, n, t => t + expGo y k (n + 1) (t * y / (n * fxOne))

/-- e^y for a fixed-point 0 ≤ y < 1. -/
def fxExp (y : Nat) : Nat := expGo y 100 1 fxOne

/-- 2^y for a fixed-point y: a fraction in [1, 2) and an exponent. -/
def fxExp2 (y : Int) : Nat × Int :=
  let k := y / (fxOne : Int)
  (fxExp ((y - k * fxOne).toNat * fxLn2 / fxOne), k)

/-- An exact finite number as fixed point, for exponents of −384 and above. -/
def fxOf (neg : Bool) (m : Nat) (e : Int) : Int :=
  let x : Nat := m * 2 ^ (e + fxBits).toNat
  if neg then -(x : Int) else x

/-- e^y for a fixed-point y. -/
def fxExpE (y : Int) : Nat × Int := fxExp2 (y * fxOne / fxLn2)

/-- A positive fixed-point number times 2^k, not exact, rounded to FP32. -/
def fxRound (neg : Bool) (m : Nat) (k : Int) : Nat := fF32.round .rne false neg m (k - fxBits) true

/-! ### The functions (R358) -/

/-- Where a finite value lies against 2^k. -/
def magBelow (m : Nat) (e k : Int) : Bool := m == 0 || decide ((bitLen m : Int) + e ≤ k)

/-- 1 / (1 + e^−x). -/
def sigmCode (x : FV) : Nat :=
  match x with
  | .nan _ => fF32.canon
  | .inf n => if n then 0 else 0x3F800000
  | .fin neg m e =>
    if m = 0 then 0x3F000000
    else if !magBelow m e 7 then (if neg then 0 else 0x3F800000)
    else
      let y := fxOf neg m e
      let r := fxExpE (-(y.natAbs : Int))
      let ex := r.1 * 2 ^ (fxBits + r.2).toNat / fxOne
      if neg then fxRound false (r.1 * fxOne / (fxOne + ex)) r.2 else fxRound false (fxOne * fxOne / (fxOne + ex)) 0

/-- tanh x; below 2^−13 it rounds to x, from 16 up to ±1. -/
def tanhCode (x : FV) : Nat :=
  match x with
  | .nan _ => fF32.canon
  | .inf n => fF32.signBit n + 0x3F800000
  | .fin neg m e =>
    if magBelow m e (-13) then fF32.round .rne false neg m e false
    else if !magBelow m e 4 then fF32.signBit neg + 0x3F800000
    else
      let r := fxExpE (2 * (fxOf false m e))
      let ex := r.1 * 2 ^ r.2.toNat
      fxRound neg ((ex - fxOne) * fxOne / (ex + fxOne)) 0

/-- 2^x. -/
def exp2Code (x : FV) : Nat :=
  match x with
  | .nan _ => fF32.canon
  | .inf n => if n then 0 else 0x7F800000
  | .fin neg m e =>
    if m = 0 then 0x3F800000
    else if !magBelow m e 8 then (if neg then 0 else 0x7F800000)
    else
      let y := fxOf neg m e
      if y % (fxOne : Int) = 0 then fF32.round .rne false false 1 (y / (fxOne : Int)) false
      else let r := fxExp2 y; fxRound false r.1 r.2

/-- log2 x. -/
def log2Code (x : FV) : Nat :=
  match x with
  | .nan _ => fF32.canon
  | .inf n => if n then fF32.canon else 0x7F800000
  | .fin neg m e =>
    if m = 0 then 0xFF800000
    else if neg then fF32.canon
    else
      let p := bitLen m - 1
      let k0 : Int := p + e
      if m = 2 ^ p then
        (if k0 = 0 then 0 else fF32.round .rne false (decide (k0 < 0)) k0.natAbs 0 false)
      else
        let u0 := m * fxOne / 2 ^ p
        let hi := 3 * fxOne < 2 * u0
        let u : Int := if hi then (u0 / 2 : Nat) else (u0 : Nat)
        let k := if hi then k0 + 1 else k0
        let d := u - fxOne
        let t := fxAtanh (d.natAbs * fxOne / (u.toNat + fxOne)) * 2 * fxOne / fxLn2
        let v : Int := k * fxOne + (if d < 0 then -(t : Int) else t)
        fxRound (decide (v < 0)) v.natAbs 0

/-- 1 / x. -/
def rcpCode (x : FV) : Nat :=
  match x with
  | .nan _ => fF32.canon
  | .inf n => fF32.signBit n
  | .fin neg m e =>
    if m = 0 then fF32.signBit neg + 0x7F800000
    else fF32.round .rne false neg (2 ^ 80 / m) (-80 - e) (2 ^ 80 % m != 0)

/-- 1 / √x. -/
def rsqCode (x : FV) : Nat :=
  match x with
  | .nan _ => fF32.canon
  | .inf n => if n then fF32.canon else 0
  | .fin neg m e =>
    if m = 0 then fF32.signBit neg + 0x7F800000
    else if neg then fF32.canon
    else
      let m2 := if e % 2 = 0 then m else 2 * m
      let e2 := if e % 2 = 0 then e else e - 1
      let r := isqrt (2 ^ 160 / m2)
      fF32.round .rne false false r (-80 - e2 / 2) (r * r * m2 != 2 ^ 160)

/-! ### Cell updates (R359, R360) -/

/-- An exact sum of products, one rounding; NaN and invalid cases first. -/
def sumProds (nbv : Nat) (ops : List FV) (ps : List (FV × FV)) : Nat :=
  if ops.any FV.isNan then nanResult nbv fF32 fF32 ops
  else
    let qs := ps.map fun p => p.1.mul p.2
    if qs.any Option.isNone then fF32.canon else fF32.sum .rne (qs.filterMap id)

/-- f·c + i·g. -/
def gatecCode (nbv f c i g : Nat) : Nat :=
  let d := fun n => fF32.dec (finF32 nbv n)
  foutF32 nbv (sumProds nbv [d f, d c, d i, d g] [(d f, d c), (d i, d g)])

/-- o · tanh c. -/
def gatehCode (nbv o c : Nat) : Nat :=
  let x := fF32.dec (finF32 nbv o)
  let y := fF32.dec (finF32 nbv c)
  if x.isNan || y.isNan then nanResult nbv fF32 fF32 [x, y]
  else match x.mul (fF32.dec (tanhCode y)) with
    | none => fF32.canon
    | some p => foutF32 nbv (fF32.ofFV .rne p)

/-- The new state and its error term, low half first. -/
def gateCompCode (nbv f c e i g : Nat) : Nat :=
  let d := fun n => fF32.dec (finF32 nbv n)
  let ps := [(d f, d c), (d f, d e), (d i, d g)]
  let c1 := sumProds nbv [d f, d c, d e, d i, d g] ps
  let e1 := match fF32.dec c1 with
    | .fin n m x => fF32.sum .rne ((ps.filterMap fun p => p.1.mul p.2) ++ [.fin (!n) m x])
    | _ => 0
  foutF32 nbv c1 + 2 ^ 32 * foutF32 nbv e1

/-! ### Issue and write-back (R356, R361) -/

/-- A gate instruction: its sources read, its lanes EMPTY, its result due after a number of cycles; a unit accepts one
instruction every 2 cycles. -/
def gateOp (i : Instr) (f : VR) (s : State) (cycles : Nat) (val : Group → Nat → Nat) : Out :=
  issue i s fun g =>
    match i.vsig with
    | none => done s
    | some (sg, _) =>
      withSrcs i s g false (vrSrcs sg f (g.act f.p)) fun s1 =>
        let ls := lanesOf (g.act f.p)
        let w := sg.dst.is64 f.ty
        let clk := s.clk g.die g.core
        let p := s.partOf g
        if dstBusy s g f.dst (if w then 2 else 1) ls then waits s .stall
        else if clk < p.gateBusy then waits s .stall
        else
          let vs := ls.map fun l => (l, val g l)
          let wb : GateWb := { n := s.nextId, major := 0xB8, dst := f.dst, vals := vs.map fun x => (x.1, BitVec.ofNat 32 x.2),
                               hi := if w then vs.map fun x => (x.1, BitVec.ofNat 32 (x.2 / 2 ^ 32)) else [], due := clk + cycles }
          let s2 := (s1.setPartOf g { p with gateBusy := clk + 2 }).oweDst g f.dst (if w then 2 else 1) ls
          done ({ s2 with nextId := s.nextId + 1 }.modG fun h => { h with gates := h.gates ++ [wb] })

/-- A function of one operand; NaNs by R148, subnormals by R150. -/
def gateFn (i : Instr) (f : VR) (s : State) (fn : FV → Nat) : Out :=
  gateOp i f s 16 fun g l =>
    let x := fF32.dec (finF32 g.nbv (s.rd32 g .f32 f.a l).toNat)
    if x.isNan then nanResult g.nbv fF32 fF32 [x] else foutF32 g.nbv (fn x)

def execSigm (f : VR) (s : State) : Out := gateFn (.sigm f) f s sigmCode
def execTanh (f : VR) (s : State) : Out := gateFn (.tanh f) f s tanhCode
def execExp2 (f : VR) (s : State) : Out := gateFn (.exp2 f) f s exp2Code
def execLog2 (f : VR) (s : State) : Out := gateFn (.log2 f) f s log2Code
def execRcp (f : VR) (s : State) : Out := gateFn (.rcp f) f s rcpCode
def execRsq (f : VR) (s : State) : Out := gateFn (.rsq f) f s rsqCode

/-- The halves of a pair operand in a lane (R357). -/
def pairLo (s : State) (g : Group) (o : Opnd) (l : Nat) : Nat := (s.rd64 g .f32 o l).toNat % 2 ^ 32
def pairHi (s : State) (g : Group) (o : Opnd) (l : Nat) : Nat := (s.rd64 g .f32 o l).toNat / 2 ^ 32

def execGatec (f : VR) (s : State) : Out :=
  gateOp (.gatec f) f s 16 fun g l =>
    gatecCode g.nbv (s.rd32 g .f32 f.a l).toNat (s.rd32 g .f32 f.b l).toNat (pairLo s g f.c l) (pairHi s g f.c l)

def execGateh (f : VR) (s : State) : Out :=
  gateOp (.gateh f) f s 24 fun g l => gatehCode g.nbv (s.rd32 g .f32 f.a l).toNat (s.rd32 g .f32 f.b l).toNat

def execGatecComp (f : VR) (s : State) : Out :=
  gateOp (.gatecComp f) f s 16 fun g l =>
    gateCompCode g.nbv (s.rd32 g .f32 f.a l).toNat (pairLo s g f.b l) (pairHi s g f.b l) (pairLo s g f.c l) (pairHi s g f.c l)

/-- One lane of a gate result: FULL, also where its thread has retired since (R129, R356). -/
def gateLane (s : State) (gid : Nat) (o : Opnd) (lane : Nat) (vals : List W32) : State :=
  match o with
  | .v n => lateWrote (s.modGroup gid fun g => vals.zipIdx.foldl (fun g x => g.setV (n.toNat + x.2) lane ⟨x.1, false, .ok⟩) g) gid
      ((List.range vals.length).map fun j => (n.toNat + j, lane))
  | _ => writeBack s gid o lane vals .ok

/-- A gate result written back: each of its lanes FULL. -/
def gateBack (s : State) (gid : Nat) (w : GateWb) : State :=
  let s1 := w.vals.foldl (fun s x =>
    gateLane s gid w.dst x.1 ([x.2] ++ ((w.hi.find? fun y => y.1 == x.1).map (·.2)).toList)) s
  s1.modGroup gid fun g => { g with gates := g.gates.filter fun y => y.n != w.n }

/-- GATE_WRITEBACK: a result whose cycle has come; a frozen partition holds it (R427). -/
def execGateWriteback (gid n : Nat) (s : State) : Out :=
  match s.anyGroup? gid with
  | none => .next s
  | some g =>
    match g.gates.find? fun w => w.n == n with
    | none => .next s
    | some w =>
      if s.clk g.die g.core < w.due then .next s
      else .next (holdLate s gid (.gate gid n) fun s => gateBack s gid w)

end Sys2Proof.Machine
end

