-- ==== Sys2Proof/Machine/System.lean ====
section
/-!
DEFINITION. System mode: taking a trap and returning from it (R363, R364, R367, R375 to R379), system instructions, majors
0xBC to 0xBE (R365 to R374), and the announced divisions (R80, R384).
-/
namespace Sys2Proof.Machine

/-! ### The frame (R377, R379) -/

/-- Index of the frame of a group: an iteration's lies above the groups' (R216, R377). -/
def frameIndex (g : Group) : Nat :=
  match g.iter with
  | some it => 32 + 8 * g.part + 4 * it.pipe + it.k % 4
  | none => g.grp

def frameVa (g : Group) : Nat := (g.trapbase.toNat + frameIndex g * 0x9000) % 2 ^ 64

/-- Bytes the core writes of a frame. -/
def frameLen : Nat := 0x8C00

def Role.num : Role → Nat
  | .copy => 0
  | .matrix => 1
  | .vector => 2

def b2n (b : Bool) : Nat := if b then 1 else 0

/-- Presence codes of a register, two bits a lane: FULL or poisoned; the lanes of a legacy half lie at 0 to 15. -/
def presBits (g : Group) (n : Nat) : Nat :=
  (List.range g.width).foldl (fun a l =>
    let x := g.laneV n l
    a + (if x.empty then 0 else if x.bad == .ok then 1 else 3) * 4 ^ l) 0

/-- The frame of a group: a fault with what it records, or a save. -/
def frameBytes (s : State) (g : Group) (code : Nat) (word addr : W64) (lanes : W32) (info : W64) (saved : Bool) : List Byte :=
  let kw := s.kword g
  let flags := b2n g.half.isSome + 2 * b2n g.iter.isSome + 4 * b2n g.sys + 8 * b2n saved + 16 * b2n (saved && g.pass)
  leBytes 8 g.hdr.toNat ++ leBytes 4 g.idx ++ leBytes 4 code ++ leBytes 8 word.toNat ++ leBytes 8 addr.toNat
    ++ leBytes 4 g.active.toNat ++ leBytes 4 lanes.toNat ++ leBytes 8 flags ++ leBytes 4 g.voidm.toNat ++ leBytes 4 g.nbv
    ++ leBytes 8 info.toNat
    ++ ((List.range 16).map fun n => leBytes 4 (g.rdK n).toNat).flatten
    ++ ((List.range 64).map fun n => leBytes 8 (if n < kSregs kw then (g.rdS n).toNat else 0)).flatten
    ++ ((List.range 256).map fun n => leBytes 8 (if n < kVregs kw then presBits g n else 0)).flatten
    ++ leBytes 8 g.bkpass.toNat ++ leBytes 4 (24 * g.part + g.slot) ++ leBytes 4 (Role.num g.role) ++ leBytes 368 0
    ++ ((List.range 256).map fun n => ((List.range 32).map fun l =>
        leBytes 4 (if n < kVregs kw && decide (l < g.width) then (g.laneV n l).val.toNat else 0)).flatten).flatten

/-- The value of n bytes of a frame at an offset. -/
def frN (fr : List (Byte × Bad)) (o n : Nat) : Nat := leNat (((fr.drop o).take n).map (·.1))

/-- v registers below the declared count in the active lanes, as a frame holds them: poisoned where its code is 11 or its
bytes are. -/
def frameV (g : Group) (kw : W64) (fr : List (Byte × Bad)) : Group :=
  (List.range (kVregs kw)).foldl (fun g n =>
    let pres := frN fr (0x280 + 8 * n) 8
    (lanesOf g.active).foldl (fun g l =>
      let o := 0xC00 + 128 * n + 4 * l
      let bad := if pres / 4 ^ l % 4 = 3 then Bad.poison else worst ((fr.drop o).take 4)
      g.setV n l ⟨BitVec.ofNat 32 (frN fr o 4), false, bad⟩) g) g

/-- What TRET and a resume restore from a frame, given the word at its PC; none where the frame fails the checks (R367). -/
def restore (g : Group) (kw : W64) (fr : List (Byte × Bad)) (w : W64) : Option Group :=
  let h := frN fr 0 8
  let i := frN fr 8 4
  let n := cCount w + 1
  let nbv := frN fr 0x34 4
  if h % 8 != 0 || cTag w != 7 || decide (5 < cClass w) || decide (n < i) || nbv == 0 || decide (3 < nbv) then none
  else
    let top := if g.iter.isSome then 12 else 16
    let g1 := (List.range top).foldl (fun (g : Group) j => g.wrK j (BitVec.ofNat 32 (frN fr (0x40 + 4 * j) 4))) g
    let g2 := (List.range 64).foldl (fun (g : Group) j => g.wrS j (BitVec.ofNat 64 (frN fr (0x80 + 8 * j) 8))) g1
    let g3 := frameV g2 kw fr
    let g4 := { g3 with voidm := BitVec.ofNat 32 (frN fr 0x30 4), nbv := nbv,
                        bkpass := BitVec.ofNat 64 (frN fr 0xA80 8), sys := (frN fr 0x28 8).testBit 2, pass := true,
                        clause := none, entered := false, sleep := .awake, trap := none, framed := false }
    some (if i = n then { g4 with hdr := BitVec.ofNat 64 (h + 8 * (n + 1)), idx := 0 }
          else { g4 with hdr := BitVec.ofNat 64 h, idx := i })

/-- The physical addresses of the 280 lines of a frame, from the translations of its first and its last line. -/
def frameLines (va : Nat) (xs : List Xl) : List (Nat × Nat) :=
  (List.range 280).filterMap fun j =>
    let a := va + 128 * j
    (xs.find? fun x => decide (x.base ≤ a) && decide (a < x.base + x.size)).map fun x => (a, x.pa + a - x.va)

/-! ### Stops (R364) -/

/-- The FE stops a context and reports it with a kind 2 event (R364, R403). -/
def stopContext (s : State) (cid code addr : Nat) : State :=
  match s.ctx? cid with
  | none => s
  | some c => if c.stopped.isSome then s else postEvent (s.setCtx { c with stopped := some code }) cid 2 code addr (Config.eventOpen s.tick 2)

/-- A trap that cannot be delivered: the group stops, its other state as it stands, and its context with it (R364). -/
def doubleFault (s : State) (g : Group) (t : FaultRec) : State :=
  stopContext (s.setGroup { g with stopped := true }) g.ctx t.code.num t.addr.toNat

/-! ### Taking a trap (R377) -/

/-- A long-latency write-back to the group is pending. -/
def owesLate (s : State) (g : Group) : Bool :=
  (s.accs.any fun a => a.gid == some g.gid && a.dst.isSome && !a.fin) || !g.gates.isEmpty
    || s.qmoves.any fun m => m.kind == .deq && m.gid == g.gid

/-- Step 2: the frame is written with ordinary writes of the group, which enter CB after its earlier accesses as a release
at `.core` does. Its PC and index are those of the fault (R375). -/
def writeFrame (s : State) (g : Group) (t : FaultRec) : State :=
  let va := frameVa g
  let r := xlateAll s g.die g.core g.ctx g.gid [(0, va), (0, va + frameLen - 128)]
  let xs := r.2.filterMap fun x => x.2.2.hit?
  if va % 128 != 0 then doubleFault s g t
  else if r.2.any fun x => x.2.2 == .miss then r.1
  else if r.2.any (fun x => x.2.2 == .bad) || xs.any fun x => refused x.leaf g.sys .wr then
    doubleFault (takeFailed r.1 g.die g.ctx g.gid [va, va + frameLen - 128]) g t
  else
    let bs := frameBytes s { g with hdr := t.hdr, idx := t.idx } t.code.num t.word t.addr t.lanes t.info false
    let as := (frameLines va xs).map fun p =>
      { gAcc g 0 .store (.glob p.2) p.1 128 false true .core with bytes := wbytes (okBytes ((bs.drop (p.1 - va)).take 128)) }
    (addAccs r.1 as).setGroup { g with framed := true }

/-- The group at the first clause of its handler, in system mode (step 4). DESIGN CHOICE (log entry 110): a legacy half that held its
slot's turn holds it still. -/
def enterHandler (g : Group) (entry : W64) : Group :=
  { g.jump entry with sys := true, trap := none, framed := false }

/-- Steps 3 and 4: the vector entry is read as a read of the group, and the group goes on at the handler's clause; a claim for the
clause it stood before is void (R416). -/
def readVector (s : State) (g : Group) (t : FaultRec) : State :=
  let va := (g.trapvec.toNat + 8 * t.code.num) % 2 ^ 64
  let r := xlate1 s g.die g.core g.ctx g.gid 0 va
  match r.2 with
  | .miss => r.1
  | .bad => doubleFault (takeFailed r.1 g.die g.ctx g.gid [va]) g t
  | .ok x =>
    if refused x.leaf g.sys .rd then doubleFault r.1 g t
    else
      let a := { gAcc g 0 .load (.glob x.pa) va 8 false false .core with id := r.1.nextId, seq := r.1.nextId }
      if blocked r.1.accs a then r.1
      else
        let e := leNat ((accRead r.1 a).map (·.1))
        let s1 := { stepRead r.1 g a with nextId := r.1.nextId + 1 }
        if e = 0 || e % 8 ≠ 0 then doubleFault s1 g t
        else
          dropClaim (s1.setGroup (enterHandler g (BitVec.ofNat 64 e))) g.die g.core g.gid

/-- TRAP_TAKE: a group that holds a fault has it delivered; in system mode, or where it cannot be delivered, the group and
its context stop. Outside system mode a group without one takes up the next that came meanwhile (log entry 98). -/
def execTrapTake (gid : Nat) (s : State) : Out :=
  match s.group? gid with
  | none => .next s
  | some g =>
    match g.trap with
    | none =>
      (match g.late with
       | r :: rest => if g.sys || g.stopped then .next s else .next (s.setGroup { g with trap := some r, late := rest, sleep := .awake })
       | [] => .next s)
    | some t =>
      if g.stopped || (s.partOf g).stop || (s.core g.die g.core).running != some g.ctx
          || ((s.ctx? g.ctx).bind (·.stopped)).isSome then .next s
      else if g.sys then .next (doubleFault s g t)
      else if owesLate s g then .next s
      else if g.framed then .next (readVector s g t)
      else .next (writeFrame s g t)

/-! ### TRET (R367) -/

/-- A check of the frame fails: a double fault of code FRAME, which TRAP_TAKE does not deliver (R364). -/
def badFrame (i : Instr) (s : State) (addr : Nat) : Out := raise s i .frame (BitVec.ofNat 64 addr) 0 0

/-- The word at the frame's PC, read as a code fetch. -/
def tretWord (s : State) (g : Group) (h : Nat) : State × Fetched :=
  match s.team? g.team with
  | none => (s, .fault .frame)
  | some t => if h % 8 != 0 || decide (h < t.secLo) || decide (t.secHi < h + 8) then (s, .fault .frame) else fetchWord s g h false

/-- FLAGS bit 4 of the frame is cleared, as a write of the group. -/
def clearFlag (s : State) (g : Group) (fr : List (Byte × Bad)) (line0 : Nat × Nat) : State :=
  if (frN fr 0x28 8).testBit 4 then
    addAccs s [{ gAcc g 0xBC .store (.glob line0.2) line0.1 1 false false .core with
      bytes := [⟨0x28, BitVec.ofNat 8 (frN fr 0x28 1 - 16), .ok⟩] }]
  else s

def execTret (f : FY) (s : State) : Out :=
  issue (.tret f) s fun g =>
    if g.act f.p = 0 then done s
    else
      let va := frameVa g
      let r := xlateAll s g.die g.core g.ctx g.gid [(0, va), (0, va + frameLen - 128)]
      let xs := r.2.filterMap fun x => x.2.2.hit?
      if va % 128 != 0 then badFrame (.tret f) s va
      else if r.2.any fun x => x.2.2 == .miss then waits r.1 .stall
      else if r.2.any fun x => x.2.2 == .bad then
        raise (takeFailed r.1 g.die g.ctx g.gid [va, va + frameLen - 128]) (.tret f) .xlate (BitVec.ofNat 64 va) 0 0
      else if xs.any fun x => refused x.leaf g.sys .rd then raise r.1 (.tret f) .prot (BitVec.ofNat 64 va) 0 0
      else
        let as := (frameLines va xs).map fun p =>
          { gAcc g 0xBC .load (.glob p.2) p.1 128 false false .core with id := s.nextId, seq := s.nextId }
        if as.any fun a => blocked r.1.accs a then waits r.1 .stall
        else
          let fr := (as.map fun a => accRead r.1 a).flatten
          let h := frN fr 0 8
          let w := tretWord r.1 g h
          let s1 := as.foldl (fun s a => stepRead s g a) w.1
          match w.2 with
          | .miss => waits w.1 .stall
          | .fault _ => badFrame (.tret f) s1 h
          | .word hw =>
            match restore g (s.kword g) fr hw with
            | none => badFrame (.tret f) s1 h
            | some g1 =>
              if uncommitted s g && (frN fr 0x28 8).testBit 4 then waits w.1 .stall
              else .next ((clearFlag s1 g fr ((frameLines va xs).headD (0, 0))).modG fun _ => g1)

/-! ### TRAP, MARK, BKPT -/

/-- TRAP: SWTRAP with n in the info word (R366). -/
def execTrap (f : FY) (s : State) : Out :=
  issue (.trap f) s fun g =>
    if g.act f.p = 0 then done s else raise s (.trap f) .swtrap 0 0 (f.imm.setWidth 64)

/-- The 32 B record of a MARK (R435). -/
def markRec (s : State) (g : Group) (tag : Nat) (x : W64) : List Byte :=
  leBytes 1 1 ++ leBytes 1 0 ++ leBytes 2 (partNo g.core g.part) ++ leBytes 4 tag ++ leBytes 8 x.toNat ++ leBytes 8 s.gtb.toNat
    ++ leBytes 8 (g.hdr.toNat % 2 ^ 52 * 2 ^ 12 + g.idx)

def execMark (f : FY) (s : State) : Out :=
  issue (.mark f) s fun g =>
    if g.act f.p = 0 then done s
    else done (traceAdd s g.die 0 (markRec s g f.imm.toNat (g.rdSc f.a)))

/-- A control word or an address that BKPT refuses (R369). -/
def bkptBad (addr ctl : W64) : Bool :=
  let len := fldN ctl 8 4
  let kind := fldN ctl 0 2
  fldN ctl 12 52 != 0 || fldN ctl 3 5 != 0 || decide (7 < len) || (kind == 1 && len != 0)
    || (kind == 1 && addr.toNat % 8 != 0) || (decide (2 ≤ kind) && addr.toNat % 2 ^ len != 0)

def execBkpt (f : FY) (s : State) : Out :=
  issue (.bkpt f) s fun g =>
    if g.act f.p = 0 then done s
    else
      let addr := g.rdSc f.a
      let ctl := g.rdSc f.b
      if bkptBad addr ctl then raise s (.bkpt f) .ill g.iaddr 0 0
      else match s.ctx? g.ctx with
        | none => done s
        | some c =>
          let n := f.imm.toNat
          done (s.setCtx { c with bkpts := (c.bkpts.filter fun b => b.1 != n) ++ [(n, ⟨addr, ctl, g.team⟩)] })

/-! ### LNCH (R370) -/

/-- The queue fields of LNCH in the layout of the queue instructions. -/
def lnchQ (f : FY) : FQ :=
  { p := f.p, dst := f.dst, a := f.a, b := f.b, base := match f.a with | .s n => n | _ => 0, obj := 0, acq := false, rel := false,
    scope := .core }

def execLnch (f : FY) (s : State) : Out :=
  issue (.lnch f) s fun g =>
    if g.act f.p = 0 then done s
    else if uncommitted s g then waits s .stall
    else withQpage (.lnch f) (lnchQ f) (retrying s g) g fun s1 _ _ =>
      let pk := (g.rdSc f.b).toNat
      withGlob (.lnch f) s1 g ⟨.rd, 128, fun _ => 1, none, fun _ => none, []⟩ true [(0, pk)] fun s2 xs =>
        withQueue (.lnch f) (lnchQ f) s2 g fun s3 a pa q =>
          if q.f 6 16 1 != 1 then raise s3 (.lnch f) .prot (BitVec.ofNat 64 a) 0 0
          else if q.st != 0 then raise s3 (.lnch f) .qclosed (BitVec.ofNat 64 a) 0 0
          else if q.free == 0 then sleepOn s3 g pa q true
          else reserveEnq (.lnch f) s3 g pa q { blankMove g .lnch with src := (xs.map (·.pa)).headD 0, srcVa := pk, major := 0xBD }
            fun n h => h.putS f.dst (BitVec.ofNat 64 n)

/-! ### BUDGET (R371) -/

/-- The budget left, and the state once the budget is set. -/
def budgetOp (i : Instr) (f : FY) (set : Bool) (s : State) : Out :=
  issue i s fun g =>
    if g.act f.p = 0 then done s
    else match s.ctx? g.ctx with
      | none => done (s.modG fun h => h.putS f.dst 0)
      | some c =>
        let left := c.budget - c.energy
        let s1 := if set then s.setCtx { c with budget := min (c.energy + (g.rdSc f.a).toNat) (2 ^ 64 - 1) } else s
        done (s1.modG fun h => h.putS f.dst (BitVec.ofNat 64 left))

def execBudget (f : FY) (s : State) : Out := budgetOp (.budget f) f false s
def execBudgetSet (f : FY) (s : State) : Out := budgetOp (.budgetSet f) f true s

/-! ### TLBI (R373) -/

/-- The entry's page meets [lo, hi). -/
def TlbEntry.meets (e : TlbEntry) (ctx lo hi : Nat) : Bool := e.ctx == ctx && decide (lo < hi) && decide (e.va < hi) && decide (lo < e.va + e.size)

/-- The page that a walk is for, as address and size: that of the tables as they stand, else its 64 KiB. -/
def walkPage (s : State) (w : Walk) : Nat × Nat :=
  match walk s w.die (((s.ctx? w.ctx).map (·.root)).getD 0) (w.va * 65536) with
  | some e => (w.va * 65536 / e.2 * e.2, e.2)
  | none => (w.va * 65536, 65536)

/-- A walk is for a page that meets [lo, hi), or for one of which an entry is removed. -/
def walkMeets (s : State) (es : List TlbEntry) (ctx lo hi : Nat) (w : Walk) : Bool :=
  let p := walkPage s w
  w.ctx == ctx && decide (lo < hi) && ((decide (p.1 < hi) && decide (lo < p.1 + p.2)) || es.any fun e => e.hits ctx (w.va * 65536))

/-- Every TLB entry of the package that a range of a context matches. -/
def tlbiFound (s : State) (ctx lo hi : Nat) : List TlbEntry :=
  ((s.cores.map fun c => c.2.tlb).flatten ++ (s.dies.map fun d => d.2.tlb).flatten).filter fun e => e.meets ctx lo hi

/-- An address lies on one of a list of pages. -/
def onPages (es : List TlbEntry) (va n : Nat) : Bool := es.any fun e => decide (va < e.va + e.size) && decide (e.va < va + n)

/-- The bytes of an access lie on one of a list of pages; an add-on-store touches rows of 64 B. -/
def Acc.onPages (es : List TlbEntry) (a : Acc) : Bool :=
  a.vas.any fun v => Machine.onPages es v (if a.isRmw && a.cmd.isSome then min a.len 64 else a.len)

/-- A copy command captured a translation of one of a list of pages, and has not landed (R336). -/
def Cmd.onPages (es : List TlbEntry) (c : Cmd) : Bool :=
  (c.chunks.any fun k => !k.landed) && c.chunks.any fun k => k.lanes.any fun l => Machine.onPages es l.va k.len

/-- Numbers of the accesses, commands, operations, moves and walks that a TLBI waits for. -/
def tlbiWaits (s : State) (ctx lo hi : Nat) (es : List TlbEntry) : List Nat :=
  ((s.accs.filter fun a => a.ctx == ctx && !a.isSpad && !a.isPoint && a.onPages es).map (·.id))
    ++ ((s.cmds.filter fun c => c.ctx == ctx && c.onPages es).map (·.id))
    ++ ((s.mxops.filter fun (m : MxOp) => m.ctx == ctx && m.g && m.qs.any fun q => (List.range 16).any fun r =>
        onPages es (q.base + r * q.pitch) 64).map (·.id))
    ++ ((s.qmoves.filter fun m => m.ctx == ctx && (onPages es m.va m.esz || (m.kind == .lnch && m.moved == 0 && onPages es m.srcVa 128))).map (·.id))
    ++ ((s.dies.map fun d => (d.2.walks.filter fun w => !w.failed && walkMeets s es ctx lo hi w).map
        (·.id)).flatten)

/-- The entries that a range matches are gone from every TLB and code cache; walks under way for it are to be discarded, and what a
failed walk has found is forgotten. -/
def tlbiRemove (s : State) (ctx lo hi : Nat) : State :=
  let es := tlbiFound s ctx lo hi
  let s1 := (s.cores.map (·.1)).foldl (fun (s : State) n =>
    let c := s.core (n / 48) (n % 48)
    s.setCore (n / 48) (n % 48) { c with
      tlb := c.tlb.filter fun e => !e.meets ctx lo hi,
      code := c.code.filter fun w => !(w.ctx == ctx && (onPages es w.va 8 || (decide (lo < hi) && decide (w.va < hi) && decide (lo < w.va + 8)))) }) s
  (s.dies.map (·.1)).foldl (fun (s : State) n =>
    let d := s.die n
    s.setDie n { d with
      tlb := d.tlb.filter fun e => !e.meets ctx lo hi,
      walks := (d.walks.filter fun w => !(w.failed && walkMeets s es ctx lo hi w)).map fun w =>
        if walkMeets s es ctx lo hi w then { w with dead := true } else w }) s1

/-- TLBI over [lo, hi) of the group's context: entries removed once, then a barrier wait. -/
def tlbiOp (i : Instr) (f : FY) (s : State) (range : Group → Nat × Nat) : Out :=
  issue i s fun g =>
    if g.act f.p = 0 then done s
    else match g.waitFor with
      | some ids =>
        if ids.any (tlbiHeld s) then waits s .barrier else done (s.modG fun h => { h with waitFor := none })
      | none =>
        if !writesDone s g then waits s .barrier
        else
          let r := range g
          let ids := tlbiWaits s g.ctx r.1 r.2 (tlbiFound s g.ctx r.1 r.2)
          waits ((tlbiRemove s g.ctx r.1 r.2).modG fun h => { h with waitFor := some ids }) .barrier

def execTlbiPage (f : FY) (s : State) : Out :=
  tlbiOp (.tlbiPage f) f s fun g => ((g.rdSc f.a).toNat, (g.rdSc f.a).toNat + 1)
def execTlbiRange (f : FY) (s : State) : Out :=
  tlbiOp (.tlbiRange f) f s fun g =>
    ((g.rdSc f.a).toNat, min ((g.rdSc f.a).toNat + (g.rdSc f.b).toNat) (2 ^ 64))
def execTlbiAll (f : FY) (s : State) : Out := tlbiOp (.tlbiAll f) f s fun _ => (0, 2 ^ 64)

/-! ### PCHK and NETCFG (R372, R374) -/

/-- The word PCHK writes for a leaf. -/
def pchkWord (sys : Bool) (leaf : W64) (size : Nat) : Nat :=
  2 ^ 63 + leafFmt leaf * 2 ^ 56 + leafGeom leaf * 2 ^ 48 + (if size = 2 ^ 30 then 2 else if size = 2 ^ 21 then 1 else 0) * 2 ^ 46
    + fldN leaf 13 1 * 2 ^ 45 + fldN leaf 11 2 * 2 ^ 43 + fldN leaf 5 4 * 2 ^ 39 + (if sys then fldN leaf 16 36 else 0)

def execPchk (f : FY) (s : State) : Out :=
  issue (.pchk f) s fun g =>
    if g.act f.p = 0 then done s
    else
      let va := (g.rdSc f.a).toNat
      let r := xlate1 s g.die g.core g.ctx g.gid 0 va
      match r.2 with
      | .miss => waits r.1 .stall
      | .bad => done ((takeFailed r.1 g.die g.ctx g.gid [va]).modG fun h => h.putS f.dst 0)
      | .ok x => done (r.1.modG fun h => h.putS f.dst (BitVec.ofNat 64 (pchkWord g.sys x.leaf x.size)))

/-- A value that would place a field of NBCFG outside its range (R249). -/
def nbcfgBad (x : W64) : Bool := fldN x 21 43 != 0 || fldN x 4 6 != 0 || decide (fldN x 10 11 < 8) || decide (1024 < fldN x 10 11)

/-- The dies a NETCFG writes. -/
def netcfgDies (g : Group) (sel : Nat) : List Nat :=
  if sel / 32 < 4 then [sel / 32] else if sel / 32 = 4 then [0, 1, 2, 3] else [g.die]

def execNetcfg (f : FY) (s : State) : Out :=
  issue (.netcfg f) s fun g =>
    if g.act f.p = 0 then done s
    else
      let sel := f.imm.toNat
      let x := g.rdSc f.a
      if sel % 32 = 0 && nbcfgBad x then raise s (.netcfg f) .ill g.iaddr 0 0
      else done ((netcfgDies g sel).foldl (fun (s : State) d =>
        if sel % 32 = 0 then s.setDie d { s.die d with nbcfg := x }
        else s.setDie d { s.die d with nvt := (s.die d).nvt.map fun e => if e.1 + 1 = sel % 32 then (e.1, x) else e }) s)

/-! ### Announced encodings (R80, R384) -/

/-- RSVD, whatever the predicate; no other state changes. -/
def announced (i : Instr) (s : State) : Out :=
  match s.focus with
  | none => .fault .noIssuer
  | some g => if g.trap.isSome || g.stopped then .next s else raise s i .rsvd g.iaddr 0 0

def execIdivs (f : VR) (s : State) : Out := announced (.idivs f) s
def execIdivu (f : VR) (s : State) : Out := announced (.idivu f) s

end Sys2Proof.Machine
end

