-- ==== Sys2Proof/Machine/Saves.lean ====
section
/-!
DEFINITION. Pre-emption: save requests and their deferral, switches between resident contexts, core images written to and
loaded from a context's save area (R117, R231 to R233, R250, R251, R270, R380 to R383, R388).
-/
namespace Sys2Proof.Machine

/-! ### Device partitions and the save area (R387, R388) -/

/-- Partition number of a quad of a die; 31 is none. -/
def pnum (s : State) (die q : Nat) : Nat := fldN (s.die die).qpart (5 * q) 5

/-- The quads of this package in a device partition, in increasing die and number; a quad of number 31 is in none. -/
def partQuads (s : State) (id : BitVec 16) : List (Nat × Nat) :=
  if id.toNat / 1024 != s.pkg || decide (30 < id.toNat % 1024) then []
  else (((List.range 4).map fun d => (List.range 12).map fun q => (d, q)).flatten).filter fun x =>
    pnum s x.1 x.2 == id.toNat % 1024

/-- A front-end core runs: bring-up has started it (R445) and it has not halted. -/
def feUp (s : State) (die fe : Nat) : Bool := decide (2 ≤ s.upStep) && (s.die die).fe.getD fe true == false

/-- Some front-end core of a die runs. -/
def feDie (s : State) (die : Nat) : Bool := (List.range 4).any fun k => feUp s die k

/-- The cores of a granted partition: package, die, core. -/
def grantCores (s : State) (c : Context) (p : BitVec 16) : List (Nat × Nat × Nat) :=
  let here := ((partQuads s p).map fun x => (List.range 4).map fun j => (x.1, 4 * x.2 + j)).flatten
  let far := ((c.far.find? fun x => x.1 == p.toNat).map (·.2)).getD []
  (if p.toNat / 1024 == s.pkg then here else far).map fun x => (p.toNat / 1024, x.1, x.2)

/-- The cores of a context's granted partitions in the order of its save area. -/
def savedCores (s : State) (c : Context) : List (Nat × Nat × Nat) := ((c.home :: c.granted).eraseDups.map (grantCores s c)).flatten

/-- Index of the image of a core. -/
def imageIndex (s : State) (c : Context) (die core : Nat) : Nat := ((savedCores s c).findIdx? fun x => x == (s.pkg, die, core)).getD 0

/-- Bytes the front end reads at a virtual address of a context; what does not translate reads 0. -/
def feRead (s : State) (c : Context) (die va n : Nat) : List (Byte × Bad) :=
  (List.range n).map fun i => match fePa s c die (va + i) with
    | some pa => dieByte s die pa
    | none => (0, .ok)

/-- What an operation of the front end so reads: poison, where the host completes its reads with an error (R441). -/
def feReadBy (s : State) (op : Nat) (c : Context) (die va n : Nat) : List (Byte × Bad) :=
  (List.range n).map fun i => match fePa s c die (va + i) with
    | some pa => if paHost pa && s.hostErr.contains op then (0, .poison) else dieByte s die pa
    | none => (0, .ok)

/-- The die whose front end acts for another: the die itself, or the lowest with a running front-end core (R404). -/
def actDie (s : State) (die : Nat) : Nat :=
  if feDie s die then die else ((List.range 4).find? fun d => feDie s d).getD die

/-- Bytes the front end of a die publishes there at a virtual address of a context, in pieces within a line: writes like any other
(R85, R90, R398). -/
def feLand (s : State) (c : Context) (die va : Nat) (bs : List (Byte × Bad)) : State :=
  (splitLines bs.length va bs).foldl (fun s x => match fePa s c die x.1 with
    | some pa => landBytes s die 48 c.id none x.1 pa x.2
    | none => s) s

/-- The front end has read the bytes of a region of a context to a die, line by line (R426). -/
def feMoved (s : State) (c : Context) (die va n : Nat) : State :=
  (List.range (n / 128)).foldl (fun s i => match fePa s c die (va + 128 * i) with
    | some pa => pullBytes s c.id die pa 128
    | none => s) s

/-- The directory entry of a core's image (R388): 0 empty, 1 resident, 2 streaming, 3 saved. -/
def dirWrite (s : State) (c : Context) (die core state gtb : Nat) : State :=
  feLand s c die (c.save + 16 * imageIndex s c die core)
    (okBytes (leBytes 1 die ++ leBytes 1 core ++ leBytes 2 0 ++ leBytes 4 state ++ leBytes 8 gtb))

def Context.rec? (c : Context) (die core : Nat) : Option SaveRec := c.saves.find? fun r => r.die == die && r.core == core

def Context.setRec (c : Context) (r : SaveRec) : Context :=
  { c with saves := c.saves.map fun x => if x.die == r.die && x.core == r.core then r else x }

/-- GTB of the last completed save on a core (R388). -/
def Context.lastGtb (c : Context) (die core : Nat) : Nat := SMap.get 0 c.lastSave (48 * die + core)

/-! ### Requests and deferral (R250, R380, R383) -/

/-- SAVE_REQUEST: the FE asks that a context leave a core; the deferral limit is PDEFER's now. -/
def execSaveRequest (ctx die core : Nat) (s : State) : Out :=
  match s.ctx? ctx with
  | none => .next s
  | some c =>
    match c.rec? die core with
    | some r =>
      if r.st == .resident then
        .next (s.setCtx (c.setRec { r with st := .requested, forced := false, asked := s.gtb.toNat,
                                               frozen := if frozenOn s ctx die core then some s.gtb.toNat else none, due := s.gtb.toNat + 1000 * fldN s.pdefer 0 10 }))
      else .next s
    | none => .next s

/-- PREEMPT_DEFER_EXPIRY: the deferral has lasted its limit and the save is forced (R250). -/
def execPreemptDeferExpiry (ctx die core : Nat) (s : State) : Out :=
  match s.ctx? ctx with
  | none => .next s
  | some c =>
    match c.rec? die core with
    | some r => if r.st == .requested && r.due ≤ s.gtb.toNat && !frozenOn s ctx die core then .next (s.setCtx (c.setRec { r with st := .forced, forced := true })) else .next s
    | none => .next s

/-! ### Stop points (R380) -/

/-- The group waits for phase 1 of a queue operation, its sources read (R270). -/
def beforePhase1 (s : State) (g : Group) : Bool :=
  readable s g && match g.instr? with
    | some (.enq _) | some (.enqt _) | some (.deq _) | some (.deqt _) | some (.lnch _) => true
    | _ => false

/-- A group is at its stop point: a clause entry, or one of the waits that restart on resume. -/
def atStop (s : State) (g : Group) : Bool :=
  g.stopped || g.retired || (g.trap.isNone && (g.late.isEmpty || g.sys) && !cancelled s g && (!g.entered ||
    (match g.sleep with
     | .full _ | .empty _ | .woken _ _ | .waitl _ _ | .rewoken | .passed => true
     | .barrier => (match g.instr? with
       | some (.barwait _) | some (.netwait _) | some (.netarr _) => true
       | _ => false)
     | .window => (match g.instr? with
       | some (.pjoin _) => true
       | _ => false)
     | .stall => beforePhase1 s g
     | _ => false)))

def onCore (s : State) (ctx die core : Nat) : List Group :=
  s.groups.filter fun g => g.ctx == ctx && g.die == die && g.core == core

/-- Every group of a context on a core is at its stop point. -/
def allAtStop (s : State) (ctx die core : Nat) : Bool :=
  (onCore s ctx die core).all (atStop s) && (s.focus.map fun g => g.ctx == ctx && g.die == die && g.core == core) != some true

/-- Passes of a context that a core has started end before it runs another; queued ones stay queued, but those of a context that is
being saved, which waits for them (R312, R380). -/
def passesHold (s : State) (ctx die core : Nat) : Bool :=
  s.mxops.any fun (m : MxOp) => m.ctx == ctx && m.die == die && m.core == core && !m.over s
    && ((isPass m.kind && (if m.running then !m.dense else granted s die core m.id 2))
      || ((s.ctx? ctx).bind fun c => (c.rec? die core).map (·.st)) == some SaveSt.streaming)

/-- The sleepers of WAITL of a context that leaves its core complete, and stand past it, at their stop point (R190, R380). -/
def endWaitl (s : State) (ctx die core : Nat) : State :=
  { s with groups := s.groups.map fun g =>
      if g.ctx == ctx && g.die == die && g.core == core then
        (match g.sleep with
         | .waitl _ _ | .rewoken =>
           let h := g.advance
           if h.entered then { h with sleep := .passed } else h
         | _ => g)
      else g }

/-- CONTEXT_SWITCH: the core runs another resident context once the one that runs has reached its stop points; no state
moves. DESIGN CHOICE (log entry 128): so the groups of each context keep their active places and their fast files, and each context has 8
places of its own (R118). -/
def execContextSwitch (die core ctx : Nat) (s : State) : Out :=
  let k := s.core die core
  match (k.frames.find? fun f => f.ctx == ctx), s.ctx? ctx with
  | some _, some c =>
    if (c.rec? die core).map (·.st) == some SaveSt.streaming then .next s
    else match k.running with
      | none => .next (s.setCore die core { k with running := some ctx })
      | some a =>
        if a = ctx || !stopping s a die core || !allAtStop s a die core || frozenOn s a die core || passesHold s a die core then .next s
        else
          let s0 := endWaitl s a die core
          let s1 := match s.ctx? a with
            | some b => (match b.rec? die core with
              | some r => if r.st == SaveSt.streaming then s0 else s0.setCtx (b.setRec { r with st := .resident })
              | none => s0)
            | none => s0
          .next (s1.setCore die core { k with running := some ctx })
  | _, _ => .next s

/-! ### The pipe record (R232) -/

def strideBits (n : Nat) : Nat := if n = 4 then 0 else if n = 8 then 1 else 2

/-- The lines of a held iteration's hold buffer: line address with its stores merged; a scratchpad line stands above
2^60. DESIGN CHOICE (log entry 111): the address is the virtual one, or the bare scratchpad offset, with nothing that tells the two
apart. DESIGN CHOICE (log entry 133): order and scope are those of the last store to the line. -/
def holdLines (s : State) (gid : Nat) : List (List Byte) :=
  let mine := s.accs.filter fun a => a.stage == .held && a.gid == some gid
  (heldLines s gid).map fun l =>
    let here := mine.filter fun a => (if a.isSpad then 2 ^ 60 else 0) + a.va / 128 == l
    let cells := here.foldl (fun (m : List (Nat × Option Byte)) a => a.bytes.foldl (fun m b =>
      SMap.set none m ((a.va + b.off) % 128) (some b.val)) m) []
    let mask := cells.foldl (fun n x => n + 2 ^ x.1) 0
    let ord := match here.getLast? with
      | some a => (if a.rel then 2 else 0) * 8 + Scope.code a.scope
      | none => 0
    leBytes 8 (l % 2 ^ 60 * 128) ++ leBytes 16 mask
      ++ ((List.range 128).map fun o => ((SMap.get none cells o).getD 0)) ++ leBytes 8 ord

/-- State of iteration k as the record codes it. -/
def iterCode (q : Pipe) (k : Nat) : Nat :=
  match q.iter? k with
  | none => 0
  | some x => (match x.st with | .running => 1 | .pended => 2 | .broken => 3) + 4 * b2n x.cancelled + 8 * b2n (q.held && x.committed)

/-- The lowest iteration that has not retired. -/
def lowestLive (q : Pipe) : Nat := ((List.range q.launched).find? fun k => !q.gone k).getD q.launched

/-- The iteration whose stores a position's hold buffer may hold: running, or retired by PEND or by a PBRK of its own and still to
be committed. -/
def holderAt (q : Pipe) (m : Nat) : Option Nat :=
  ((q.iters.filter fun x => (x.st == .running || (!x.committed && !x.cancelled)) && x.k % 4 == m).getLast?).map (·.gid)

def pad (n : Nat) (bs : List Byte) : List Byte := bs ++ List.replicate (n - bs.length) 0

/-- The 21,632 B of a pipe record. -/
def pipeRecord (s : State) (q : Pipe) : List Byte :=
  let holds := (List.range 4).map fun m => ((holderAt q m).map (holdLines s)).getD []
  let st := fun (x : SlotSt) => match x with | .empty => 0 | .full => 1 | .void => 2
  let b := lowestLive q
  leBytes 8 q.body.toNat ++ leBytes 4 q.n ++ leBytes 4 q.launched ++ leBytes 4 (q.brk.getD (2 ^ 32 - 1)) ++ leBytes 4 b
    ++ leBytes 4 (strideBits q.stride + 4 * q.dist + 16 * q.live + 512 * b2n q.held)
    ++ leBytes 4 ((List.range 4).foldl (fun a j => a + iterCode q (b + j) * 16 ^ j) 0)
    ++ leBytes 4 q.grp ++ leBytes 4 q.lanes.toNat
    ++ leBytes 4 ((List.range 4).foldl (fun a m => a + (holds.getD m []).length * 256 ^ m) 0) ++ leBytes 20 0
    ++ ((List.range 11).map fun n => leBytes 4 (SMap.get 0 q.capK (n + 1)).toNat).flatten ++ leBytes 20 0
    ++ ((List.range 64).map fun n => leBytes 8 (SMap.get 0 q.capS n).toNat).flatten
    ++ ((List.range 64).map fun n => leBytes 8 ((List.range 32).foldl (fun a l => a + st (q.slotLane n l).st * 4 ^ l) 0)).flatten
    ++ ((List.range 16).map fun n => ((List.range 32).map fun l =>
        leBytes 4 (SMap.get Lane.zero q.capV (32 * n + l)).val.toNat).flatten).flatten
    ++ ((List.range 64).map fun n => ((List.range 32).map fun l => leBytes 4 (q.slotLane n l).val.toNat).flatten).flatten
    ++ (holds.map fun h => pad 2560 h.flatten).flatten

/-! ### The core image (R382) -/

/-- Code of a slot's format in the image. -/
def imgFmt : Nat → Nat
  | 10 => 0 | 9 => 1 | 11 => 2 | 12 => 3 | 15 => 4 | _ => 5
def fmtImg : Nat → Nat
  | 0 => 10 | 1 => 9 | 2 => 11 | 3 => 12 | 4 => 15 | _ => 13

def tagByte (t : SlotTag) : Nat := if t.filled then 128 + 16 * imgFmt t.fmt + 8 * b2n t.pl4 + 4 * b2n t.mid else 0
def byteTag (n : Nat) : SlotTag :=
  if n = 0 then noTag else ⟨fmtImg (n / 16 % 8), (n / 8) % 2 == 1, (n / 4) % 2 == 1, (n / 128) % 2 == 1⟩

/-- Scratchpad offset of each team in the image. -/
def padOffs : Nat → List Team → List (Nat × Nat)
  | _, [] => []
  | o, t :: r => (t.id, o) :: padOffs (o + t.spadLen) r

/-- Offsets of the parts of an image: scratchpad, slots, tiles, x registers. -/
def imgAt (wide : Bool) : Nat × Nat × Nat × Nat :=
  if wide then (0x30000, 0x90000, 0xF0000, 0x100000) else (0x30000, 0x50000, 0x70000, 0x80000)

def teamRec (f : Frame) (offs : List (Nat × Nat)) (t : Team) : List Byte :=
  let as := f.arraysOf t.id
  leBytes 8 t.trapbase.toNat ++ leBytes 8 t.index ++ leBytes 4 (((offs.find? fun x => x.1 == t.id).map (·.2)).getD 0)
    ++ leBytes 4 t.spadLen ++ leBytes 1 (kGroups t.kword) ++ leBytes 1 as.length
    ++ leBytes 1 (((List.range as.length).zip as).foldl (fun a x => a + x.2 * 4 ^ x.1) 0) ++ leBytes 1 0 ++ leBytes 4 0
    ++ leBytes 8 t.kword.toNat ++ leBytes 8 t.kaddr.toNat ++ leBytes 16 0

/-- The registered objects of the scratchpad image as a map. -/
def barMap (offs : List (Nat × Nat)) (ts : List Team) : List Byte :=
  let bits := (ts.map fun t => t.bars.map fun o => (((offs.find? fun x => x.1 == t.id).map (·.2)).getD 0 + o) / 16).flatten
  (List.range 3072).map fun j => BitVec.ofNat 8 ((List.range 8).foldl (fun a b => if bits.contains (8 * j + b) then a + 2 ^ b else a) 0)

/-- The x registers of a group in the image: the first byte of its quarters, their length, their place; a legacy half has two quarters
of its slot (R313, R382). -/
def xFrom (g : Group) : Nat := 0x400 * g.half.getD 0
def xLen (g : Group) : Nat := if g.half.isSome then 0x400 else 0x800
def xAt (g : Group) : Nat := 0x800 * (24 * g.part + g.slot) + xFrom g

/-- The image of a context on a core, in its parts: offset and bytes. -/
def imageParts (s : State) (r : SaveRec) (f : Frame) (ts : List Team) (gs : List Group) (ps : List (Nat × Pipe)) :
    List (Nat × List (Byte × Bad)) :=
  let offs := padOffs 0 ts
  let a := imgAt f.wide
  let slotRow := fun n =>
    leBytes 1 (match f.holder n with
      | some t => (ts.findIdx? fun u => u.id == t).getD 255
      | none => 255) ++ leBytes 1 (tagByte (f.tag n))
  [(0, okBytes (leBytes 2 0x43C3 ++ leBytes 2 1 ++ leBytes 4 (b2n f.wide) ++ leBytes 4 ts.length ++ leBytes 4 ps.length
      ++ leBytes 8 s.gtb.toNat ++ leBytes 4 (b2n r.forced) ++ leBytes 4 f.first ++ leBytes 32 0
      ++ ((List.range 192).map slotRow).flatten ++ leBytes 64 0
      ++ pad 2048 (ts.map (teamRec f offs)).flatten ++ leBytes 1536 0)),
   (0x2B400, okBytes (barMap offs ts ++ List.replicate 16384 0))]
  ++ ((List.range 8).map fun j => (0x1000 + 21632 * j, okBytes (match ps.find? fun p => 2 * p.1 + p.2.num == j with
      | some p => pipeRecord s p.2
      | none => List.replicate 21632 0)))
  ++ (ts.map fun t => (a.1 + ((offs.find? fun x => x.1 == t.id).map (·.2)).getD 0, t.bytes 0 t.spadLen))
  ++ ((List.range f.count).map fun n => (a.2.1 + 0x800 * n, (List.range 2048).map fun o => f.byte n o))
  ++ ((List.range 4).map fun arr => (a.2.2.1 + 0x4000 * arr, ((List.range 4096).map fun j =>
      let x := f.tile arr (j / 256) (j / 16 % 16) (j % 16)
      (leBytes 4 x.1.toNat).map fun b => (b, x.2)).flatten))
  ++ (gs.map fun g => (a.2.2.2 + xAt g, okBytes ((List.range (xLen g)).map fun j => SMap.get 0x7F g.x (xFrom g + j))))

/-- Where a context's image of a core lies. -/
def imageVa (s : State) (c : Context) (die core : Nat) : Nat := c.save + 0x1000 + imageIndex s c die core * 0x130000

/-! ### Streaming out (R381) -/

/-- Nothing of a context is in flight on a core (R101, R191, R251, R270, R312, R339, R362). -/
def quiet (s : State) (ctx die core : Nat) : Bool :=
  (s.accs.all fun a => a.ctx != ctx || a.die != die || a.core != core || a.isPoint || a.stage == .held)
    && (s.cmds.all fun c => c.ctx != ctx || c.die != die || c.core != core || c.handed)
    && (s.mxops.all fun (m : MxOp) => m.ctx != ctx || m.die != die || m.core != core || m.over s)
    && (s.qmoves.all fun m => m.ctx != ctx || m.die != die || m.core != core
      || (m.kind != .deq && !(s.qhome m.qcb).unpub.contains m.n))
    && (onCore s ctx die core).all fun g => g.gates.isEmpty && (match g.iter, s.pipeOf g with
      | some it, some q => !q.owedOwn it.k
      | _, _ => true)

/-- Glades of a context on a core are drawn (R117). -/
def drawAll (s : State) (ctx die core : Nat) : State :=
  (List.range 4).foldl (fun s j =>
    let p := s.partn die core j
    s.setPartn die core j ((p.glades.filter fun x => x.ctx == ctx).foldl drawGlade p)) s

def gladesLeft (s : State) (ctx die core : Nat) : Bool :=
  (List.range 4).any fun j =>
    let p := s.partn die core j
    (p.glades.any fun x => x.ctx == ctx) || p.draws.any fun x => x.glade.ctx == ctx

/-- A group as it is saved: a sleeper of WAITL past its instruction, a sleeper of a queue off its record. -/
def settleSaved (g : Group) : Group :=
  match g.sleep with
  | .waitl _ _ | .rewoken => g.advance
  | _ => { g with sleep := .awake }

/-- The word a save's frame holds: the instruction the group waits at, 0 at an entry. -/
def savedWord (g : Group) : W64 := if g.entered then (g.word?).getD 0 else 0

/-- The pipes of a context on a core with their partitions. -/
def pipesOf (s : State) (ctx die core : Nat) : List (Nat × Pipe) :=
  ((List.range 4).map fun j => ((s.partn die core j).pipes.filter fun q => q.ctx == ctx).map fun q => (j, q)).flatten

/-- A page of a context as the front end finds it. -/
def fePage (s : State) (c : Context) (die va : Nat) : Option (W64 × Nat) := if 2 ^ 52 ≤ va then none else walk s die c.root va

/-- A group's frame is written as at a trap, fault code 0; a frame that cannot be written stops the context (R364, R381). -/
def saveFrame (s : State) (c : Context) (g : Group) : State :=
  let h := settleSaved g
  let va := frameVa g
  let bs := okBytes (frameBytes s h 0 (savedWord h) 0 0 0 true)
  if va % 128 != 0 then stopContext s c.id FaultCode.align.num va
  else
    let ps := [va, va + frameLen - 1].map fun a => fePage s c g.die a
    if ps.any Option.isNone then stopContext s c.id FaultCode.xlate.num va
    else if (ps.filterMap id).any fun p => refused p.1 g.sys .wr then stopContext s c.id FaultCode.prot.num va
    else feLand s c g.die va bs

/-- Streaming in reads the image of a core and the frames of the groups that it holds, at the context's cost; what streaming out writes is
counted write by write (R426). -/
def streamed (s : State) (c : Context) (r : SaveRec) (die : Nat) (wide : Bool) (gs : List Group) : State :=
  gs.foldl (fun s g => feMoved s c die (frameVa g) frameLen)
    (feMoved s c die (imageVa s c r.die r.core) (if wide then 0x130000 else 0xB0000))

/-- The context leaves the core: its groups, teams, pipes and frame; the record keeps what the frames and the image do not
hold, and the resume reads the rest from them. -/
def streamOut (s : State) (c : Context) (r : SaveRec) : State :=
  let gs := onCore s c.id r.die r.core
  let ts := s.teams.filter fun t => t.ctx == c.id && t.die == r.die && t.core == r.core
  let ps := pipesOf s c.id r.die r.core
  let f := s.frame r.die r.core c.id
  let s0 := gs.foldl (fun s g => dropClaim (unsleep s g) r.die r.core g.gid) s
  let s1 := gs.foldl (fun s g => saveFrame s c g) s0
  let s2 := (imageParts s r f ts gs ps).foldl (fun s x => feLand s c r.die (imageVa s c r.die r.core + x.1) x.2) s1
  let s3 := dirWrite s2 c r.die r.core 3 s.gtb.toNat
  let k := s3.core r.die r.core
  let s4 := s3.setCore r.die r.core
    { k with frames := k.frames.filter fun x => x.ctx != c.id, recs := k.recs.filter fun e => e.ctx != c.id,
             code := k.code.filter fun e => e.ctx != c.id, running := if k.running == some c.id then none else k.running }
  let s5 := (List.range 4).foldl (fun (s : State) j =>
    let p := s.partn r.die r.core j
    s.setPartn r.die r.core j { p with pipes := p.pipes.filter fun q => q.ctx != c.id }) s4
  let s6 := { s5 with groups := s5.groups.filter fun g => !(g.ctx == c.id && g.die == r.die && g.core == r.core),
                      teams := s5.teams.filter fun t => !(t.ctx == c.id && t.die == r.die && t.core == r.core) }
  match s6.ctx? c.id with
  | none => s6
  | some c1 => s6.setCtx { c1.setRec { r with st := .saved, gtb := s.gtb.toNat, teams := ts, groups := gs.map settleSaved, pipes := ps } with
      lastSave := SMap.set 0 c1.lastSave (48 * r.die + r.core) s.gtb.toNat }

/-- CONTEXT_STREAM_OUT: at its stop points a context's glades are drawn; once nothing of it is in flight its frames and its
image are written and its frame is free. A context that does not run first runs its queued matrix operations (R312, R380); partly arrived barriers defer its
save as well (R250). -/
def execContextStreamOut (ctx die core : Nat) (s : State) : Out :=
  match s.ctx? ctx with
  | none => .next s
  | some c =>
    match c.rec? die core with
    | none => .next s
    | some r =>
      let runs := (s.core die core).running == some ctx
      if r.st == .saved || !allAtStop s ctx die core || frozenOn s ctx die core || !mayPublishN s die 65536 then .next s
      else if r.st == .streaming then
        if gladesLeft s ctx die core || !quiet s ctx die core then .next s else .next (streamOut s c r)
      else if (runs && !stopping s ctx die core) || (r.st != .forced && deferred s ctx die core) || (!runs && s.mxops.any fun (m : MxOp) =>
          m.ctx == ctx && m.die == die && m.core == core && !m.over s) then .next s
      else
        let s1 := drawAll (dirWrite s c die core 2 r.gtb) ctx die core
        .next (match s1.ctx? ctx with
          | some c1 => s1.setCtx (c1.setRec { r with st := .streaming })
          | none => s1)

/-! ### Resuming (R233, R381) -/

/-- The frame a context takes on a core: the lowest free one, or all three (R380). -/
def freeFrame (s : State) (die core : Nat) (wide : Bool) : Option Nat :=
  let fs := (s.core die core).frames
  if wide then (if fs.isEmpty then some 0 else none)
  else (List.range 3).find? fun n => !(fs.any fun f => f.wide || f.first == n)

/-- A team with the scratchpad and the registered objects of the image. -/
def loadTeam (s : State) (c : Context) (die va : Nat) (off : Nat) (t : Team) : Team :=
  let bits := feReadBy s t.id c die (va + 0x2B400) 3072
  let bars := (List.range (t.spadLen / 16)).filter fun j =>
    let n := off / 16 + j
    (bits.getD (n / 8) (0, .ok)).1.getLsbD (n % 8)
  { t with spad := [], badSpad := [], bars := bars.map fun j => 16 * j }.putMany 0 (feReadBy s t.id c die (va + 0x30000 + off) t.spadLen)

/-- The frame of the image: slots, tags, claims, arrays, tiles. -/
def loadFrame (s : State) (c : Context) (die va : Nat) (first : Nat) (wide : Bool) (ts : List Team) : Frame :=
  let a := imgAt wide
  let rd := feReadBy s ((ts.head?.map (·.id)).getD 0) c die
  let f0 := { blankFrame c.id with first := first, wide := wide }
  let row := rd (va + 0x40) 384
  let f1 := (List.range f0.count).foldl (fun (f : Frame) n =>
    let own := (row.getD (2 * n) (255, .ok)).1.toNat
    let f2 := { f with owner := SMap.set none f.owner n ((ts[own]?).map fun (t : Team) => t.id),
                       tags := SMap.set noTag f.tags n (byteTag (row.getD (2 * n + 1) (0, .ok)).1.toNat) }
    f2.putBytes n 0 (rd (va + a.2.1 + 0x800 * n) 2048)) f0
  let f2 := ((List.range ts.length).zip ts).foldl (fun (f : Frame) x =>
    let rec_ := rd (va + 0x200 + 64 * x.1) 64
    (List.range (frN rec_ 25 1)).foldl (fun (f : Frame) j =>
      { f with arrays := f.arrays.set (frN rec_ 26 1 / 4 ^ j % 4) (some x.2.id) }) f) f1
  (List.range 16384).foldl (fun (f : Frame) j =>
    let b := rd (va + a.2.2.1 + 4 * j) 4
    f.putTile (j / 4096) (j / 256 % 16) (j / 16 % 16) (j % 16) (BitVec.ofNat 32 (frN b 0 4)) (worst b)) f2

/-- A group restored from its frame, exactly as by TRET; none where the frame fails the checks. -/
def loadGroup (s : State) (c : Context) (die core va : Nat) (wide : Bool) (t : Team) (g : Group) : Option Group :=
  let rd := feReadBy s g.gid c die
  let fr := rd (frameVa g) frameLen
  let h := frN fr 0 8
  let w := BitVec.ofNat 64 (frN (rd h 8) 0 8)
  let x := rd (va + (imgAt wide).2.2.2 + xAt g) (xLen g)
  let page := fePage s c die h
  if decide (h < t.secLo) || decide (t.secHi < h + 8) || !((page.map fun p => bitAt p.1 7) == some true) then none
  else (restore g t.kword fr w).map fun g1 =>
    { g1 with die := die, core := core, inSet := false, stall := 0, tried := none, holds := false, sld := none, fast := [], ready := none, nHold := none, fill := 0,
              x := ((List.range (xLen g)).zip x).foldl (fun m b => SMap.set 0x7F m (xFrom g + b.1) b.2.1) [] }

/-- FLAGS bit 4 of a group's frame is cleared, as by TRET (R367, R381). -/
def clearSaved (s : State) (c : Context) (die : Nat) (g : Group) : State :=
  let va := frameVa g + 0x28
  let b := feReadBy s g.gid c die va 1
  if (frN b 0 1).testBit 4 then feLand s c die va (okBytes [BitVec.ofNat 8 (frN b 0 1 - 16)]) else s

/-- The partitions of a core have room for the saved pipes: 2 on each (R17). -/
def pipesFit (s : State) (die core : Nat) (ps : List (Nat × Pipe)) : Bool :=
  (List.range 4).all fun j => decide ((s.partn die core j).pipes.length + (ps.filter fun p => p.1 == j).length ≤ 2)

/-- A saved pipe's number on its partition: the same if free, else the lowest free (R233). -/
def newNum (s : State) (die core part num : Nat) : Nat :=
  let p := s.partn die core part
  if (p.pipe? num).isNone then num else if (p.pipe? 0).isNone then 0 else 1

/-- The pipes reopen, and the groups that name them follow. -/
def loadPipes (s : State) (die core : Nat) (ps : List (Nat × Pipe)) : State :=
  ps.foldl (fun (s : State) x =>
    let n := newNum s die core x.1 x.2.num
    let p := s.partn die core x.1
    let s1 := s.setPartn die core x.1 { p with pipes := p.pipes ++ [{ x.2 with num := n }] }
    { s1 with groups := s1.groups.map fun g =>
        if g.gid == x.2.opener then { g with opened := some n }
        else if x.2.iters.any fun i => i.gid == g.gid && i.st == .running then
          { g with iter := g.iter.map fun it => { it with pipe := n } }
        else g }) s

/-- The slots that the saved teams' groups have vacated move with the context to the same partition of another core (R116, R381). -/
def moveVacant (s : State) (r : SaveRec) (die core : Nat) : State :=
  (List.range 4).foldl (fun s j =>
    let p := s.partn r.die r.core j
    let mine := fun (v : Vacancy) => r.teams.any fun t => t.id == v.team
    let s1 := s.setPartn r.die r.core j { p with vacant := p.vacant.filter fun v => !mine v }
    let q := s1.partn die core j
    s1.setPartn die core j { q with vacant := q.vacant ++ p.vacant.filter mine }) s

/-- Writes of the front end for a context to host or pod-remote memory are on their way: an image there is not all in place. -/
def feAway (s : State) (ctx : Nat) : Bool := s.accs.any fun a => a.core == 48 && a.ctx == ctx && !a.isPoint && a.far && !a.over s.accs

/-- CONTEXT_RESUME: a saved context comes back on a core with a free frame and room for its pipes; the image is the core's own, or the
first saved one of its quad, which no cluster leaves (R395). -/
def execContextResume (ctx die core : Nat) (s : State) : Out :=
  match s.ctx? ctx with
  | none => .next s
  | some c =>
    let own := c.saves.find? fun r => r.st == .saved && r.die == die && r.core == core
    let any := c.saves.find? fun r => r.st == .saved && r.die == die && r.core / 4 == core / 4
    match (match own with | some r => some r | none => any) with
    | none => .next s
    | some r =>
      let wide := r.teams.any fun t => t.wide
      let taken := c.saves.any fun x => x.die == die && x.core == core && !(x.die == r.die && x.core == r.core)
      match freeFrame s die core wide with
      | none => .next s
      | some first =>
        if taken || !pipesFit s die core r.pipes || feAway s ctx || !mayPublishN s die 4096 then .next s
        else
          let va := imageVa s c r.die r.core
          let offs := padOffs 0 r.teams
          let ts := r.teams.map fun t =>
            { loadTeam s c die va (((offs.find? fun x => x.1 == t.id).map (·.2)).getD 0) t with die := die, core := core }
          let gs := r.groups.map fun g => (g, (r.teams.find? fun t => t.id == g.team).bind fun t => loadGroup s c die core va wide t g)
          let s0 := r.groups.foldl (fun s g => clearSaved s c die g) (moveVacant (streamed s c r die wide r.groups) r die core)
          let s1 := s0.setFrame die core (loadFrame s c die va first wide r.teams)
          let move := fun (d k : Nat) => d == r.die && k == r.core
          let s2 := { s1 with
            teams := s1.teams ++ ts,
            groups := s1.groups ++ gs.map fun x => (x.2).getD { x.1 with stopped := true, die := die, core := core },
            accs := s1.accs.map fun a => if a.ctx == ctx && move a.die a.core then { a with die := die, core := core } else a,
            cmds := s1.cmds.map fun a => if a.ctx == ctx && move a.die a.core then { a with die := die, core := core } else a }
          let s3 := loadPipes s2 die core r.pipes
          let s4 := s3.setCtx { c with saves := (c.saves.filter fun x => !(x.die == r.die && x.core == r.core)) ++
            [{ r with die := die, core := core, st := .resident, frozen := none, forced := false, gtb := c.lastGtb die core,
                      teams := [], groups := [], pipes := [] }] }
          let k := s4.core die core
          let s5 := s4.setCore die core { k with code := k.code.filter fun e => e.ctx != ctx }
          let s6 := dirWrite (if move die core then s5 else dirWrite s5 c r.die r.core 0 r.gtb) c die core 1 (c.lastGtb die core)
          .next (if gs.any fun x => x.2.isNone then stopContext s6 ctx FaultCode.frame.num 0 else s6)

end Sys2Proof.Machine
end

