-- ==== Sys2Proof/Machine/Packet.lean ====
section
/-!
DEFINITION. What the front end reads before it places anything: capabilities (R389, R390), the launch packet (R391, R392), the
code object and its variants (R405 to R411), the checks of R393 in their order.
-/
namespace Sys2Proof.Machine

/-! ### Capabilities (R389, R390) -/

/-- The base of a valid reference: the table entry of a number, of a type, with permissions, that covers `need` bytes. -/
def capBase (c : Context) (i otype perm need : Nat) : Option Nat :=
  match c.caps[i]? with
  | some x => if x.tag && !x.resv && x.otype.toNat == otype && decide (x.perm.toNat < 8) && (x.perm.toNat &&& perm) == perm
      && decide (need ≤ x.len.toNat) then some x.base.toNat else none
  | none => none

/-- Length that a table entry covers. -/
def capLen (c : Context) (i : Nat) : Nat := ((c.caps[i]?).map (·.len.toNat)).getD 0

/-! ### The packet (R391, R392) -/

/-- Bits of the 64-bit word of a packet at an offset. -/
def pkF (p : List Byte) (o lo n : Nat) : Nat := leNat ((p.drop o).take 8) / 2 ^ lo % 2 ^ n

def pkZero (p : List Byte) (o n : Nat) : Bool := ((p.drop o).take n).all fun b => b == 0

def pkType (p : List Byte) : Nat := pkF p 0 0 8
def pkCoh (p : List Byte) : Bool := pkF p 0 8 1 == 1
def pkGang (p : List Byte) : Bool := pkF p 0 9 1 == 1
def pkRel (p : List Byte) : Bool := pkF p 0 19 1 == 1
/-- The version: 0 is version 3. -/
def pkNbv (p : List Byte) : Nat := if pkF p 0 20 4 = 0 then 3 else pkF p 0 20 4
def pkNode (p : List Byte) : Nat := pkF p 0 32 16
def pkPred (p : List Byte) : Nat := pkF p 0 48 16
/-- Teams of the launch. -/
def pkTeams (p : List Byte) : Nat := pkF p 0x10 0 21 * pkF p 0x10 21 21 * pkF p 0x10 42 21
def pkScratch (p : List Byte) : Nat := 256 * pkF p 0x20 8 11
def pkWide (p : List Byte) : Bool := pkF p 0x20 19 1 == 1
def pkNnet (p : List Byte) : Nat := pkF p 0x20 40 8
def pkResmax (p : List Byte) : Nat := pkF p 0x20 48 16
/-- Teams of a cluster. -/
def pkCluster (p : List Byte) : Nat := pkF p 0x28 32 4 + 1
def pkClusters (p : List Byte) : Nat := (pkTeams p + pkCluster p - 1) / pkCluster p
def pkGcount (p : List Byte) : Nat := pkF p 0x30 32 16
def pkNsucc (p : List Byte) : Nat := pkF p 0x50 32 16
/-- The packet is a node of a graph table. -/
def pkGraphed (p : List Byte) : Bool := decide (0 < pkPred p) || decide (0 < pkNsucc p)

/-- Address of the status record. -/
def pkStatus (c : Context) (p : List Byte) : Option Nat := capBase c (pkF p 0x58 32 32) 0 2 16
/-- Base of the graph table, of type 3 (R389), where it covers a length. -/
def pkTable (c : Context) (p : List Byte) (need : Nat) : Option Nat := capBase c (pkF p 0x58 0 32) 3 3 need
/-- Base of the graph table, where it covers an entry. -/
def pkGraph (c : Context) (p : List Byte) (node : Nat) : Option Nat := pkTable c p (16 * (node + 1))
/-- ACQ, and the codes of the scopes of ACQ and REL (R392). -/
def pkAcq (p : List Byte) : Bool := pkF p 0 15 1 == 1
def pkAscope (p : List Byte) : Nat := pkF p 0 12 3
def pkRscope (p : List Byte) : Nat := pkF p 0 16 3
def pkSucc (c : Context) (p : List Byte) : Option Nat := capBase c (pkF p 0x50 0 32) 0 1 (2 * pkNsucc p)

/-- A scope field names `.die` to `.sys`, whether or not its REL or ACQ is set (R392). -/
def pkScope (sc : Nat) : Bool := decide (2 ≤ sc) && decide (sc ≤ 5)

/-- The fields and references every node has. -/
def pkCommon (c : Context) (p : List Byte) : Bool :=
  pkF p 0 24 8 == 0 && pkF p 0 10 2 == 0 && pkScope (pkRscope p) && pkScope (pkAscope p)
    && pkF p 0x50 48 16 == 0 && decide (pkNsucc p ≤ 4096) && pkZero p 0x60 32 && (pkStatus c p).isSome
    && (!pkGraphed p || (pkGraph c p (pkNode p)).isSome) && (pkSucc c p).isSome

/-- The fields that only a kernel node uses are 0 in the first word. -/
def pkPlain (p : List Byte) : Bool := pkF p 0 20 4 == 0 && !pkCoh p && !pkGang p

/-- Step 1 of R393 for a kernel node, the object's own header apart; frames for 32 groups a team, which any header needs. -/
def pkKernel (c : Context) (p : List Byte) : Bool :=
  decide (pkF p 0 20 4 ≤ 3) && (!pkGang p || pkCoh p)
    && pkF p 0x08 48 16 == 0 && (capBase c (pkF p 0x08 0 32) 1 5 64).isSome
    && pkF p 0x10 63 1 == 0 && ([0, 21, 42].all fun b => decide (pkF p 0x10 b 21 ≤ 2 ^ 20))
    && decide (1 ≤ pkResmax p) && decide (pkNnet p ≤ 64) && pkF p 0x20 20 20 == 0 && pkF p 0x20 5 3 == 0
    && decide (pkF p 0x20 8 11 ≤ if pkWide p then 1536 else 512)
    && pkF p 0x28 36 28 == 0 && (capBase c (pkF p 0x28 0 32) 0 1 (2 * pkClusters p)).isSome
    && pkF p 0x30 48 16 == 0
    && (if pkGang p then decide (2 ≤ pkGcount p) && decide (pkGcount p ≤ 64) else pkGcount p == 0)
    && (capBase c (pkF p 0x30 0 32) 0 1 (8 * pkGcount p)).isSome
    && (capBase c (pkF p 0x40 32 32) 0 1 512).isSome && (capBase c (pkF p 0x40 0 32) 0 3 (pkResmax p * 32 * 0x9000)).isSome
    && pkF p 0x48 32 32 == 0 && (capBase c (pkF p 0x48 0 32) 0 1 0).isSome

/-- Source and destination of a copy node. -/
def pkCopy (c : Context) (p : List Byte) : Option (Nat × Nat) :=
  match capBase c (pkF p 0x10 0 32) 0 1 (pkF p 0x18 0 64), capBase c (pkF p 0x10 32 32) 0 2 (pkF p 0x18 0 64) with
  | some a, some b => some (a, b)
  | _, _ => none

/-- Step 1 of R393. -/
def pkOk (c : Context) (p : List Byte) : Bool :=
  pkCommon c p && (match pkType p with
    | 1 => pkKernel c p
    | 2 => pkPlain p && pkZero p 0x08 8 && pkZero p 0x20 0x30 && (pkCopy c p).isSome
    | 3 => pkPlain p && pkZero p 0x08 0x48
    | _ => false)

/-! ### Status values (R401) -/

def stCap : Nat := 0x40
def stPlace : Nat := 0x41
def stNoVariant : Nat := 0x42
def stGang : Nat := 0x43
def stQlost : Nat := 0x44
def stFeHalt : Nat := 0x46

/-! ### The code object (R405 to R408) -/

/-- Bytes of the image of a code object. -/
structure Cko where
  base : Nat
  len  : Nat
  rd   : Nat → Nat → List Byte

/-- A field of n bytes at an offset of the image. -/
def Cko.n (o : Cko) (off n : Nat) : Nat := leNat (o.rd off n)
def Cko.holds (o : Cko) (off n : Nat) : Bool := decide (off + n ≤ o.len)

/-- The header meets R405, its tables lie in the image, and its relocations are applied. -/
def Cko.ok (o : Cko) : Bool :=
  o.base % 128 == 0 && o.holds 0 64 && o.n 0 4 == 0x314F4B43 && o.n 4 2 == 1 && o.n 6 2 == 0
    && decide (1 ≤ o.n 8 4) && decide (o.n 8 4 ≤ 256) && decide (1 ≤ o.n 12 4) && decide (o.n 12 4 ≤ 65536)
    && decide (o.n 16 4 ≤ 64) && o.n 20 4 == 0 && o.n 0x38 8 == 0
    && o.holds (o.n 0x18 8) (32 * o.n 8 4) && o.holds (o.n 0x20 8) (32 * o.n 12 4) && o.holds (o.n 0x28 8) (8 * o.n 16 4)

/-- The code section that holds a word of the image: its bounds. -/
def Cko.section (o : Cko) (off : Nat) : Option (Nat × Nat) :=
  ((List.range (o.n 8 4)).map fun i =>
    let e := o.n 0x18 8 + 32 * i
    (o.n e 8, o.n e 8 + o.n (e + 8) 8, o.n (e + 16) 1)).findSome? fun x =>
      if x.2.2 == 1 && decide (x.1 ≤ off) && decide (off + 8 ≤ x.2.1) && x.1 % 128 == 0 && decide (x.2.1 ≤ o.len) then some (x.1, x.2.1) else none

/-! ### Selectors (R410, R411) -/

/-- A binary operator: the second value popped, then the first. -/
def selOp (t a b : Nat) : Option Nat :=
  match t with
  | 0x20 => some ((a + b) % 2 ^ 64)
  | 0x21 => some ((a + 2 ^ 64 - b) % 2 ^ 64)
  | 0x22 => some (a * b % 2 ^ 64)
  | 0x23 => some (if b = 0 then 0 else a / b)
  | 0x24 => some (min a b)
  | 0x25 => some (max a b)
  | 0x30 => some (if a = b then 1 else 0)
  | 0x31 => some (if a = b then 0 else 1)
  | 0x32 => some (if a < b then 1 else 0)
  | 0x33 => some (if a ≤ b then 1 else 0)
  | 0x34 => some (if b < a then 1 else 0)
  | 0x35 => some (if b ≤ a then 1 else 0)
  | 0x38 => some (if a ≠ 0 ∧ b ≠ 0 then 1 else 0)
  | 0x39 => some (if a ≠ 0 ∨ b ≠ 0 then 1 else 0)
  | _ => none

/-- One token other than END and a literal, on a stack whose top comes first. -/
def selTok (q : Nat → Nat) (t : Nat) (st : List Nat) : Option (List Nat) :=
  if 0x10 ≤ t ∧ t ≤ 0x14 then some (q t :: st)
  else if t = 0x3A then (match st with
    | a :: r => some ((if a = 0 then 1 else 0) :: r)
    | [] => none)
  else match st with
    | b :: a :: r => (selOp t a b).map fun x => x :: r
    | _ => none

/-- The value of a token stream; every malformed stream gives 0. -/
def selEval (q : Nat → Nat) : Nat → List Byte → List Nat → Nat
  | 0, _, _ => 0
  | _ + 1, [], _ => 0
  | n + 1, t :: r, st =>
    if t.toNat = 0 then (match st with | [x] => x | _ => 0)
    else if t.toNat = 1 then
      (if r.length < 4 || 16 ≤ st.length then 0 else selEval q n (r.drop 4) (leNat (r.take 4) :: st))
    else match selTok q t.toNat st with
      | some st' => if 16 < st'.length then 0 else selEval q n r st'
      | none => 0

/-! ### Device partitions and the defect map (R387, R409, R410) -/

/-- A core is usable (R445). -/
def usable (s : State) (die core : Nat) : Bool := (s.fuses.getD die 0).testBit core

/-- The dies of a partition of this package, in increasing number. -/
def partDies (s : State) (id : BitVec 16) : List Nat := ((partQuads s id).map (·.1)).eraseDups

/-- The usable cores of the quads of a partition on a die that a mask permits; a mask of 0 permits every quad. -/
def partCores (s : State) (id : BitVec 16) (die mask : Nat) : List Nat :=
  (((partQuads s id).filter fun x => x.1 == die && (mask == 0 || mask.testBit x.2)).map fun x =>
    (List.range 4).map fun j => 4 * x.2 + j).flatten.filter fun k => usable s die k

/-- CRC-32C of the usable-core mask. -/
def defectSig (s : State) : Nat := crc32c (((List.range 4).map fun d => leBytes 6 (s.fuses.getD d 0)).flatten)

/-- CORES: the usable cores on the partition's die that has the fewest. -/
def coresQ (s : State) (id : BitVec 16) : Nat :=
  match (partDies s id).map fun d => (partCores s id d 0).length with
  | [] => 0
  | x :: r => r.foldl min x

/-! ### Choosing a variant (R409) -/

/-- What the checks of a packet give: a status, or a value. -/
inductive Verdict (α : Type) where
  | ok (x : α)
  | no (status : Nat)

/-- The first entry of a family from number i on that qualifies: the offset of its header word. -/
def pickVariant (o : Cko) (sig cores nbv family : Nat) : Nat → Nat → Verdict Nat
  | 0, _ => .no stNoVariant
  | n + 1, i =>
    let e := o.n 0x20 8 + 32 * i
    let khw := o.n (e + 8) 8
    let len := o.n (e + 0x14) 2
    let sel := o.n (e + 0x18) 8
    let def_ := o.n (e + 0x10) 4
    if o.n e 2 ≠ family || !(def_ == 0 || def_ == sig) then pickVariant o sig cores nbv family n (i + 1)
    else if !o.holds khw 8 || decide (512 < len) || !(len == 0 || o.holds sel len) then .no stCap
    else
      let lanes := if kL16 (BitVec.ofNat 64 (o.n khw 8)) then 16 else 32
      let q := fun t => if t = 0x10 then cores else if t = 0x11 then 393216 else if t = 0x12 then 100663296
        else if t = 0x13 then nbv else lanes
      if (len == 0 || selEval q (len + 1) (o.rd sel len) [] != 0) then .ok khw
      else pickVariant o sig cores nbv family n (i + 1)

/-! ### The kernel header word (R54, R393, R408) -/

/-- R54, but the role map. -/
def headerOk (w : W64) : Bool :=
  (kMagic w == 0xC3 || kMagic w == 0xC2) && decide (1 ≤ kNbv w) && decide (kNbv w ≤ 3) && decide (4 ≤ kVregs w)
    && decide (kVregs w ≤ 256) && decide (1 ≤ kSregs w) && decide (kScratch w ≤ 1536) && (!kHeld w || kPipe w)
    && decide (1 ≤ kEntry w)

/-- Frames of a team: 64 where it may open pipes (R394). -/
def kFrames (w : W64) : Nat := if kPipe w then 64 else 32

/-- Role of a group by the packet, or by the kernel's role map where the packet leaves it (R392); 3 is none. -/
def roleCode (p : List Byte) (map g : Nat) : Nat :=
  let a := pkF p 0x18 (2 * g) 2
  if a = 3 then map / 4 ^ g % 4 else a

def roleOf : Nat → Role
  | 0 => .copy
  | 1 => .matrix
  | _ => .vector

/-- The groups of a team by slot: one each, or the legacy halves of each role paired in increasing index (R204). -/
def slotPlan (w : W64) (role : Nat → Nat) : List (List Nat) :=
  if !kL16 w then (List.range (kGroups w)).map fun g => [g]
  else ((List.range 3).map fun r =>
    let ids := (List.range (kGroups w)).filter fun g => role g == r
    (List.range ((ids.length + 1) / 2)).map fun j => (ids.drop (2 * j)).take 2).flatten

/-- Slots of a team on each of the four partitions; slot j of the plan goes to partition j mod 4. -/
def partNeed (plan : List (List Nat)) (part : Nat) : Nat := ((List.range plan.length).filter fun j => j % 4 == part).length

/-- Teams of a launch that an empty core holds: resident slots, register space, scratchpad (R12). -/
def emptyFits (w : W64) (p : List Byte) (plan : List (List Nat)) : Nat :=
  let room := if pkWide p then 6144 else 2048
  let pad := if pkWide p then 393216 else 131072
  let byPart := (List.range 4).map fun j =>
    let n := partNeed plan j
    if n = 0 then 24 else min (24 / n) (room / (n * kVregs w))
  let m := byPart.foldl min 24
  if pkScratch p = 0 then m else min m (pad / pkScratch p)

/-! ### The placement map and the gang list (R395, R397) -/

def mapDie (e : Nat) : Nat := e % 4
def mapMask (e : Nat) : Nat := e / 16 % 4096

/-- The device partition of a cluster: of a gang's list the last whose first cluster is no later, else the home. -/
def clusterPart (home : BitVec 16) (gang : List (Nat × Nat)) (c : Nat) : BitVec 16 :=
  ((gang.filter fun g => decide (g.2 ≤ c)).getLast?.map fun g => BitVec.ofNat 16 g.1).getD home

def onPkg (s : State) (id : BitVec 16) : Bool := id.toNat / 1024 == s.pkg

/-- One entry of the map can be placed: its die and a usable core exist. The map of another package is judged there. -/
def entryOk (s : State) (id : BitVec 16) (e : Nat) : Bool :=
  e / 4 % 4 == 0 && (!onPkg s id || (match (partDies s id)[mapDie e]? with
    | some d => !(partCores s id d (mapMask e)).isEmpty
    | none => false))

/-- The entries of a gang list: identifiers with first clusters. -/
def gangOk (c : Context) (raw : List (Nat × Nat × Nat)) (clusters : Nat) : Bool :=
  (raw.all fun e => e.2.1 == 0 && (e.1 == c.home.toNat || c.granted.any fun g => g.toNat == e.1))
    && (raw.head?.map fun e => e.2.2) == some 0
    && ((raw.zip (raw.drop 1)).all fun x => decide (x.1.2.2 < x.2.2.2)) && raw.all fun e => decide (e.2.2 < clusters)

/-- The share of a partition of this package fits it when it is empty: for every set of quads of a die, the teams confined to
it are no more than its cores hold. -/
def shareFits (s : State) (id : BitVec 16) (per : Nat) (share : List (Nat × Nat)) : Bool :=
  !onPkg s id || (partDies s id).zipIdx.all fun d => (List.range 4096).all fun q =>
    let mine := share.filter fun x => mapDie x.1 == d.2 && mapMask x.1 != 0 && (mapMask x.1 &&& q) == mapMask x.1
    let free := if q = 4095 then share.filter fun x => mapDie x.1 == d.2 && mapMask x.1 == 0 else []
    q == 0 || decide (((mine ++ free).map (·.2)).sum ≤ per * (partCores s id d.1 q).length)

/-- Teams of a cluster. -/
def clusterTeams (p : List Byte) (c : Nat) : Nat := min (pkCluster p) (pkTeams p - c * pkCluster p)

/-! ### The checks (R393) -/

/-- What the front end has learnt of a kernel node whose packet passes. -/
structure Chosen where
  kaddr : Nat
  kword : W64
  secLo : Nat
  secHi : Nat
  roles : Nat
  pmap  : List Nat
  gang  : List (Nat × Nat)

/-- Steps 2 to 4 of R393 for a kernel node with teams. -/
def checkKernel (s : State) (c : Context) (die : Nat) (p : List Byte) : Verdict Chosen :=
  let rd := fun (va n : Nat) => (feRead s c die va n).map (·.1)
  let code := pkF p 0x08 0 32
  let base := (capBase c code 1 5 64).getD 0
  let o : Cko := ⟨base, capLen c code, fun off n => rd (base + off) n⟩
  if !o.ok then .no stCap
  else match pickVariant o (defectSig s) (coresQ s c.home) (pkNbv p) (pkF p 0x08 32 16) (o.n 12 4) 0 with
    | .no st => .no st
    | .ok khw =>
      let w := BitVec.ofNat 64 (o.n khw 8)
      match o.section khw with
      | none => .no stCap
      | some (lo, hi) =>
        let map := if kRoleMap w < o.n 16 4 then o.n (o.n 0x28 8 + 8 * kRoleMap w) 8 else 2 ^ 64 - 1
        let plan := slotPlan w (roleCode p map)
        let pm := (List.range (pkClusters p)).map fun i => leNat (rd ((capBase c (pkF p 0x28 0 32) 0 1 0).getD 0 + 2 * i) 2)
        let gl := (List.range (pkGcount p)).map fun i =>
          let e := rd ((capBase c (pkF p 0x30 0 32) 0 1 0).getD 0 + 8 * i) 8
          (leNat (e.take 2), leNat ((e.drop 2).take 2), leNat (e.drop 4))
        let gang := gl.map fun e => (e.1, e.2.2)
        let per := emptyFits w p plan
        if headerOk w && (capBase c (pkF p 0x40 0 32) 0 3 (pkResmax p * kFrames w * 0x9000)).isNone then .no stCap
        else if !headerOk w || ((List.range (kGroups w)).any fun g => map / 4 ^ g % 4 == 3) || pkNbv p < kNbv w
            || pkF p 0x20 0 5 + 1 ≠ kGroups w || pkF p 0x20 8 11 < kScratch w || (pkCoh p && pkResmax p < pkTeams p) then .no stPlace
        else if per = 0 || !((pm.zipIdx).all fun e => entryOk s (clusterPart c.home gang e.2) e.1) then .no stPlace
        else if pkGang p && !(gangOk c gl (pkClusters p) && gl.all fun e =>
            shareFits s (BitVec.ofNat 16 e.1) per (((pm.zipIdx).filter fun m =>
              (clusterPart c.home gang m.2).toNat == e.1).map fun m => (m.1, clusterTeams p m.2))) then .no stGang
        else .ok ⟨base + khw, w, base + lo, base + hi, map, pm, gang⟩

end Sys2Proof.Machine
end

