-- ==== Sys2Proof/Machine/Launch.lean ====
section
/-!
DEFINITION. The front end at work (R385 to R404, R414, R415): admission of contexts, dispatch of packets, teams placed and
started, cohorts and gangs, completion and graphs, doorbells, halted front-end cores, registered translations.
-/
namespace Sys2Proof.Machine

/-! ### Front-end cores and work queues -/

/-- Some front-end core of the package runs, and one has at every time since the package's reset (R404). -/
def fePkg (s : State) : Bool := !s.feLost && (List.range 4).any fun d => feDie s d

def State.workq? (s : State) (qcb : Nat) : Option WorkQ := s.workqs.find? fun w => w.qcb == qcb
def State.setWorkq (s : State) (w : WorkQ) : State := { s with workqs := s.workqs.map fun x => if x.qcb == w.qcb then w else x }

/-- The launch waits on its context's ready list. -/
def isReady (s : State) (l : Launch) : Bool :=
  match s.ctx? l.ctx with
  | some c => c.ready.any fun r => r.1 == l.id
  | none => false

/-! ### Admission (R272, R386 to R388) -/

/-- The front end creates one work queue. -/
def createQueue (s : State) (c : Context) (f : FeQueue) : State :=
  match fePa s c 0 f.va with
  | none => s
  | some pa =>
    if f.va % 64 != 0 || f.base % 64 != 0 || f.logc < 1 || 20 < f.logc || f.scope < 2 || 5 < f.scope then s
    else
      let s1 := changeQ s pa none ((freshQcb s pa 7 f.logc f.scope f.base).put 6 16 1 1) ⟨pa, [], [], [], [], []⟩
      { s1 with workqs := (s1.workqs.filter fun w => w.qcb != pa) ++
          [⟨pa, BitVec.ofNat 64 f.va, c.id, homeDie pa, 0, none, none, false⟩] }

/-- The directory of a context's save area as it is admitted: each core's entry empty, written by its die's front end, then zeros to the
images (R388). -/
def dirInit (s : State) (c : Context) : State :=
  let cs := savedCores s c
  let s1 := ((List.range cs.length).zip cs).foldl (fun s x =>
    feLand s c (if x.2.1 = s.pkg then x.2.2.1 else 0) (c.save + 16 * x.1) (okBytes (leBytes 1 x.2.2.1 ++ leBytes 1 x.2.2.2 ++ leBytes 14 0))) s
  feLand s1 c 0 (c.save + 16 * cs.length) (okBytes (leBytes (0x1000 - 16 * cs.length) 0))

/-- A partition identifier names a partition, 0 to 30 (R387). -/
def partId (p : BitVec 16) : Bool := decide (p.toNat % 1024 ≤ 30)

/-- CONTEXT_ADMISSION, after bring-up: refused where the save area is too short for the cores of the granted partitions. -/
def execContextAdmission (a : Admission) (s : State) : Out :=
  let c : Context :=
    { id := a.ctx, caps := a.caps, root := a.root, save := a.save, saveLen := a.saveLen, evq := a.evq, home := a.home,
      granted := a.granted, far := a.far, energy := 0, budget := 2 ^ 64 - 1, bkpts := [], stopped := none, saves := [], ready := [],
      nodes := [], posts := [], lastSave := [], failed := [] }
  if s.upStep < 6 || !(a.home :: a.granted).all partId || !fePkg s || (s.ctx? a.ctx).isSome || a.saveLen < 0x1000 + (savedCores s c).length * 0x130000
      || !((List.range 4).all fun d => mayPublishN s d 512) then .next s
  else .next (a.queues.foldl (fun s f => createQueue s c f) (dirInit { s with contexts := s.contexts ++ [c] } c))

/-! ### Dispatch (R391 to R393, R396, R398, R399) -/

/-- A packet as it comes to a front-end core. -/
def newLaunch (s : State) (ctx die fe : Nat) (queue : Option Nat) (packet : List Byte) (node : Option Nat) (status : Nat) : Launch :=
  { id := s.nextId, ctx := ctx, die := die, fe := fe, queue := queue, packet := packet, node := node, kaddr := 0, kword := 0, secLo := 0,
    secHi := 0, roles := 0, pmap := [], placed := 0, ended := 0, away := 0, resident := [], boundary := decide (status ≠ 0), killed := false,
    status := status, complete := false, gang := [], held := [], startAt := none, copyAt := 0, accs := [], acqs := [], todo := [] }

def State.addLaunch (s : State) (l : Launch) : State := { s with launches := s.launches ++ [l], nextId := s.nextId + 1 }

/-- Publish the STATE of a node, or its STATUS, on a die (R399). -/
def graphState (s : State) (l : Launch) (die off : Nat) (bs : List Byte) : State :=
  match l.node, s.ctx? l.ctx with
  | some a, some c => feLand s c die (a + off) (okBytes bs)
  | _, _ => s

/-- What the front end has written to a node's entry is performed at `.pkg`: the next write to it, on whichever die, follows it. -/
def entryClear (s : State) (l : Launch) : Bool :=
  match l.node.bind fun a => (s.ctx? l.ctx).bind fun c => fePa s c l.die a with
  | none => true
  | some pa => s.accs.all fun x => x.core != 48 || x.isSpad || x.performed 2 || decide (x.pa < pa) || decide (pa + 16 ≤ x.pa)

/-- The checks of R393 decide what becomes of a packet. -/
def judge (s : State) (c : Context) (l : Launch) (queued : Bool) : Launch :=
  let p := l.packet
  if !pkOk c p || (queued && pkPred p != 0) then { l with status := stCap, boundary := true }
  else if pkType p != 1 || pkTeams p == 0 then { l with boundary := true }
  else match checkKernel (readBy s l.id) c l.die p with
    | .no st => { l with status := st, boundary := true }
    | .ok x => { l with kaddr := x.kaddr, kword := x.kword, secLo := x.secLo, secHi := x.secHi, roles := x.roles, pmap := x.pmap,
                        gang := x.gang }

/-- A judged packet is in dispatch. -/
def admitLaunch (s : State) (c : Context) (l : Launch) (queued : Bool) : State :=
  let m := judge s c l queued
  graphState (s.setLaunch m) m m.die 8 [2]

/-- The block is that of a work queue: FEQ is 1 and an element has 128 B (R272). -/
def Qcb.isWork (q : Qcb) : Bool := q.f 6 16 1 == 1 && q.e == 128

/-- The ENQ of a doorbell's packet, once the queue takes it; phase 2 reads the packet, as that of LNCH does (R370, R403). A block that
fails its checks poisons the queue (R256); what goes to a lost package is dropped (R440). -/
def ringDoorbell (s : State) (w : WorkQ) : State :=
  match w.doorbell, s.ctx? w.ctx with
  | some a, some c =>
    let q := readQcb s w.qcb
    if paLost s w.qcb then s.setWorkq { w with doorbell := none }
    else if !q.ok s w.qcb then (poisonQ s w.qcb none 0x0E).setWorkq { w with doorbell := none }
    else match fePa s c w.die a.toNat with
      | none => s.setWorkq { w with doorbell := none }
      | some pa =>
        if !q.isWork || q.st != 0 || a.toNat % 128 != 0 then s.setWorkq { w with doorbell := none }
        else match feReserve s c w.die w.qcb { feMove c w.die .lnch with src := pa, srcVa := a.toNat } with
          | .ok s1 | .bad s1 => s1.setWorkq { w with doorbell := none }
          | .no => s
  | _, _ => s

/-- The packet a queue has in dispatch is short of its boundary, or its element still to be read. -/
def inDispatch (s : State) (w : WorkQ) : Bool :=
  match w.inFlight with
  | some id => (s.qmoves.any fun m => m.id == id && m.fe && m.kind == .deq) || (match s.launch? id with
    | some l => !l.boundary
    | none => false)
  | none => false

/-- A front-end core takes a reservation of the next element of a work queue, under the checks of DEQ (R262, R272): a block that fails
poisons the queue (R256), a slot that faults too, with the reservation taken (R269); a block of a lost package grants nothing (R440). -/
def dequeueFe (s : State) (c : Context) (w : WorkQ) (fe : Nat) : State :=
  let q := readQcb s w.qcb
  if paLost s w.qcb then s
  else if !q.ok s w.qcb then poisonQ s w.qcb none FaultCode.qcbbad.num
  else if !q.isWork || q.st != 0 || q.tail - q.pe ≤ q.head || q.held then s
  else
    let h := s.qhome w.qcb
    let s1 := freeRose (changeQ s w.qcb none q.takeHead { h with unread := h.unread ++ [q.head] }) w.qcb
    match feSlot s c w.die q .rd q.head with
    | .ok va pas =>
      { s1 with qmoves := s1.qmoves ++ [(feMove c w.die .deq).granted s1.nextId w.qcb q.head va pas q], nextId := s1.nextId + 1 }.setWorkq
        { w with inFlight := some s1.nextId, fe := fe }
    | .fault e _ => poisonQ s1 w.qcb none e.num
    | .miss => s

/-- The element that a front-end core reads is a packet in dispatch, under the number of its move; one that a loss or a kill has met on
its way is cut short. DESIGN CHOICE (log entry 104): poison in its bytes is dropped. -/
def readPacket (s : State) (m : QMove) : State :=
  let p := (elemBytes s m).map (·.1)
  let s1 := (readSlot s m).dropMove m.id
  match s1.ctx? m.ctx, s1.workq? m.qcb with
  | some c, some w =>
    let node := if pkGraphed p then (pkGraph c p (pkNode p)).map fun b => b + 16 * pkNode p else none
    let l := { newLaunch s1 m.ctx m.die w.fe (some m.qcb) p node 0 with id := m.id }
    let s2 := admitLaunch { s1 with launches := s1.launches ++ [l] } c l true
    if m.cut = 0 then s2
    else { s2 with launches := s2.launches.map fun x => if x.id == m.id then x.cut m.cut else x }
  | _, _ => s1

/-- DEQ_ELEMENT_READ: an element that a group, or the front end, has reserved is read (R262, R272). -/
def execDeqElementRead (mv : Nat) (s : State) : Out :=
  match s.move? mv with
  | none => .next s
  | some m =>
    if m.kind != .deq || m.landed then .next s
    else if !m.fe then .next (readElement s m)
    else if mayPublish s m.die then .next (readPacket s m)
    else .next s

/-- PACKET_DISPATCH: a core of the queue's die takes the first node of the context's ready list, else reserves the queue's next element
once the packet in dispatch has reached its boundary. -/
def execPacketDispatch (queue fe : Nat) (s : State) : Out :=
  match s.workq? queue with
  | none => .next s
  | some w =>
    if !feUp s w.die fe then .next s
    else
      let s1 := ringDoorbell s w
      match s1.ctx? w.ctx, s1.workq? queue with
      | some c, some w1 =>
        if c.stopped.isSome || !mayPublish s1 w1.die then .next s1
        else match c.ready with
          | r :: rest =>
            let s2 := s1.setCtx { c with ready := rest }
            (match s2.launch? r.1 with
             | some l => if entryClear s1 l then .next (admitLaunch s2 c { l with die := w1.die, fe := fe } false) else .next s1
             | none => .next s2)
          | [] => if w1.dead || inDispatch s1 w1 then .next s1 else .next (dequeueFe s1 c w1 fe)
      | _, _ => .next s1

/-! ### Room for a team (R12, R380, R396) -/

/-- Scopes at which a launch holds network IDs. -/
def netScopes (gang : Bool) : List Scope := [.quad, .die, .pkg] ++ (if gang then [.pod] else [])

/-- The free physical IDs of an instance. -/
def freeIds (s : State) (sc : Scope) (inst : Nat) : List Nat :=
  (List.range 64).filter fun i => !(s.nets.any fun n => n.key == ⟨sc, inst, i⟩ && n.launch.isSome)

def netBound (s : State) (l : Launch) (sc : Scope) (inst : Nat) : Bool :=
  s.nets.any fun n => n.launch == some l.id && n.key.scope == sc && n.key.inst == inst

def netRoom (s : State) (l : Launch) (die core : Nat) : Bool :=
  (netScopes (pkGang l.packet)).all fun sc =>
    netBound s l sc (netInst sc die core) || decide (pkNnet l.packet ≤ (freeIds s sc (netInst sc die core)).length)

/-- The context has, or can take, the frames a launch needs on a core. -/
def frameRoom (s : State) (c : Context) (die core : Nat) (wide : Bool) : Bool :=
  let fs := (s.core die core).frames
  match fs.find? fun f => f.ctx == c.id with
  | some f => (!wide || f.wide || fs.length == 1) && (c.rec? die core).map (·.st) == some SaveSt.resident
  | none => (freeFrame s die core wide).isSome && (c.rec? die core).isNone

/-- Scratchpad that the teams of a context hold on a core. -/
def spadHeld (s : State) (ctx die core : Nat) : Nat :=
  ((s.teams.filter fun t => t.ctx == ctx && t.die == die && t.core == core).map (·.spadLen)).sum

/-- The core may hold teams of a cluster. -/
def coreAllowed (s : State) (c : Context) (l : Launch) (idx die core : Nat) : Bool :=
  let cl := idx / pkCluster l.packet
  let id := clusterPart c.home l.gang cl
  let e := l.pmap.getD cl 0
  match (partDies s id)[mapDie e]? with
  | some d => d == die && (partCores s id d (mapMask e)).contains core
  | none => false

/-- A team of a launch can be placed on a core. -/
def placeOk (s : State) (c : Context) (l : Launch) (idx die core : Nat) : Bool :=
  let wide := pkWide l.packet
  let plan := slotPlan l.kword (roleCode l.packet l.roles)
  let any := wide || ctxWide s l.ctx die core
  let more := if wide && !ctxWide s l.ctx die core then 4096 else 0
  coreAllowed s c l idx die core && frameRoom s c die core wide && decide (l.resident.length < pkResmax l.packet)
    && ((List.range 4).all fun j =>
      decide (partNeed plan j ≤ (freeSlots s l.ctx die core j).length)
        && decide (partNeed plan j * kVregs l.kword ≤ regRoom s l.ctx die core j + more))
    && decide (spadHeld s l.ctx die core + pkScratch l.packet ≤ if any then 393216 else 131072)
    && netRoom s l die core && mayPublishN s die 4

/-! ### Starting a team (R30, R192, R204, R394) -/

/-- A group as a launch starts it. -/
def startGroup (s : State) (t : Team) (p : List Byte) (argBase vec part slot grp : Nat) (half : Option Nat) (started : Bool) : Group :=
  let w := if half.isSome then 16 else 32
  { gid := s.nextId, die := t.die, core := t.core, part := part, slot := slot, half := half, ctx := t.ctx, launch := t.launch,
    team := t.id, grp := grp, role := t.roles.getD grp .vector, tids := (List.range w).map fun l => w * grp + l,
    active := BitVec.ofNat 32 (2 ^ w - 1), s := SMap.set 0 [] 1 (BitVec.ofNat 64 argBase), v := [], k := [], x := [],
    hdr := t.kaddr + BitVec.ofNat 64 (8 * kEntry t.kword), idx := 0, clause := none, entered := false, voidm := 0, bkpass := 0,
    nbv := pkNbv p, trapbase := t.trapbase, trapvec := BitVec.ofNat 64 vec, sys := false, trap := none, framed := false,
    stopped := false, pass := false, sleep := .awake, iter := none, opened := none, gates := [], preds := [(s.nextId, [])],
    waitFor := none, inSet := false, age := s.clk t.die t.core, ready := none, nHold := none, stall := 0, fill := 0, fast := [],
    tried := none, holds := false, sld := none, late := [], lastCmd := none, lateWr := [], retired := false, started := started }

/-- The groups of a team take their slots: slot j of the plan on partition j mod 4, in the lowest vacant slots. -/
def startGroups (s : State) (t : Team) (p : List Byte) (argBase vec : Nat) (started : Bool) (plan : List (List Nat)) : State :=
  let free := (List.range 4).map fun j => freeSlots s t.ctx t.die t.core j
  plan.zipIdx.foldl (fun s x =>
    let part := x.2 % 4
    let slot := (free.getD part []).getD (x.2 / 4) 0
    x.1.zipIdx.foldl (fun (s : State) y =>
      { s with groups := s.groups ++ [startGroup s t p argBase vec part slot y.1 (if kL16 t.kword then some y.2 else none) started],
               nextId := s.nextId + 1 }) s) s

/-- The barrier objects that the kernel declares, A from 1 to 65,535, armed from offset 0 upward. -/
def startObjects (t : Team) (bs : List (Nat × Nat)) : Team :=
  (bs.take (t.spadLen / 16)).zipIdx.foldl (fun t x =>
    let u := writeObj t (16 * x.2) { expa := 1 + x.1.1 % 65535, arr := 0, expb := x.1.2 % 2 ^ 32, land := 0, st := 1, resv := 0, cause := 0, phase := 0 }
    { u with bars := u.bars ++ [16 * x.2] }) t

/-- The instances that hold a core count the groups of a team that is placed; unbound IDs are bound first (R246, R396). -/
def netJoin (s : State) (l : Launch) (die core n : Nat) : State :=
  (netScopes (pkGang l.packet)).foldl (fun (s : State) sc =>
    let inst := netInst sc die core
    if netBound s l sc inst then
      { s with nets := s.nets.map fun b =>
          if b.launch == some l.id && b.key.scope == sc && b.key.inst == inst then { b with exp := b.exp + n } else b }
    else
      ((freeIds s sc inst).take (pkNnet l.packet)).zipIdx.foldl (fun (s : State) x =>
        let key : NetKey := ⟨sc, inst, x.1⟩
        let old := (s.nets.find? fun b => b.key == key).getD ⟨key, none, 0, 0, 0, 0, [], []⟩
        { s with nets := (s.nets.filter fun b => b.key != key) ++
            [{ old with launch := some l.id, virt := x.2, arr := 0, exp := n, arrived := [] }] }) s) s

/-- The context's frame on a core, its directory entry, and a fresh code cache, before a team of a launch starts there. -/
def openCore (s : State) (c : Context) (die core : Nat) (wide : Bool) : State :=
  let k := s.core die core
  let had := k.frames.find? fun f => f.ctx == c.id
  let f := match had with
    | some f => { f with wide := f.wide || wide, first := if wide then 0 else f.first }
    | none => { blankFrame c.id with first := (freeFrame s die core wide).getD 0, wide := wide }
  let s1 := s.setFrame die core f
  let k1 := s1.core die core
  let s2 := s1.setCore die core
    { k1 with code := k1.code.filter fun x => x.ctx != c.id, running := some (k1.running.getD c.id) }
  if had.isSome then s2
  else
    let c1 := { c with saves := c.saves ++ [⟨die, core, .resident, 0, 0, false, none, c.lastGtb die core, [], [], []⟩] }
    dirWrite (s2.setCtx c1) c1 die core 1 (c.lastGtb die core)

/-- The lowest resident index that no team of the launch holds. -/
def freeIndex (l : Launch) : Nat := ((List.range (l.resident.length + 1)).find? fun r => !l.resident.contains r).getD 0

/-- TEAM_START: a team of a launch on a core, in its initial state. The launch's first team here sets the context's budget (R394). -/
def placeTeam (s : State) (l : Launch) (idx die core : Nat) (started : Bool) : State :=
  match s.ctx? l.ctx with
  | none => s
  | some c0 =>
    let p := l.packet
    let base := fun (o lo : Nat) => (capBase c0 (pkF p o lo 32) 0 1 0).getD 0
    let s0 := if l.placed = l.away then
        s.setCtx { c0 with budget := if pkF p 0x38 0 64 = 0 then 2 ^ 64 - 1 else pkF p 0x38 0 64 }
      else s
    let c := (s0.ctx? l.ctx).getD c0
    let s1 := openCore s0 c die core (pkWide p)
    let r := freeIndex l
    let t : Team := startObjects
      { id := s1.nextId, launch := l.id, ctx := l.ctx, die := die, core := core, index := idx, res := r,
        kaddr := BitVec.ofNat 64 l.kaddr, kword := l.kword, secLo := l.secLo, secHi := l.secHi, spad := [], badSpad := [],
        spadLen := pkScratch p, bars := [], wide := pkWide p,
        roles := (List.range (kGroups l.kword)).map fun g => roleOf (roleCode p l.roles g),
        trapbase := BitVec.ofNat 64 (base 0x40 0 + r * kFrames l.kword * 0x9000), ended := false }
      (Config.barriers l.ctx l.id l.kaddr l.kword.toNat)
    let s2 := netJoin { s1 with teams := s1.teams ++ [t], nextId := s1.nextId + 1 } l die core (kGroups l.kword)
    let s3 := startGroups s2 t p (base 0x48 0) (base 0x40 32) started (slotPlan l.kword (roleCode p l.roles))
    s3.setLaunch { l with placed := l.placed + 1, resident := l.resident ++ [r],
                          boundary := l.boundary || decide (l.placed + 1 = pkTeams p) }

/-- The acquire of a node is made: what its predecessors released is visible on every die (R400). -/
def acquired (s : State) (l : Launch) : Bool := s.accs.all fun a => !l.acqs.contains a.id || a.performed 2

/-- A kernel node whose packet the front end has judged good and not yet placed to its end. -/
def placing (s : State) (l : Launch) : Bool :=
  !l.boundary && !isReady s l && pkType l.packet == 1 && feUp s l.die l.fe && l.status == 0 && acquired s l
    && ((s.ctx? l.ctx).map fun c => c.stopped.isNone) == some true

/-- One team on a core, numbered 48 · DIE + CORE, if it has room. -/
def tryPlace (s : State) (lid idx core : Nat) (started : Bool) : Option State :=
  match s.launch? lid with
  | none => none
  | some l =>
    match s.ctx? l.ctx with
    | none => none
    | some c => if placeOk s c l idx (core / 48) (core % 48) then some (placeTeam s l idx (core / 48) (core % 48) started) else none

/-- TEAM_PLACE: the next team of an ordinary launch. -/
def execTeamPlace (launch core : Nat) (s : State) : Out :=
  match s.launch? launch with
  | none => .next s
  | some l =>
    if !placing s l || pkCoh l.packet then .next s
    else match tryPlace s launch l.placed core true with
      | some s1 => .next s1
      | none => .next s

/-- Teams placed together, or none. -/
def placeAll (s : State) (lid : Nat) (started : Bool) : List (Nat × Nat) → Option State
  | [] => some s
  | x :: r => (tryPlace s lid x.1 x.2 started).bind fun s1 => placeAll s1 lid started r

/-- COHORT_ADMIT: every team of a cohort in one step. -/
def execCohortAdmit (launch : Nat) (cores : List Nat) (s : State) : Out :=
  match s.launch? launch with
  | none => .next s
  | some l =>
    if !placing s l || !pkCoh l.packet || pkGang l.packet || cores.length ≠ pkTeams l.packet then .next s
    else match placeAll s launch true ((List.range cores.length).zip cores) with
      | some s1 => .next s1
      | none => .next s

/-! ### Gangs (R397) -/

/-- The smallest element above those held. -/
def nextPart (ids held : List Nat) : Option Nat :=
  (ids.filter fun i => !held.contains i).foldl (fun (r : Option Nat) i => match r with
    | none => some i
    | some j => some (min i j)) none

/-- The teams of a gang in one of its partitions. -/
def gangTeams (c : Context) (l : Launch) (id : Nat) : List Nat :=
  (List.range (pkTeams l.packet)).filter fun t => (clusterPart c.home l.gang (t / pkCluster l.packet)).toNat == id

/-- A partition is held; with the last one the coordinator commits and names the start tick. -/
def gangHold (s : State) (lid id : Nat) : State :=
  match s.launch? lid with
  | none => s
  | some l =>
    let m := { l with held := l.held ++ [id] }
    s.setLaunch (if (nextPart (m.gang.map (·.1)) m.held).isNone then
      { m with boundary := true, startAt := some (s.gtb.toNat + 10000 + Config.gangDelay lid) } else m)

/-- GANG_RESERVE: the next partition of a gang in increasing identifier order; the share of another package is placed and run
there. -/
def execGangReserve (launch : Nat) (cores : List Nat) (s : State) : Out :=
  match s.launch? launch with
  | none => .next s
  | some l =>
    if !placing s l || !pkGang l.packet then .next s
    else match s.ctx? l.ctx, nextPart (l.gang.map (·.1)) l.held with
      | some c, some id =>
        let ts := gangTeams c l id
        if !onPkg s (BitVec.ofNat 16 id) then
          .next (gangHold (s.setLaunch { l with placed := l.placed + ts.length, ended := l.ended + ts.length, away := l.away + ts.length }) launch id)
        else if cores.length ≠ ts.length then .next s
        else match placeAll s launch false (ts.zip cores) with
          | some s1 => .next (gangHold s1 launch id)
          | none => .next s
      | _, _ => .next s

/-- GANG_START: the start tick has come and the teams may issue. -/
def execGangStart (launch : Nat) (s : State) : Out :=
  match s.launch? launch with
  | none => .next s
  | some l =>
    match l.startAt with
    | some t =>
      if t ≤ s.gtb.toNat then
        .next { s with groups := s.groups.map fun g => if g.launch == launch then { g with started := true } else g }
      else .next s
    | none => .next s

/-! ### The end of a team (R290, R314, R380) -/

/-- A context has no team left on a core: its frame is free (R380). -/
def closeCore (s : State) (ctx die core : Nat) : State :=
  let k := s.core die core
  let s1 := s.setCore die core
    { k with frames := k.frames.filter fun f => f.ctx != ctx, recs := k.recs.filter fun e => e.ctx != ctx,
             code := k.code.filter fun e => e.ctx != ctx, running := if k.running == some ctx then none else k.running }
  match s1.ctx? ctx with
  | none => s1
  | some c =>
    match c.rec? die core with
    | none => s1
    | some r =>
      if r.st == .saved then s1
      else (dirWrite s1 c die core 0 r.gtb).setCtx { c with saves := c.saves.filter fun x => !(x.die == die && x.core == core) }

/-- A team leaves its core: arrays, slots, scratchpad and resident slots are free. DESIGN CHOICE (log entry 94): where it was the last
of its context there from a launch with WIDE, the context's other teams keep what they hold, be it more than one frame's share. -/
def releaseTeam (s : State) (t : Team) : State :=
  let s1 := s.setFrame t.die t.core ((s.frame t.die t.core t.ctx).release t.id)
  let s2 : State := { s1 with
    teams := s1.teams.filter fun u => u.id != t.id,
    groups := s1.groups.filter fun g => g.team != t.id,
    parts := SMap.update Partn.reset s1.parts fun p => { p with vacant := p.vacant.filter fun v => v.team != t.id } }
  let rest := s2.teams.filter fun u => u.ctx == t.ctx && u.die == t.die && u.core == t.core
  if rest.isEmpty then closeCore s2 t.ctx t.die t.core
  else s2.setFrame t.die t.core { s2.frame t.die t.core t.ctx with wide := rest.any (·.wide) }

/-- Accesses of a context on a core still in flight. -/
def coreAccs (s : State) (ctx die core : Nat) : List Nat :=
  (s.accs.filter fun a => a.ctx == ctx && a.die == die && a.core == core && !a.isPoint).map (·.id)

/-- TEAM_END_RELEASE: a team whose groups have retired and whose commands have landed leaves its core. -/
def execTeamEndRelease (team : Nat) (s : State) : Out :=
  match s.team? team with
  | none => .next s
  | some t =>
    if teamHeld s t || !mayPublishN s t.die 4 then .next s
    else
      let late := coreAccs s t.ctx t.die t.core
      let s1 := releaseTeam s t
      .next { s1 with launches := s1.launches.map fun l =>
        if l.id == t.launch then
          { l with ended := l.ended + 1, resident := l.resident.filter fun x => x != t.res, accs := (l.accs ++ late).eraseDups }
        else l }

/-! ### Completion (R398 to R401) -/

/-- Every access of the node, or of its copy, is performed at the release scope. -/
def relDone (s : State) (l : Launch) : Bool :=
  !pkRel l.packet || s.accs.all fun a => a.isPoint || a.performed (Scope.rank (scopeOfCode (pkRscope l.packet)))
    || !(l.accs.contains a.id || a.cmd == some l.id || s.teams.any fun t => t.launch == l.id && t.ctx == a.ctx && t.die == a.die && t.core == a.core)

/-- The point at which a node completes; a stopped context's nodes complete with the fault's code. -/
def nodeOver (l : Launch) (stopped : Bool) : Bool :=
  stopped || l.status != 0 && l.placed == l.ended ||
    (l.boundary && l.placed == l.ended && (pkType l.packet != 2 || l.copyAt == pkF l.packet 0x18 0 64))

/-- What a node with REL hands to its successors: accesses still on their way beyond its scope, with the scope's code (R400). -/
def handed (s : State) (l : Launch) : List (Nat × Nat) :=
  if !pkRel l.packet then []
  else (s.accs.filter fun a => !a.isPoint && (l.accs.contains a.id || a.cmd == some l.id)).map fun a => (a.id, pkRscope l.packet)

/-- A successor's entry takes what a predecessor hands on. -/
def Context.hand (c : Context) (entry : Nat) (xs : List (Nat × Nat)) : Context :=
  let old := ((c.nodes.find? fun x => x.1 == entry).map (·.2)).getD []
  if xs.isEmpty then c else { c with nodes := (c.nodes.filter fun x => x.1 != entry) ++ [(entry, old ++ xs)] }

/-- What an acquire at ASCOPE waits for: what was released at no wider a scope (R400). -/
def Context.takes (c : Context) (entry : Nat) (p : List Byte) : List Nat :=
  if !pkAcq p then []
  else (((((c.nodes.find? fun x => x.1 == entry).map (·.2)).getD []).filter fun x => decide (x.2 ≤ pkAscope p))).map (·.1)

/-- PLEFT of a graph entry falls by 1: a `.pkg` atomic that a die's front end stamps and the home performs in this step, with PLEFT
after it; none while the home may not serialize it (R90, R97, R398). Host and remote homes perform it alone (R92). -/
def pleftDec (s : State) (c : Context) (die va : Nat) : Option (State × Nat) :=
  match fePa s c die va with
  | none => some (s, 2 ^ 32 - 1)
  | some pa =>
    let r : Rmw := ⟨.add, .n32, 2 ^ 32 - 1, 0⟩
    let s1 := bumpVc s die
    let old := (List.range 4).map fun i => if paFar pa then dieByte s die (pa + i) else s.home.byte (pa + i)
    let a := tookRmw { Acc.blank with id := s.nextId, seq := s.nextId, ctx := c.id, die := die, core := 48, kind := .rmw r, scope := .pkg,
                                      place := .glob pa, va := va, vas := [va], len := 4, stamp := (s1.die die).vc } r old
    let left := leNat (a.bytes.map (·.val))
    let h := homeDie pa
    if paFar pa then some (moveBytes (homeWrite s pa (a.bytes.map fun b => (b.val, b.bad)) none) c.id die pa 4 true, left)
    else if !mayPublish s die || (h != die && !causal s1 h a) then none
    else
      let s2 := if h = die then s1 else setVc s1 h die (a.stamp.getD die 0)
      let b := { a with cidx := nextIdx s a, stage := .serialized }
      some (atHome { s2 with accs := s2.accs ++ [b], nextId := s2.nextId + 1 } h b, left)

/-- Events whose open fields are free values. -/
def postOpen (s : State) (cid kind : Nat) : State :=
  postEvent s cid kind (Config.eventOpen s.tick 0) (Config.eventOpen s.tick 1) (Config.eventOpen s.tick 2)

/-- A successor's PLEFT has fallen to `left`: at 0 the node is ready; at the first failure among its predecessors it completes with the
same status; a malformed one completes with CAP (R398, R399, R401). -/
def signalled (l : Launch) (st n b left die : Nat) (s : State) (c0 : Context) : State :=
  let a := b + 16 * n
  if c0.failed.contains a then
    if left = 0 then s.setCtx { c0 with failed := c0.failed.filter fun x => x != a } else s
  else if st = 0 && left ≠ 0 then s
  else
    let c := if left = 0 then c0 else { c0 with failed := c0.failed ++ [a] }
    let s1 := s.setCtx c
    let off := frN (feRead (readBy s l.id) c die a 4) 0 4
    if off % 128 != 0 || (pkTable c l.packet (off + 128)).isNone then
      postOpen (feLand s1 c die (a + 8) (okBytes [3, BitVec.ofNat 8 stCap])) c.id 5
    else
      let s2 := if left = 0 then feLand s1 c die (a + 8) (okBytes [1]) else s1
      let p := (feRead (readBy s2 l.id) c die (b + off) 128).map (·.1)
      let st1 := if pkNode p ≠ n then stCap else st
      let m := { newLaunch s2 l.ctx die l.fe none p (some a) st1 with acqs := c.takes a p }
      let s3 := s2.addLaunch m
      let s4 := if pkNode p ≠ n then postOpen s3 c.id 5 else s3
      if st1 ≠ 0 then s4
      else match s4.ctx? c.id with
        | some c1 => s4.setCtx { c1 with ready := c1.ready ++ [(m.id, n)], nodes := c1.nodes.filter fun x => x.1 != a }
        | none => s4

/-- A successor is told that a predecessor has completed with a status; none while it waits. -/
def signal (l : Launch) (st : Nat) (s : State) (n : Nat) : Option State :=
  match s.ctx? l.ctx with
  | none => some s
  | some c0 =>
    let die := actDie s l.die
    match pkGraph c0 l.packet n with
    | none => some (postOpen s c0.id 5)
    | some b =>
      let c := c0.hand (b + 16 * n) (handed s l)
      if !mayPublishN s die 3 then none
      else (pleftDec (s.setCtx c) c die (b + 16 * n + 4)).map fun x => signalled l st n b x.2 die x.1 c

/-- The successors of a packet, as a die's front end reads them. -/
def succList (s : State) (c : Context) (l : Launch) (die : Nat) : List Nat :=
  match (if pkNsucc l.packet ≤ 4096 then pkSucc c l.packet else none) with
  | some b => (List.range (pkNsucc l.packet)).map fun i => frN (feRead (readBy s l.id) c die (b + 2 * i) 2) 0 2
  | none => []

/-- The reservations of a gang that never started are rolled back. -/
def rollback (s : State) (l : Launch) : State :=
  if !pkGang l.packet || l.startAt.isSome then s
  else
    let s1 := (s.teams.filter fun t => t.launch == l.id).foldl releaseTeam s
    s1.setLaunch { l with placed := 0, ended := 0, away := 0, resident := [] }

/-- The launch's network IDs are free. -/
def unbind (s : State) (lid : Nat) : State :=
  { s with nets := s.nets.map fun n => if n.launch == some lid then { n with launch := none, virt := 0, arr := 0, exp := 0, arrived := [] } else n }

/-- The status record of a launch (R401). -/
def statusRec (s : State) (l : Launch) : List Byte :=
  leBytes 1 l.status ++ leBytes 3 0 ++ leBytes 4 (min l.placed (2 ^ 32 - 1)) ++ leBytes 8 s.gtb.toNat

/-- The status record, then the graph entry, published on the die that acts; the successors stay to be signalled. -/
def completeNode (s : State) (c : Context) (l : Launch) : State :=
  let die := actDie s l.die
  let s1 := match pkStatus c l.packet with
    | some va => feLand s c die va (okBytes (statusRec s l))
    | none => postOpen s c.id 5
  let s2 := graphState (graphState s1 l die 9 [BitVec.ofNat 8 l.status]) l die 8 [3]
  s2.setLaunch { l with complete := true, todo := succList s2 c l die }

/-- A node that has signalled its successors and has no team left is gone. -/
def endNode (s : State) (lid : Nat) : State :=
  match s.launch? lid with
  | some l =>
    if l.complete && l.todo.isEmpty && !(s.teams.any fun t => t.launch == lid) then
      { unbind s lid with launches := s.launches.filter fun x => x.id != lid }
    else s
  | none => s

/-- The next successor of a complete node, in list order (R398). -/
def signalNext (s : State) (l : Launch) : State :=
  match l.todo with
  | [] => s
  | n :: rest =>
    match signal l l.status s n with
    | some s1 => s1.setLaunch { l with todo := rest }
    | none => s

/-- NODE_COMPLETE: a node completes; one that has completed signals its next successor. -/
def execNodeComplete (launch : Nat) (s : State) : Out :=
  match s.launch? launch with
  | none => .next s
  | some l0 =>
    match s.ctx? l0.ctx with
    | none => .next s
    | some c =>
      if isReady s l0 || !fePkg s then .next s
      else if l0.complete then .next (endNode (signalNext s l0) launch)
      else
        let s0 := if l0.killed || c.stopped.isSome then rollback s l0 else s
        let l1 := (s0.launch? launch).getD l0
        let l := { l1 with status := if l1.status = 0 then c.stopped.getD 0 else l1.status, boundary := l1.boundary || c.stopped.isSome }
        if !nodeOver l c.stopped.isSome || !relDone s0 l || !entryClear s0 l || !mayPublishN s0 (actDie s0 l.die) 5 then .next s
        else .next (endNode (completeNode s0 ((s0.ctx? l.ctx).getD c) l) launch)

/-- COPY_NODE_RUN: the next bytes of a copy node, up to a line of its source and its destination, read after its acquire and
published on the die of the core that runs it; it waits where a page is not mapped (R85, R398, R400). -/
def execCopyNodeRun (launch : Nat) (s : State) : Out :=
  match s.launch? launch with
  | none => .next s
  | some l =>
    match s.ctx? l.ctx with
    | none => .next s
    | some c =>
      if isReady s l || l.status ≠ 0 || pkType l.packet ≠ 2 || !feUp s l.die l.fe || c.stopped.isSome then .next s
      else match pkCopy c l.packet with
        | none => .next s
        | some (src, dst) =>
          let a := src + l.copyAt
          let b := dst + l.copyAt
          let n := min (pkF l.packet 0x18 0 64 - l.copyAt) (min (128 - a % 128) (128 - b % 128))
          if n = 0 || !acquired s l || !mayLand s l.die n then .next s
          else match fePa s c l.die a, fePa s c l.die b with
            | some pa, some pb =>
              let s1 := pullBytes s l.ctx l.die pa n
              .next ((landBytes s1 l.die 48 l.ctx (some l.id) b pb (hostRead s l.id pa (feRead s c l.die a n))).setLaunch { l with copyAt := l.copyAt + n })
            | _, _ => .next s

/-! ### Doorbells and lost queues (R402 to R404) -/

/-- What a doorbell reads back: 1 until it is free (R403). -/
def doorbellRead (s : State) (queue : Nat) : W64 :=
  if ((s.workq? queue).map fun w => w.doorbell.isSome) == some true then 1 else 0

/-- DOORBELL_WRITE: refused while the previous one is pending; a front-end core of the queue's die performs the ENQ. -/
def execDoorbellWrite (queue : Nat) (addr : W64) (s : State) : Out :=
  match s.workq? queue with
  | none => .next s
  | some w =>
    let w1 := { w with doorbell := some addr }
    if w.doorbell.isSome || (readQcb s queue).scope ≠ 5 then .next s
    else if feDie s w.die then .next (ringDoorbell (s.setWorkq w1) w1)
    else .next (s.setWorkq w1)

/-- FE_CORE_HALT: with the package's last running core, no status is written until the package is reset (R404). -/
def execFeCoreHalt (die fe : Nat) (s : State) : Out :=
  if die < 4 && fe < 4 then
    let s1 := s.setDie die { s.die die with fe := (s.die die).fe.set fe true }
    .next { s1 with feLost := s1.feLost || (decide (2 ≤ s1.upStep) && !(List.range 4).any (feDie s1)) }
  else .next s

/-- The index at the head of an image's signature (R443). -/
def sigIndex (i : FwImage) : Nat := leNat (if Config.indexBig then (i.sig.take 4).reverse else i.sig.take 4)

/-- An image's signature has its 2,820 B and holds under a fused public key (R443). -/
def sigOk (s : State) (i : FwImage) : Bool :=
  i.sig.length == 2820 && s.keys.any fun k => Config.xmssValid k i.bytes i.sig

/-- FE_TAKEOVER: a sibling reloads the image of a halted core, one that was accepted and whose signature holds, and resumes what
that core had in dispatch (R404, R443). -/
def execFeTakeover (die fe : Nat) (sib : Nat × FwImage) (s : State) : Out :=
  let image := sib.2
  if feUp s die fe || !feUp s die sib.1 || !s.images.contains (sigIndex image) || !sigOk s image then .next s
  else .next { s with
    launches := s.launches.map fun l => if l.die == die && l.fe == fe then { l with fe := sib.1 } else l,
    workqs := s.workqs.map fun w => if w.die == die && w.fe == fe then { w with fe := sib.1 } else w }

/-- A copy node that has begun has bytes left to copy. -/
def copying (l : Launch) : Bool := pkType l.packet == 2 && l.status == 0 && l.copyAt != pkF l.packet 0x18 0 64

/-- A packet in dispatch is cut short with a status: no more of its teams are placed, no more of its bytes copied. -/
def cutShort (s : State) (pick : Launch → Bool) (st : Nat) : State :=
  { s with launches := s.launches.map fun l =>
      if pick l && (!l.boundary || copying l) && !isReady s l then l.cut st else l }

/-- QUEUE_TABLE_LOST: the queue becomes faulted with CAUSE 0x44, its packet in dispatch cut short, or to be so once it is read. -/
def execQueueTableLost (queue : Nat) (s : State) : Out :=
  match s.workq? queue with
  | none => .next s
  | some w =>
    let q := readQcb s queue
    let s1 := wakeAll (changeQ s queue none ((q.put 4 32 2 3).put 4 40 8 0x44) (s.qhome queue)) queue
    let s2 := cutShort s1 (fun l => w.inFlight == some l.id && !l.boundary) stQlost
    .next (postOpen ({ s2 with qmoves := cutMoves s2.qmoves (fun m => m.qcb == queue) stQlost }.setWorkq { w with dead := true, doorbell := none }) w.ctx 3)

/-- The halt of a die's front end: its queues dispatch nothing further, its packets in dispatch are cut short, those that came from the
ready list through a queue already lost among them, and each context with a queue or such a packet there gets its event once. -/
def feHaltDie (s : State) (die : Nat) : State :=
  let cut := s.launches.filter fun l => l.die == die && (!l.boundary || copying l) && !isReady s l
  let mine := s.workqs.filter fun w => w.die == die && (!w.dead || !(s.die die).feTold)
  if mine.isEmpty && cut.isEmpty then s
  else
    let s0 := s.setDie die { s.die die with feTold := true }
    let s1 := cutShort s0 (fun l => l.die == die) stFeHalt
    let s2 := { s1 with workqs := (s1.workqs.map fun w => if w.die == die then { w with dead := true } else w),
                        qmoves := cutMoves s1.qmoves (fun m => m.die == die) stFeHalt }
    if fePkg s then (mine.map (·.ctx) ++ cut.map (·.ctx)).eraseDups.foldl (fun s c => postOpen s c 4) s2 else s2

/-- DIE_FE_HALT: all four cores of a die have halted; another die's cores act for it. -/
def execDieFeHalt (die : Nat) (s : State) : Out :=
  if 4 ≤ die || (s.die die).fe.any fun h => !h then .next s else .next (feHaltDie s die)

/-! ### Translations (R414, R415, R448) -/

/-- The context's code caches on every core are invalidated. -/
def dropCode (s : State) (ctx : Nat) : State :=
  (s.cores.map (·.1)).foldl (fun s i =>
    let k := s.core (i / 48) (i % 48)
    s.setCore (i / 48) (i % 48) { k with code := k.code.filter fun x => x.ctx != ctx }) s

/-- TRANSLATION_REGISTER: the code, from and to, and the dispatch table through which its functions are reached, its address and
number of words. -/
def execTranslationRegister (ctx : Nat) (code table : Nat × Nat) (s : State) : Out :=
  if (s.ctx? ctx).isNone then .next s
  else .next (dropCode { s with transl := s.transl ++ [⟨s.nextId, ctx, code.1, code.2, table.1, table.2, false, [], none, false⟩], nextId := s.nextId + 1 } ctx)

/-- A translation is swapped out: on no die does a word of its dispatch table enter its code any more, so the new words are performed
at `.pkg` (R414). DEDUCED (log entry 97): the dispatch table shows the swap. -/
def swappedOut (s : State) (c : Context) (t : Transl) : Bool :=
  (List.range t.words).all fun i => (List.range 4).all fun d => match fePa s c d (t.table + 8 * i) with
    | some pa => !(decide (t.lo ≤ (dieWord s d pa).toNat) && decide ((dieWord s d pa).toNat < t.hi))
    | none => true

/-- The coherence indices of a dispatch table's words: they rise with every write to it. -/
def tableIdx (s : State) (c : Context) (t : Transl) : List Nat :=
  (List.range (8 * t.words)).map fun i => match fePa s c 0 (t.table + i) with
    | some pa => s.home.index pa
    | none => 0

/-- Groups of a context that have left their cores with a save. -/
def savedGroups (s : State) (ctx : Nat) : List Group :=
  ((s.contexts.filter fun c => c.id == ctx).map fun c => (c.saves.map (·.groups)).flatten).flatten

/-- A list of s registers or a PC refers to old code. -/
def refersTo (t : Transl) (pc : W64) (ss : List (Nat × W64)) : Bool :=
  let hit := fun (x : W64) => decide (t.lo ≤ x.toNat) && decide (x.toNat < t.hi)
  hit pc || ss.any fun x => hit x.2

/-- A byte that the youngest store of a program order holds on its way to the die view. -/
def frameStore (s : State) (p : Preds) (pa : Nat) : Option (Byte × Bad) :=
  s.accs.foldl (fun r a =>
    if a.isStore && !a.isSpad && a.isOf p && !a.written 1 then
      match a.bytes.find? fun b => a.pa + b.off == pa with
      | some b => some (b.val, b.bad)
      | none => r
    else r) none

/-- A frame in memory refers to old code: as its die sees it, stores of a program order that are not published yet over it. -/
def frameHits (s : State) (c : Context) (t : Transl) (die : Nat) (p : Preds) (va : Nat) : Bool :=
  let fr := (List.range 640).map fun i => match fePa s c die (va + i) with
    | some pa => (frameStore s p pa).getD (dieByte s die pa)
    | none => (0, .ok)
  refersTo t (BitVec.ofNat 64 (frN fr 0 8)) ((List.range 64).map fun j => (j, BitVec.ofNat 64 (frN fr (0x80 + 8 * j) 8)))

/-- The frame that a group in system mode will return through, one whose trap has written it will, or a saved group resume from. -/
def frameRefers (s : State) (c : Context) (t : Transl) (g : Group) : Bool :=
  (g.sys || g.framed || c.saves.any fun r => r.groups.any fun h => h.gid == g.gid) && frameHits s c t g.die g.preds (frameVa g)

/-- The frames of its team that a thread filed in system mode may return through. -/
def filedRefers (s : State) (c : Context) (t : Transl) (die : Nat) (y : Filed) : Bool :=
  y.sys && (List.range 32).any fun n => frameHits s c t die y.preds (y.trapbase.toNat + n * 0x9000)

/-- A group refers to old code: its PC, that of a fault it has yet to take (R375), its s registers, its frame. -/
def groupRefers (s : State) (c : Context) (t : Transl) (g : Group) : Bool :=
  refersTo t g.hdr g.s || (g.trap.toList ++ g.late).any (fun r => refersTo t r.hdr []) || frameRefers s c t g

/-- The scan of R415 finds a reference. -/
def scanFinds (s : State) (c : Context) (t : Transl) : Bool :=
  let gs := (s.allGroups.filter fun g => g.ctx == t.ctx && !g.retired) ++ savedGroups s t.ctx
  let files := (s.parts.map fun p => ((p.2.glades ++ p.2.draws.map (·.glade)).filter fun x => x.ctx == t.ctx).map fun x => (p.1, x)).flatten
  let pipes := (s.parts.map fun p => p.2.pipes.filter fun x => x.ctx == t.ctx).flatten ++ ((c.saves.map fun r => r.pipes.map (·.2)).flatten)
  gs.any (groupRefers s c t)
    || (files.any fun x => refersTo t x.2.pc [] || x.2.filed.any fun y => refersTo t x.2.pc y.s || filedRefers s c t (x.1 / 192) y)
    || pipes.any fun q => refersTo t q.body q.capS

/-- TRANSLATION_SWAP_FREE: once a translation has been swapped in and out again, first the groups resident then are noted; when each has
passed a clause entry or gone and the scan finds nothing, the old code is free. A write to the table meanwhile starts it anew. -/
def execTranslationSwapFree (tr : Nat) (s : State) : Out :=
  match s.transl.find? fun t => t.id == tr with
  | none => .next s
  | some t =>
    let set := fun (u : Transl) => { s with transl := s.transl.map fun x => if x.id == tr then u else x }
    let here := ((s.allGroups ++ savedGroups s t.ctx).filter fun g => g.ctx == t.ctx && !g.retired).map (·.gid)
    match s.ctx? t.ctx, t.wait with
    | none, _ => .next (set { t with free := true })
    | some c, none =>
      if !swappedOut s c t then .next (set { t with swapped := true })
      else if t.swapped then .next (set { t with wait := some here, seen := tableIdx s c t })
      else .next s
    | some c, some l =>
      if t.free then .next s
      else if !swappedOut s c t || t.seen != tableIdx s c t then .next (set { t with wait := none })
      else if (l.any fun g => here.contains g) || scanFinds s c t then .next s
      else .next (set { t with free := true })

end Sys2Proof.Machine
end

