-- ==== Sys2Proof/Machine/Power.lean ====
section
/-!
DEFINITION. Current, voltage and energy control (R416 to R426), the registers of device partitions and of the host window
(R387, R447), errors in checked stores (R378, R424, R441). What physics decides (power, energy, where an error falls) is an
argument of the step.
-/
namespace Sys2Proof.Machine

/-! ### Caps (R419, R420) -/

/-- The factor of one cap, in sixteenths. -/
def capFactor (p cap : Nat) : Nat := max 1 (min 16 (256 - 256 * p / cap))

/-- Energy measured in the last `w` ns, in nJ. DESIGN CHOICE (log entry 99): a measurement that the window cuts counts in proportion,
rounded down. -/
def energyIn (l : List (Nat × Nat × Nat)) (now w : Nat) : Nat :=
  (l.map fun x => x.2.2 * (x.2.1 - max x.1 (now - w)) / max 1 (x.2.1 - x.1)).sum

/-- INTEGRATOR_UPDATE, no more often than every 1 µs: the energy measured since the last one, in the quads and outside them, gives
the averages over 10 µs and over 1 s, in W, and these the factor f. -/
def execIntegratorUpdate (quadNj uncoreNj : Nat) (s : State) : Out :=
  let now := s.gtb.toNat
  let l := (s.power.filter fun x => decide (now < x.2.1 + 10 ^ 9)) ++ [(s.powerAt, now, quadNj + uncoreNj)]
  let e1 := energyIn l now 10000
  let e2 := energyIn l now (10 ^ 9)
  if now < s.powerAt + 1000 then .next s
  else .next { s with
    power := l, ppeak := e1 / 10000, psust := e2 / 10 ^ 9, powerAt := now,
    ffac := min (capFactor e1 (10000 * fldN s.pwrcap 32 13)) (capFactor e2 (10 ^ 9 * fldN s.pwrcap 0 13)) }

/-- PWRSTAT. -/
def pwrstat (s : State) : W64 :=
  BitVec.ofNat 64 ((s.ffac - 1) * 2 ^ 44 + s.ppeak % 2 ^ 13 * 2 ^ 18 + s.psust % 2 ^ 13 * 2 ^ 5)

/-! ### Clocks and body bias (R421, R422) -/

/-- A step count one nearer to base. -/
def toBase (n : Int) : Int := if 0 < n then n - 1 else if n < 0 then n + 1 else 0

/-- REBALANCE_DECAY: DECAY µs without a step on a die. -/
def execRebalanceDecay (die : Nat) (s : State) : Out :=
  let d := s.die die
  if 4 ≤ die || s.gtb.toNat < d.lastStep + 1000 * fldN d.rebal 8 16 || ((List.range 12).all fun q => (s.quad die q).step == 0) then .next s
  else
    let s1 := (List.range 12).foldl (fun s q => s.setQuad die q { s.quad die q with step := toBase (s.quad die q).step }) s
    .next (s1.setDie die { d with lastStep := s.gtb.toNat })

/-- REBAL is written; MAXSTEP 0 returns the quads to base. -/
def execRebalWrite (die : Nat) (v : W64) (s : State) : Out :=
  if 4 ≤ die || fldN v 24 40 ≠ 0 || fldN v 8 16 = 0 || 4 < fldN v 4 4 || fldN v 0 4 = 0 then .next s
  else
    let s1 := s.setDie die { s.die die with rebal := v }
    if fldN v 4 4 ≠ 0 then .next s1
    else .next ((List.range 12).foldl (fun s q => s.setQuad die q { s.quad die q with step := 0 }) s1)

/-- REBSTAT. -/
def rebstat (s : State) (die : Nat) : W64 :=
  BitVec.ofNat 64 ((List.range 12).foldl (fun a q => a + ((s.quad die q).step % 16).toNat * 16 ^ q) 0)

/-! ### Umpires (R418) -/

/-- UMPCFG is written; a value outside its ranges is ignored. -/
def execUmpcfgWrite (die quad : Nat) (v : W64) (s : State) : Out :=
  if 4 ≤ die || 12 ≤ quad || fldN v 48 16 ≠ 0 || umpRate v = 0 || umpCap v = 0 || 32767 < umpCap v || fldN v 10 6 ≠ 0 || umpAge v < 16 then .next s
  else
    let q := s.quad die quad
    .next (s.setQuad die quad { q with umpcfg := v, bal := min q.bal (256 * (umpCap v : Int)) })

/-! ### Undervolting (R423 to R425) -/

def uvEn (d : Die) : Bool := bitAt d.uvcfg 0
def uvStep (d : Die) : Nat := fldN d.uvcfg 16 8
def uvFloor (d : Die) : Nat := fldN d.uvcfg 24 16
def uvThresh (d : Die) : Nat := fldN d.uvcfg 40 8
/-- INTERVAL in ticks of GTB. -/
def uvInterval (d : Die) : Nat := 1000 * fldN d.uvcfg 48 16

/-- Correctable errors in the ms that ends at a time. -/
def uvRateAt (d : Die) (t : Nat) : Nat := (d.uvTimes.filter fun e => decide (e ≤ t) && decide (t < e + 1000000)).length

/-- The rate stayed below THRESH through the interval that ends at a time. -/
def uvCalm (d : Die) (t : Nat) : Bool :=
  decide (uvRateAt d (t - uvInterval d) < uvThresh d)
    && d.uvTimes.all fun e => e < t - uvInterval d || t < e || decide (uvRateAt d e < uvThresh d)

/-- The supply returns to an offset, which takes up to 4 µs. -/
def uvBack (now off : Nat) (d : Die) : Die := if off < d.uvOff then { d with uvOff := off, uvRestore := now + 4000 } else d

/-- UNDERVOLT_INTERVAL: an interval has passed with EN set and no pause. -/
def execUndervoltInterval (die : Nat) (s : State) : Out :=
  let d := s.die die
  let now := s.gtb.toNat
  if 4 ≤ die || !uvEn d || now < d.uvNext || now < d.uvPause then .next s
  else if uvCalm d now then
    .next (s.setDie die { d with uvSafe := d.uvOff, uvOff := min (d.uvOff + uvStep d) (uvFloor d), uvNext := now + uvInterval d })
  else .next (s.setDie die { uvBack now d.uvSafe d with uvPause := now + 100 * uvInterval d, uvNext := now + uvInterval d })

/-- UVCFG is written: clearing EN restores offset 0; a lower floor raises the supply to it. -/
def execUvcfgWrite (die : Nat) (v : W64) (s : State) : Out :=
  let d := s.die die
  let now := s.gtb.toNat
  if 4 ≤ die || fldN v 48 16 < 10 || fldN v 40 8 = 0 || 300 < fldN v 24 16 || fldN v 16 8 < 5 || 20 < fldN v 16 8 || fldN v 1 15 ≠ 0 then .next s
  else
    let d1 := { d with uvcfg := v, uvNext := if uvEn d then d.uvNext else now + 1000 * fldN v 48 16 }
    if bitAt v 0 then .next (s.setDie die { uvBack now (uvFloor d1) d1 with uvSafe := min d.uvSafe (uvFloor d1) })
    else .next (s.setDie die { uvBack now 0 d1 with uvSafe := 0 })

/-- UVSTAT. -/
def uvstat (s : State) (die : Nat) : W64 :=
  let d := s.die die
  BitVec.ofNat 64 (d.uvMargins * 2 ^ 48 + min (uvRateAt d s.gtb.toNat) 65535 * 2 ^ 32 + d.uvSafe * 2 ^ 16 + d.uvOff)

/-! ### Errors (R378, R424, R441) -/

/-- CORRECTABLE_ERROR: corrected and counted; one on a designated array counts in the rate that undervolting reads. -/
def execCorrectableError (die : Nat) (designated : Bool) (s : State) : Out :=
  let d := s.die die
  let now := s.gtb.toNat
  if 4 ≤ die then .next s
  else .next (s.setDie die { d with
    errs := d.errs + 1,
    uvTimes := if designated then (d.uvTimes.filter fun e => decide (now < e + 1000000 + uvInterval d)) ++ [now] else d.uvTimes })

/-- The die a site lies on; none for one that no check covers. -/
def siteDie (s : State) : ErrSite → Option Nat
  | .clean d => some d
  | .l2 pa | .hbm pa => if paFar pa then none else some (homeDie pa)
  | .rdc d pa => if paFar pa then none else some d
  | .spad t _ => (s.team? t).map (·.die)
  | .reg g _ _ => (s.group? g).map (·.die)
  | .window p _ _ _ => some p.die
  | .slot d _ _ _ _ => some d
  | .tile _ _ _ _ => none

/-- The `n` bytes that a check of that width covers are poisoned in a die's view. -/
def poisonView (s : State) (b : Bad) (die pa n : Nat) : State :=
  s.setView die { s.view die with bad := (List.range n).foldl (fun m i => SMap.set .ok m (pa / n * n + i) b) (s.view die).bad }

/-- Bytes of package memory are poisoned at their home, and for every die that has no copy of its own in the RDC. -/
def poisonMem (s : State) (b : Bad) (pa n : Nat) : State :=
  let s1 := { s with home := { s.home with bad := (List.range n).foldl (fun m i => SMap.set .ok m (pa / n * n + i) b) s.home.bad } }
  (List.range 4).foldl (fun (s : State) d =>
    if d = homeDie pa || !sbHas (s.die d).rdc (lineOf pa) then poisonView s b d pa n else s) s1

/-- Poison where the error lies, in the unit that its check covers (R441): a clean line of the L2 or the RDC is fetched anew, memory
under a line of the L2 is not read, and an array has no check. -/
def poisonAt (s : State) (b : Bad) : ErrSite → State
  | .clean _ => s
  | .l2 pa => if sbDirty (s.die (homeDie pa)).l2 (lineOf pa) then poisonMem s b pa 8 else s
  | .rdc d pa => if sbDirty (s.die d).rdc (lineOf pa) then poisonView s b d pa 8 else s
  | .hbm pa => if sbHas (s.die (homeDie pa)).l2 (lineOf pa) then s else poisonMem s b pa 32
  | .spad t off =>
    (match s.team? t with
     | some tm => s.setTeam { tm with badSpad := (List.range 4).foldl (fun m i => SMap.set .ok m (off / 4 * 4 + i) b) tm.badSpad }
     | none => s)
  | .reg gid v lane => s.modGroup gid fun g => g.setV v lane { g.laneV v lane with bad := b }
  | .window p pipe slot lane =>
    let q := s.partn p.die p.core p.part
    (match q.pipe? pipe with
     | some x => s.setPartn p.die p.core p.part (q.setPipe (x.setSlot slot lane { x.slotLane slot lane with bad := b }))
     | none => s)
  | .slot die core ctx n off =>
    if (s.core die core).frames.any fun f => f.ctx == ctx then
      let f := s.frame die core ctx
      s.setFrame die core { f with badSlot := (List.range 16).foldl (fun m i => SMap.set .ok m (2048 * n + off / 16 * 16 + i) b) f.badSlot }
    else s
  | .tile _ _ _ _ => s

/-- UNCORRECTABLE_ERROR: below nominal supply, or within 4 µs of a restore, the supply returns to the safe offset and the data is
MARGIN; at any other time it is POISON. -/
def execUncorrectableError (e : ErrSite) (s : State) : Out :=
  match siteDie s e with
  | none => .next s
  | some die =>
    let d := s.die die
    let now := s.gtb.toNat
    if 4 ≤ die then .next s
    else if 0 < d.uvOff || now < d.uvRestore then
      .next (poisonAt (s.setDie die { uvBack now d.uvSafe d with uvPause := max d.uvPause (now + 10 ^ 9), uvMargins := min (d.uvMargins + 1) 65535 }) .margin e)
    else .next (poisonAt (s.setDie die { d with errs := d.errs + 1 }) .poison e)

/-! ### Energy (R426) -/

/-- Frames that a context holds on the cores of a quad. -/
def quadFrames (s : State) (die q ctx : Nat) : Nat :=
  ((List.range 4).map fun j => (((s.core die (4 * q + j)).frames.filter fun f => f.ctx == ctx).map fun f => if f.wide then 3 else 1).sum).sum

/-- n × a / b, up or down to a whole number as the free value says (log entry 5). -/
def ratio (n a b : Nat) (up : Bool) : Nat := n * a / b + (if up && n * a % b != 0 then 1 else 0)

/-- A context's share of the energy of a quad: by CU granted, or by frames held where none were. -/
def quadShare (s : State) (die q nj ctx : Nat) : Nat :=
  let spent := (s.quad die q).spent
  let cu := (spent.map (·.2)).sum
  let fr := (s.contexts.map fun c => quadFrames s die q c.id).sum
  if cu ≠ 0 then ratio nj (SMap.get 0 spent ctx) cu (Config.roundUp s.tick (12 * die + q) ctx)
  else if fr ≠ 0 then ratio nj (quadFrames s die q ctx) fr (Config.roundUp s.tick (12 * die + q) ctx)
  else 0

/-- Uncore energy of a context in nJ: the bytes it moved in L2, RDC, HBM and links, its streaming among them, and `hbm` bytes more of
HBM, at their costs. -/
def uncoreNj (s : State) (ctx hbm : Nat) : Nat :=
  let n := fun k => SMap.get 0 s.moved (4 * ctx + k) + if k = 2 then hbm else 0
  ratio ((List.range 4).map fun k => n k * Config.uncoreCost k).sum 1 1000 (Config.roundUp s.tick 48 ctx)

/-- ENERGY_UPDATE, no more often than every 1 µs: the measured energy of quad 12 · DIE + QUAD in nJ, and for each context the bytes that
HBM moved beside the fetches and write-backs of lines that the model counts. DESIGN CHOICE (log entry 113): retries, and an L2 that
replaces other superblocks. -/
def execEnergyUpdate (quadNj : List Nat) (hbm : List (Nat × Nat)) (s : State) : Out :=
  if s.gtb.toNat < s.energyAt + 1000 then .next s
  else
    let charge := fun (c : Context) =>
      ((List.range 48).map fun n => quadShare s (n / 12) (n % 12) (quadNj.getD n 0) c.id).sum
        + uncoreNj s c.id ((hbm.filter fun u => u.1 == c.id).map (·.2)).sum
    let s1 := { s with
      contexts := s.contexts.map fun c => { c with energy := c.energy + charge c },
      energyAt := s.gtb.toNat, moved := [] }
    .next ((List.range 48).foldl (fun s n => s.setQuad (n / 12) (n % 12) { s.quad (n / 12) (n % 12) with spent := [] }) s1)

/-! ### Device partitions (R387) -/

/-- A context is admitted on a quad. -/
def quadUsed (s : State) (die q : Nat) : Bool :=
  s.contexts.any fun c => (c.home :: c.granted).any fun p => (partQuads s p).contains (die, q)

/-- QPART is written: ignored where it would move a quad on which a context is admitted. -/
def execQpartWrite (die : Nat) (v : W64) (s : State) : Out :=
  if 4 ≤ die || fldN v 60 4 ≠ 0 || ((List.range 12).any fun q => fldN v (5 * q) 5 != pnum s die q && quadUsed s die q) then .next s
  else .next (s.setDie die { s.die die with qpart := v })

end Sys2Proof.Machine
end

