-- ==== Sys2Proof/Machine/Debug.lean ====
section
/-!
DEFINITION. Debug, sampling and replay (R427 to R436): stops and resumes, the dump of a stop, trace control and the two rings
of a trace buffer, and the package control registers written without a step of their own (R383, R420, R428, R431, R433, R447).
-/
namespace Sys2Proof.Machine

/-! ### Stops (R427 to R430) -/

/-- Partitions that a stop freezes besides the one written. -/
def stopPeers (p : PartId) (scope : Nat) : List PartId :=
  let cores := match scope with
    | 1 => [p.core]
    | 2 => (List.range 4).map fun j => p.core / 4 * 4 + j
    | _ => []
  ((cores.map fun c => (List.range 4).map fun j => (⟨p.die, c, j⟩ : PartId)).flatten).filter fun x => x != p

/-- The partitions of a stop freeze on one cycle. -/
def stopAll (s : State) (p : PartId) (scope : Nat) : State :=
  (stopPeers p scope).foldl (fun s x => freeze s x.die x.core x.part 2 0) (freeze s p.die p.core p.part 0 0)

/-- DEBUG_STOP: scope code 3 is ignored. -/
def execDebugStop (p : PartId) (scope : Nat) (s : State) : Out :=
  if 4 ≤ p.die || 48 ≤ p.core || 4 ≤ p.part || 2 < scope then .next s else .next (stopAll s p scope)

/-- DBGSTAT. -/
def dbgstat (q : Partn) : W64 :=
  BitVec.ofNat 64 (b2n q.stop * 2 ^ 63 + b2n q.dumped * 2 ^ 62 + q.cause % 4 * 2 ^ 60 + q.bkslot % 16 * 2 ^ 56)

/-- RFCNT0 to RFCNT2. -/
def rfcnt (q : Partn) : W32 × W32 × W32 × W32 × W32 × W32 := (q.rfUnif, q.rfBd8, q.rfBd16, q.rfRaw, q.rfReenc, q.rfOutws)

/-! ### The dump (R431) -/

/-- The group of the context that runs which a resident slot of a partition holds. -/
def slotGroup (s : State) (p : PartId) (slot : Nat) : Option Group :=
  s.groups.find? fun g => g.die == p.die && g.core == p.core && g.part == p.part && g.slot == slot && !g.retired
    && (s.core p.die p.core).running == some g.ctx

/-- The fault a group holds, or is to take up next (R375, log entry 98). -/
def Group.pendingFault (g : Group) : Option FaultRec := g.trap.or (if g.sys then none else g.late.head?)

/-- The wait code of a group. -/
def waitCode (s : State) (g : Group) : Nat :=
  if g.pendingFault.isSome then 2
  else match g.sleep with
    | .full _ | .empty _ | .woken _ _ => 4
    | .waitl _ _ | .rewoken => 6
    | z =>
      if !g.entered then (if (match g.clause with
        | some c => waitsHold s g c && (cClass c.head != 0 || clauseCu c.words == 0 || granted s g.die g.core g.gid 0)
        | none => false) then 0 else 1)
      else match srcWait s g with
        | some .window => 5
        | some _ => 2
        | none => if waitOver s g then (if z == .stall then 2 else 0) else if z == .barrier then 3 else 5

/-- The next instruction word, or the header word at an entry; of a group that holds a fault, the word of the fault, at whose
instruction it stands (R375, R430). -/
def nextWord (s : State) (g : Group) : Nat :=
  match g.pendingFault.filter fun t => !(t.hdr == g.hdr && t.idx == g.idx) with
  | some t => t.word.toNat
  | none =>
  if g.entered then ((g.word?).map (·.toNat)).getD 0
  else match g.clause, s.ctx? g.ctx with
    | some c, _ => c.head.toNat
    | none, some c => frN (feRead s c g.die g.hdr.toNat 8) 0 8
    | none, none => 0

/-- A group record. -/
def groupRec (s : State) (g : Group) : List Byte :=
  let f := s.frame g.die g.core g.ctx
  let at_ := match g.pendingFault with
    | some t => (t.hdr, t.idx)
    | none => (g.hdr, g.idx)
  leBytes 8 at_.1.toNat ++ leBytes 4 at_.2 ++ leBytes 4 g.active.toNat ++ leBytes 8 (nextWord s g)
    ++ leBytes 2 (1 + 2 * b2n g.inSet + 4 * b2n g.iter.isSome + 8 * b2n g.sys + 16 * b2n g.half.isSome)
    ++ leBytes 1 (if f.wide then 3 else f.first) ++ leBytes 1 g.grp ++ leBytes 4 (waitCode s g) ++ leBytes 32 0

/-- A lane owed: slot, register code, producer, cycle due, lane. -/
structure Owed where
  slot : Nat
  reg  : Nat
  prod : Nat
  due  : Nat
  seq  : Nat
  lane : Nat

/-- Registers from an operand on. -/
def regCodes (o : Opnd) (n : Nat) : List Nat := (List.range n).map fun j => o.code + j

/-- DUE of a load or a dequeue, whose cycle is a free value (log entry 2): one that a pending buffer holds has passed; one that is still
out has not, or is not predicted (R431). -/
def dueOf (q : Partn) (clk id : Nat) (w : HeldWb) : Nat :=
  if q.pendingBuf.contains w then min (Config.dueClk id) clk else if Config.dueClk id ≤ clk then 0 else Config.dueClk id

/-- What the groups of a partition are owed. -/
def owedLanes (s : State) (p : PartId) : List Owed :=
  let q := s.partn p.die p.core p.part
  let clk := s.clk p.die p.core
  let gs := s.groups.filter fun g => g.die == p.die && g.core == p.core && g.part == p.part
  (gs.map fun g =>
    ((s.accs.filter fun a => a.gid == some g.gid && !a.fin).map fun a => match a.dst with
      | some ⟨.s _, _, _, _⟩ => []
      | some d => (regCodes d.o ((a.len + 3) / 4)).map fun c => (⟨g.slot, c, a.major, dueOf q clk a.id (.load a.id), a.seq, d.lane⟩ : Owed)
      | none => []).flatten
    ++ (g.gates.map fun w => ((w.vals.map fun x => (⟨g.slot, w.dst.code, w.major, w.due, w.n, x.1⟩ : Owed))
        ++ w.hi.map fun x => (⟨g.slot, w.dst.code + 1, w.major, w.due, w.n, x.1⟩ : Owed))).flatten
    ++ ((s.qmoves.filter fun m => m.kind == .deq && m.gid == g.gid).map fun m =>
        ((List.range (m.esz / 4)).map fun j => (⟨g.slot, m.dst + j / m.width, m.major, dueOf q clk m.id (.deq m.id), m.seq, j % m.width⟩ : Owed))).flatten).flatten

/-- The order of pending entries: SLOT, REG, first lane. -/
def entryLe (a b : Nat × Nat × Nat × List Byte) : Bool :=
  decide (a.1 < b.1) || (a.1 == b.1 && (decide (a.2.1 < b.2.1) || (a.2.1 == b.2.1 && decide (a.2.2.1 ≤ b.2.2.1))))

def insEntry (x : Nat × Nat × Nat × List Byte) : List (Nat × Nat × Nat × List Byte) → List (Nat × Nat × Nat × List Byte)
  | [] => [x]
  | y :: r => if entryLe x y then x :: y :: r else y :: insEntry x r

/-- The pending entries, one for each register of each producer. -/
def pendingEntries (s : State) (p : PartId) : List (List Byte) :=
  let ls := owedLanes s p
  let keys := (ls.map fun x => (x.slot, x.reg, x.seq)).eraseDups
  let es := keys.filterMap fun k =>
    let mine := ls.filter fun x => (x.slot, x.reg, x.seq) == k
    mine.head?.map fun x =>
      let first := mine.foldl (fun m y => min m y.lane) x.lane
      (x.slot, x.reg, first, leBytes 8 x.due ++ leBytes 8
        ((mine.map (·.lane)).eraseDups.foldl (fun a l => a + 2 ^ l) 0 * 2 ^ 32 + x.reg * 2 ^ 23 + x.slot * 2 ^ 18 + x.prod * 2 ^ 10))
  (es.foldr insEntry []).map (·.2.2.2)

/-- The dump of a stopped partition is written at DUMPBASE. -/
def dumpTo (s : State) (p : PartId) : State :=
  let q := s.partn p.die p.core p.part
  let gs := (List.range 24).map fun n => slotGroup s p n
  let es := pendingEntries s p
  let bs := leBytes 8 q.stopGtb ++ leBytes 8 q.stopClk ++ leBytes 4 (gs.filter Option.isSome).length ++ leBytes 4 es.length
    ++ leBytes 40 0 ++ (gs.map fun g => (g.map (groupRec s)).getD (leBytes 64 0)).flatten ++ es.flatten
  let s1 := (splitLines bs.length q.dumpbase.toNat (okBytes bs)).foldl (fun s x => homeWrite s x.1 x.2 none) s
  s1.setPartn p.die p.core p.part { q with dumped := true }

/-- DUMP_WRITE. -/
def execDumpWrite (p : PartId) (s : State) : Out :=
  let q := s.partn p.die p.core p.part
  if !q.stop || q.dumped then .next s else .next (dumpTo s p)

/-! ### Resuming (R427, R430) -/

/-- A held result is applied. -/
def applyHeld (s : State) (w : HeldWb) : State :=
  match w with
  | .load id => (match s.acc? id with
    | some a => fillLane s a
    | none => s)
  | .gate gid n => (match (s.anyGroup? gid).bind fun g => g.gates.find? fun y => y.n == n with
    | some y => gateBack s gid y
    | none => s)
  | .deq mv => fillMove s mv

/-- One partition resumes: its dump has been written by then, and the pending buffer is applied in arrival order (R427, R429,
R431). -/
def resumeOne (s : State) (p : PartId) : State :=
  let s1 := if (s.partn p.die p.core p.part).dumped then s else dumpTo s p
  let q := s1.partn p.die p.core p.part
  q.pendingBuf.foldl applyHeld (s1.setPartn p.die p.core p.part { q with stop := false, dumped := false, pendingBuf := [] })

/-- The deferral of a request of a context on a core where no partition of it is stopped any more: the time with a stopped
partition is not counted (R430). -/
def SaveRec.thaw (r : SaveRec) (now : Nat) : SaveRec :=
  match r.frozen with
  | some t => { r with frozen := none, due := if r.st == SaveSt.requested then r.due + (now - max t r.asked) else r.due }
  | none => r

/-- The requests on a core, once no partition of their context is stopped there. -/
def shiftDue (s : State) (die core : Nat) : State :=
  let f := fun (c : Context) (r : SaveRec) =>
    if r.die != die || r.core != core || frozenOn s c.id die core then r else r.thaw s.gtb.toNat
  { s with contexts := s.contexts.map fun c => { c with saves := c.saves.map (f c) } }

/-- Every frozen partition of the stop of a partition resumes. -/
def resumeAll (s : State) (p : PartId) : State :=
  let q := s.partn p.die p.core p.part
  if !q.stop then s
  else
    let all := s.partIds.filter fun x => (s.partn x.die x.core x.part).stop && (s.partn x.die x.core x.part).stopNo == q.stopNo
    let s1 := all.foldl resumeOne s
    ((all.map fun x => (x.die, x.core)).eraseDups).foldl (fun s x => shiftDue s x.1 x.2) s1

/-- DEBUG_RESUME. -/
def execDebugResume (p : PartId) (s : State) : Out := .next (resumeAll s p)

/-! ### The trace buffer (R435, R436) -/

/-- TRCCTL is written; a reserved bit makes the write ignored. -/
def execTrcctlWrite (die : Nat) (v : W64) (s : State) : Out :=
  if 4 ≤ die || fldN v 5 59 ≠ 0 then .next s else .next (s.setDie die { s.die die with trcctl := v })

/-- Units of a ring. -/
def ringUnits : Nat := 2 ^ 21

/-- The next unit of the dependence half: past the last one it is the first with WRAP, and none without. -/
def depNext (d : Die) : Nat := if bitAt d.trcctl 1 && d.trcDep == ringUnits then 0 else d.trcDep

/-- TRCPTR; BUSY: records of events before EN was cleared are still being written. -/
def trcptr (d : Die) : W64 :=
  BitVec.ofNat 64 (b2n (!bitAt d.trcctl 0 && !d.trcWait.isEmpty) * 2 ^ 63 + min d.trcDrops 32767 * 2 ^ 48 + depNext d % 2 ^ 22 * 2 ^ 21
    + d.trcLog % 2 ^ 21)

/-- A trace write takes no step of the ordering machine: package memory and the views hold it. -/
def rawWrite (s : State) (pa : Nat) (bs : List Byte) : State :=
  let s1 := { s with home := s.home.putMany pa (okBytes bs) }
  (List.range 4).foldl (fun s d =>
    (List.range ((pa + bs.length + 127) / 128 - pa / 128)).foldl (fun s j => dropL1Die s d (pa / 128 + j))
      (s.setView d ((s.view d).putMany pa (okBytes bs)))) s1

/-- n units from unit a of the lower ring become padding. -/
def padUnits (s : State) (base a n : Nat) : State :=
  (List.range n).foldl (fun s i => rawWrite s (base + 16 * (a + i)) (leBytes 16 0)) s

/-- Units [a, a + n) of the lower ring are taken: older records that they reach lose all their units (R435). -/
def claimUnits (s : State) (die a n : Nat) : State :=
  let d := s.die die
  let hit := fun (r : Nat × Nat) => decide (r.1 < a + n) && decide (a < r.1 + r.2)
  let s1 := (d.trcRecs.filter hit).foldl (fun s r => padUnits s d.trcbase r.1 r.2) s
  s1.setDie die { s1.die die with trcRecs := d.trcRecs.filter fun r => !hit r }

/-- A record of the lower ring. Once the ring has come to its end it is full, and without WRAP new records are dropped (R436). -/
def logRecord (s : State) (die : Nat) (r : List Byte) : State :=
  let d := s.die die
  let n := r.length / 16
  let wrap := bitAt d.trcctl 1
  if !wrap && d.trcLogFull then s.setDie die { d with trcDrops := d.trcDrops + 1 }
  else if d.trcLog + n ≤ ringUnits then
    let s1 := claimUnits s die d.trcLog n
    let s2 := rawWrite s1 (d.trcbase + 16 * d.trcLog) r
    s2.setDie die { s2.die die with trcLog := d.trcLog + n, trcLogFull := d.trcLogFull || d.trcLog + n == ringUnits, trcRecs := (s2.die die).trcRecs ++ [(d.trcLog, n)] }
  else if !wrap then s.setDie die { d with trcDrops := d.trcDrops + 1 }
  else
    let s1 := padUnits (claimUnits s die d.trcLog (ringUnits - d.trcLog)) d.trcbase d.trcLog (ringUnits - d.trcLog)
    let s2 := rawWrite (claimUnits s1 die 0 n) d.trcbase r
    s2.setDie die { s2.die die with trcLog := n, trcLogFull := true, trcRecs := (s2.die die).trcRecs ++ [(0, n)] }

/-- A record of the upper ring. -/
def depRecord (s : State) (die : Nat) (r : List Byte) : State :=
  let d := s.die die
  let at_ := if !bitAt d.trcctl 1 && d.trcDepFull then none else if d.trcDep < ringUnits then some d.trcDep else some 0
  match at_ with
  | none => s.setDie die { d with trcDrops := d.trcDrops + 1 }
  | some a =>
    let s1 := rawWrite s (d.trcbase + 16 * (ringUnits + a)) r
    s1.setDie die { s1.die die with trcDep := a + 1, trcDepFull := d.trcDepFull || a + 1 == ringUnits }

/-- TRACE_RECORD_WRITE: the oldest record of a die goes to its ring: dependence records have 16 bytes. -/
def execTraceRecordWrite (die : Nat) (s : State) : Out :=
  let d := s.die die
  match d.trcWait with
  | [] => .next s
  | r :: rest =>
    let s1 := s.setDie die { d with trcWait := rest }
    if 4 ≤ die then .next s else .next (if r.length = 16 then depRecord s1 die r else logRecord s1 die r)

/-! ### Registers without a step of their own -/

/-- DBGCTL is written: BKSTOP and SCOPE are kept, STOP and RESUME act (R428). -/
def dbgctlWrite (s : State) (p : PartId) (v : W64) : State :=
  let scope := fldN v 2 2
  let keep := if scope = 3 then v &&& 0x10 ||| ((s.partn p.die p.core p.part).dbgctl &&& 0xC) else v &&& 0x1C
  let s1 := s.setPartn p.die p.core p.part { s.partn p.die p.core p.part with dbgctl := keep }
  let s2 := if bitAt v 1 then resumeAll s1 p else s1
  if bitAt v 0 && scope != 3 then stopAll s2 p scope else s2

/-- REGISTER_WRITE: a value outside the ranges of its table is ignored. -/
def execRegisterWrite (r : PReg) (v : W64) (s : State) : Out :=
  let here := fun (p : PartId) => decide (p.die < 4) && decide (p.core < 48) && decide (p.part < 4)
  match r with
  | .pdefer => if fldN v 10 54 ≠ 0 || fldN v 0 10 = 0 || 1000 < fldN v 0 10 then .next s else .next { s with pdefer := v }
  | .pwrcap =>
    if fldN v 45 19 ≠ 0 || fldN v 13 19 ≠ 0 || fldN v 0 13 < 500 || 3500 < fldN v 0 13 || fldN v 32 13 < fldN v 0 13 || 4800 < fldN v 32 13 then
      .next s
    else .next { s with pwrcap := v }
  | .hostlim => if fldN v 27 37 ≠ 0 then .next s else .next { s with hostlim := v }
  | .dumpbase p =>
    if !here p || fldN v 52 12 ≠ 0 || fldN v 0 12 ≠ 0 then .next s
    else .next (s.setPartn p.die p.core p.part { s.partn p.die p.core p.part with dumpbase := v })
  | .sampcfg p =>
    if !here p || fldN v 32 32 ≠ 0 || fldN v 8 24 = 0 || fldN v 1 7 ≠ 0 then .next s
    else .next (s.setPartn p.die p.core p.part { s.partn p.die p.core p.part with sampcfg := v })
  | .dbgctl p => if !here p || fldN v 5 59 ≠ 0 then .next s else .next (dbgctlWrite s p v)

end Sys2Proof.Machine
end

