-- ==== Sys2Proof/Machine/Host.lean ====
section
/-!
DEFINITION. The host's accesses over CXL.mem, pod links, attestation, bring-up, the end of a context and the reset of a die
(R251, R404, R437 to R446). What the outside world finds or does is an argument of the step.
-/
namespace Sys2Proof.Machine

/-! ### CXL.mem (R437, R438) -/

/-- CXL.mem holds the populated interleaved window alone. -/
def cxlMem (s : State) (pa n : Nat) : Bool := paRegion pa == 1 && populated s pa n

/-- HOST_MEM_WRITE: serialized at the home slice of each granule as a write of the home die; no core issues it. Its completion
returns once its writes are performed (HOST_CXL_COMPLETION under the number it takes). -/
def execHostMemWrite (pa : Nat) (bytes : List Byte) (s : State) : Out :=
  if bytes.isEmpty || !cxlMem s pa bytes.length || !((List.range 4).all fun d => mayLand s d bytes.length) then .next s
  else
    let s1 := (splitLines bytes.length pa (okBytes bytes)).foldl (fun s x => landPiece s (homeDie x.1) 48 nobody none none x.1 x.2) s
    .next { s1 with hostWr := s1.hostWr ++ [(s1.nextId, s.nextId, s1.nextId)], nextId := s1.nextId + 1 }

/-- HOST_MEM_READ: the host reads the home die view. -/
def execHostMemRead (pa len : Nat) (s : State) : Out :=
  if !cxlMem s pa len then .next s
  else .next { s with hostReads := s.hostReads ++ [(List.range len).map fun i => (dieByte s (homeDie (pa + i)) (pa + i)).1] }

/-! ### Pod links (R439, R440) -/

def State.link? (s : State) (n : Nat) : Option Link := (s.links.find? fun x => x.1 == n).map (·.2)
def State.setLink (s : State) (n : Nat) (l : Link) : State := { s with links := s.links.map fun x => if x.1 == n then (n, l) else x }

/-- FLIT_REPLAY: one replay of a flit; `ok`: it passes its check and is delivered, once, in its place. After 8 failures the link
retrains instead. -/
def execFlitReplay (link : Nat) (ok : Bool) (s : State) : Out :=
  match s.link? link with
  | some l => if l.up && !l.retrain && l.fails < 8 then .next (s.setLink link { l with fails := if ok then 0 else l.fails + 1 }) else .next s
  | none => .next s

/-- LINK_RETRAIN: a flit has failed 8 consecutive replays. -/
def execLinkRetrain (link : Nat) (s : State) : Out :=
  match s.link? link with
  | some l => if l.up && !l.retrain && 8 ≤ l.fails then .next (s.setLink link { l with retrain := true, since := s.gtb.toNat, fails := 0 }) else .next s
  | none => .next s

/-- RETRAIN_COMPLETE: within 1 ms the link returns to service. -/
def execRetrainComplete (link : Nat) (s : State) : Out :=
  match s.link? link with
  | some l => if l.retrain && s.gtb.toNat ≤ l.since + 1000000 then .next (s.setLink link { l with retrain := false }) else .next s
  | none => .next s

/-- LINK_DOWN: retraining has not completed within 1 ms. -/
def execLinkDown (link : Nat) (s : State) : Out :=
  match s.link? link with
  | some l => if l.retrain && l.since + 1000000 < s.gtb.toNat then .next (s.setLink link { l with retrain := false, up := false }) else .next s
  | none => .next s

/-- An access to a lost package is finished: a read and an atomic return poison, a write is dropped. -/
def finishLost (p : Nat) (a : Acc) : Acc :=
  match a.place with
  | .glob pa =>
    if !paRemote pa || pa / 2 ^ 40 % 64 != p || a.isPoint || a.stage == .held then a
    else match a.kind with
      | .load => if a.read || a.cmd.isSome then a else { a with read := true, got := List.replicate a.len (0, .poison) }
      | .store => { a with stage := .done }
      | .rmw _ => if a.read then a else { a with read := true, got := List.replicate a.len (0, .poison), bytes := [], stage := .done, fin := a.fin || a.dst.isNone }
      | _ => a
  | .spad _ _ => a

/-- An address lies in the memory of a package. -/
def paOn (p pa : Nat) : Bool := paRemote pa && pa / 2 ^ 40 % 64 == p

/-- A virtual address of a context lies on a package. -/
def vaOn (s : State) (c : Context) (die p va : Nat) : Bool :=
  match fePa s c die va with
  | some pa => paOn p pa
  | none => false

/-- A command has bytes under way to a package: those of its chunks' lanes, the elements that a CPYT has yet to read, its record. -/
def cmdPkg (s : State) (c : Context) (d : Cmd) (p : Nat) : Bool :=
  let box := fun (k : Chunk) => (unitBoxes d.recData (k.doff - d.dst) k.len).filterMap (boxVa d.recData d.coords)
  d.chunks.any (fun k => (!k.landed && k.lanes.any fun l => paOn p l.pa)
    || (k.lanes.isEmpty && !k.read && (box k).any (vaOn s c d.die p)))
  || (d.cmp && !d.recorded && match s.team? d.team with
      | some t => vaOn s c d.die p (recordVa t d)
      | none => false)

/-- The bytes of a copy node lie on a package, at an end it has yet to read or write. -/
def nodePkg (s : State) (c : Context) (l : Launch) (p : Nat) : Bool :=
  copying l && (match pkCopy c l.packet with
    | some (src, dst) =>
      let n := pkF l.packet 0x18 0 64 - l.copyAt
      let on := fun (va : Nat) => (List.range (n / 65536 + 2)).any fun i => vaOn s c l.die p (va + min (65536 * i) (n - 1))
      on (src + l.copyAt) || on (dst + l.copyAt)
    | none => false)

/-- A context has something under way to a package, or a device partition there. -/
def usesPkg (s : State) (c : Context) (p : Nat) : Bool :=
  (s.accs.any fun a => a.ctx == c.id && !a.isSpad && !a.isPoint && paOn p a.pa)
    || (s.cmds.any fun d => d.ctx == c.id && cmdPkg s c d p)
    || (s.launches.any fun l => l.ctx == c.id && nodePkg s c l p)
    || (s.mxops.any fun (m : MxOp) => m.ctx == c.id && m.qs.any fun q => q.pas.any (paOn p))
    || (s.qmoves.any fun m => m.ctx == c.id && (paOn p m.src || paOn p m.qcb || m.pas.any (paOn p)))
    || (c.home :: c.granted).any fun d => d.toNat / 1024 == p

/-- POD_LINK_LOST: no link to a package is left. -/
def execPodLinkLost (pkg : Nat) (s : State) : Out :=
  let mine := s.links.filter fun x => x.2.pkg == pkg
  if s.lost.contains pkg || mine.isEmpty || mine.any fun x => x.2.up then .next s
  else
    let hit := (s.contexts.filter fun c => usesPkg s c pkg).map (·.id)
    let s1 := { s with lost := s.lost ++ [pkg], accs := s.accs.map (finishLost pkg) }
    .next (hit.foldl (fun s c => postEvent s c 6 0 (pkg % 64) 0) (sweep s1))

/-! ### Attestation (R444) -/

/-- ATTESTATION_QUOTE: the measurement registers, the defect signature, a 32 B nonce and the GTB, signed; none before the FE
stage has been measured. -/
def execAttestationQuote (nonce : List Byte) (s : State) : Out :=
  if s.upStep < 2 || s.measure.isEmpty || nonce.length ≠ 32 then .next s
  else
    let q := s.measure.flatten ++ leBytes 4 (defectSig s) ++ nonce ++ leBytes 8 s.gtb.toNat
    .next { s with quotes := s.quotes ++ [q ++ Config.xmssSign q] }

/-! ### Bring-up (R443 to R446) -/

/-- FIRMWARE_VERIFY: the boot ROM takes an image whose signature holds and whose index is above every index it has accepted, and
measures it. -/
def verifyImage (s : State) (i : FwImage) : Option State :=
  if sigOk s i && sigIndex i < 2 ^ 20 && s.images.all fun x => decide (x < sigIndex i) then
    some { s with images := s.images ++ [sigIndex i],
                  measure := s.measure ++ [Config.shake256 (Config.shake256 i.bytes)] }
  else none

def verifyAll (s : State) : List FwImage → Option State
  | [] => some s
  | i :: r => (verifyImage s i).bind fun s1 => verifyAll s1 r

/-- What each step of bring-up fixes; none where it fails. The CXL port runs at the widest width that trains (R437); a package has 12
pod links, links 3d to 3d + 2 on die d (R13). -/
def bringStep (s : State) (b : BringUp) : Option State :=
  match s.upStep with
  | 0 =>
    if b.cores.length = 4 && !b.keys.isEmpty && b.keys.all fun k => k.length == 68 then
      some { s with fuses := b.cores.map fun m => m % 2 ^ 48, keys := b.keys }
    else none
  | 1 => if b.images.isEmpty then none else verifyAll s b.images
  | 2 =>
    if b.sdw.length = 4 && b.sdw.all fun n => decide (1 ≤ n) && decide (n ≤ 128) then
      some ((List.range 4).foldl (fun s d =>
        let n := b.sdw.getD d 16
        s.setDie d { s.die d with memsplit := BitVec.ofNat 64 n, trcbase := d * 2 ^ 38 + n * 2 ^ 30 - 2 ^ 26 }) s)
    else none
  | 3 =>
    match [16, 8, 4].find? fun w => b.widths.contains w with
    | some w => some { s with cxlWidth := w }
    | none => none
  | 4 =>
    let pkg := b.slotId % 64
    let ls := b.links.zipIdx.map fun x => (x.2, (⟨x.2 / 3, x.1 % 64, x.1 % 64 != pkg, false, 0, 0⟩ : Link))
    if b.links.length ≠ 12 then none
    else some { s with pkg := pkg, links := ls, remote := (b.links.zip b.remote).foldl (fun m x => if x.1 % 64 = pkg then m else SMap.set 0 m (x.1 % 64) x.2) [] }
  | _ => some s

/-- BRING_UP: the next step of bring-up; one that fails stops it. -/
def execBringUp (b : BringUp) (s : State) : Out :=
  if s.upFail || 6 ≤ s.upStep then .next s
  else match (if b.ok then bringStep s b else none) with
    | some s1 => .next { s1 with upStep := s.upStep + 1 }
    | none => .next { s with upFail := true }

/-! ### The end of a context (R251) -/

/-- What a partition holds of a context is gone. -/
def Partn.without (p : Partn) (ctx : Nat) (teams : List Nat) : Partn :=
  { p with glades := p.glades.filter fun x => x.ctx != ctx, draws := p.draws.filter fun x => x.glade.ctx != ctx,
           pipes := p.pipes.filter fun x => x.ctx != ctx, vacant := p.vacant.filter fun v => !teams.contains v.team }

/-- What a core holds of a context is gone. -/
def Core.without (k : Core) (ctx : Nat) : Core :=
  { k with frames := k.frames.filter fun f => f.ctx != ctx, running := if k.running == some ctx then none else k.running,
           tlb := k.tlb.filter fun e => e.ctx != ctx, code := k.code.filter fun e => e.ctx != ctx, recs := k.recs.filter fun e => e.ctx != ctx }

/-- CONTEXT_DESTROY: the groups, teams and launches of a context end where they stand, its network IDs are free, and the directory says
of each core it leaves that it is empty (R388); accesses already issued go on. -/
def execContextDestroy (ctx : Nat) (s : State) : Out :=
  match s.ctx? ctx with
  | none => .next s
  | some c =>
    let mine := (s.launches.filter fun l => l.ctx == ctx).map (·.id)
    let ts := (s.teams.filter fun t => t.ctx == ctx).map (·.id)
    let gids := (s.groups.filter fun g => g.ctx == ctx).map (·.gid)
    let s0 := (s.groups.filter fun g => g.ctx == ctx).foldl unsleep s
    let left := c.saves.filter fun r => r.st != .saved
    if !((List.range 4).all fun d => mayPublishN s d 512) then .next s
    else
    let s1 := mine.foldl unbind (left.foldl (fun s r => dirWrite s c r.die r.core 0 r.gtb) s0)
    let s2 := { s1 with
      groups := s1.groups.filter fun g => g.ctx != ctx,
      teams := s1.teams.filter fun t => t.ctx != ctx,
      launches := s1.launches.filter fun l => l.ctx != ctx,
      workqs := s1.workqs.filter fun w => w.ctx != ctx,
      contexts := s1.contexts.filter fun c => c.id != ctx,
      transl := s1.transl.filter fun t => t.ctx != ctx,
      cmds := s1.cmds.filter fun c => c.ctx != ctx,
      mxops := s1.mxops.filter fun (m : MxOp) => m.ctx != ctx,
      accs := s1.accs.filter fun a => !(a.stage == .held && (match a.gid with | some g => gids.contains g | none => false)),
      parts := SMap.update Partn.reset s1.parts fun p => p.without ctx ts,
      cores := SMap.update Core.reset s1.cores fun k => k.without ctx,
      dies := SMap.update Die.reset s1.dies fun d =>
        { d with tlb := d.tlb.filter fun e => e.ctx != ctx, walks := d.walks.filter fun w => w.ctx != ctx },
      quads := SMap.update Quad.reset s1.quads fun q => { q with reqs := q.reqs.filter fun r => r.ctx != ctx } }
    .next (sweep s2)

/-! ### The reset of a die (R404) -/

/-- DIE_RESET: a die whose front-end cores have all halted is reset, after all that their halt does: they run again, and its queues, but
a faulted one, may dispatch. -/
def execDieReset (die : Nat) (s : State) : Out :=
  if 4 ≤ die || (s.die die).fe.any fun h => !h then .next s
  else
    let s0 := feHaltDie s die
    let s1 := s0.setDie die { s0.die die with fe := Die.reset.fe, feTold := false }
    .next { s1 with workqs := s1.workqs.map fun w => if w.die == die then { w with dead := (readQcb s1 w.qcb).st == 3 } else w }

end Sys2Proof.Machine
end

