-- ==== Sys2Proof/Machine/Integer.lean ====
section
/-!
DEFINITION. Vector integer, logic, bit-field, immediate and mask instructions (R134 to R143). Values of operands are read
as numbers below 2^w and narrowed at the end.
-/
namespace Sys2Proof.Machine

def Ty.bits (t : Ty) : Nat := if t.is64 then 64 else 32

/-- A two-source operation at the type's width. -/
def intOp (i : Instr) (f : VR) (s : State) (val : Nat → Nat → Nat → Nat) : Out :=
  laneOp i f s fun g l =>
    val (s.rdN g .f32 f.ty.is64 f.a l) (s.rdN g .f32 f.ty.is64 f.b l) (s.rdN g .f32 f.ty.is64 f.c l)

/-! ### Major 0x10 (R135, R136) -/

def execIadd (f : VR) (s : State) : Out := intOp (.iadd f) f s fun a b _ => (a + b) % 2 ^ Ty.bits f.ty
def execIsub (f : VR) (s : State) : Out :=
  intOp (.isub f) f s fun a b _ => (a + 2 ^ Ty.bits f.ty - b) % 2 ^ Ty.bits f.ty
def execImul (f : VR) (s : State) : Out := intOp (.imul f) f s fun a b _ => a * b % 2 ^ Ty.bits f.ty
def execImulh (f : VR) (s : State) : Out :=
  intOp (.imulh f) f s fun a b _ =>
    wrapTo (Ty.bits f.ty) (sext (Ty.bits f.ty) a * sext (Ty.bits f.ty) b / 2 ^ Ty.bits f.ty)
def execImulhu (f : VR) (s : State) : Out := intOp (.imulhu f) f s fun a b _ => a * b / 2 ^ Ty.bits f.ty
def execImad (f : VR) (s : State) : Out := intOp (.imad f) f s fun a b c => (a * b + c) % 2 ^ Ty.bits f.ty

/-- ext(a) of a 32-bit operand under the type (R135). -/
def ext32 (s : State) (g : Group) (f : VR) (o : Opnd) (l : Nat) : Int := extBy f.ty.signed 32 (s.rdN g .f32 false o l)

def execImadw (f : VR) (s : State) : Out :=
  laneOp (.imadw f) f s fun g l =>
    wrapTo 64 (ext32 s g f f.a l * ext32 s g f f.b l + (s.rdN g .f32 true f.c l : Int))
def execIaddw (f : VR) (s : State) : Out :=
  laneOp (.iaddw f) f s fun g l => wrapTo 64 (ext32 s g f f.a l + ext32 s g f f.b l)
def execIsubw (f : VR) (s : State) : Out :=
  laneOp (.isubw f) f s fun g l => wrapTo 64 (ext32 s g f f.a l - ext32 s g f f.b l)

def execIabs (f : VR) (s : State) : Out :=
  intOp (.iabs f) f s fun a _ _ => if sext (Ty.bits f.ty) a < 0 then (2 ^ Ty.bits f.ty - a) % 2 ^ Ty.bits f.ty else a
def execIneg (f : VR) (s : State) : Out := intOp (.ineg f) f s fun a _ _ => (2 ^ Ty.bits f.ty - a) % 2 ^ Ty.bits f.ty
def execImin (f : VR) (s : State) : Out :=
  intOp (.imin f) f s fun a b _ => if extBy f.ty.signed (Ty.bits f.ty) a ≤ extBy f.ty.signed (Ty.bits f.ty) b then a else b
def execImax (f : VR) (s : State) : Out :=
  intOp (.imax f) f s fun a b _ => if extBy f.ty.signed (Ty.bits f.ty) b ≤ extBy f.ty.signed (Ty.bits f.ty) a then a else b
def execIadds (f : VR) (s : State) : Out :=
  intOp (.iadds f) f s fun a b _ =>
    satTo f.ty.signed (Ty.bits f.ty) (extBy f.ty.signed (Ty.bits f.ty) a + extBy f.ty.signed (Ty.bits f.ty) b)
def execIsubs (f : VR) (s : State) : Out :=
  intOp (.isubs f) f s fun a b _ =>
    satTo f.ty.signed (Ty.bits f.ty) (extBy f.ty.signed (Ty.bits f.ty) a - extBy f.ty.signed (Ty.bits f.ty) b)

/-- LEA: a at 64 bits plus b extended and shifted (R137). -/
def execLea (sh : Fin 5) (f : VR) (s : State) : Out :=
  laneOp (.lea sh f) f s fun g l => wrapTo 64 ((s.rdN g .f32 true f.a l : Int) + ext32 s g f f.b l * 2 ^ sh.val)

/-- Width in bits of an integer type (R65). -/
def Ty.ibits : Ty → Nat
  | .s8 | .n8 => 8
  | .s16 | .n16 => 16
  | .s64 | .n64 => 64
  | _ => 32

/-- CVTI: the source read at its own width, clamped to the destination's range, extended to the register (R138). -/
def cvtiVal (dt sty : Ty) (a : Nat) : Nat :=
  let w := Ty.ibits dt
  let x := extBy sty.signed (Ty.ibits sty) (a % 2 ^ Ty.ibits sty)
  let y := if dt.signed then clampInt (-(2 ^ (w - 1))) (2 ^ (w - 1) - 1) x else clampInt 0 (2 ^ w - 1) x
  wrapTo (if w = 64 then 64 else 32) y

def execCvti (sty : Ty) (f : VR) (s : State) : Out :=
  laneOp (.cvti sty f) f s fun g l => cvtiVal f.ty sty (s.rdN g .f32 sty.is64 f.a l)

/-! ### Major 0x11 (R139 to R141) -/

def execAnd (f : VR) (s : State) : Out := intOp (.and f) f s fun a b _ => a &&& b
def execOr (f : VR) (s : State) : Out := intOp (.or f) f s fun a b _ => a ||| b
def execXor (f : VR) (s : State) : Out := intOp (.xor f) f s fun a b _ => a ^^^ b
def execAndn (f : VR) (s : State) : Out :=
  intOp (.andn f) f s fun a b _ => a &&& (2 ^ Ty.bits f.ty - 1 - b)
def execShl (f : VR) (s : State) : Out :=
  intOp (.shl f) f s fun a b _ => a * 2 ^ (b % Ty.bits f.ty) % 2 ^ Ty.bits f.ty
def execShr (f : VR) (s : State) : Out := intOp (.shr f) f s fun a b _ => a / 2 ^ (b % Ty.bits f.ty)
def execSra (f : VR) (s : State) : Out :=
  intOp (.sra f) f s fun a b _ => wrapTo (Ty.bits f.ty) (sext (Ty.bits f.ty) a / 2 ^ (b % Ty.bits f.ty))
def execRotl (f : VR) (s : State) : Out :=
  intOp (.rotl f) f s fun a b _ =>
    let w := Ty.bits f.ty
    let n := b % w
    (a * 2 ^ n + a / 2 ^ (w - n)) % 2 ^ w

/-- BFX (R140). -/
def bfxVal (sgn : Bool) (a b c : Nat) : Nat :=
  let pos := b % 32
  let len0 := c % 64
  if len0 = 0 || 32 < len0 then 0
  else
    let len := min len0 (32 - pos)
    let v := a / 2 ^ pos % 2 ^ len
    if sgn && v.testBit (len - 1) then v + (2 ^ 32 - 2 ^ len) else v

def execBfx (f : VR) (s : State) : Out := intOp (.bfx f) f s fun a b c => bfxVal f.ty.signed a b c

/-- BFI (R140). -/
def bfiVal (a b c : Nat) : Nat :=
  let pos := c % 32
  let len := min (min (c / 256 % 64) 32) (32 - pos)
  let m := (2 ^ len - 1) * 2 ^ pos
  (b &&& (2 ^ 32 - 1 - m)) ||| (a * 2 ^ pos % 2 ^ 32 &&& m)

def execBfi (f : VR) (s : State) : Out := intOp (.bfi f) f s fun a b c => bfiVal a b c

def execPopc (f : VR) (s : State) : Out := intOp (.popc f) f s fun a _ _ => popNat 32 a
def execClz (f : VR) (s : State) : Out := intOp (.clz f) f s fun a _ _ => clzNat 32 a
def execCtz (f : VR) (s : State) : Out := intOp (.ctz f) f s fun a _ _ => ctzNat 32 a

/-- Bit i moves to bit 31 − i. -/
def brevVal (a : Nat) : Nat := (List.range 32).foldl (fun r i => if a.testBit i then r + 2 ^ (31 - i) else r) 0

def execBrev (f : VR) (s : State) : Out := intOp (.brev f) f s fun a _ _ => brevVal a

/-- BYTEP (R140). -/
def bytepVal (a b c : Nat) : Nat :=
  let pool := a + c * 2 ^ 32
  (List.range 4).foldl (fun r i =>
    let q := b / 16 ^ i % 16
    let byt := pool / 256 ^ (q % 8) % 256
    let v := if 8 ≤ q then (if 128 ≤ byt then 255 else 0) else byt
    r + v * 256 ^ i) 0

def execBytep (f : VR) (s : State) : Out := intOp (.bytep f) f s fun a b c => bytepVal a b c

/-- ICMP (R141): bit L of kd in each acting lane. -/
def execIcmp (c : Cond) (f : VR) (s : State) : Out :=
  cmpOp (.icmp c f) f s fun g l =>
    condInt c (extBy f.ty.signed (Ty.bits f.ty) (s.rdN g .f32 f.ty.is64 f.a l))
      (extBy f.ty.signed (Ty.bits f.ty) (s.rdN g .f32 f.ty.is64 f.b l))

/-- SEL (R141). -/
def execSel (f : VR) (s : State) : Out :=
  laneOp (.sel f) f s fun g l =>
    if (match f.a with | .k n => g.rdK n.toNat | _ => 0).getLsbD l then s.rdN g .f32 f.ty.is64 f.b l
    else s.rdN g .f32 f.ty.is64 f.c l

def execMov (f : VR) (s : State) : Out := intOp (.mov f) f s fun a _ _ => a

/-! ### Immediate forms (R142) -/

def execMovi (f : VI) (s : State) : Out := immOp (.movi f) f s fun _ => f.imm
def execIaddi (f : VI) (s : State) : Out := immOp (.iaddi f) f s fun a => a + f.imm
def execAndi (f : VI) (s : State) : Out := immOp (.andi f) f s fun a => a &&& f.imm
def execOri (f : VI) (s : State) : Out := immOp (.ori f) f s fun a => a ||| f.imm
def execXori (f : VI) (s : State) : Out := immOp (.xori f) f s fun a => a ^^^ f.imm

/-! ### Masks (R143) -/

def execKand (f : VR) (s : State) : Out := maskOp (.kand f) f s fun a b => a &&& b
def execKor (f : VR) (s : State) : Out := maskOp (.kor f) f s fun a b => a ||| b
def execKxor (f : VR) (s : State) : Out := maskOp (.kxor f) f s fun a b => a ^^^ b
def execKandn (f : VR) (s : State) : Out := maskOp (.kandn f) f s fun a b => a &&& ~~~ b
def execKnot (f : VR) (s : State) : Out := maskOp (.knot f) f s fun a _ => ~~~ a
def execKmov (f : VR) (s : State) : Out := maskOp (.kmov f) f s fun a _ => a

/-- KPOPC and KFFS write an s register. -/
def execKpopc (f : VR) (s : State) : Out :=
  scalarOp (.kpopc f) f s fun a _ _ => BitVec.ofNat 64 (popNat 32 a.toNat)
def execKffs (f : VR) (s : State) : Out :=
  scalarOp (.kffs f) f s fun a _ _ => BitVec.ofNat 64 (ctzNat 32 a.toNat)

end Sys2Proof.Machine
end

