-- ==== Sys2Proof/Machine/Issue.lean ====
section
/-!
DEFINITION. What issuing adds around an instruction's own meaning: the issue slot, delays of the next turn, register-file
counters, the flags of a clause that ends, sampling (R118, R121, R122, R127, R128, R369, R432, R433).
-/
namespace Sys2Proof

/-- The v registers that an operand of n registers names. -/
def Opnd.vList (o : Opnd) (n : Nat) : List Nat :=
  match o with
  | .v r => (List.range n).map fun j => r.toNat + j
  | _ => []

/-- The v registers an instruction writes in a group of that many: TRET restores all that its kernel declares (R367). -/
def Instr.vWrites (declared : Nat) (i : Instr) : List Nat :=
  match i with
  | .tret _ => List.range declared
  | .phredAcc f => f.dst.vList 3
  | .tclaim _ f => [f.va.toNat]
  | _ =>
    match i.vsig with
    | some (g, f) => if g.dst == .unused then [] else f.dst.vList (if g.dst.is64 f.ty then 2 else 1)
    | none => (i.dstOf.map fun o => o.vList 1).flatten

end Sys2Proof

namespace Sys2Proof.Machine

/-- The group still stands at the instruction without a fault: it waits. -/
def stayed (g0 : Group) (s1 : State) : Bool :=
  match s1.focus with
  | some g => g.clause.isSome && g.entered && g.hdr == g0.hdr && g.idx == g0.idx && g.trap.isNone && g.gid == g0.gid
  | none => false

/-- The v registers an instruction reads where it stands: of a source that it reads in no lane, none (R128, R130, R259). -/
def readsAt (s : State) (g : Group) (i : Instr) : List Nat :=
  (((Instr.srcs s g i).filter fun c => !c.reads.isEmpty).map fun c => c.o.vList c.regs).flatten.eraseDups

/-- A write of lanes leaves some lane of the register as it was: that of a half always, whose register has the lanes of both halves (R127,
R204). -/
def partialWrite (g : Group) (lanes : List Nat) : Bool :=
  !lanes.isEmpty && (g.half.isSome || (List.range 32).any fun l => !lanes.contains l)

/-- Stall cycles of the partial writes of an instruction that are complete as it issues: the longest of its registers (R127). -/
def reencode (s0 : State) (g0 : Group) (s1 : State) (g1 : Group) (lanes rs : List Nat) : Nat :=
  rs.foldl (fun m n =>
    if !partialWrite g0 lanes || lanes.any (fun l => (g1.laneV n l).empty) then m
    else max m (reencCycles (regEnc (fileLanes s0 g0 n)) (regEnc (fileLanes s1 g1 n)))) 0

/-- The partial writes of an instruction whose lanes it has left EMPTY, to be re-encoded as the last of them comes (R127). -/
def lateWrites (g0 g1 : Group) : List PartWrite :=
  ((((g1.v.filter fun x => x.2.empty).map fun x => x.1 / 32).eraseDups).map fun n =>
    let lanes := (List.range 32).filter fun l => (g1.laneV n l).empty && !(g0.laneV n l).empty
    if partialWrite g0 lanes then [⟨n, lanes, lanes.map fun l => (l, (g0.laneV n l).val)⟩] else []).flatten

/-- The predicate of an instruction. -/
def predOf (w : W64) : Pred := ⟨BitVec.ofNat 4 (fldN w 52 4), bitAt w 51⟩

/-- The lanes of its v destination that an instruction wrote: those in which it acts, but every active lane of SRD, the packed lanes of
CMPCT, the lanes of TCLAIM's numbers where it claimed slots, and every active lane of TRET (R108, R132, R202, R292, R367). -/
def wroteLanes (s0 : State) (g0 : Group) (w : W64) (i : Instr) (s1 : State) : List Nat :=
  match i with
  | .srd _ f => if g0.act f.p = 0 then [] else lanesOf g0.active
  | .cmpct f => List.range (cmpctSel g0 f).length
  | .tclaim n _ => if s1.cores == s0.cores then [] else List.range (n.val + 1)
  | .tret f => if g0.act f.p = 0 then [] else lanesOf g0.active
  | _ => lanesOf (g0.act (predOf w))

/-- Cycles an instruction holds back the group's next turn besides R122 (R203, R354). -/
def extraTurn : Instr → Nat
  | .redg _ _ | .scang _ _ _ | .cmpct _ | .phred _ | .phredAcc _ | .phredEnd _ => 3
  | _ => 0

/-- Cycles an instruction occupies the issue slot of its partition (R354). -/
def slotCycles : Instr → Nat
  | .phfrom _ => 2
  | _ => 1

/-- Majors that sampling counts (R433). -/
def sampledMajor (m : Nat) : Bool := (decide (0x60 ≤ m) && decide (m ≤ 0x66)) || (decide (0x78 ≤ m) && decide (m ≤ 0x7A))

/-- A memory instruction that issued is counted, and every PERIOD-th is sampled (R433). -/
def sampleIssue (s0 : State) (g0 : Group) (w : W64) (s : State) : State :=
  let p := s.partOf g0
  if !sampledMajor (majorOf w) || !bitAt p.sampcfg 0 then s
  else if p.sampled + 1 < fldN p.sampcfg 8 24 then s.setPartOf g0 { p with sampled := p.sampled + 1 }
  else
    let mine := s.accs.filter fun a => a.gid == some g0.gid && decide (s0.nextId ≤ a.seq)
    let seq := (mine.head?.map (·.seq)).getD s0.nextId
    let one := if majorOf w == 0x65 && mine.isEmpty && g0.act (predOf w) != 0 then 1 else 0
    let lines := one + ((mine.filter fun a => !a.isSpad).map fun a => lineOf a.pa).eraseDups.length
    let secs := one + (((mine.filter fun a => !a.isSpad).map fun a => a.addrs.map fun x => x / 32).flatten).eraseDups.length
    let passes := match s.focus with | some h => (h.bkpass - g0.bkpass).toNat | none => 0
    let x : Sample := { gid := g0.gid, seq := seq, hdr := g0.hdr, idx := g0.idx, mask := g0.active, major := majorOf w,
                        lines := lines, sectors := secs, passes := passes, gtb0 := s.gtb.toNat,
                        clk0 := s.clk g0.die g0.core, last := 255 }
    let s1 := s.setPartOf g0 { p with sampled := 0, samples := p.samples ++ [x] }
    if mine.isEmpty then sampleDone s1 g0.die g0.core g0.gid seq else s1

/-- The flags of a clause that has ended (R121). DESIGN CHOICE (log entry 89): the 64 cycles of N count from the end of the N
clause. -/
def clauseEnd (clk : Nat) (c : Clause) (g : Group) : Group :=
  { g with age := if cY c.head then clk else g.age, fast := if cE c.head then [] else g.fast,
           nHold := if cN c.head then some (clk + 64) else none }

/-- An instruction issued: the partition's slot is used, the group's next turn delayed, the counters advanced. The one-shot pass
ends, but that which a TRET has just set (R367). -/
def issued (s0 : State) (g0 : Group) (w : W64) (i : Option Instr) (s1 : State) : State :=
  let clk := s0.clk g0.die g0.core
  let out := ((i.map (readsAt s0 g0)).getD []).filter fun n => !g0.fast.contains n
  let re := match i, s1.focus with
    | some j, some g1 => reencode s0 g0 s1 g1 (wroteLanes s0 g0 w j s1) (j.vWrites (kVregs (s0.kword g0)))
    | _, _ => 0
  let p := countReads s0 g0 out (s1.partOf g0)
  let s2 := s1.setPartOf g0 { p with lastIssue := some clk, busy := clk + ((i.map slotCycles).getD 1), rfOutws := p.rfOutws + BitVec.ofNat 32 out.length,
                                     rfReenc := p.rfReenc + BitVec.ofNat 32 re }
  let turn := clk + 1 + (if out.isEmpty then 0 else 6) + re + ((i.map extraTurn).getD 0)
  let s3 := s2.modG fun g =>
    let keep := match i with
      | some (.tret f) => decide (g0.act f.p ≠ 0) && g.pass
      | _ => false
    let h := { g with ready := none, tried := none, pass := keep, holds := g.holds && g.clause.isSome, stall := max g.stall turn,
                      lateWr := g.lateWr ++ if g.gid == g0.gid then lateWrites g0 g else [] }
    match g0.clause with
    | some c => if h.clause.isNone && h.gid == g0.gid then clauseEnd clk c h else h
    | none => h
  sampleIssue s0 g0 w s3

/-- The selected group goes back among the groups; one that waits is not tried again before something changes, and one that
faulted has not issued. -/
def settleFocus (s0 : State) (g0 : Group) (w : W64) (i : Option Instr) (s1 : State) : State :=
  let wait := stayed g0 s1
  let s2 := if (s1.focus.map (·.trap.isSome)) == some true then s1.modG fun g => { g with pass := false }
    else if wait then s1.modG fun g => { g with tried := some (s1.changes, s1.clk g.die g.core), ready := none }
    else issued s0 g0 w i s1
  { s2 with focus := none, groups := s2.groups ++ s2.focus.toList,
            changes := if wait then s2.changes else s2.changes + 1 }

/-! ### Breakpoints (R369) -/

/-- The execute slot a group hits at its instruction. -/
def execHit (s : State) (g : Group) : Option Nat :=
  if g.pass then none
  else ((((s.ctx? g.ctx).map (·.bkpts)).getD []).find? fun b =>
    bkKind b.2 == 1 && b.2.addr == g.iaddr && (!bitAt b.2.ctl 2 || b.2.team == g.team)).map (·.1)

/-- An execute hit before the instruction issues: BKPT, or a stop of the partition (R369, R428). -/
def execBreak (s : State) (g : Group) (w : W64) (slot : Nat) : Out :=
  if bitAt (s.partOf g).dbgctl 4 then
    .next ((freeze s g.die g.core g.part 1 slot).modG fun h => { h with pass := true, sleep := .awake })
  else raiseWord s w .bkpt g.iaddr 0 (BitVec.ofNat 64 slot)

/-- BREAKPOINT_STOP: the group that its partition is about to issue at a breakpoint stops it (R428). -/
def execBreakpointStop (gid : Nat) (s : State) : Out :=
  match s.group? gid with
  | none => .next s
  | some g =>
    match execHit s g with
    | some slot =>
      if bitAt (s.partOf g).dbgctl 4 && decide ((s.partOf g).busy ≤ s.clk g.die g.core + 1)
          && (chosen s ⟨g.die, g.core, g.part⟩).map (·.gid) == some gid then
        .next ((freeze s g.die g.core g.part 1 slot).setGroup { g with pass := true })
      else .next s
    | none => .next s

end Sys2Proof.Machine
end

