-- ==== Sys2Proof/Machine/Phasor.lean ====
section
/-!
DEFINITION. Phasor instructions, major 0xB0 (R340 to R354).
-/
namespace Sys2Proof.Machine

/-- Width of the angle of a phasor type (R340). -/
def phBits (t : Ty) : Nat := if t == .ph8 then 7 else 15

/-- The canonical undefined code. -/
def phUndef (t : Ty) : Nat := 2 ^ (phBits t + 1) - 1

/-- U of a phasor operand (R342). -/
def phU (t : Ty) (n : Nat) : Bool := n.testBit (phBits t)
def phAngle (t : Ty) (n : Nat) : Nat := n % 2 ^ phBits t

/-- A phasor operand in a lane, its higher bits ignored. -/
def rdPh (s : State) (g : Group) (t : Ty) (o : Opnd) (l : Nat) : Nat := (s.rd32 g .f32 o l).toNat % 2 ^ (phBits t + 1)

/-- Index into the circle table (R344). -/
def phIndex (t : Ty) (n : Nat) : Nat := phAngle t n * 2 ^ (15 - phBits t)

/-- An integer result as an angle code. -/
def phOf (t : Ty) (x : Int) : Nat := (x % 2 ^ phBits t).toNat

/-- Angle arithmetic over two phasors (R348). -/
def phBin (i : Instr) (f : VR) (s : State) (op : Int → Int → Int) : Out :=
  laneOp i f s fun g l =>
    let a := rdPh s g f.ty f.a l
    let b := rdPh s g f.ty f.b l
    if phU f.ty a || phU f.ty b then phUndef f.ty else phOf f.ty (op (phAngle f.ty a) (phAngle f.ty b))

def execPhadd (f : VR) (s : State) : Out := phBin (.phadd f) f s fun a b => a + b
def execPhsub (f : VR) (s : State) : Out := phBin (.phsub f) f s fun a b => a - b

def execPhneg (f : VR) (s : State) : Out :=
  laneOp (.phneg f) f s fun g l =>
    let a := rdPh s g f.ty f.a l
    if phU f.ty a then phUndef f.ty else phOf f.ty (-(phAngle f.ty a : Int))

def execPhmuli (f : VR) (s : State) : Out :=
  laneOp (.phmuli f) f s fun g l =>
    let a := rdPh s g f.ty f.a l
    if phU f.ty a then phUndef f.ty else phOf f.ty (phAngle f.ty a * (s.rd32 g .f32 f.b l).toInt)

/-- Whether a class of R349 satisfies a condition; d is the difference of the angles, none where either is undefined. -/
def phCond (c : PhCond) (m : Nat) (d : Option Nat) : Bool :=
  match d with
  | none => (match c with | .ne | .un => true | _ => false)
  | some d =>
    let opp := decide (d = 2 ^ (m - 1))
    let ahead := decide (1 ≤ d) && decide (d < 2 ^ (m - 1))
    match c with
    | .eq => decide (d = 0)
    | .ne => decide (d ≠ 0)
    | .ahead => ahead
    | .behind => decide (d ≠ 0) && !ahead && !opp
    | .opp => opp
    | .un => false
    | .ord => true

def execPhcmp (c : PhCond) (f : VR) (s : State) : Out :=
  cmpOp (.phcmp c f) f s fun g l =>
    let a := rdPh s g f.ty f.a l
    let b := rdPh s g f.ty f.b l
    phCond c (phBits f.ty)
      (if phU f.ty a || phU f.ty b then none
       else some (phOf f.ty ((phAngle f.ty a : Int) - phAngle f.ty b)))

/-! ### Reduction (R350) -/

/-- The exact sums of the defined inputs of a list of lanes: X, Y, and their number. -/
def phSums (t : Ty) (ins : List Nat) : Int × Int × Nat :=
  ins.foldl (fun r a =>
    if phU t a then r
    else let c := circle (phIndex t a); (r.1 + c.1, r.2.1 + c.2, r.2.2 + 1)) (0, 0, 0)

def actSums (s : State) (g : Group) (f : VR) : Int × Int × Nat :=
  phSums f.ty ((lanesOf (g.act f.p)).map (rdPh s g f.ty f.a))

def execPhred (f : VR) (s : State) : Out :=
  laneOp (.phred f) f s fun g =>
    let r := actSums s g f
    let w := resultant r.1 r.2.1 r.2.2
    fun _ => w

/-- PHRED.acc: the sums added into the triple of every acting lane. -/
def execPhredAcc (f : VR) (s : State) : Out :=
  issue (.phredAcc f) s fun g =>
    let ls := lanesOf (g.act f.p)
    let n := match f.dst with | .v n => n.toNat | _ => 0
    withSrcs (.phredAcc f) s g false [srcAt f.a false f.ta (g.act f.p), ⟨f.dst, 3, false, ls.map fun l => (l, l)⟩] fun s1 =>
      let r := actSums s g f
      let add := fun (h : Group) (j : Nat) (x : Int) =>
        h.putLanes (n + j) false (fun l => wrapTo 32 ((g.laneV (n + j) l).val.toNat + x)) ls
      done (s1.modG fun h => add (add (add h 0 r.1) 1 r.2.1) 2 r.2.2)

def execPhredEnd (f : VR) (s : State) : Out :=
  laneOp (.phredEnd f) f s fun g l =>
    match f.a with
    | .v n => resultant (g.laneV n.toNat l).val.toInt (g.laneV (n.toNat + 1) l).val.toInt (g.laneV (n.toNat + 2) l).val.toNat
    | _ => 0xFFFF

/-! ### Sine, cosine, construction, conversion (R351 to R353) -/

/-- A table entry over 2^14 as FP32. -/
def entryF32 (x : Int) : Nat := fF32.round .rne false (decide (x < 0)) x.natAbs (-14) false

def execPhsin (f : VR) (s : State) : Out :=
  laneOp (.phsin f) f s fun g l =>
    let a := rdPh s g f.ty f.a l
    if phU f.ty a then fF32.canon else entryF32 (circle (phIndex f.ty a)).2

def execPhcos (f : VR) (s : State) : Out :=
  laneOp (.phcos f) f s fun g l =>
    let a := rdPh s g f.ty f.a l
    if phU f.ty a then fF32.canon else entryF32 (circle (phIndex f.ty a)).1

/-- A signed component of a vector at a common exponent. -/
def comp (neg : Bool) (m : Nat) (sh : Nat) : Int := if neg then -((m * 2 ^ sh : Nat) : Int) else (m * 2 ^ sh : Nat)

/-- The angle of a finite vector; where one component exceeds the other by 2^40 the vector's angle is the axis's. -/
def angleFin (m : Nat) (nx : Bool) (mx : Nat) (ex : Int) (ny : Bool) (my : Nat) (ey : Int) : Nat :=
  let hx := (bitLen mx : Int) + ex
  let hy := (bitLen my : Int) + ey
  if my = 0 || (mx != 0 && decide (hy + 40 < hx)) then angleOf m (comp nx 1 0) 0
  else if mx = 0 || decide (hx + 40 < hy) then angleOf m 0 (comp ny 1 0)
  else angleOf m (comp nx mx (ex - min ex ey).toNat) (comp ny my (ey - min ex ey).toNat)

/-- PHFROM of two FP32 codes (R352). -/
def phFrom (t : Ty) (x y : Nat) : Nat :=
  match fF32.dec x, fF32.dec y with
  | .nan _, _ | _, .nan _ => phUndef t
  | .inf a, .inf b => angleOf (phBits t) (comp a 1 0) (comp b 1 0)
  | .inf a, .fin _ _ _ => angleOf (phBits t) (comp a 1 0) 0
  | .fin _ _ _, .inf b => angleOf (phBits t) 0 (comp b 1 0)
  | .fin nx mx ex, .fin ny my ey => if mx = 0 && my = 0 then phUndef t else angleFin (phBits t) nx mx ex ny my ey

def execPhfrom (f : VR) (s : State) : Out :=
  laneOp (.phfrom f) f s fun g l =>
    phFrom f.ty (finF32 g.nbv (s.rd32 g .f32 f.a l).toNat) (finF32 g.nbv (s.rd32 g .f32 f.b l).toNat)

/-- Half way rounds to the even code. -/
def nearest256 (a : Nat) : Nat :=
  let q := a / 256
  let r := a % 256
  if 128 < r || (r = 128 && q % 2 = 1) then q + 1 else q

/-- PHCVT of one lane's operand (R353). -/
def phCvt (dt st : Ty) (n : Nat) : Nat :=
  match dt with
  | .ph8 => if phU .ph16 n then phUndef .ph8 else nearest256 (phAngle .ph16 n) % 128
  | .f32 => if phU .ph16 n then fF32.canon else radOfPh16 (phAngle .ph16 n)
  | _ =>
    if st == .f32 then (match fF32.dec n with
      | .fin neg m e => ph16OfRad neg m e
      | _ => phUndef .ph16)
    else if phU .ph8 n then phUndef .ph16 else phAngle .ph8 n * 256

def execPhcvt (st : Ty) (f : VR) (s : State) : Out :=
  laneOp (.phcvt st f) f s fun g l => phCvt f.ty st (s.rd32 g .f32 f.a l).toNat

end Sys2Proof.Machine
end

