-- ==== Sys2Proof/Machine/Dispatch.lean ====
section
/-!
DEFINITION. The dispatch: one arm per constructor of Instr, each a direct call of that instruction's or step's meaning.
-/
namespace Sys2Proof.Machine

/-- The meaning of an instruction, or of one of the machine's own steps, at a state. -/
def exec (i : Instr) (s : State) : Host.Outcome State Fault Refusal :=
  match i with
  | .sadd f => Sys2Proof.Machine.execSadd f s
  | .ssub f => Sys2Proof.Machine.execSsub f s
  | .smul f => Sys2Proof.Machine.execSmul f s
  | .smulh f => Sys2Proof.Machine.execSmulh f s
  | .smad f => Sys2Proof.Machine.execSmad f s
  | .sand f => Sys2Proof.Machine.execSand f s
  | .sor f => Sys2Proof.Machine.execSor f s
  | .sxor f => Sys2Proof.Machine.execSxor f s
  | .sandn f => Sys2Proof.Machine.execSandn f s
  | .sshl f => Sys2Proof.Machine.execSshl f s
  | .sshr f => Sys2Proof.Machine.execSshr f s
  | .ssra f => Sys2Proof.Machine.execSsra f s
  | .smin f => Sys2Proof.Machine.execSmin f s
  | .smax f => Sys2Proof.Machine.execSmax f s
  | .sminu f => Sys2Proof.Machine.execSminu f s
  | .smaxu f => Sys2Proof.Machine.execSmaxu f s
  | .scmp cond f => Sys2Proof.Machine.execScmp cond f s
  | .ssel f => Sys2Proof.Machine.execSsel f s
  | .smov f => Sys2Proof.Machine.execSmov f s
  | .sclz f => Sys2Proof.Machine.execSclz f s
  | .spopc f => Sys2Proof.Machine.execSpopc f s
  | .vtos f => Sys2Proof.Machine.execVtos f s
  | .smovi f => Sys2Proof.Machine.execSmovi f s
  | .smovh f => Sys2Proof.Machine.execSmovh f s
  | .srd r f => Sys2Proof.Machine.execSrd r f s
  | .swr r f => Sys2Proof.Machine.execSwr r f s
  | .bra f => Sys2Proof.Machine.execBra f s
  | .bz f => Sys2Proof.Machine.execBz f s
  | .bnz f => Sys2Proof.Machine.execBnz f s
  | .bany f => Sys2Proof.Machine.execBany f s
  | .ball f => Sys2Proof.Machine.execBall f s
  | .bnone f => Sys2Proof.Machine.execBnone f s
  | .call f => Sys2Proof.Machine.execCall f s
  | .ret f => Sys2Proof.Machine.execRet f s
  | .brx f => Sys2Proof.Machine.execBrx f s
  | .exit f => Sys2Proof.Machine.execExit f s
  | .reform f => Sys2Proof.Machine.execReform f s
  | .nop f => Sys2Proof.Machine.execNop f s
  | .iadd f => Sys2Proof.Machine.execIadd f s
  | .isub f => Sys2Proof.Machine.execIsub f s
  | .imul f => Sys2Proof.Machine.execImul f s
  | .imulh f => Sys2Proof.Machine.execImulh f s
  | .imulhu f => Sys2Proof.Machine.execImulhu f s
  | .imad f => Sys2Proof.Machine.execImad f s
  | .imadw f => Sys2Proof.Machine.execImadw f s
  | .iaddw f => Sys2Proof.Machine.execIaddw f s
  | .isubw f => Sys2Proof.Machine.execIsubw f s
  | .iabs f => Sys2Proof.Machine.execIabs f s
  | .ineg f => Sys2Proof.Machine.execIneg f s
  | .imin f => Sys2Proof.Machine.execImin f s
  | .imax f => Sys2Proof.Machine.execImax f s
  | .iadds f => Sys2Proof.Machine.execIadds f s
  | .isubs f => Sys2Proof.Machine.execIsubs f s
  | .lea sh f => Sys2Proof.Machine.execLea sh f s
  | .cvti st f => Sys2Proof.Machine.execCvti st f s
  | .and f => Sys2Proof.Machine.execAnd f s
  | .or f => Sys2Proof.Machine.execOr f s
  | .xor f => Sys2Proof.Machine.execXor f s
  | .andn f => Sys2Proof.Machine.execAndn f s
  | .shl f => Sys2Proof.Machine.execShl f s
  | .shr f => Sys2Proof.Machine.execShr f s
  | .sra f => Sys2Proof.Machine.execSra f s
  | .rotl f => Sys2Proof.Machine.execRotl f s
  | .bfx f => Sys2Proof.Machine.execBfx f s
  | .bfi f => Sys2Proof.Machine.execBfi f s
  | .popc f => Sys2Proof.Machine.execPopc f s
  | .clz f => Sys2Proof.Machine.execClz f s
  | .ctz f => Sys2Proof.Machine.execCtz f s
  | .brev f => Sys2Proof.Machine.execBrev f s
  | .bytep f => Sys2Proof.Machine.execBytep f s
  | .icmp cond f => Sys2Proof.Machine.execIcmp cond f s
  | .sel f => Sys2Proof.Machine.execSel f s
  | .mov f => Sys2Proof.Machine.execMov f s
  | .movi f => Sys2Proof.Machine.execMovi f s
  | .iaddi f => Sys2Proof.Machine.execIaddi f s
  | .andi f => Sys2Proof.Machine.execAndi f s
  | .ori f => Sys2Proof.Machine.execOri f s
  | .xori f => Sys2Proof.Machine.execXori f s
  | .kand f => Sys2Proof.Machine.execKand f s
  | .kor f => Sys2Proof.Machine.execKor f s
  | .kxor f => Sys2Proof.Machine.execKxor f s
  | .kandn f => Sys2Proof.Machine.execKandn f s
  | .knot f => Sys2Proof.Machine.execKnot f s
  | .kmov f => Sys2Proof.Machine.execKmov f s
  | .kpopc f => Sys2Proof.Machine.execKpopc f s
  | .kffs f => Sys2Proof.Machine.execKffs f s
  | .fadd f => Sys2Proof.Machine.execFadd f s
  | .fsub f => Sys2Proof.Machine.execFsub f s
  | .fmul f => Sys2Proof.Machine.execFmul f s
  | .ffma f => Sys2Proof.Machine.execFfma f s
  | .fmin f => Sys2Proof.Machine.execFmin f s
  | .fmax f => Sys2Proof.Machine.execFmax f s
  | .fcmp cond f => Sys2Proof.Machine.execFcmp cond f s
  | .fclass f => Sys2Proof.Machine.execFclass f s
  | .frint f => Sys2Proof.Machine.execFrint f s
  | .fscale f => Sys2Proof.Machine.execFscale f s
  | .fcvt sat st f => Sys2Proof.Machine.execFcvt sat st f s
  | .hadd2 f => Sys2Proof.Machine.execHadd2 f s
  | .hmul2 f => Sys2Proof.Machine.execHmul2 f s
  | .hfma2 f => Sys2Proof.Machine.execHfma2 f s
  | .bfma2 f => Sys2Proof.Machine.execBfma2 f s
  | .qdot4 f => Sys2Proof.Machine.execQdot4 f s
  | .shflIdx w f => Sys2Proof.Machine.execShflIdx w f s
  | .shflUp w f => Sys2Proof.Machine.execShflUp w f s
  | .shflDn w f => Sys2Proof.Machine.execShflDn w f s
  | .shflXor w f => Sys2Proof.Machine.execShflXor w f s
  | .voteBallot f => Sys2Proof.Machine.execVoteBallot f s
  | .voteAny f => Sys2Proof.Machine.execVoteAny f s
  | .voteAll f => Sys2Proof.Machine.execVoteAll f s
  | .voteEq f => Sys2Proof.Machine.execVoteEq f s
  | .redg op f => Sys2Proof.Machine.execRedg op f s
  | .scang op excl f => Sys2Proof.Machine.execScang op excl f s
  | .bcast f => Sys2Proof.Machine.execBcast f s
  | .match_ f => Sys2Proof.Machine.execMatch f s
  | .cmpct f => Sys2Proof.Machine.execCmpct f s
  | .pipe f => Sys2Proof.Machine.execPipe f s
  | .pipeH f => Sys2Proof.Machine.execPipeH f s
  | .pjoin f => Sys2Proof.Machine.execPjoin f s
  | .pend f => Sys2Proof.Machine.execPend f s
  | .pbrk f => Sys2Proof.Machine.execPbrk f s
  | .yvoid f => Sys2Proof.Machine.execYvoid f s
  | .pstat f => Sys2Proof.Machine.execPstat f s
  | .ld f => Sys2Proof.Machine.execLd f s
  | .st f => Sys2Proof.Machine.execSt f s
  | .lds f => Sys2Proof.Machine.execLds f s
  | .sts f => Sys2Proof.Machine.execSts f s
  | .ldf f => Sys2Proof.Machine.execLdf f s
  | .sld f => Sys2Proof.Machine.execSld f s
  | .sst f => Sys2Proof.Machine.execSst f s
  | .pref lvl f => Sys2Proof.Machine.execPref lvl f s
  | .cctlInv1 f => Sys2Proof.Machine.execCctlInv1 f s
  | .cctlWb f => Sys2Proof.Machine.execCctlWb f s
  | .cctlEvict f => Sys2Proof.Machine.execCctlEvict f s
  | .fence f => Sys2Proof.Machine.execFence f s
  | .fenceRg f => Sys2Proof.Machine.execFenceRg f s
  | .waitl f => Sys2Proof.Machine.execWaitl f s
  | .atom op ty f => Sys2Proof.Machine.execAtom op ty f s
  | .atoms op ty f => Sys2Proof.Machine.execAtoms op ty f s
  | .redm op ty f => Sys2Proof.Machine.execRedm op ty f s
  | .barinit f => Sys2Proof.Machine.execBarinit f s
  | .bararr f => Sys2Proof.Machine.execBararr f s
  | .barwait f => Sys2Proof.Machine.execBarwait f s
  | .bartest f => Sys2Proof.Machine.execBartest f s
  | .barkill f => Sys2Proof.Machine.execBarkill f s
  | .netarr f => Sys2Proof.Machine.execNetarr f s
  | .netwait f => Sys2Proof.Machine.execNetwait f s
  | .qopen f => Sys2Proof.Machine.execQopen f s
  | .qclose f => Sys2Proof.Machine.execQclose f s
  | .qcloseKill f => Sys2Proof.Machine.execQcloseKill f s
  | .enq f => Sys2Proof.Machine.execEnq f s
  | .deq f => Sys2Proof.Machine.execDeq f s
  | .enqt f => Sys2Proof.Machine.execEnqt f s
  | .deqt f => Sys2Proof.Machine.execDeqt f s
  | .qstat f => Sys2Proof.Machine.execQstat f s
  | .mxacq n f => Sys2Proof.Machine.execMxacq n f s
  | .mxrel f => Sys2Proof.Machine.execMxrel f s
  | .tclaim n f => Sys2Proof.Machine.execTclaim n f s
  | .tfree f => Sys2Proof.Machine.execTfree f s
  | .tfill mid pl4 u f => Sys2Proof.Machine.execTfill mid pl4 u f s
  | .mmq x f => Sys2Proof.Machine.execMmq x f s
  | .mmqx x f => Sys2Proof.Machine.execMmqx x f s
  | .mxzero ab f => Sys2Proof.Machine.execMxzero ab f s
  | .mxldz x f => Sys2Proof.Machine.execMxldz x f s
  | .mxdrain x f => Sys2Proof.Machine.execMxdrain x f s
  | .mxsync f => Sys2Proof.Machine.execMxsync f s
  | .scld f => Sys2Proof.Machine.execScld f s
  | .phmma ab f => Sys2Proof.Machine.execPhmma ab f s
  | .phfin x f => Sys2Proof.Machine.execPhfin x f s
  | .cpyIn f => Sys2Proof.Machine.execCpyIn f s
  | .cpyOut f => Sys2Proof.Machine.execCpyOut f s
  | .cpyr op f => Sys2Proof.Machine.execCpyr op f s
  | .cpytOm f => Sys2Proof.Machine.execCpytOm f s
  | .cpytSp f => Sys2Proof.Machine.execCpytSp f s
  | .rcfence f => Sys2Proof.Machine.execRcfence f s
  | .rcfenceAll f => Sys2Proof.Machine.execRcfenceAll f s
  | .phadd f => Sys2Proof.Machine.execPhadd f s
  | .phsub f => Sys2Proof.Machine.execPhsub f s
  | .phneg f => Sys2Proof.Machine.execPhneg f s
  | .phmuli f => Sys2Proof.Machine.execPhmuli f s
  | .phcmp cond f => Sys2Proof.Machine.execPhcmp cond f s
  | .phred f => Sys2Proof.Machine.execPhred f s
  | .phredAcc f => Sys2Proof.Machine.execPhredAcc f s
  | .phredEnd f => Sys2Proof.Machine.execPhredEnd f s
  | .phsin f => Sys2Proof.Machine.execPhsin f s
  | .phcos f => Sys2Proof.Machine.execPhcos f s
  | .phfrom f => Sys2Proof.Machine.execPhfrom f s
  | .phcvt st f => Sys2Proof.Machine.execPhcvt st f s
  | .sigm f => Sys2Proof.Machine.execSigm f s
  | .tanh f => Sys2Proof.Machine.execTanh f s
  | .exp2 f => Sys2Proof.Machine.execExp2 f s
  | .log2 f => Sys2Proof.Machine.execLog2 f s
  | .rcp f => Sys2Proof.Machine.execRcp f s
  | .rsq f => Sys2Proof.Machine.execRsq f s
  | .gatec f => Sys2Proof.Machine.execGatec f s
  | .gateh f => Sys2Proof.Machine.execGateh f s
  | .gatecComp f => Sys2Proof.Machine.execGatecComp f s
  | .trap f => Sys2Proof.Machine.execTrap f s
  | .tret f => Sys2Proof.Machine.execTret f s
  | .bkpt f => Sys2Proof.Machine.execBkpt f s
  | .mark f => Sys2Proof.Machine.execMark f s
  | .lnch f => Sys2Proof.Machine.execLnch f s
  | .budget f => Sys2Proof.Machine.execBudget f s
  | .budgetSet f => Sys2Proof.Machine.execBudgetSet f s
  | .tlbiPage f => Sys2Proof.Machine.execTlbiPage f s
  | .tlbiRange f => Sys2Proof.Machine.execTlbiRange f s
  | .tlbiAll f => Sys2Proof.Machine.execTlbiAll f s
  | .pchk f => Sys2Proof.Machine.execPchk f s
  | .netcfg f => Sys2Proof.Machine.execNetcfg f s
  | .idivs f => Sys2Proof.Machine.execIdivs f s
  | .idivu f => Sys2Proof.Machine.execIdivu f s
  | .clauseEntry gid fresh => Sys2Proof.Machine.execClauseEntry gid fresh s
  | .issueCycle p => Sys2Proof.Machine.execIssueCycle p s
  | .starvationGuard p => Sys2Proof.Machine.execStarvationGuard p s
  | .noSwapExpiry gid => Sys2Proof.Machine.execNoSwapExpiry gid s
  | .groupSwap out inn => Sys2Proof.Machine.execGroupSwap out inn s
  | .vacancyFill gid => Sys2Proof.Machine.execVacancyFill gid s
  | .gladeAgeExpiry glade => Sys2Proof.Machine.execGladeAgeExpiry glade s
  | .drawnGroupPlace draw => Sys2Proof.Machine.execDrawnGroupPlace draw s
  | .loadWriteback id => Sys2Proof.Machine.execLoadWriteback id s
  | .gateWriteback gid n => Sys2Proof.Machine.execGateWriteback gid n s
  | .enterCb id => Sys2Proof.Machine.execEnterCb id s
  | .publishToDie id => Sys2Proof.Machine.execPublishToDie id s
  | .sendToHome id => Sys2Proof.Machine.execSendToHome id s
  | .serialize id => Sys2Proof.Machine.execSerialize id s
  | .discardReport id => Sys2Proof.Machine.execDiscardReport id s
  | .propagate id => Sys2Proof.Machine.execPropagate id s
  | .apply die id => Sys2Proof.Machine.execApply die id s
  | .readFromView id evict => Sys2Proof.Machine.execReadFromView id evict s
  | .engineStart cmd => Sys2Proof.Machine.execEngineStart cmd s
  | .engineLand cmd chunk => Sys2Proof.Machine.execEngineLand cmd chunk s
  | .chunkCount cmd chunk => Sys2Proof.Machine.execChunkCount cmd chunk s
  | .drainApply t => Sys2Proof.Machine.execDrainApply t s
  | .volleyRelease n p => Sys2Proof.Machine.execVolleyRelease n p s
  | .queueRetry gid => Sys2Proof.Machine.execQueueRetry gid s
  | .enqElementMove mv => Sys2Proof.Machine.execEnqElementMove mv s
  | .deqElementRead mv => Sys2Proof.Machine.execDeqElementRead mv s
  | .iterationStart pipe slot => Sys2Proof.Machine.execIterationStart pipe slot s
  | .cancelledRetire gid => Sys2Proof.Machine.execCancelledRetire gid s
  | .pipeLaunchResourceWait gid slot => Sys2Proof.Machine.execPipeLaunchResourceWait gid slot s
  | .umpireCycle die quad => Sys2Proof.Machine.execUmpireCycle die quad s
  | .matrixPass op units => Sys2Proof.Machine.execMatrixPass op units s
  | .matrixPassComplete op => Sys2Proof.Machine.execMatrixPassComplete op s
  | .outlierApply op quarter => Sys2Proof.Machine.execOutlierApply op quarter s
  | .tileArrayCycle op quarter => Sys2Proof.Machine.execTileArrayCycle op quarter s
  | .mxldzDataArrive op quarter => Sys2Proof.Machine.execMxldzDataArrive op quarter s
  | .completionRecordWrite cmd => Sys2Proof.Machine.execCompletionRecordWrite cmd s
  | .firmwareHandover cmd => Sys2Proof.Machine.execFirmwareHandover cmd s
  | .firmwareCopyFinish cmd => Sys2Proof.Machine.execFirmwareCopyFinish cmd s
  | .copyLost cmd => Sys2Proof.Machine.execCopyLost cmd s
  | .copyXlateReply cmd => Sys2Proof.Machine.execCopyXlateReply cmd s
  | .teamEndRelease team => Sys2Proof.Machine.execTeamEndRelease team s
  | .trapTake gid => Sys2Proof.Machine.execTrapTake gid s
  | .saveRequest ctx die core => Sys2Proof.Machine.execSaveRequest ctx die core s
  | .preemptDeferExpiry ctx die core => Sys2Proof.Machine.execPreemptDeferExpiry ctx die core s
  | .contextSwitch die core ctx => Sys2Proof.Machine.execContextSwitch die core ctx s
  | .contextStreamOut ctx die core => Sys2Proof.Machine.execContextStreamOut ctx die core s
  | .contextResume ctx die core => Sys2Proof.Machine.execContextResume ctx die core s
  | .pageWalk walk => Sys2Proof.Machine.execPageWalk walk s
  | .waitlTimeout gid => Sys2Proof.Machine.execWaitlTimeout gid s
  | .spuriousWake gid => Sys2Proof.Machine.execSpuriousWake gid s
  | .contextAdmission a => Sys2Proof.Machine.execContextAdmission a s
  | .packetDispatch queue fe => Sys2Proof.Machine.execPacketDispatch queue fe s
  | .teamPlace launch core => Sys2Proof.Machine.execTeamPlace launch core s
  | .cohortAdmit launch cores => Sys2Proof.Machine.execCohortAdmit launch cores s
  | .gangReserve launch cores => Sys2Proof.Machine.execGangReserve launch cores s
  | .gangStart launch => Sys2Proof.Machine.execGangStart launch s
  | .nodeComplete launch => Sys2Proof.Machine.execNodeComplete launch s
  | .copyNodeRun launch => Sys2Proof.Machine.execCopyNodeRun launch s
  | .doorbellWrite queue addr => Sys2Proof.Machine.execDoorbellWrite queue addr s
  | .feCoreHalt die fe => Sys2Proof.Machine.execFeCoreHalt die fe s
  | .feTakeover die fe sib => Sys2Proof.Machine.execFeTakeover die fe sib s
  | .queueTableLost queue => Sys2Proof.Machine.execQueueTableLost queue s
  | .dieFeHalt die => Sys2Proof.Machine.execDieFeHalt die s
  | .translationSwapFree tr => Sys2Proof.Machine.execTranslationSwapFree tr s
  | .translationRegister ctx code table => Sys2Proof.Machine.execTranslationRegister ctx code table s
  | .integratorUpdate quadNj uncoreNj => Sys2Proof.Machine.execIntegratorUpdate quadNj uncoreNj s
  | .rebalanceDecay die => Sys2Proof.Machine.execRebalanceDecay die s
  | .undervoltInterval die => Sys2Proof.Machine.execUndervoltInterval die s
  | .uncorrectableError e => Sys2Proof.Machine.execUncorrectableError e s
  | .energyUpdate quadNj uncore => Sys2Proof.Machine.execEnergyUpdate quadNj uncore s
  | .umpcfgWrite die quad v => Sys2Proof.Machine.execUmpcfgWrite die quad v s
  | .rebalWrite die v => Sys2Proof.Machine.execRebalWrite die v s
  | .uvcfgWrite die v => Sys2Proof.Machine.execUvcfgWrite die v s
  | .qpartWrite die v => Sys2Proof.Machine.execQpartWrite die v s
  | .registerWrite r v => Sys2Proof.Machine.execRegisterWrite r v s
  | .debugStop p scope => Sys2Proof.Machine.execDebugStop p scope s
  | .breakpointStop gid => Sys2Proof.Machine.execBreakpointStop gid s
  | .debugResume p => Sys2Proof.Machine.execDebugResume p s
  | .dumpWrite p => Sys2Proof.Machine.execDumpWrite p s
  | .trcctlWrite die v => Sys2Proof.Machine.execTrcctlWrite die v s
  | .traceRecordWrite die => Sys2Proof.Machine.execTraceRecordWrite die s
  | .hostMemWrite pa bytes => Sys2Proof.Machine.execHostMemWrite pa bytes s
  | .hostMemRead pa len => Sys2Proof.Machine.execHostMemRead pa len s
  | .flitReplay link ok => Sys2Proof.Machine.execFlitReplay link ok s
  | .linkRetrain link => Sys2Proof.Machine.execLinkRetrain link s
  | .linkDown link => Sys2Proof.Machine.execLinkDown link s
  | .podLinkLost pkg => Sys2Proof.Machine.execPodLinkLost pkg s
  | .attestationQuote nonce => Sys2Proof.Machine.execAttestationQuote nonce s
  | .bringUp b => Sys2Proof.Machine.execBringUp b s
  | .correctableError die designated => Sys2Proof.Machine.execCorrectableError die designated s
  | .hostCxlCompletion id err => Sys2Proof.Machine.execHostCxlCompletion id err s
  | .retrainComplete link => Sys2Proof.Machine.execRetrainComplete link s
  | .contextDestroy ctx => Sys2Proof.Machine.execContextDestroy ctx s
  | .dieReset die => Sys2Proof.Machine.execDieReset die s

end Sys2Proof.Machine
end

