-- ==== Sys2Proof/Machine/Run.lean ====
section
/-!
DEFINITION. What one step of the machine does: the selected group issues its next word, or one of the machine's own steps is
taken, as the agenda or the free schedule says (log entry 1); time passes (log entry 2).
-/
namespace Sys2Proof

/-- A row of the machine's own steps: no word of a kernel decodes to it. -/
def Instr.isEvent (i : Instr) : Bool :=
  match i with
  | .clauseEntry _ _ | .issueCycle _ | .starvationGuard _ | .noSwapExpiry _ | .groupSwap _ _ | .vacancyFill _
  | .gladeAgeExpiry _ | .drawnGroupPlace _ | .loadWriteback _ | .gateWriteback _ _ | .enterCb _ | .publishToDie _
  | .sendToHome _ | .serialize _ | .discardReport _ | .propagate _ | .apply _ _ | .readFromView _ _ | .engineStart _
  | .engineLand _ _ | .chunkCount _ _ | .drainApply _ | .volleyRelease _ _ | .queueRetry _ | .enqElementMove _
  | .deqElementRead _ | .iterationStart _ _ | .cancelledRetire _ | .pipeLaunchResourceWait _ _ | .umpireCycle _ _
  | .matrixPass _ _ | .matrixPassComplete _ | .outlierApply _ _ | .tileArrayCycle _ _ | .mxldzDataArrive _ _
  | .completionRecordWrite _ | .firmwareHandover _ | .firmwareCopyFinish _ | .copyLost _ | .copyXlateReply _
  | .teamEndRelease _ | .trapTake _ | .saveRequest _ _ _ | .preemptDeferExpiry _ _ _ | .contextSwitch _ _ _
  | .contextStreamOut _ _ _ | .contextResume _ _ _ | .pageWalk _ | .waitlTimeout _ | .spuriousWake _
  | .contextAdmission _ | .packetDispatch _ _ | .teamPlace _ _ | .cohortAdmit _ _ | .gangReserve _ _ | .gangStart _
  | .nodeComplete _ | .copyNodeRun _ | .doorbellWrite _ _ | .feCoreHalt _ _ | .feTakeover _ _ _ | .queueTableLost _
  | .dieFeHalt _ | .translationSwapFree _ | .translationRegister _ _ _ | .integratorUpdate _ _ | .rebalanceDecay _
  | .undervoltInterval _ | .uncorrectableError _ | .energyUpdate _ _ | .umpcfgWrite _ _ _ | .rebalWrite _ _
  | .uvcfgWrite _ _ | .qpartWrite _ _ | .registerWrite _ _ | .debugStop _ _ | .breakpointStop _ | .debugResume _
  | .dumpWrite _ | .trcctlWrite _ _ | .traceRecordWrite _ | .hostMemWrite _ _ | .hostMemRead _ _ | .flitReplay _ _
  | .linkRetrain _ | .linkDown _ | .podLinkLost _ | .attestationQuote _ | .bringUp _ | .correctableError _ _
  | .hostCxlCompletion _ _ | .retrainComplete _ | .contextDestroy _ | .dieReset _ => true
  | _ => false

/-- A step that selects a group or lets a cycle pass: no wait ends by it. -/
def Instr.onlyTime (i : Instr) : Bool :=
  match i with
  | .issueCycle _ | .starvationGuard _ | .umpireCycle _ _ => true
  | _ => false

end Sys2Proof

namespace Sys2Proof.Machine

/-- One more step has been taken; GTB advances, which every read on the package takes. DESIGN CHOICE (log entry 125): two readings never differ
by the skew that R21 allows. -/
def tickOver (s : State) : State :=
  { s with tick := s.tick + 1, gtb := s.gtb + BitVec.ofNat 64 (Config.gtbAdvance s.tick) }

/-- Apply a function to the next state of an outcome. -/
def Out.map (f : State → State) : Out → Out
  | .next s => .next (f s)
  | .fault r => .fault r
  | .refused r => .refused r

/-- The selected group goes back among the groups without having issued. -/
def putBack (s : State) : State := { s with focus := none, groups := s.groups ++ s.focus.toList, changes := s.changes + 1 }

/-- What a word in an instruction position does (R74, R77, R79). A kernel of magic 0xC2 has no major new in CK3. -/
def runWord (s : State) (g : Group) (w : W64) : Out :=
  if kMagic (s.kword g) == 0xC2 && newInCk3 (majorOf w) then raiseWord s w .rsvd g.iaddr 0 0
  else match decode w with
    | .instr i => exec i s
    | .ill => raiseWord s w .ill g.iaddr 0 0
    | .rsvd => raiseWord s w .rsvd g.iaddr 0 0
    | .tag => raiseWord s w .frame g.iaddr 0 0

/-- The selected group issues the word it stands at, unless a breakpoint or an undelivered fault is in the way. -/
def issueOne (s : State) (g : Group) : Out :=
  if g.trap.isSome || g.stopped then .next (putBack s)
  else match g.word? with
    | none => .next (putBack s)
    | some w =>
      match execHit s g with
      | some slot => Out.map putBack (execBreak s g w slot)
      | none => Out.map (settleFocus s g w (decode w).instr?) (runWord s g w)

/-- The step the machine takes when no group issues: the agenda's first, else the free schedule's. -/
def nextEvent (s : State) : Option Instr := (s.agenda ++ Config.schedule s.tick).head?

/-- One of the machine's own steps; a word of a kernel is none of them. -/
def eventOne (s : State) : Out :=
  match nextEvent s with
  | none => .next s
  | some i =>
    let s1 := { s with agenda := s.agenda.drop 1, changes := if i.onlyTime then s.changes else s.changes + 1 }
    if i.isEvent then exec i s1 else .next s1

/-- A word as the one instruction of a clause that a group stands in. -/
def oneWord (g : Group) (w : W64) : Group :=
  { g with clause := some ⟨7 * 2 ^ 61, [w]⟩, idx := 0, entered := true, trap := none, framed := false, stopped := false, sleep := .awake }

/-- A kernel header word that declares every register, pipes and held stores. -/
def wideKernel : W64 := BitVec.ofNat 64 (0xC3 * 2 ^ 56 + 3 * 2 ^ 52 + 63 * 2 ^ 44 + 63 * 2 ^ 38 + 3 * 2 ^ 14)

/-- A group of 32 threads as it starts (R394), numbered 0. -/
def bareGroup : Group :=
  { gid := 0, die := 0, core := 0, part := 0, slot := 0, half := none, ctx := 0, launch := 0, team := 0, grp := 0,
    role := .vector, tids := List.range 32, active := ones32, s := [], v := [], k := [], x := [], hdr := 0, idx := 0,
    clause := none, entered := false, voidm := 0, bkpass := 0, nbv := 3, trapbase := 0, trapvec := 0, sys := false,
    trap := none, framed := false, stopped := false, pass := false, sleep := .awake, iter := none, opened := none, gates := [], preds := [(0, [])],
    waitFor := none, inSet := true, age := 0, ready := none, nHold := none, stall := 0, fill := 0, fast := [], tried := none, holds := false, sld := none,
    late := [], lastCmd := none, lateWr := [], retired := false, started := true }

/-- The team of that group. -/
def bareTeam : Team :=
  { id := 0, launch := 0, ctx := 0, die := 0, core := 0, index := 0, res := 0, kaddr := 0, kword := wideKernel, secLo := 0,
    secHi := 2 ^ 52, spad := [], badSpad := [], spadLen := 0, bars := [], wide := false, roles := [.vector], trapbase := 0,
    ended := false }

end Sys2Proof.Machine
end

