-- ==== Sys2Proof/Machine/Step.lean ====
section
/-!
DEFINITION. The step of the machine, and the state whose next step runs a given word.
-/
namespace Sys2Proof.Machine

/-- One step: the selected group issues, or the machine takes a step of its own; time passes. -/
def step (s : State) : Host.Outcome State Fault Refusal :=
  Out.map tickOver (match s.focus with
    | some g => issueOne s g
    | none => eventOne s)

/-- `s` with the word `w` where the next step fetches: as the word the selected group stands at. With no group selected,
a group as a launch starts one is selected, with its team (log entry 1). -/
def State.withFetchWord (s : State) (_nbits w : Nat) : State :=
  match s.focus with
  | some g => { s with focus := some (oneWord g (BitVec.ofNat 64 w)) }
  | none => { s with focus := some (oneWord bareGroup (BitVec.ofNat 64 w)), teams := bareTeam :: s.teams }

end Sys2Proof.Machine
end

