-- ==== Sys2Proof/Safety.lean ====
section
/-!
DEFINITION. The terms in which claims are stated: when a group may issue an instruction, what a group keeps, where it goes
on, and what it is for a state to be well kept.
-/
namespace Sys2Proof.Machine

/-! ### A group that issues -/

/-- The group is the one selected to issue, and holds no fault. -/
abbrev Selected (s : State) (g : Group) : Prop := s.focus = some g ∧ g.trap = none ∧ g.stopped = false

/-- The selected group may issue the instruction: it meets none of the faults of decode (R74). -/
abbrev Ready (s : State) (g : Group) (i : Instr) : Prop := Selected s g ∧ preFault s g i = none

/-- The group stands at the instruction after `g`'s: the next of its clause, or, past the last, the word after the clause as a
clause position (R52). -/
def NextPos (g h : Group) : Prop :=
  if g.idx + 1 < g.count then h.hdr = g.hdr ∧ h.idx = g.idx + 1 ∧ h.clause = g.clause ∧ h.entered = g.entered
  else h.hdr = g.hdr + BitVec.ofNat 64 (8 * (g.count + 1)) ∧ h.idx = 0 ∧ h.clause = none ∧ h.entered = false

/-- The group stands at a clause position (R110). -/
def AtClause (h : Group) (pc : W64) : Prop := h.hdr = pc ∧ h.idx = 0 ∧ h.clause = none ∧ h.entered = false

/-- Everything of a group but its s, v and k registers, VOIDM and its position is as before: its special registers, its trap
registers and mode, its x registers, its threads, its slot. -/
def KeepsRest (g h : Group) : Prop :=
  h = { g with s := h.s, v := h.v, k := h.k, voidm := h.voidm, hdr := h.hdr, idx := h.idx, clause := h.clause,
               entered := h.entered, sleep := h.sleep }

/-- Nothing of the machine but the selected group has changed. -/
def OnlyGroup (s t : State) (h : Group) : Prop := t = { s with focus := some h }

/-- Nothing of the machine but the selected group and its partition (the windows of its pipes) has changed. -/
def OnlyGroupPart (s t : State) (h : Group) : Prop := t = { s with focus := some h, parts := t.parts }

/-- Every byte of memory, at the homes, in the die views, in host memory and in the scratchpads, is as before. -/
def SameMemory (s t : State) : Prop :=
  t.home = s.home ∧ t.host = s.host ∧ t.teams = s.teams ∧ ∀ d, t.view d = s.view d

/-- No byte of memory has changed, at the homes, in the die views, in host memory or in the scratchpads, but those of scratchpad
stores that one of the listed groups held. -/
def HeldWritten (s t : State) (gids : List Nat) : Prop :=
  t.home = s.home ∧ t.host = s.host ∧ (∀ d, t.view d = s.view d) ∧ t.teams.map (·.id) = s.teams.map (·.id) ∧
  ((s.teams.map (·.id)).Nodup → ∀ p ∈ s.teams.zip t.teams, ∀ x,
    (∀ a ∈ s.accs, a.stage = .held → (∃ g ∈ gids, a.gid = some g) → ∀ o, a.place = .spad p.1.id o → x ∉ a.addrs) →
      p.2.byte x = p.1.byte x)

/-- The accesses of the ordering machine have numbers of their own, each below the next that is given. -/
def Numbered (s : State) : Prop := (s.accs.map (·.id)).Nodup ∧ ∀ a ∈ s.accs, a.id < s.nextId

/-- Every memory of the machine is in its canonical form. -/
def Canonical (s : State) : Prop :=
  s.home.mem.wf = true ∧ s.host.mem.wf = true ∧ (∀ d, (s.view d).mem.wf = true) ∧ (∀ t ∈ s.teams, t.spad.wf = true) ∧
  ∀ c ∈ s.contexts, ∀ r ∈ c.saves, ∀ t ∈ r.teams, t.spad.wf = true

/-! ### Readable sources -/

/-- The sources of an instruction can be read, with the bits that VOIDM gains (R130). -/
abbrev Readable (s : State) (g : Group) (srcs : List Src) (vm : W32) : Prop := readSrcs s g false srcs = .ok vm

/-- The window slot that a window name of an iteration reads in a lane, where its iteration has the predecessor (R219, R221). -/
def WindowLane (s : State) (g : Group) (n : BitVec 6) (l : Nat) (w : WSlot) : Prop :=
  ∃ it q, g.iter = some it ∧ s.pipeOf g = some q ∧ n.toNat / q.stride ≤ it.k ∧ w = q.slotLane (winSlot q.stride n.toNat it.k) l

/-- An own window name that is EMPTY with no write pending (R221). -/
def SrcMisuse (s : State) (g : Group) (o : Opnd) (l : Nat) : Prop :=
  ∃ n w q, o = .y n ∧ WindowLane s g n l w ∧ s.pipeOf g = some q ∧ w.st = .empty ∧ n.toNat < q.stride ∧ w.owed = false

/-- A lane of a source is EMPTY: one of its v registers, or a window slot to be written yet (R129, R130, R221). -/
def SrcEmpty (s : State) (g : Group) (o : Opnd) (regs l : Nat) : Prop :=
  (∃ n : BitVec 8, o = .v n ∧ ∃ j, j < regs ∧ (g.laneV (n.toNat + j) l).empty = true) ∨
  ∃ n w q, o = .y n ∧ WindowLane s g n l w ∧ s.pipeOf g = some q ∧ w.st = .empty ∧ ¬(n.toNat < q.stride ∧ w.owed = false)

/-- A lane of a window name is VOID: its slot is, or its iteration has no such predecessor (R221). -/
def SrcVoid (s : State) (g : Group) (o : Opnd) (l : Nat) : Prop :=
  ∃ n, o = .y n ∧ ((∃ w, WindowLane s g n l w ∧ w.st = .void) ∨
    ∃ it q, g.iter = some it ∧ s.pipeOf g = some q ∧ it.k < n.toNat / q.stride)

/-- A lane of a source that is not EMPTY carries a poison: the first of its v registers that carries any, or a FULL window slot (R221,
R378). -/
def SrcBad (s : State) (g : Group) (b : Bad) (o : Opnd) (regs l : Nat) : Prop :=
  (∃ n : BitVec 8, o = .v n ∧ ∃ j, j < regs ∧ (g.laneV (n.toNat + j) l).bad = b ∧ ∀ i, i < j → (g.laneV (n.toNat + i) l).bad = .ok) ∨
  ∃ n w, o = .y n ∧ WindowLane s g n l w ∧ w.st = .full ∧ w.bad = b

/-- The group holds a fault of the instruction; nothing else of the machine has changed (R375, R377). -/
def RaisesAt (s : State) (g : Group) (i : Instr) (c : FaultCode) (a : Nat) (lanes : W32) : Prop :=
  exec i s = .next { s with focus := some { g with
    trap := some ⟨c, BitVec.ofNat 64 a, lanes, encode i, 0, g.idx, g.hdr⟩, sleep := .awake } }

/-- A fault of the listed lanes of an operand: those of `ls` that meet the condition. -/
def FaultsIn (s : State) (g : Group) (i : Instr) (c : FaultCode) (o : Opnd) (ls : List Nat) (p : Nat → Prop) : Prop :=
  ∃ m, RaisesAt s g i c o.code m ∧ ∀ l, l < 32 → (m.getLsbD l = true ↔ l ∈ ls ∧ p l)

/-- A global access of every listed lane can go ahead: aligned, translated by the core's TLB, permitted, on no watch (R165, R173,
R174, R179). -/
def Reaches (s : State) (g : Group) (need : Need) (w : Nat) (ls : List (Nat × Nat)) : Prop :=
  (∀ wr, watchFind s g wr w ls = none) ∧
  ∀ x ∈ ls, x.2 % w = 0 ∧ x.2 < 2 ^ 52 ∧
    ∃ e, tlbFind (s.core g.die g.core).tlb g.ctx x.2 = some e ∧ refused e.leaf g.sys need = false

/-- The translated accesses of lanes whose addresses the core's TLB holds. -/
def hitXls (s : State) (g : Group) (ls : List (Nat × Nat)) : List Xl :=
  ls.filterMap fun x => (tlbFind (s.core g.die g.core).tlb g.ctx x.2).map fun e => xlOf x.1 x.2 e

/-- The physical address that the core's TLB gives a virtual address of the group. -/
def paOf (s : State) (g : Group) (va : Nat) : Nat :=
  match tlbFind (s.core g.die g.core).tlb g.ctx va with
  | some e => fldN e.leaf 16 36 * 65536 + (va - e.va)
  | none => 0

/-- A lane's physical address has its virtual address's place in the line, as aligned pages make it. -/
def LinesFollow (s : State) (g : Group) (ls : List (Nat × Nat)) : Prop := ∀ x ∈ ls, paOf s g x.2 % 128 = x.2 % 128

/-- A scratchpad access of every listed lane can go ahead: aligned, inside the allocation, and, for a write, on no armed barrier
object (R164, R183). -/
def ReachesSpad (t : Team) (w : Nat) (writes : Bool) (ls : List (Nat × Nat)) : Prop :=
  ∀ x ∈ ls, x.2 % w = 0 ∧ x.2 + w ≤ t.spadLen ∧ (writes = true → touchesArmed t x.2 w = false)

/-! ### What an instruction writes -/

/-- `h` is `g` past an instruction that changed no more of the group than s, v and k registers, and that gave VOIDM the bits
`vm`. -/
def Moved (g h : Group) (vm : W32) : Prop :=
  NextPos g h ∧ h.sleep = .awake ∧ h.voidm = g.voidm ||| vm ∧ KeepsRest g h

/-- Of the s registers, only the one the operand names has changed, to `x`; s0 never has (R72, R102). -/
def SWritten (g h : Group) (o : Opnd) (x : W64) : Prop :=
  ∀ n : BitVec 6, h.rdS n.toNat = if o = .s n ∧ n ≠ 0 then x else g.rdS n.toNat

/-- Of the mask registers, only the one the operand names has changed, to `x` in the group's own lanes; k0 never has (R72,
R125, R206). -/
def KWritten (g h : Group) (o : Opnd) (x : W32) : Prop :=
  ∀ n : BitVec 4, h.rdK n.toNat = if o = .k n ∧ n ≠ 0 then x &&& g.wmask else g.rdK n.toNat

/-- Of the v registers, only the listed lanes of `d`, and of the register above where the value is 64 bits wide, have changed:
they are FULL with the values `x` (R124, R129, R132). -/
def VWritten (g h : Group) (d : Nat) (w64 : Bool) (lanes : List Nat) (x : Nat → Nat) : Prop :=
  ∀ n lane, lane < 32 → h.laneV n lane =
    if lane ∈ lanes ∧ n = d then ⟨BitVec.ofNat 32 (x lane), false, .ok⟩
    else if lane ∈ lanes ∧ w64 = true ∧ n = d + 1 then ⟨BitVec.ofNat 32 (x lane / 2 ^ 32), false, .ok⟩
    else g.laneV n lane

/-- Of the partitions, nothing but the window of one pipe of the group's own has changed. -/
def OnlyWindow (s t : State) (g : Group) (n : Nat) : Prop :=
  (∀ k, k ≠ partKey g.die g.core g.part → SMap.get Partn.reset t.parts k = SMap.get Partn.reset s.parts k) ∧
  t.partOf g = { s.partOf g with pipes := (t.partOf g).pipes } ∧
  ∀ m, m ≠ n → (t.partOf g).pipe? m = (s.partOf g).pipe? m

/-- Of the group's window, only the listed lanes of its own slot `d` have changed, each to what `new` gives (R218, R220). -/
def SlotWritten (s t : State) (g : Group) (d : Nat) (lanes : List Nat) (new : Nat → WSlot → WSlot) : Prop :=
  ∃ it q q', g.iter = some it ∧ s.pipeOf g = some q ∧ t.pipeOf g = some q' ∧ q' = { q with window := q'.window } ∧
    (∀ slot lane, lane < 32 → q'.slotLane slot lane =
      if slot = winSlot q.stride d it.k ∧ lane ∈ lanes then new lane (q.slotLane slot lane) else q.slotLane slot lane) ∧
    OnlyWindow s t g it.pipe

/-- The instruction completes: it writes one s register, or none where the operand names none, and changes nothing else. -/
def SDone (i : Instr) (s : State) (g : Group) (o : Opnd) (x : W64) (vm : W32) : Prop :=
  ∃ h, exec i s = .next { s with focus := some h } ∧ Moved g h vm ∧ SWritten g h o x ∧ h.v = g.v ∧ h.k = g.k

/-- The instruction completes: it writes one mask register and changes nothing else. -/
def KDone (i : Instr) (s : State) (g : Group) (o : Opnd) (x : W32) (vm : W32) : Prop :=
  ∃ h, exec i s = .next { s with focus := some h } ∧ Moved g h vm ∧ KWritten g h o x ∧ h.v = g.v ∧ h.s = g.s

/-- The instruction completes with no change but the group's position. -/
def Idle (i : Instr) (s : State) (g : Group) : Prop :=
  ∃ h, exec i s = .next { s with focus := some h } ∧ Moved g h 0 ∧ h.v = g.v ∧ h.k = g.k ∧ h.s = g.s

/-- The instruction completes: the listed lanes of its v or y destination are FULL with `x`, and nothing else has changed. -/
def LaneDone (i : Instr) (s : State) (g : Group) (o : Opnd) (w64 : Bool) (lanes : List Nat) (x : Nat → Nat) (vm : W32) : Prop :=
  ∃ h t, exec i s = .next t ∧ Moved g h vm ∧ h.s = g.s ∧ h.k = g.k ∧
    match o with
    | .v d => OnlyGroup s t h ∧ VWritten g h d.toNat w64 lanes x
    | .y d => OnlyGroupPart s t h ∧ h.v = g.v ∧
        SlotWritten s t g d.toNat lanes fun l _ => ⟨BitVec.ofNat 32 (x l), .full, false, .ok⟩
    | _ => False

/-- The group may issue the instruction, its per-lane sources are readable, and its destination lanes are owed nothing. -/
abbrev LaneReady (i : Instr) (f : VR) (s : State) (g : Group) (vm : W32) : Prop :=
  Ready s g i ∧ ∃ sg, i.vsig = some (sg, f) ∧ Readable s g (vrSrcs sg f (g.act f.p)) vm ∧
    dstBusy s g f.dst (if sg.dst.is64 f.ty then 2 else 1) (lanesOf (g.act f.p)) = false

/-! ### Values of results, on bit vectors -/

/-- A bit vector read as a signed or an unsigned number. -/
def asInt (sgn : Bool) {w : Nat} (a : BitVec w) : Int := if sgn then a.toInt else a.toNat

/-- An integer condition on bit vectors (R67): signed or unsigned order. -/
def cmpBits (c : Cond) (sgn : Bool) {w : Nat} (a b : BitVec w) : Bool :=
  let lt := fun (x y : BitVec w) => if sgn then x.slt y else x.ult y
  match c with
  | .eq => a == b
  | .ne => a != b
  | .lt => lt a b
  | .le => !lt b a
  | .gt => lt b a
  | .ge => !lt a b
  | .un => false
  | .ord => true

/-- A number clamped to the range of `w` bits (R136). -/
def satBits (sgn : Bool) (w : Nat) (x : Int) : BitVec w :=
  let lo : Int := if sgn then -(2 ^ (w - 1)) else 0
  let hi : Int := if sgn then 2 ^ (w - 1) - 1 else 2 ^ w - 1
  BitVec.ofInt w (max lo (min hi x))

/-- The operands of a per-lane instruction at its type's width, and its result as a number. -/
def byWidth (s : State) (g : Group) (f : VR) (val : (w : Nat) → BitVec w → BitVec w → BitVec w → BitVec w) (l : Nat) : Nat :=
  if f.ty.is64 then (val 64 (s.rd64 g .f32 f.a l) (s.rd64 g .f32 f.b l) (s.rd64 g .f32 f.c l)).toNat
  else (val 32 (s.rd32 g .f32 f.a l) (s.rd32 g .f32 f.b l) (s.rd32 g .f32 f.c l)).toNat

/-- BFX (R140): `len` bits from `pos`, cut at bit 31, sign- or zero-extended; 0 for a length of 0 or above 32. -/
def bfxBits (sgn : Bool) (a : W32) (pos len : Nat) : W32 :=
  if len = 0 ∨ 32 < len then 0
  else if sgn then (a.extractLsb' pos (min len (32 - pos))).signExtend 32 else (a.extractLsb' pos (min len (32 - pos))).setWidth 32

/-- BFI (R140): the low bits of `a` put over `len` bits of `b` from `pos`, at most 32 and cut at bit 31. -/
def bfiBits (a b : W32) (pos len : Nat) : W32 :=
  let m : W32 := ((BitVec.allOnes (min (min len 32) (32 - pos))).setWidth 32) <<< pos
  (a <<< pos &&& m) ||| (b &&& ~~~ m)

/-- One byte of BYTEP (R140): byte `q` of the pool, or its sign bit eight times where `q` has bit 3 set. -/
def bytepByte (pool : W64) (q : BitVec 4) : BitVec 8 :=
  let byt := pool.extractLsb' (8 * (q.setWidth 3).toNat) 8
  if q.msb then (if byt.msb then 0xFF else 0) else byt

def bytepBits (pool : W64) (b : W32) : W32 :=
  bytepByte pool (b.extractLsb' 12 4) ++ bytepByte pool (b.extractLsb' 8 4) ++ bytepByte pool (b.extractLsb' 4 4)
    ++ bytepByte pool (b.extractLsb' 0 4)

/-- A 32-bit operand extended to 64 bits under the type (R135). -/
def ext64 (sgn : Bool) (a : W32) : W64 := if sgn then a.signExtend 64 else a.setWidth 64

/-- Ranges of the integer types (R65). -/
def tyMin : Ty → Int
  | .s8 => -128 | .s16 => -32768 | .s32 => -2147483648 | .s64 => -9223372036854775808 | _ => 0

def tyMax : Ty → Int
  | .s8 => 127 | .n8 => 255 | .s16 => 32767 | .n16 => 65535 | .s32 => 2147483647 | .n32 => 4294967295
  | .s64 => 9223372036854775807 | _ => 18446744073709551615

/-! ### Floating codes and phasors -/

/-- An FP32 code is a NaN (R144). -/
def codeNan (n : Nat) : Bool := n / 2 ^ 23 % 256 == 255 && n % 2 ^ 23 != 0

/-- An FP32 code as an operand: at NBV 2 and 1 a subnormal is a zero of its sign (R150). -/
def codeIn (nbv n : Nat) : Nat := if nbv ≤ 2 ∧ n / 2 ^ 23 % 256 = 0 then n / 2 ^ 31 % 2 * 2 ^ 31 else n

/-- Order of the FP32 codes that are no NaN, −0 below +0 (R154). -/
def codeKey (n : Nat) : Int := if n / 2 ^ 31 % 2 = 1 then -((n % 2 ^ 31 : Nat) : Int) - 1 else (n % 2 ^ 31 : Nat)

/-- The same order with the two zeros equal (R155). -/
def codeVal (n : Nat) : Int := if n / 2 ^ 31 % 2 = 1 then -((n % 2 ^ 31 : Nat) : Int) else (n % 2 ^ 31 : Nat)

/-- The NaN an FP32 operation returns: the first NaN of its operands, made quiet; at NBV 1 the canonical one (R145, R148). -/
def nanOf (nbv : Nat) (ops : List Nat) : Nat :=
  if nbv = 1 then 0x7FC00000 else ((ops.find? codeNan).getD 0) ||| 0x400000

/-- A floating condition (R155). -/
def cmpCodes (c : Cond) (a b : Nat) : Bool :=
  if codeNan a || codeNan b then c == .ne || c == .un
  else match c with
    | .eq => decide (codeVal a = codeVal b)
    | .ne => decide (codeVal a ≠ codeVal b)
    | .lt => decide (codeVal a < codeVal b)
    | .le => decide (codeVal a ≤ codeVal b)
    | .gt => decide (codeVal b < codeVal a)
    | .ge => decide (codeVal b ≤ codeVal a)
    | .un => false
    | .ord => true

/-- m × 2^e ≤ n × 2^d. -/
def valLe (m : Nat) (e : Int) (n : Nat) (d : Int) : Prop := m * 2 ^ (e - min e d).toNat ≤ n * 2 ^ (d - min e d).toNat

/-- Angle arithmetic modulo a turn on 15 or 7 bits, the canonical undefined code where a phasor operand is undefined (R340, R342,
R348). -/
def phLane (t : Ty) (und : Bool) (val : (m : Nat) → BitVec m) : Nat :=
  if t == .ph8 then (if und then 0xFF else (val 7).toNat) else (if und then 0xFFFF else (val 15).toNat)

/-- A phasor operand is undefined (R340, R342). -/
def phUnd (t : Ty) (a : W32) : Bool := if t == .ph8 then a.getLsbD 7 else a.getLsbD 15

/-- The class of the difference of two angles of `m` bits against a condition (R349). -/
def phClass (c : PhCond) {m : Nat} (d : BitVec m) : Bool :=
  match c with
  | .eq => d.toNat == 0
  | .ne => d.toNat != 0
  | .ahead => decide (0 < d.toNat) && decide (d.toNat < 2 ^ (m - 1))
  | .behind => decide (2 ^ (m - 1) < d.toNat)
  | .opp => d.toNat == 2 ^ (m - 1)
  | .un => false
  | .ord => true

/-- A group that a taken transfer has put at a clause position, its clause entry held back by 3 cycles (R110). -/
def Jumped (s : State) (g h : Group) (pc : W64) : Prop :=
  AtClause h pc ∧ h.sleep = .awake ∧ h.stall = s.clk g.die g.core + 4 ∧
  h = { g with hdr := h.hdr, idx := h.idx, clause := h.clause, entered := h.entered, sleep := h.sleep, stall := h.stall }

/-! ### Accesses put in flight -/

/-- The accesses of one instruction as they join the list: inOrder from the state's next number, with one position (R84). -/
def inOrder (n : Nat) (l : List Acc) : List Acc := l.zipIdx.map fun x => { x.1 with id := n + x.2, seq := n }

/-- The listed lanes of a destination, `regs` v registers or one window slot, are EMPTY and owed to a long-latency producer
(R129, R180, R220); the rest of the group's registers and windows is as before. -/
def LanesOwed (s t : State) (g h : Group) (o : Opnd) (regs : Nat) (lanes : List Nat) : Prop :=
  match o with
  | .v d => t.parts = s.parts ∧ ∀ n l, l < 32 → h.laneV n l =
      if l ∈ lanes ∧ d.toNat ≤ n ∧ n < d.toNat + regs then { g.laneV n l with empty := true } else g.laneV n l
  | .y d => h.v = g.v ∧ SlotWritten s t g d.toNat lanes fun _ old => { old with st := .empty, owed := true }
  | _ => t.parts = s.parts ∧ h.v = g.v

/-- The other groups are as before, but that sleepers on a line may have woken (R190). -/
def Woken (s t : State) : Prop :=
  t.groups.length = s.groups.length ∧ ∀ p ∈ s.groups.zip t.groups,
    p.2 = p.1 ∨ (p.2 = { p.1 with sleep := .rewoken } ∧ ∃ l n, p.1.sleep = .waitl (some l) n)

/-- `b` is `s` once L1 has taken line requests: caches may have changed, sleepers on lines that L1 gave up have woken, and what HBM moved
for the lines is counted; nothing else has changed: no byte of memory (R185, R190, R426). -/
def Requested (s b : State) : Prop :=
  b = { s with cores := b.cores, dies := b.dies, groups := b.groups, moved := b.moved } ∧ SameMemory s b ∧ Woken s b

/-- The instruction completes with accesses put in flight on the state `b`: `g'` is the group but for its position and registers,
`lanes` of the destination are owed, the new accesses end the list, and nothing else of `b` has changed: no byte of memory. -/
def InFlightOn (b : State) (i : Instr) (s : State) (g g' : Group) (o : Opnd) (regs : Nat) (lanes : List Nat) (accs : List Acc)
    (vm : W32) : Prop :=
  ∃ h t, exec i s = .next t ∧ Moved g' h vm ∧ h.s = g.s ∧ h.k = g.k ∧ LanesOwed s t g h o regs lanes ∧
    t = { b with focus := some h, parts := t.parts, accs := s.accs ++ inOrder s.nextId accs, nextId := s.nextId + accs.length }

/-- The same on the state as it is: nothing else of the machine has changed. -/
abbrev InFlight (i : Instr) (s : State) (g g' : Group) (o : Opnd) (regs : Nat) (lanes : List Nat) (accs : List Acc) (vm : W32) : Prop :=
  InFlightOn s i s g g' o regs lanes accs vm

/-- The data a store's lanes put at a virtual address or offset: the highest lane that covers it names it (R182). -/
def storedByte (ls : List (Nat × List (Byte × Bad))) (a : Nat) : Option (Byte × Bad) :=
  (ls.filterMap fun x => if x.1 ≤ a then x.2[a - x.1]? else none).getLast?

/-- The bytes of a list of writes at a physical address. -/
def accPaByte (accs : List Acc) (pa : Nat) : Option (Byte × Bad) :=
  ((accs.map fun x => x.bytes.map fun b => (x.pa + b.off, b.val, b.bad)).flatten.find? fun y => y.1 == pa).map (·.2)

/-- The bytes of a list of stores at a virtual address or offset. -/
def accByte (accs : List Acc) (a : Nat) : Option (Byte × Bad) :=
  ((accs.map fun x => x.bytes.map fun b => (x.va + b.off, b.val, b.bad)).flatten.find? fun y => y.1 == a).map (·.2)

/-- The port of the team's barrier unit may act on the object at once for the group: aligned, inside the allocation, no earlier
access of the group in the way (R240). -/
def ObjReady (s : State) (g : Group) (f : FQ) (t : Team) (o : Nat) (rel : Bool) : Prop :=
  s.team? g.team = some t ∧ o = (g.rdS f.base.toNat).toNat % 2 ^ 32 + 16 * f.obj.toNat ∧ o % 16 = 0 ∧ o + 16 ≤ t.spadLen ∧
  let a := { gAcc g 0 (.rmw ⟨.add, .n32, 0, 0⟩) (.spad g.team o) o 16 false rel f.scope with id := s.nextId, seq := s.nextId }
  blocked s.accs a = false ∧ released s.accs a = true

/-- The instruction completes: the object of the team holds `b`, its block is registered, every other byte of the scratchpad is as
before, one s register may be written, the other groups are `gs`, and nothing else has changed. -/
def ObjLeft (i : Instr) (s : State) (g : Group) (t : Team) (o : Nat) (b : BObj) (dst : Opnd) (x : W64) (gs : List Group) : Prop :=
  ∃ h u, exec i s = .next { s.setTeam u with focus := some h, groups := gs } ∧ Moved g h 0 ∧ SWritten g h dst x ∧ h.v = g.v ∧ h.k = g.k ∧
    u = { t with spad := u.spad, badSpad := u.badSpad, bars := u.bars } ∧ readObj u o = b ∧ o ∈ u.bars ∧
    ∀ a, (a < o ∨ o + 16 ≤ a) → u.byte a = t.byte a

/-- The same, every other group as before. -/
def ObjDone (i : Instr) (s : State) (g : Group) (t : Team) (o : Nat) (b : BObj) (dst : Opnd) (x : W64) : Prop :=
  ObjLeft i s g t o b dst x s.groups

/-- The groups of the machine once each waiter of an object holds BARRUN to deliver at its BARWAIT (R244). -/
def waitersFaulted (s : State) (team o : Nat) : List Group :=
  s.groups.map fun x => if waitsOn s team o x then
    { x with trap := some ⟨.barrun, BitVec.ofNat 64 o, 0, x.word?.getD 0, 0, x.idx, x.hdr⟩, sleep := .awake, pass := false } else x

/-! ### Queues, arrays, copies -/

/-- The group's instruction reaches the control block of a queue, at physical address `pa`: its predicate holds, the block is
aligned, translated, readable and writable, and lies in memory of a package within reach (R260, R440). -/
def QueueAt (s : State) (g : Group) (f : FQ) (pa : Nat) : Prop :=
  g.act f.p ≠ 0 ∧ Reaches s g .both 64 [(0, (g.rdS f.base.toNat).toNat)] ∧ pa = paOf s g (g.rdS f.base.toNat).toNat ∧
  paHost pa = false ∧ paLost s pa = false

/-- The queue there is open, sound and within the group's scope, and the group comes from no sleep on a queue (R256, R257). -/
def QueueOpen (s : State) (g : Group) (f : FQ) (pa : Nat) (q : Qcb) : Prop :=
  QueueAt s g f pa ∧ q = readQcb s pa ∧ q.ok s pa = true ∧ q.st = 0 ∧ mayUse g pa q.scope = true ∧ g.sleep = .awake ∧
  uncommitted s g = false

/-- The 64 B pieces of the slot of a sequence number. -/
def slotLines (q : Qcb) (n : Nat) : List (Nat × Nat) :=
  (List.range (max 1 (q.e / 64))).map fun j => (0, ((q.base + q.e * (n % q.cap)) % 2 ^ 64 + 64 * j) % 2 ^ 64)

/-- The block at `pa` has these counts and this state, the constants of `q`, and a check word that is right (R253, R254). -/
def QueueNow (t : State) (pa : Nat) (q : Qcb) (head tail free pd pe st : Nat) : Prop :=
  let r := readQcb t pa
  r.head = head ∧ r.tail = tail ∧ r.free = free ∧ r.pd = pd ∧ r.pe = pe ∧ r.st = st ∧
  r.esz = q.esz ∧ r.logc = q.logc ∧ r.base = q.base ∧ r.scope = q.scope ∧ r.f 7 0 64 = r.sum

/-- Of the state, the group and what the core holds for its context's frame may have changed, nothing else. -/
def OnlyFrame (s t : State) (g h : Group) : Prop :=
  t = { s with focus := some h, cores := t.cores } ∧
  (∀ k, k ≠ g.die * 48 + g.core → SMap.get Core.reset t.cores k = SMap.get Core.reset s.cores k) ∧
  t.core g.die g.core = { s.core g.die g.core with frames := (t.core g.die g.core).frames } ∧
  ∀ c, c ≠ g.ctx → t.frame g.die g.core c = s.frame g.die g.core c

/-- The instruction completes by putting operations into the queues of the arrays; memory, tiles and slots are as before. -/
def MatrixQueued (i : Instr) (s : State) (g : Group) (vm : W32) (ops : List MxOp) : Prop :=
  ∃ h t, exec i s = .next t ∧ Moved g h vm ∧ h.s = g.s ∧ h.v = g.v ∧ h.k = g.k ∧
    t = { s with focus := some h, quads := t.quads, mxops := s.mxops ++ ops, nextId := s.nextId + ops.length } ∧
    (∀ k, k ≠ g.die * 12 + g.core / 4 → SMap.get Quad.reset t.quads k = SMap.get Quad.reset s.quads k) ∧
    t.quad g.die (g.core / 4) =
      { s.quad g.die (g.core / 4) with reqs := (t.quad g.die (g.core / 4)).reqs } ∧
    ∀ m ∈ ops, m.gid = g.gid ∧ m.ctx = g.ctx ∧ m.die = g.die ∧ m.core = g.core ∧ m.team = g.team ∧ m.nbv = g.nbv ∧
      m.first = s.nextId ∧ m.running = false ∧ m.dense = false ∧ m.units = [] ∧
      ∃ r ∈ (t.quad g.die (g.core / 4)).reqs, r.owner = m.id ∧ r.ctx = g.ctx ∧ r.since = s.clk g.die g.core

/-- The instruction completes by adding a copy command, whose barrier object's block is registered; no memory has changed
(R239, R314). -/
def CopyQueued (i : Instr) (s : State) (g : Group) (f : FP) (t : Team) (vm : W32) (c : Cmd) : Prop :=
  ∃ h u, exec i s = .next u ∧ u.focus = some h ∧ Moved { g with lastCmd := some c.id } h vm ∧ h.s = g.s ∧ h.v = g.v ∧ h.k = g.k ∧
    u.cmds = s.cmds ++ [c] ∧ c.after = (if f.seq then g.lastCmd else none) ∧
    c.id = s.nextId ∧ c.gid = g.gid ∧ c.team = g.team ∧ c.acq = f.acq ∧ c.rel = f.rel ∧ c.cmp = f.cmp ∧ c.scope = f.scope ∧
    c.bar = f.bar.toNat ∧ (∀ k ∈ c.chunks, k.read = false ∧ k.landed = false ∧ k.counted = false) ∧
    u.nextId = s.nextId + 1 ∧ u.accs = s.accs ∧ u.groups = s.groups ∧ u.home = s.home ∧ u.host = s.host ∧
    (∀ d, u.view d = s.view d) ∧ u.teams = (s.setTeam (register t (copyObj f))).teams

/-- The bytes of a group's frame as a read of the group takes them (R367, R377). -/
def frameRead (s : State) (g : Group) : List (Byte × Bad) :=
  ((frameLines (frameVa g) (hitXls s g [(0, frameVa g), (0, frameVa g + frameLen - 128)])).map fun p =>
    accRead s { gAcc g 0xBC .load (.glob p.2) p.1 128 false false .core with id := s.nextId, seq := s.nextId }).flatten

/-! ### Steps of the ordering machine -/

/-- The byte a write puts at a location, if any. -/
def Acc.newByte (a : Acc) (x : Nat) : Option (Byte × Bad) := (a.writes.reverse.find? fun w => w.1 == x).map (·.2)

/-- A view or a home holds the write's bytes over those of another. -/
def Overlaid (new old : View) (a : Acc) : Prop := ∀ x, new.byte x = (a.newByte x).getD (old.byte x)

/-- No core of a die holds a copy of a line that the access touches. -/
def NoCopies (t : State) (die : Nat) (a : Acc) : Prop :=
  ∀ x ∈ a.addrs, ∀ c, c < 48 → (t.core die c).line? (x / 128) = none

/-! ### Traps, saves, the front end -/

/-- A group that holds a fault may have it taken: nothing has stopped it, its context runs on its core, its partition is not
frozen (R377, R427). -/
def Trapped (s : State) (gid : Nat) (g : Group) (t : FaultRec) : Prop :=
  s.group? gid = some g ∧ g.trap = some t ∧ g.stopped = false ∧ (s.partOf g).stop = false ∧
  (s.core g.die g.core).running = some g.ctx ∧ ((s.ctx? g.ctx).bind (·.stopped)) = none

/-- The trap is not delivered: the group has stopped with its other state as it stands, and its context with the fault's code;
a context whose event queue lies at no address keeps the kind 2 element it is to be sent (R364, R403). -/
def DoubleFaulted (s t : State) (gid : Nat) (g : Group) (f : FaultRec) : Prop :=
  (∃ h, t.group? gid = some h ∧ h = { g with stopped := true, sleep := h.sleep }) ∧
  ∀ c, s.ctx? g.ctx = some c → ∃ d, t.ctx? g.ctx = some d ∧ d.stopped = some f.code.num ∧
    (2 ^ 52 ≤ c.evq.toNat → d = { c with stopped := d.stopped, posts := d.posts } ∧ d.posts = c.posts ++
      [leBytes 1 2 ++ leBytes 1 f.code.num ++ leBytes 6 0 ++ leBytes 8 f.addr.toNat ++ leBytes 8 s.gtb.toNat
        ++ leBytes 8 (Config.eventOpen s.tick 2)])

/-- The number that a list of stores puts at n bytes from a virtual address, least significant byte first. -/
def accField (accs : List Acc) (a n : Nat) : Nat := leNat ((List.range n).map fun i => ((accByte accs (a + i)).map (·.1)).getD 0)

/-- The TLB of the group's core holds the page of an address, which permits the access. -/
def Paged (s : State) (g : Group) (need : Need) (va : Nat) : Prop :=
  va < 2 ^ 52 ∧ ∃ e, tlbFind (s.core g.die g.core).tlb g.ctx va = some e ∧ refused e.leaf g.sys need = false

/-- The bytes at a run of physical addresses, as their home holds them. -/
def homeBytes (s : State) (pa n : Nat) : List (Byte × Bad) := (List.range n).map fun i => s.home.byte (pa + i)

/-- The launch is in the hands of a running front end: its node is not on its context's ready list, its context exists and has
not stopped. -/
def InHand (s : State) (id : Nat) (l : Launch) (c : Context) : Prop :=
  s.launch? id = some l ∧ s.ctx? l.ctx = some c ∧ c.stopped = none ∧ isReady s l = false

/-- The groups of `t` that `s` does not hold are as a launch starts them (R394). -/
def Started (s t : State) (l : Launch) (tm : Team) (arg : Nat) (go : Bool) : Prop :=
  ∀ g ∈ t.groups, (∀ h ∈ s.groups, h.gid ≠ g.gid) →
    g.team = tm.id ∧ g.ctx = l.ctx ∧ g.die = tm.die ∧ g.core = tm.core ∧ g.hdr = tm.kaddr + BitVec.ofNat 64 (8 * kEntry tm.kword) ∧
    g.idx = 0 ∧ g.clause = none ∧ g.entered = false ∧ g.sys = false ∧ g.voidm = 0 ∧ g.nbv = pkNbv l.packet ∧ g.trap = none ∧
    g.started = go ∧ g.rdS 1 = BitVec.ofNat 64 arg ∧ (∀ n, n ≠ 1 → g.rdS n = 0) ∧ (∀ n l, g.laneV n l = Lane.zero) ∧
    ∀ n, 0 < n → g.rdK n = 0

/-! ### Runs and their progress (R19) -/

/-- A run of the machine: each state is the next of the one before. -/
def IsRun (r : Nat → State) : Prop := ∀ n, step (r n) = .next (r (n + 1))

/-- A save of a context from a core is asked for or under way. -/
def leaving (s : State) (ctx die core : Nat) : Bool :=
  match (s.ctx? ctx).bind fun c => c.rec? die core with
  | some r => r.st != .resident && r.st != .saved
  | none => false

/-- The machine's own steps that bring groups and contexts on: clause entry, issue, the active set, glades, walks, memory and engines,
write-backs, barriers, queues, pipes, traps, saves under way, resumes, placement. -/
def advancing (s : State) (i : Instr) : Bool :=
  match i with
  | .clauseEntry _ _ | .issueCycle _ | .starvationGuard _ | .noSwapExpiry _ | .groupSwap _ _ | .vacancyFill _ | .gladeAgeExpiry _
  | .drawnGroupPlace _ | .umpireCycle _ _ | .pageWalk _ | .enterCb _ | .publishToDie _ | .sendToHome _ | .serialize _ | .discardReport _
  | .propagate _ | .apply _ _ | .readFromView _ _ | .drainApply _ | .loadWriteback _ | .gateWriteback _ _ | .engineStart _
  | .engineLand _ _ | .chunkCount _ _ | .completionRecordWrite _ | .firmwareHandover _ | .firmwareCopyFinish _ | .copyLost _
  | .volleyRelease _ _ | .queueRetry _ | .enqElementMove _ | .deqElementRead _ | .iterationStart _ _ | .cancelledRetire _
  | .matrixPass _ _ | .matrixPassComplete _ | .outlierApply _ _ | .tileArrayCycle _ _ | .mxldzDataArrive _ _ | .teamEndRelease _
  | .trapTake _ | .waitlTimeout _ | .preemptDeferExpiry _ _ _ | .contextSwitch _ _ _ | .contextResume _ _ _ | .packetDispatch _ _
  | .teamPlace _ _ | .cohortAdmit _ _ | .gangReserve _ _ | .gangStart _ | .nodeComplete _ | .copyNodeRun _ => true
  | .contextStreamOut ctx die core => leaving s ctx die core
  | _ => false

/-- A context has a place on a core, in a frame or in the save area, and does not run there. -/
def Kept (s : State) (ctx die core : Nat) : Prop :=
  (((s.ctx? ctx).bind fun c => c.rec? die core)).isSome ∧ (s.core die core).running ≠ some ctx

/-- A step is taken at a time, and no instruction is under way there. -/
def Takes (s : State) (i : Instr) : Prop := s.focus = none ∧ nextEvent s = some i ∧ exec i s ≠ .next s

/-- The runs of the M9 among those of the model, whose schedule is free. A step that brings a group or a context on, and is possible again
and again while no instruction is under way, is taken in the end: the partitions issue beside each other. A clock cycle of a quad passes
only once no partition of it has an instruction left to issue in that cycle (R118). GTB goes on, by less than half
its range in a step, so that what waits for a time does not wait for ever. While a context is kept from running on a core, the front end
asks in the end for the save of the one that runs there. DEDUCED (log entry 96): the form in which R19's promises hold of a run. -/
def Fair (r : Nat → State) : Prop :=
  IsRun r ∧
  (∀ i n, (∀ k, n ≤ k → ∃ m, k ≤ m ∧ (r m).focus = none ∧ advancing (r m) i = true ∧ exec i (r m) ≠ .next (r m)) →
    ∃ m, n ≤ m ∧ Takes (r m) i) ∧
  (∀ m die quad, Takes (r m) (.umpireCycle die quad) →
    ∀ p : PartId, p.die = die → p.core / 4 = quad → exec (.issueCycle p) (r m) = .next (r m)) ∧
  (∀ n, ∃ m, n ≤ m ∧ (r m).gtb ≠ (r (m + 1)).gtb) ∧ (∀ n, Config.gtbAdvance (r n).tick < 2 ^ 63) ∧
  ∀ ctx die core n, (∀ m, n ≤ m → Kept (r m) ctx die core) →
    ∃ m a, n ≤ m ∧ ((r m).core die core).running = some a ∧ Takes (r m) (.saveRequest a die core)

/-- A group has issued, or left its core: what R19 promises of every resident group that may issue. -/
def Issues (r : Nat → State) (gid n : Nat) : Prop :=
  ∃ m, n ≤ m ∧ (((r m).focus.map (·.gid)) = some gid ∨ (r m).anyGroup? gid = none)

end Sys2Proof.Machine
end

