-- ==== Sys2Proof/Certificates/Slice0/Obligations.lean ====
section
/-!
DEFINITION. The statements for the provers. Each is about the machine, for every state and every operand that meets its
hypotheses; values are written as operations on bit vectors, independently of how the meanings compute them.
-/

open Sys2Proof Sys2Proof.Machine

/-! ### Encoding and the step -/

/-- Worked encodings of the spec's chapters, of every format: each word decodes to the instruction beside it. -/
def Obligations.WordsDecode : Prop :=
  ∀ p ∈ ([
    -- (k1) FMUL.f32.rne v3, v2, #2.0
    (0x30100C05A3000840#64, .fmul ⟨⟨1, false⟩, .v 3, .v 2, .cst 19, .v 0, false, false, false, .f32, .rne⟩),
    -- CPY.in.b4 [s0 + v1*4 + #SPOFF], [s2 + v1*4], fill
    (0xA0000004000D0010#64, .cpyIn ⟨⟨0, false⟩, .b4, false, false, false, false, .core, 2, 0, some 1, .x4, 0, 16⟩),
    -- SRD s1, GRP
    (0x0304040000010010#64, .srd .grp ⟨⟨0, false⟩, .s 1, .v 0, .v 0, .v 0, false, false, false, .s64, .rne⟩),
    -- SMOVI s4, #ROUNDS
    (0x0104100000000004#64, .smovi ⟨⟨0, false⟩, .s 4, .v 0, false, 4⟩),
    -- (k2) ICMP.lt.s32 k3, v4, #0
    (0x11260C0990013C00#64, .icmp .lt ⟨⟨2, false⟩, .k 3, .v 4, .cst 0, .v 0, false, false, false, .s32, .rne⟩),
    -- IADDI v2, v2, #-16
    (0x13000804FFFFFFF0#64, .iaddi ⟨⟨0, false⟩, .v 2, .v 2, false, 4294967280⟩),
    -- FCVT.sat.e4.f32 v6, v2
    (0x3000180591042858#64, .fcvt true .f32 ⟨⟨0, false⟩, .v 6, .v 2, .v 0, .v 0, false, false, false, .e4, .rne⟩),
    -- (!kd) ST.s32.rel.pkg [s3 + v1*4], y0
    (0x61FD00301A098000#64, .st ⟨⟨15, true⟩, .y 0, 3, some 1, .x4, .s32, false, true, .pkg, false, 0⟩),
    -- FENCE.RG.die [s1], s5
    (0x6A04141000010000#64, .fenceRg ⟨⟨0, false⟩, .s 5, 1, none, .x1, .s32, false, false, .die, false, 0⟩),
    -- VOTE.ballot k2, k1
    (0x50060B0200001000#64, .voteBallot ⟨⟨0, false⟩, .k 2, .k 1, .v 0, .v 0, false, false, false, .s32, .rne⟩),
    -- PIPE s4, .Lbody
    (0x5804104800000005#64, .pipe ⟨⟨0, false⟩, .s 4, .s4, 0, 4, 5⟩),
    -- YVOID y1
    (0x5905040000000C00#64, .yvoid ⟨⟨0, false⟩, .y 1, .v 0, .v 0, .v 0, false, false, false, .s32, .rne⟩),
    -- REDM.add.f32.rel.pkg [s4 + v2], v3
    (0x7A00000403102260#64, .redm .add .f32 ⟨⟨0, false⟩, .v 0, .v 2, .v 3, 4, 0, false, true, .pkg⟩),
    -- NETARR.die s3, #5
    (0x80040C0000001440#64, .netarr ⟨⟨0, false⟩, .s 3, .v 0, .v 0, 0, 5, false, false, .die⟩),
    -- QCLOSE.kill [s4]
    (0x8900032200100000#64, .qcloseKill ⟨⟨0, false⟩, .v 0, .v 0, .v 0, 4, 0, false, false, .core⟩),
    -- MMQ.sc.pa4.bp8.bp8 z0, v6, v7, x0, x1
    (0x9500030383FE3100#64, .mmq ⟨0, 3, 0, true, 0⟩ ⟨⟨0, false⟩, 0, 6, 7, 0, 1, .bp8, .bp8⟩),
    -- MXDRAIN.add.gl.f32.rel.pkg z3, [d8], v12
    (0x9901840601006580#64, .mxdrain ⟨0, true, true, false, false, true, .pkg⟩ ⟨⟨0, false⟩, 3, 8, 12, 0, 0, .f32, .s32⟩),
    -- MXACQ k2, #4
    (0x9001000000000004#64, .mxacq 3 ⟨⟨0, false⟩, 2, 0, 0, 0, 0, .s32, .s32⟩),
    -- CPYR.add.b4.f32.rel.die [s4 + v2*4], [s0 + v2*4 + #0x200], acc
    (0xA1005108001501A0#64, .cpyr .addF32 ⟨⟨0, false⟩, .b4, false, true, false, false, .die, 4, 0, some 2, .x4, 3, 32⟩),
    -- PHCVT.ph8.ph16 v6, v4
    (0xB00018080006A470#64, .phcvt .ph16 ⟨⟨0, false⟩, .v 6, .v 4, .v 0, .v 0, false, false, false, .ph8, .rne⟩),
    -- GATEC.f32 y0, v20, y0~1, d22
    (0xB8050029440B1840#64, .gatec ⟨⟨0, false⟩, .y 0, .v 20, .y 4, .v 22, false, false, false, .f32, .rne⟩),
    -- CALL s3, .Lhere
    (0x0400003600000005#64, .call ⟨⟨0, false⟩, .v 0, 3, 5⟩),
    -- NETCFG #0xA0, s6
    (0xBE00020C002000A0#64, .netcfg ⟨⟨0, false⟩, .v 0, .s 6, .v 0, 160⟩)] : List (W64 × Instr)), decode p.1 = .instr p.2

/-- Decode and encode agree on every well-formed instruction that a word can hold: no bit of an operand is lost (R55 to R76).
The machine's own steps have no word. -/
def Obligations.EncodeDecode : Prop :=
  ∀ i : Instr, i.wf = true → i.isEvent = false → decode (encode i) = .instr i

/-- A word that decodes to an instruction is that instruction's encoding, and the instruction is well formed: no two words mean
the same, and no bit of a word is ignored (R55 to R77). -/
def Obligations.DecodeEncode : Prop :=
  ∀ (w : W64) (i : Instr), decode w = .instr i → i.wf = true ∧ i.isEvent = false ∧ encode i = w

/-- A step of the machine whose selected group stands at a word that decodes runs the decoded instruction, settles its issue,
and lets time pass (R74, R118). Where the spec is silent it follows the model's choice, log entries 1 and 8. -/
def Obligations.StepRunsDecoded : Prop :=
  ∀ (s : State) (g : Group) (w : W64) (i : Instr), Selected s g → g.word? = some w → execHit s g = none →
    decode w = .instr i → (kMagic (s.kword g) = 0xC2 → newInCk3 (majorOf w) = false) →
    Sys2Proof.Machine.step s = Out.map tickOver (Out.map (settleFocus s g w (some i)) (exec i s))

/-- A word in an instruction position that is no instruction raises ILL, RSVD or, in tag space, FRAME; a kernel of magic 0xC2
sees RSVD in every major new in CK3 (R74, R77, R79). The group holds the fault and stays where it stands. The faults of decode
in their order: an ill-formed form or a register beyond the declared counts is ILL, then a privileged instruction outside
system mode PRIV, each with the instruction's address as fault address; the group holds the fault and nothing else changes
(R70, R74, R108, R365, R375, R377). Where the spec is silent it follows the model's choice, log entry 76. -/
def Obligations.DecodeFaults : Prop :=
  (∀ (s : State) (g : Group) (w : W64), s.focus = some g →
     (∀ p ∈ ([(.ill, .ill), (.rsvd, .rsvd), (.tag, .frame)] : List (Decoded × FaultCode)),
       decode w = p.1 → (kMagic (s.kword g) = 0xC2 → newInCk3 (majorOf w) = false) →
       runWord s g w = .next { s with focus := some { g with
         trap := some ⟨p.2, g.hdr + BitVec.ofNat 64 (8 * (g.idx + 1)), 0, w, 0, g.idx, g.hdr⟩, sleep := .awake } }) ∧
     (kMagic (s.kword g) = 0xC2 → newInCk3 (majorOf w) = true →
       runWord s g w = .next { s with focus := some { g with
         trap := some ⟨.rsvd, g.hdr + BitVec.ofNat 64 (8 * (g.idx + 1)), 0, w, 0, g.idx, g.hdr⟩, sleep := .awake } })) ∧
  (∀ (i : Instr) (s : State) (g : Group), Selected s g → i.isEvent = false → (∀ f, i ≠ .idivs f ∧ i ≠ .idivu f) →
     ((i.wf = false ∨ i.fits (kVregs (s.kword g)) (kSregs (s.kword g)) = false) →
       exec i s = .next { s with focus := some { g with
         trap := some ⟨.ill, g.hdr + BitVec.ofNat 64 (8 * (g.idx + 1)), 0, encode i, 0, g.idx, g.hdr⟩, sleep := .awake } }) ∧
     (i.wf = true → i.fits (kVregs (s.kword g)) (kSregs (s.kword g)) = true → (g.half.isSome → i.wide = false) →
       (g.half = none → i.pastSlot = false) → i.privileged = true → g.sys = false →
       exec i s = .next { s with focus := some { g with
         trap := some ⟨.priv, g.hdr + BitVec.ofNat 64 (8 * (g.idx + 1)), 0, encode i, 0, g.idx, g.hdr⟩, sleep := .awake } }))

/-! ### Scalar instructions, masks, special registers -/

/-- Scalar arithmetic, logic, shifts, compares and counts: the result goes to the s register, or nowhere where it is s0, and
nothing else of the machine changes but the group's position (R72, R102, R104, R105, R143). Where the spec is silent it follows the model's choice, log entry 100:
that a real constant read at 64 bits is zero-extended. -/
def Obligations.ScalarResults : Prop :=
  ∀ (s : State) (g : Group) (f : VR) (cond : Cond),
    ∀ p ∈ ([
      (.sadd f, g.rdSc f.a + g.rdSc f.b),
      (.ssub f, g.rdSc f.a - g.rdSc f.b),
      (.smul f, g.rdSc f.a * g.rdSc f.b),
      (.smulh f, (((g.rdSc f.a).signExtend 128 * (g.rdSc f.b).signExtend 128) >>> 64).setWidth 64),
      (.smad f, g.rdSc f.a * g.rdSc f.b + g.rdSc f.c),
      (.sand f, g.rdSc f.a &&& g.rdSc f.b),
      (.sor f, g.rdSc f.a ||| g.rdSc f.b),
      (.sxor f, g.rdSc f.a ^^^ g.rdSc f.b),
      (.sandn f, g.rdSc f.a &&& ~~~ (g.rdSc f.b)),
      (.sshl f, g.rdSc f.a <<< ((g.rdSc f.b).setWidth 6).toNat),
      (.sshr f, g.rdSc f.a >>> ((g.rdSc f.b).setWidth 6).toNat),
      (.ssra f, (g.rdSc f.a).sshiftRight ((g.rdSc f.b).setWidth 6).toNat),
      (.smin f, if (g.rdSc f.b).slt (g.rdSc f.a) then g.rdSc f.b else g.rdSc f.a),
      (.smax f, if (g.rdSc f.a).slt (g.rdSc f.b) then g.rdSc f.b else g.rdSc f.a),
      (.sminu f, if (g.rdSc f.b).ult (g.rdSc f.a) then g.rdSc f.b else g.rdSc f.a),
      (.smaxu f, if (g.rdSc f.a).ult (g.rdSc f.b) then g.rdSc f.b else g.rdSc f.a),
      (.scmp cond f, if cmpBits cond (f.ty == .s64) (g.rdSc f.a) (g.rdSc f.b) then 1 else 0),
      (.ssel f, if g.rdSc f.a = 0 then g.rdSc f.c else g.rdSc f.b),
      (.smov f, g.rdSc f.a),
      (.sclz f, BitVec.ofNat 64 (((List.range 64).find? fun j => (g.rdSc f.a).getLsbD (63 - j)).getD 64)),
      (.spopc f, BitVec.ofNat 64 ((List.range 64).countP (g.rdSc f.a).getLsbD)),
      (.kpopc f, BitVec.ofNat 64 ((List.range 32).countP (g.rdSc f.a).getLsbD)),
      (.kffs f, BitVec.ofNat 64 (((List.range 32).find? (g.rdSc f.a).getLsbD).getD 32))] : List (Instr × W64)),
      Ready s g p.1 → g.act f.p ≠ 0 → SDone p.1 s g f.dst p.2 0

/-- Mask instructions act once and write every bit of their destination, in a legacy half the half's own bits (R143, R206). -/
def Obligations.MaskResults : Prop :=
  ∀ (s : State) (g : Group) (f : VR),
    ∀ p ∈ ([
      (.kand f, (g.rdSc f.a).setWidth 32 &&& (g.rdSc f.b).setWidth 32),
      (.kor f, (g.rdSc f.a).setWidth 32 ||| (g.rdSc f.b).setWidth 32),
      (.kxor f, (g.rdSc f.a).setWidth 32 ^^^ (g.rdSc f.b).setWidth 32),
      (.kandn f, (g.rdSc f.a).setWidth 32 &&& ~~~ ((g.rdSc f.b).setWidth 32)),
      (.knot f, ~~~ ((g.rdSc f.a).setWidth 32)),
      (.kmov f, (g.rdSc f.a).setWidth 32)] : List (Instr × W32)),
      Ready s g p.1 → g.act f.p ≠ 0 → KDone p.1 s g f.dst p.2 0

/-- SRD reads a special register: into an s register whole, into a v or y register truncated to 32 bits in every active lane
(R103, R108). FRAME and TEAMS are as the core's frames and the launch's packet say. SWR writes VOIDM and BKPASS in any mode and
NBV, TRAPBASE, TRAPVEC and AGE in system mode; a value outside the range of NBV (1 to 3) or AGE (16 to 65,535) raises ILL and changes
nothing (R103, R108). Where the spec is silent it follows the model's choice, log entries 77, 90 and 125: that the range is tested on the
low 32 bits of the value is the model's own (log entry 90), that GTB is read without skew log entry 125. -/
def Obligations.SpecialRegisters : Prop :=
  (∀ (s : State) (g : Group) (f : VR),
     ∀ p ∈ ([
       (.lane, fun l => BitVec.ofNat 64 l),
       (.tid, fun l => BitVec.ofNat 64 (g.tids.getD l 0)),
       (.grp, fun _ => BitVec.ofNat 64 g.grp),
       (.team, fun _ => BitVec.ofNat 64 (((s.team? g.team).map (·.index)).getD 0)),
       (.teams, fun _ => ((s.launch? g.launch).map fun l => teamsWord l.packet).getD 0),
       (.core, fun _ => BitVec.ofNat 64 g.core),
       (.part, fun _ => BitVec.ofNat 64 g.part),
       (.quad, fun _ => BitVec.ofNat 64 (g.core / 4)),
       (.die, fun _ => BitVec.ofNat 64 g.die),
       (.pkg, fun _ => BitVec.ofNat 64 s.pkg),
       (.iter, fun _ => ((g.iter.map fun it => BitVec.ofNat 64 it.k).getD 0xFFFFFFFFFFFFFFFF)),
       (.niter, fun _ => (((s.pipeOf g).map fun q => BitVec.ofNat 64 q.n).getD 0)),
       (.clk, fun _ => BitVec.ofNat 64 (s.quad g.die (g.core / 4)).clk),
       (.gtb, fun _ => s.gtb),
       (.nbv, fun _ => BitVec.ofNat 64 g.nbv),
       (.voidm, fun _ => g.voidm.setWidth 64),
       (.bkpass, fun _ => g.bkpass),
       (.energy, fun _ => BitVec.ofNat 64 (((s.ctx? g.ctx).map (·.energy)).getD 0)),
       (.role, fun _ => match g.role with | .copy => 0 | .matrix => 1 | .vector => 2),
       (.trapbase, fun _ => g.trapbase),
       (.trapvec, fun _ => g.trapvec),
       (.age, fun _ => (s.partOf g).age.setWidth 64),
       (.frame, fun _ => BitVec.ofNat 64 (frameNo s g))] : List (SpReg × (Nat → W64))),
       Ready s g (.srd p.1 f) → g.act f.p ≠ 0 →
         (∀ n, f.dst = .s n → SDone (.srd p.1 f) s g f.dst (p.2 0) 0) ∧
         (f.dst.isVY = true → dstBusy s g f.dst 1 (lanesOf g.active) = false →
           LaneDone (.srd p.1 f) s g f.dst false (lanesOf g.active) (fun l => ((p.2 l).setWidth 32).toNat) 0)) ∧
  (∀ (s : State) (g : Group) (f : VR), g.act f.p ≠ 0 →
     (∀ p ∈ ([
       (.voidm, { g with voidm := (g.rdSc f.a).setWidth 32 }),
       (.bkpass, { g with bkpass := g.rdSc f.a }),
       (.trapbase, { g with trapbase := g.rdSc f.a }),
       (.trapvec, { g with trapvec := g.rdSc f.a })] : List (SpReg × Group)),
       Ready s g (.swr p.1 f) → exec (.swr p.1 f) s = .next { s with focus := some p.2.advance }) ∧
     (Ready s g (.swr .nbv f) → ((g.rdSc f.a).setWidth 32).toNat ∈ [1, 2, 3] →
       exec (.swr .nbv f) s = .next { s with focus := some { g with nbv := ((g.rdSc f.a).setWidth 32).toNat }.advance }) ∧
     (Ready s g (.swr .age f) → 16 ≤ ((g.rdSc f.a).setWidth 32).toNat → ((g.rdSc f.a).setWidth 32).toNat ≤ 65535 →
       ∃ t, exec (.swr .age f) s = .next t ∧ t = { s with focus := some g.advance, parts := t.parts } ∧
         t.partOf g = { s.partOf g with age := (g.rdSc f.a).setWidth 32, ageOld := (t.partOf g).ageOld, ageAt := s.clk g.die g.core } ∧
         ((s.partOf g).ageAt ≠ s.clk g.die g.core → (t.partOf g).ageOld = (s.partOf g).age) ∧
         ∀ k, k ≠ partKey g.die g.core g.part → SMap.get Partn.reset t.parts k = SMap.get Partn.reset s.parts k) ∧
     (∀ r ∈ [SpReg.nbv, SpReg.age], Ready s g (.swr r f) →
       (r = .nbv → ((g.rdSc f.a).setWidth 32).toNat ∉ [1, 2, 3]) →
       (r = .age → ((g.rdSc f.a).setWidth 32).toNat < 16 ∨ 65535 < ((g.rdSc f.a).setWidth 32).toNat) →
       exec (.swr r f) s = .next { s with focus := some { g with
         trap := some ⟨.ill, g.hdr + BitVec.ofNat 64 (8 * (g.idx + 1)), 0, encode (.swr r f), 0, g.idx, g.hdr⟩, sleep := .awake } }))

/-- VTOS copies one lane of a v or y register, zero-extended, to an s register: the lane that b's low bits name, whether or not it
is active; only a lane that acts reads as its own does (R107, R195, R221). -/
def Obligations.LaneToScalar : Prop :=
  ∀ (s : State) (g : Group) (f : VR) (vm : W32), Ready s g (.vtos f) → g.act f.p ≠ 0 →
    let reads := fun l => Readable s g [⟨f.a, 1, f.ta, [(if (g.act f.p).getLsbD l then l else 32 + l, l)]⟩] vm
    (g.half = none → reads ((g.rdSc f.b).setWidth 5).toNat →
      SDone (.vtos f) s g f.dst ((s.rd32 g .f32 f.a ((g.rdSc f.b).setWidth 5).toNat).setWidth 64) vm) ∧
    (g.half.isSome → reads ((g.rdSc f.b).setWidth 4).toNat →
      SDone (.vtos f) s g f.dst ((s.rd32 g .f32 f.a ((g.rdSc f.b).setWidth 4).toNat).setWidth 64) vm)

/-- A group-uniform instruction whose predicate holds in no active lane has no effect: the group only moves on (R104, R109, R143,
R198, R223; for the memory, synchronization, queue, matrix, copy and system forms the rules of their chapters). Where the spec is silent
it follows the model's choice, log entry 33: that CPY and CPYR with no acting lane have no effect is the model's own reading. -/
def Obligations.UniformIdle : Prop :=
  ∀ (s : State) (g : Group) (f : VR) (vi : VI) (fc : FC) (fp : FPipe) (fm : FM) (fq : FQ) (fx : FX) (fp2 : FP) (fy : FY)
    (c : Cond) (r : SpReg) (op : RedOp) (n4 : Fin 4) (n16 : Fin 16) (co : CpyrOp),
    (∀ i ∈ ([.sadd f, .ssub f, .smul f, .smulh f, .smad f, .sand f, .sor f, .sxor f, .sandn f, .sshl f, .sshr f, .ssra f, .smin f,
      .smax f, .sminu f, .smaxu f, .scmp c f, .ssel f, .smov f, .sclz f, .spopc f, .vtos f, .srd r f, .swr r f, .kand f, .kor f,
      .kxor f, .kandn f, .knot f, .kmov f, .kpopc f, .kffs f, .voteBallot f, .voteAny f, .voteAll f, .voteEq f, .pjoin f,
      .pstat f] : List Instr), Ready s g i → g.act f.p = 0 → Idle i s g) ∧
    (∀ i ∈ ([.smovi vi, .smovh vi] : List Instr), Ready s g i → g.act vi.p = 0 → Idle i s g) ∧
    (∀ i ∈ ([.bra fc, .bz fc, .bnz fc, .bany fc, .ball fc, .bnone fc, .call fc, .ret fc, .brx fc] : List Instr),
      Ready s g i → g.act fc.p = 0 → Idle i s g) ∧
    (∀ i ∈ ([.pipe fp, .pipeH fp] : List Instr), Ready s g i → g.act fp.p = 0 → Idle i s g) ∧
    (∀ i ∈ ([.sld fm, .sst fm, .fence fm, .fenceRg fm, .waitl fm] : List Instr), Ready s g i → g.act fm.p = 0 → Idle i s g) ∧
    (∀ i ∈ ([.barinit fq, .bararr fq, .barwait fq, .bartest fq, .barkill fq, .netarr fq, .netwait fq, .qopen fq, .qclose fq,
      .qcloseKill fq, .enq fq, .deq fq, .enqt fq, .deqt fq, .qstat fq] : List Instr),
      Ready s g i → g.act fq.p = 0 → Idle i s g) ∧
    (∀ i ∈ ([.mxacq n4 fx, .mxrel fx, .tclaim n16 fx, .mxsync fx] : List Instr), Ready s g i → g.act fx.p = 0 → Idle i s g) ∧
    (∀ i ∈ ([.cpyIn fp2, .cpyOut fp2, .cpyr co fp2, .cpytOm fp2, .cpytSp fp2, .rcfence fp2, .rcfenceAll fp2] : List Instr),
      Ready s g i → g.act fp2.p = 0 → Idle i s g) ∧
    (∀ i ∈ ([.trap fy, .mark fy, .lnch fy, .budget fy, .budgetSet fy, .tret fy, .bkpt fy, .tlbiPage fy, .tlbiRange fy, .tlbiAll fy,
      .pchk fy, .netcfg fy] : List Instr), Ready s g i → g.act fy.p = 0 → Idle i s g) ∧
    (∀ n, Ready s g (.redg op f) → f.dst = .s n → g.act f.p = 0 → Idle (.redg op f) s g)

/-! ### Integer lanes -/

/-- Vector integer, logic and shift instructions at the width of their type: in each acting lane the result, the other lanes, the
other registers and all memory as before (R124, R129, R132, R135, R136, R139, R140, R141). Where the spec is silent it follows the model's choice, log entry 100:
that a real constant read at 64 bits is zero-extended. -/
def Obligations.IntegerLanes : Prop :=
  ∀ (s : State) (g : Group) (f : VR) (vm : W32),
    ∀ p ∈ ([
      (.iadd f, fun _ a b _ => a + b),
      (.isub f, fun _ a b _ => a - b),
      (.imul f, fun _ a b _ => a * b),
      (.imulh f, fun w a b _ => ((a.signExtend (2 * w) * b.signExtend (2 * w)) >>> w).setWidth w),
      (.imulhu f, fun w a b _ => ((a.setWidth (2 * w) * b.setWidth (2 * w)) >>> w).setWidth w),
      (.imad f, fun _ a b c => a * b + c),
      (.iabs f, fun _ a _ _ => if a.msb then -a else a),
      (.ineg f, fun _ a _ _ => -a),
      (.imin f, fun _ a b _ => if cmpBits .lt f.ty.signed b a then b else a),
      (.imax f, fun _ a b _ => if cmpBits .lt f.ty.signed a b then b else a),
      (.iadds f, fun w a b _ => satBits f.ty.signed w (asInt f.ty.signed a + asInt f.ty.signed b)),
      (.isubs f, fun w a b _ => satBits f.ty.signed w (asInt f.ty.signed a - asInt f.ty.signed b)),
      (.and f, fun _ a b _ => a &&& b),
      (.or f, fun _ a b _ => a ||| b),
      (.xor f, fun _ a b _ => a ^^^ b),
      (.andn f, fun _ a b _ => a &&& ~~~ b),
      (.shl f, fun w a b _ => a <<< (b.toNat % w)),
      (.shr f, fun w a b _ => a >>> (b.toNat % w)),
      (.sra f, fun w a b _ => a.sshiftRight (b.toNat % w)),
      (.rotl f, fun w a b _ => a <<< (b.toNat % w) ||| a >>> (w - b.toNat % w)),
      (.mov f, fun _ a _ _ => a)] :
        List (Instr × ((w : Nat) → BitVec w → BitVec w → BitVec w → BitVec w))),
      LaneReady p.1 f s g vm → LaneDone p.1 s g f.dst f.ty.is64 (lanesOf (g.act f.p)) (byWidth s g f p.2) vm

/-- Bit-field, count and byte instructions of 32 bits (R139, R140). Widening instructions write a pair: their 32-bit operands extended under the type, LEA's sum of a 64-bit address and a shifted
offset (R135, R137). CVTI reads its source at the source type's width, clamps the value to the destination type's range and extends it to the
register's width; SEL takes b where the bit of its mask is set and c where it is clear (R138, R141). Where the spec is silent it follows the model's choice, log entry 100:
that a real constant read at 64 bits is zero-extended. -/
def Obligations.BitsWideSelectLanes : Prop :=
  (∀ (s : State) (g : Group) (f : VR) (vm : W32),
     ∀ p ∈ ([
       (.bfx f, fun a b c => bfxBits f.ty.signed a (b.setWidth 5).toNat (c.setWidth 6).toNat),
       (.bfi f, fun a b c => bfiBits a b (c.setWidth 5).toNat (c.extractLsb' 8 6).toNat),
       (.popc f, fun a _ _ => BitVec.ofNat 32 ((List.range 32).countP a.getLsbD)),
       (.clz f, fun a _ _ => BitVec.ofNat 32 (((List.range 32).find? fun j => a.getLsbD (31 - j)).getD 32)),
       (.ctz f, fun a _ _ => BitVec.ofNat 32 (((List.range 32).find? a.getLsbD).getD 32)),
       (.brev f, fun a _ _ => a.reverse),
       (.bytep f, fun a b c => bytepBits (c ++ a) b)] : List (Instr × (W32 → W32 → W32 → W32))),
       LaneReady p.1 f s g vm → LaneDone p.1 s g f.dst false (lanesOf (g.act f.p))
         (fun l => (p.2 (s.rd32 g .f32 f.a l) (s.rd32 g .f32 f.b l) (s.rd32 g .f32 f.c l)).toNat) vm) ∧
  (∀ (s : State) (g : Group) (f : VR) (sh : Fin 5) (vm : W32),
     ∀ p ∈ ([
       (.imadw f, fun l => ext64 f.ty.signed (s.rd32 g .f32 f.a l) * ext64 f.ty.signed (s.rd32 g .f32 f.b l) + s.rd64 g .f32 f.c l),
       (.iaddw f, fun l => ext64 f.ty.signed (s.rd32 g .f32 f.a l) + ext64 f.ty.signed (s.rd32 g .f32 f.b l)),
       (.isubw f, fun l => ext64 f.ty.signed (s.rd32 g .f32 f.a l) - ext64 f.ty.signed (s.rd32 g .f32 f.b l)),
       (.lea sh f, fun l => s.rd64 g .f32 f.a l + ext64 f.ty.signed (s.rd32 g .f32 f.b l) <<< sh.val)] : List (Instr × (Nat → W64))),
       LaneReady p.1 f s g vm → LaneDone p.1 s g f.dst true (lanesOf (g.act f.p)) (fun l => (p.2 l).toNat) vm) ∧
  (∀ (s : State) (g : Group) (f : VR) (sty : Ty) (vm : W32),
     (LaneReady (.cvti sty f) f s g vm → LaneDone (.cvti sty f) s g f.dst f.ty.is64 (lanesOf (g.act f.p)) (fun l =>
       (BitVec.ofInt (if f.ty.is64 then 64 else 32) (clampInt (tyMin f.ty) (tyMax f.ty)
         (asInt sty.signed (BitVec.ofNat (Ty.ibits sty) (s.rdN g .f32 sty.is64 f.a l))))).toNat) vm) ∧
     (LaneReady (.sel f) f s g vm → LaneDone (.sel f) s g f.dst f.ty.is64 (lanesOf (g.act f.p)) (fun l =>
       if (g.rdSc f.a).getLsbD l then s.rdN g .f32 f.ty.is64 f.b l else s.rdN g .f32 f.ty.is64 f.c l) vm))

/-- The immediate forms: MOVI, IADDI, ANDI, ORI, XORI (R142). SMOVI writes the immediate sign-extended to 64 bits; SMOVH writes it into bits 63 to 32 and keeps bits 31 to 0 (R106). -/
def Obligations.Immediates : Prop :=
  (∀ (s : State) (g : Group) (f : VI) (vm : W32), dstBusy s g f.dst 1 (lanesOf (g.act f.p)) = false →
     (Ready s g (.movi f) → LaneDone (.movi f) s g f.dst false (lanesOf (g.act f.p)) (fun _ => f.imm.toNat) 0) ∧
     ∀ p ∈ ([
       (.iaddi f, fun a => a + f.imm),
       (.andi f, fun a => a &&& f.imm),
       (.ori f, fun a => a ||| f.imm),
       (.xori f, fun a => a ^^^ f.imm)] : List (Instr × (W32 → W32))),
       Ready s g p.1 → Readable s g [srcAt f.a false f.ta (g.act f.p)] vm →
         LaneDone p.1 s g f.dst false (lanesOf (g.act f.p)) (fun l => (p.2 (s.rd32 g .f32 f.a l)).toNat) vm) ∧
  (∀ (s : State) (g : Group) (f : VI), g.act f.p ≠ 0 →
     (Ready s g (.smovi f) → SDone (.smovi f) s g f.dst (f.imm.signExtend 64) 0) ∧
     (Ready s g (.smovh f) → SDone (.smovh f) s g f.dst (f.imm ++ (g.rdSc f.dst).setWidth 32) 0))

/-! ### Floating-point and phasor lanes -/

/-- Floating-point instructions write FULL, in each acting lane, the value of the version's arithmetic: operands and result
flushed as NBV asks, one rounding in the mode in force (R150, R151, R153, R156, R157, R158, R162, R163). -/
def Obligations.FloatLanes : Prop :=
  ∀ (s : State) (g : Group) (f : VR) (sat : Bool) (sty : Ty) (vm : W32),
    (∀ p ∈ ([
      (.fadd f, fun l => foutF32 g.nbv (fF32.addOp g.nbv (modeAt g.nbv f.rnd) (fin32 s g f.a l) (fin32 s g f.b l))),
      (.fsub f, fun l => foutF32 g.nbv (Fmt.subOp fF32 g.nbv (modeAt g.nbv f.rnd) (fin32 s g f.a l) (fin32 s g f.b l))),
      (.fmul f, fun l => foutF32 g.nbv (fF32.mulOp g.nbv (modeAt g.nbv f.rnd) (fin32 s g f.a l) (fin32 s g f.b l))),
      (.ffma f, fun l => foutF32 g.nbv (fF32.fmaOp g.nbv (modeAt g.nbv f.rnd) (fin32 s g f.a l) (fin32 s g f.b l) (fin32 s g f.c l))),
      (.fclass f, fun l => 2 ^ classBit (Fmt.ofTy f.ty) (s.rd32 g (RealFmt.ofTy f.ty) f.a l).toNat),
      (.frint f, fun l => foutF32 g.nbv (frintVal g.nbv (modeAt g.nbv f.rnd) (fin32 s g f.a l))),
      (.fscale f, fun l => foutF32 g.nbv (fscaleVal g.nbv (modeAt g.nbv f.rnd) (fin32 s g f.a l) (s.rd32 g .f32 f.b l).toInt)),
      (.hadd2 f, fun l => halves (fun a b _ => fF16.addOp g.nbv (modeAt g.nbv f.rnd) a b) (s.rd32 g .f16 f.a l).toNat
        (s.rd32 g .f16 f.b l).toNat 0),
      (.hmul2 f, fun l => halves (fun a b _ => fF16.mulOp g.nbv (modeAt g.nbv f.rnd) a b) (s.rd32 g .f16 f.a l).toNat
        (s.rd32 g .f16 f.b l).toNat 0),
      (.hfma2 f, fun l => halves (fF16.fmaOp g.nbv (modeAt g.nbv f.rnd)) (s.rd32 g .f16 f.a l).toNat
        (s.rd32 g .f16 f.b l).toNat (s.rd32 g .f16 f.c l).toNat),
      (.bfma2 f, fun l => halves (fBf16.fmaOp g.nbv (modeAt g.nbv f.rnd)) (s.rd32 g .bf16 f.a l).toNat
        (s.rd32 g .bf16 f.b l).toNat (s.rd32 g .bf16 f.c l).toNat),
      (.qdot4 f, fun l => foutF32 g.nbv (qdotVal g.nbv (modeAt g.nbv f.rnd) (Fmt.ofTy f.ty) (s.rd32 g .f32 f.a l).toNat
        (s.rd32 g .f32 f.b l).toNat (fin32 s g f.c l)))] : List (Instr × (Nat → Nat))),
      LaneReady p.1 f s g vm → LaneDone p.1 s g f.dst false (lanesOf (g.act f.p)) p.2 vm) ∧
    (LaneReady (.fcvt sat sty f) f s g vm → LaneDone (.fcvt sat sty f) s g f.dst f.ty.is64 (lanesOf (g.act f.p))
        (fun l => fcvtVal g.nbv (modeAt g.nbv f.rnd) sat sty f.ty (s.rdN g (RealFmt.ofTy sty) sty.is64 f.a l)) vm)

/-- An operation of one rounding with a NaN among its operands returns the first of them in operand order, made quiet with its
sign and its other fraction bits kept; at NBV 1 the canonical NaN (R145, R148). -/
def Obligations.NanOperands : Prop :=
  ∀ (s : State) (g : Group) (f : VR) (vm : W32), g.nbv ∈ [1, 2, 3] →
    ∀ p ∈ ([
      (.fadd f, fun l => [s.rd32 g .f32 f.a l, s.rd32 g .f32 f.b l]),
      (.fsub f, fun l => [s.rd32 g .f32 f.a l, s.rd32 g .f32 f.b l]),
      (.fmul f, fun l => [s.rd32 g .f32 f.a l, s.rd32 g .f32 f.b l]),
      (.ffma f, fun l => [s.rd32 g .f32 f.a l, s.rd32 g .f32 f.b l, s.rd32 g .f32 f.c l]),
      (.frint f, fun l => [s.rd32 g .f32 f.a l]),
      (.fscale f, fun l => [s.rd32 g .f32 f.a l])] : List (Instr × (Nat → List W32))),
      LaneReady p.1 f s g vm →
        ∃ x, LaneDone p.1 s g f.dst false (lanesOf (g.act f.p)) x vm ∧
          ∀ l ∈ lanesOf (g.act f.p), ((p.2 l).map BitVec.toNat).any codeNan = true →
            x l = nanOf g.nbv ((p.2 l).map BitVec.toNat)

/-- FMIN and FMAX: the lesser or the greater operand, −0 below +0; the other operand where exactly one is a NaN; where both are, a
made quiet, or 0x7FC0_0000 at NBV 1; at NBV 2 and 1 a subnormal operand counts as, and is returned as, a zero of its sign (R154). -/
def Obligations.MinMax : Prop :=
  ∀ (s : State) (g : Group) (f : VR) (vm : W32), g.nbv ∈ [1, 2, 3] →
    ∀ p ∈ ([(.fmin f, fun r o => codeKey r ≤ codeKey o), (.fmax f, fun r o => codeKey o ≤ codeKey r)] :
        List (Instr × (Nat → Nat → Prop))),
      LaneReady p.1 f s g vm →
        ∃ x, LaneDone p.1 s g f.dst false (lanesOf (g.act f.p)) x vm ∧
          ∀ l ∈ lanesOf (g.act f.p),
            let a := codeIn g.nbv (s.rd32 g .f32 f.a l).toNat
            let b := codeIn g.nbv (s.rd32 g .f32 f.b l).toNat
            (codeNan a = false → codeNan b = false → (x l = a ∨ x l = b) ∧ p.2 (x l) a ∧ p.2 (x l) b) ∧
            (codeNan a = true → codeNan b = false → x l = b) ∧
            (codeNan a = false → codeNan b = true → x l = a) ∧
            (codeNan a = true → codeNan b = true → x l = if g.nbv = 1 then 0x7FC00000 else a ||| 0x400000)

/-- Compares: bit L of the mask is the comparison in each acting lane and every other bit is kept. FCMP takes the zeros as equal
and a NaN as unordered; PHCMP classes the difference of two angles (R67, R132, R155, R349). ICMP sets bit L of its mask to the comparison in each acting lane and keeps the other bits (R67, R132, R141). Where the spec is silent it follows the model's choice, log entry 100:
that a real constant read at 64 bits is zero-extended. -/
def Obligations.LaneCompares : Prop :=
  (∀ (s : State) (g : Group) (f : VR) (cond : Cond) (pc : PhCond) (vm : W32) (n : BitVec 4), g.nbv ∈ [1, 2, 3] → f.dst = .k n →
     ∀ p ∈ ([
       (.fcmp cond f, fun l => cmpCodes cond (codeIn g.nbv (s.rd32 g .f32 f.a l).toNat) (codeIn g.nbv (s.rd32 g .f32 f.b l).toNat)),
       (.phcmp pc f, fun l =>
         if phUnd f.ty (s.rd32 g .f32 f.a l) || phUnd f.ty (s.rd32 g .f32 f.b l) then pc == .ne || pc == .un
         else if f.ty == .ph8 then phClass pc ((s.rd32 g .f32 f.a l).setWidth 7 - (s.rd32 g .f32 f.b l).setWidth 7)
         else phClass pc ((s.rd32 g .f32 f.a l).setWidth 15 - (s.rd32 g .f32 f.b l).setWidth 15))] : List (Instr × (Nat → Bool))),
       Ready s g p.1 → (∀ sg, p.1.vsig = some (sg, f) → Readable s g (vrSrcs sg f (g.act f.p)) vm) →
         ∃ x : W32, KDone p.1 s g f.dst x vm ∧
           ∀ l, l < 32 → x.getLsbD l = if (g.act f.p).getLsbD l then p.2 l else (g.rdK n.toNat).getLsbD l) ∧
  (∀ (s : State) (g : Group) (f : VR) (cond : Cond) (vm : W32) (n : BitVec 4),
     Ready s g (.icmp cond f) → Readable s g (vrSrcs ⟨.k, lT, lT, .unused, tys4, false⟩ f (g.act f.p)) vm → f.dst = .k n →
     ∃ x : W32, KDone (.icmp cond f) s g f.dst x vm ∧
       ∀ l, l < 32 → x.getLsbD l = if (g.act f.p).getLsbD l then
           (if f.ty.is64 then cmpBits cond f.ty.signed (s.rd64 g .f32 f.a l) (s.rd64 g .f32 f.b l)
            else cmpBits cond f.ty.signed (s.rd32 g .f32 f.a l) (s.rd32 g .f32 f.b l))
         else (g.rdK n.toNat).getLsbD l)

/-- Rounding a value that a format holds gives its code back, in every mode and format: a result that is exact is not changed
(R144, R146). Rounding toward zero gives the largest value of the format that does not exceed the exact one, in every format and for every
exact value m × 2^e (R144, R146). -/
def Obligations.Rounding : Prop :=
  (∀ t ∈ [fF32, fF16, fBf16, fE4, fE5], ∀ (n : Nat) (neg : Bool) (m : Nat) (e : Int) (mode : Rnd) (sat : Bool),
     n < 2 ^ t.width → t.dec n = .fin neg m e → t.round mode sat neg m e false = n) ∧
  (∀ t ∈ [fF32, fF16, fBf16, fE4, fE5], ∀ (m : Nat) (e : Int) (sat : Bool),
     ∃ n d, t.dec (t.round .rtz sat false m e false) = .fin false n d ∧ valLe n d m e ∧
       ∀ c n' d', c ≤ t.maxCode → t.dec c = .fin false n' d' → valLe n' d' m e → valLe n' d' n d)

/-- Phasor instructions per lane: angles add, subtract, negate and scale modulo a turn, an undefined operand gives the canonical
undefined code; conversions and the resultant of the acting lanes (R343, R345, R348, R350, R352, R353). PHRED.acc adds the exact sums of the acting lanes' defined inputs, and their number, into the triple of every acting lane
(R350). -/
def Obligations.PhasorLanes : Prop :=
  (∀ (s : State) (g : Group) (f : VR) (sty : Ty) (vm : W32),
     (∀ p ∈ ([
       (.phadd f, fun l => phLane f.ty (phUnd f.ty (s.rd32 g .f32 f.a l) || phUnd f.ty (s.rd32 g .f32 f.b l))
         fun m => (s.rd32 g .f32 f.a l).setWidth m + (s.rd32 g .f32 f.b l).setWidth m),
       (.phsub f, fun l => phLane f.ty (phUnd f.ty (s.rd32 g .f32 f.a l) || phUnd f.ty (s.rd32 g .f32 f.b l))
         fun m => (s.rd32 g .f32 f.a l).setWidth m - (s.rd32 g .f32 f.b l).setWidth m),
       (.phneg f, fun l => phLane f.ty (phUnd f.ty (s.rd32 g .f32 f.a l)) fun m => -((s.rd32 g .f32 f.a l).setWidth m)),
       (.phmuli f, fun l => phLane f.ty (phUnd f.ty (s.rd32 g .f32 f.a l))
         fun m => (s.rd32 g .f32 f.a l).setWidth m * (s.rd32 g .f32 f.b l).setWidth m),
       (.phred f, fun _ => let r := actSums s g f; resultant r.1 r.2.1 r.2.2),
       (.phfrom f, fun l => phFrom f.ty (codeIn g.nbv (s.rd32 g .f32 f.a l).toNat) (codeIn g.nbv (s.rd32 g .f32 f.b l).toNat)),
       (.phcvt sty f, fun l => phCvt f.ty sty (s.rd32 g .f32 f.a l).toNat)] : List (Instr × (Nat → Nat))),
       LaneReady p.1 f s g vm → LaneDone p.1 s g f.dst false (lanesOf (g.act f.p)) p.2 vm) ∧
     (∀ n, f.a = .v n → LaneReady (.phredEnd f) f s g vm →
         LaneDone (.phredEnd f) s g f.dst false (lanesOf (g.act f.p)) (fun l => resultant (g.laneV n.toNat l).val.toInt
           (g.laneV (n.toNat + 1) l).val.toInt (g.laneV (n.toNat + 2) l).val.toNat) vm)) ∧
  (∀ (s : State) (g : Group) (f : VR) (n : BitVec 8) (vm : W32), Ready s g (.phredAcc f) → f.dst = .v n →
     Readable s g [srcAt f.a false f.ta (g.act f.p), ⟨f.dst, 3, false, (lanesOf (g.act f.p)).map fun l => (l, l)⟩] vm →
     ∃ h, exec (.phredAcc f) s = .next { s with focus := some h } ∧ Moved g h vm ∧ h.s = g.s ∧ h.k = g.k ∧
       ∀ m l, l < 32 → h.laneV m l =
         if l ∈ lanesOf (g.act f.p) ∧ m = n.toNat then
           ⟨(g.laneV m l).val + BitVec.ofInt 32 (actSums s g f).1, false, .ok⟩
         else if l ∈ lanesOf (g.act f.p) ∧ m = n.toNat + 1 then
           ⟨(g.laneV m l).val + BitVec.ofInt 32 (actSums s g f).2.1, false, .ok⟩
         else if l ∈ lanesOf (g.act f.p) ∧ m = n.toNat + 2 then
           ⟨(g.laneV m l).val + BitVec.ofNat 32 (actSums s g f).2.2, false, .ok⟩
         else g.laneV m l)

/-- PHSIN and PHCOS write the FP32 value S(i) / 2^14 or C(i) / 2^14, i the table index of the operand's angle: the quotient is
exact, an entry of 0 gives +0, and an undefined operand 0x7FC0_0000 (R344, R351). -/
def Obligations.SineCosine : Prop :=
  ∀ (s : State) (g : Group) (f : VR) (vm : W32),
    ∀ p ∈ ([(.phsin f, fun i => (circle i).2), (.phcos f, fun i => (circle i).1)] : List (Instr × (Nat → Int))),
      LaneReady p.1 f s g vm →
        ∃ x, LaneDone p.1 s g f.dst false (lanesOf (g.act f.p)) x vm ∧
          ∀ l ∈ lanesOf (g.act f.p),
            let a := s.rd32 g .f32 f.a l
            let c := p.2 (if f.ty == .ph8 then (a.setWidth 7).toNat * 256 else (a.setWidth 15).toNat)
            (phUnd f.ty a = true → x l = 0x7FC00000) ∧
            (phUnd f.ty a = false → c = 0 → x l = 0) ∧
            (phUnd f.ty a = false → c ≠ 0 →
              ∃ k : Nat, fF32.dec (x l) = .fin (decide (c < 0)) (c.natAbs * 2 ^ k) (-14 - (k : Int)))

/-! ### Cross-lane instructions -/

/-- Shuffles: each acting lane takes a's value from the lane of its segment that the mode and b name; the destination may be a
source, since every lane is read before any is written (R195, R196, R208). BCAST writes a's value in lane b[4:0], in a legacy half b[3:0], into every acting lane (R197). -/
def Obligations.Shuffles : Prop :=
  (∀ (s : State) (g : Group) (f : VR) (sw : ShW) (w : Nat) (vm : W32),
     (sw, w) ∈ [(ShW.dflt, if g.half.isSome then 16 else 32), (.w1, 1), (.w2, 2), (.w4, 4), (.w8, 8), (.w16, 16), (.w32, 32)] →
     dstBusy s g f.dst (if f.ty.is64 then 2 else 1) (lanesOf (g.act f.p)) = false →
     ∀ p ∈ ([
       (.shflIdx sw f, fun l => l / w * w + (s.rd32 g .f32 f.b l).toNat % w),
       (.shflUp sw f, fun l => let d := ((s.rd32 g .f32 f.b l).setWidth 6).toNat; if d ≤ l % w then l - d else l),
       (.shflDn sw f, fun l => let d := ((s.rd32 g .f32 f.b l).setWidth 6).toNat; if l % w + d < w then l + d else l),
       (.shflXor sw f, fun l => l / w * w + ((l % w) ^^^ ((s.rd32 g .f32 f.b l).toNat % w)))] : List (Instr × (Nat → Nat))),
       Ready s g p.1 → Readable s g [srcAt f.b false f.tb (g.act f.p),
           ⟨f.a, if f.ty.is64 then 2 else 1, f.ta, (lanesOf (g.act f.p)).map fun l => (l, p.2 l)⟩] vm →
         LaneDone p.1 s g f.dst f.ty.is64 (lanesOf (g.act f.p)) (fun l => s.rdN g .f32 f.ty.is64 f.a (p.2 l)) vm) ∧
  (∀ (s : State) (g : Group) (f : VR) (j : Nat) (vm : W32), Ready s g (.bcast f) →
     j = (if g.half.isSome then ((g.rdSc f.b).setWidth 4).toNat else ((g.rdSc f.b).setWidth 5).toNat) →
     dstBusy s g f.dst (if f.ty.is64 then 2 else 1) (lanesOf (g.act f.p)) = false →
     Readable s g [⟨f.a, if f.ty.is64 then 2 else 1, f.ta, (lanesOf (g.act f.p)).map fun l => (l, j)⟩] vm →
     LaneDone (.bcast f) s g f.dst f.ty.is64 (lanesOf (g.act f.p)) (fun _ => s.rdN g .f32 f.ty.is64 f.a j) vm)

/-- MATCH writes, in each acting lane, the mask of the acting lanes whose a equals its own at the type's width, in the low register
of a pair under a 64-bit type with 0 above (R201). -/
def Obligations.MatchLanes : Prop :=
  ∀ (s : State) (g : Group) (f : VR) (vm : W32), LaneReady (.match_ f) f s g vm →
    ∃ x, LaneDone (.match_ f) s g f.dst f.ty.is64 (lanesOf (g.act f.p)) x vm ∧
      ∀ l ∈ lanesOf (g.act f.p), x l < 2 ^ 32 ∧ ∀ j, j < 32 → (x l).testBit j =
        ((g.act f.p).getLsbD j && (s.rdN g .f32 f.ty.is64 f.a j == s.rdN g .f32 f.ty.is64 f.a l))

/-- Reductions and scans combine the values of the acting lanes in lane order: REDG writes one result to every acting lane, or
once to an s register, sign-extended under s32; SCANG writes each acting lane's prefix, with or without itself; CMPCT packs the
selected values into the lowest lanes, acting or not (R199, R200, R202). Votes act once: the mask of the acting lanes whose bit
is set, whether any is, whether all are, and whether the acting lanes hold one value (R104, R198). Where the spec is silent it
follows the model's choice, log entries 77 and 109. -/
def Obligations.ReductionsVotes : Prop :=
  (∀ (s : State) (g : Group) (f : VR) (op : RedOp) (excl : Bool) (vm : W32),
     let vals := fun ls : List Nat => ls.map fun l => s.rdN g .f32 f.ty.is64 f.a l
     let free := fun ls => dstBusy s g f.dst (if f.ty.is64 then 2 else 1) ls = false
     (LaneReady (.redg op f) f s g vm → f.dst.isVY = true → free (lanesOf (g.act f.p)) →
       LaneDone (.redg op f) s g f.dst f.ty.is64 (lanesOf (g.act f.p))
         (fun _ => redAll op f.ty g.nbv f.rnd (vals (lanesOf (g.act f.p)))) vm) ∧
     (∀ n, Ready s g (.redg op f) → f.dst = .s n → g.act f.p ≠ 0 → Readable s g [srcAt f.a f.ty.is64 f.ta (g.act f.p)] vm →
       SDone (.redg op f) s g f.dst (let r := redAll op f.ty g.nbv f.rnd (vals (lanesOf (g.act f.p)))
         if f.ty == .s32 then (BitVec.ofNat 32 r).signExtend 64 else BitVec.ofNat 64 r) vm) ∧
     (LaneReady (.scang op excl f) f s g vm → LaneDone (.scang op excl f) s g f.dst f.ty.is64 (lanesOf (g.act f.p))
       (fun l => redAll op f.ty g.nbv f.rnd (vals ((lanesOf (g.act f.p)).filter fun j => if excl then j < l else j ≤ l))) vm) ∧
     (∀ sel, Ready s g (.cmpct f) → sel = lanesOf (g.act f.p &&& (g.rdSc f.b).setWidth 32) →
       Readable s g [⟨f.a, if f.ty.is64 then 2 else 1, f.ta, sel.map fun l => (l, l)⟩] vm → free (List.range sel.length) →
       LaneDone (.cmpct f) s g f.dst f.ty.is64 (List.range sel.length) (fun d => (vals sel).getD d 0) vm)) ∧
  (∀ (s : State) (g : Group) (f : VR) (vm : W32), g.act f.p ≠ 0 →
     (Ready s g (.voteBallot f) → KDone (.voteBallot f) s g f.dst ((g.rdSc f.a).setWidth 32 &&& g.act f.p) 0) ∧
     (Ready s g (.voteAny f) → SDone (.voteAny f) s g f.dst (if (g.rdSc f.a).setWidth 32 &&& g.act f.p = 0 then 0 else 1) 0) ∧
     (Ready s g (.voteAll f) →
       SDone (.voteAll f) s g f.dst (if (g.rdSc f.a).setWidth 32 &&& g.act f.p = g.act f.p then 1 else 0) 0) ∧
     (Ready s g (.voteEq f) → Readable s g [srcAt f.a f.ty.is64 f.ta (g.act f.p)] vm →
       ∃ x : Bool, SDone (.voteEq f) s g f.dst (if x then 1 else 0) vm ∧
         (x = true ↔ ∀ l ∈ lanesOf (g.act f.p), ∀ j ∈ lanesOf (g.act f.p),
           s.rdN g .f32 f.ty.is64 f.a l = s.rdN g .f32 f.ty.is64 f.a j)))

/-! ### Control -/

/-- A transfer taken puts the group at the clause header at its own header plus 8 × offset, or at the address its register holds;
CALL links the address of the word after it (R109, R110). -/
def Obligations.TransfersTaken : Prop :=
  ∀ (s : State) (g : Group) (f : FC), g.act f.p ≠ 0 →
    let k := (g.rdSc f.a).setWidth 32 &&& g.active
    (∀ p ∈ ([(.bra f, True), (.bz f, g.rdSc f.a = 0), (.bnz f, g.rdSc f.a ≠ 0), (.bany f, k ≠ 0), (.ball f, k = g.active),
      (.bnone f, k = 0)] : List (Instr × Prop)),
      Ready s g p.1 → p.2 → ∃ h, exec p.1 s = .next { s with focus := some h } ∧
        Jumped s g h (g.hdr + f.off.signExtend 64 <<< 3)) ∧
    (Ready s g (.call f) → ∃ h g', exec (.call f) s = .next { s with focus := some h } ∧
      Jumped s g' h (g.hdr + f.off.signExtend 64 <<< 3) ∧ g' = { g with s := g'.s } ∧
      SWritten g g' (.s f.link) (g.hdr + BitVec.ofNat 64 (8 * (g.idx + 2)))) ∧
    (∀ p ∈ ([(.ret f, g.rdS f.link.toNat), (.brx f, g.rdSc f.a)] : List (Instr × W64)),
      Ready s g p.1 → p.2.toNat % 8 = 0 → ∃ h, exec p.1 s = .next { s with focus := some h } ∧ Jumped s g h p.2)

/-- A conditional transfer whose test fails in a group with acting lanes only moves on; an indirect one to an address that is no
multiple of 8 raises ALIGN with that address and the position unchanged (R109, R110). NOP has no effect. EXIT retires the acting lanes: with lanes left the group goes on without them; with none it is gone, its slot
is vacant and no memory has changed. REFORM files every active thread under the group's team and role with its next position, and
the group is gone (R111 to R115). That a slot left by a half keeps that half's registers is the model's choice, log entry 15. -/
def Obligations.OtherControl : Prop :=
  (∀ (s : State) (g : Group) (f : FC), g.act f.p ≠ 0 →
     let k := (g.rdSc f.a).setWidth 32 &&& g.active
     (∀ p ∈ ([(.bz f, g.rdSc f.a ≠ 0), (.bnz f, g.rdSc f.a = 0), (.bany f, k = 0), (.ball f, k ≠ g.active), (.bnone f, k ≠ 0)] :
       List (Instr × Prop)), Ready s g p.1 → p.2 → Idle p.1 s g) ∧
     (∀ p ∈ ([(.ret f, g.rdS f.link.toNat), (.brx f, g.rdSc f.a)] : List (Instr × W64)),
       Ready s g p.1 → p.2.toNat % 8 ≠ 0 → exec p.1 s = .next { s with focus := some { g with
         trap := some ⟨.align, p.2, 0, encode p.1, 0, g.idx, g.hdr⟩, sleep := .awake } })) ∧
  (∀ (s : State) (g : Group) (f : FC) (vm : W32),
     (Ready s g (.nop f) → Idle (.nop f) s g) ∧
     (Ready s g (.exit f) → g.active &&& ~~~ (g.act f.p) ≠ 0 →
       exec (.exit f) s = .next { s with focus := some { g with active := g.active &&& ~~~ (g.act f.p) }.advance }) ∧
     (Ready s g (.exit f) → g.active &&& ~~~ (g.act f.p) = 0 →
       ∃ t, exec (.exit f) s = .next t ∧ t.focus = none ∧ t.groups = s.groups ∧ t.accs = s.accs ∧ t.contexts = s.contexts ∧
         SameMemory s t ∧ (t.partOf g).vacant = (s.partOf g).vacant ++ [⟨g.slot, g.half, g.team, g.grp, false, if g.half.isSome then g.v else []⟩]) ∧
     (Ready s g (.reform f) →
       Readable s g [srcAt f.a false false (g.act f.p)] vm → g.v.all (fun x => !x.2.empty) = true →
       ∃ t, exec (.reform f) s = .next t ∧ t.focus = none ∧ t.groups = s.groups ∧ t.accs = s.accs ∧ SameMemory s t ∧
         (t.partOf g).vacant = (s.partOf g).vacant ++ [⟨g.slot, g.half, g.team, g.grp, true, if g.half.isSome then g.v else []⟩] ∧
         ∀ l ∈ lanesOf g.active, ∃ gl, (gl ∈ (t.partOf g).glades ∨ ∃ d ∈ (t.partOf g).draws, d.glade = gl) ∧
           gl.team = g.team ∧ gl.role = g.role ∧
           gl.pc = (if (g.act f.p).getLsbD l ∧ s.rd32 g .f32 f.a l ≠ 0 then
               (((s.team? g.team).map (·.kaddr)).getD 0) + BitVec.ofNat 64 (8 * (s.rd32 g .f32 f.a l).toNat)
             else g.hdr + BitVec.ofNat 64 (8 * (g.idx + 2))) ∧
           ∃ x ∈ gl.filed, x.tid = g.tids.getD l 0))

/-! ### Memory -/

/-- Loads: where every acting lane's access can go ahead, the destination lanes become EMPTY, one access for each acting lane goes
in flight with the lane's address, width and order, in lane order, and the group moves on; LDS counts its bank passes. No byte of
memory changes; LD and LDF send their line requests to L1 (R165, R178, R180, R181, R184, R185, R186). SLD, where no rule of order
holds its read back and no byte is poisoned, writes the bytes at its address, little-endian and extended under the type, to the s
register at once; one that misses L1 at the end of its clause goes in flight, and the group waits for it at its next clause entry.
No byte of memory changes (R165, R178, R181). Where the spec is silent it follows the model's choice, log entry 106: the bank passes of 1 B
and 2 B accesses. -/
def Obligations.Loads : Prop :=
  (∀ (s : State) (g : Group) (f : FM) (vm : W32),
     let m := lanesOf (g.act f.p)
     let w := memW f.ty
     let ls := m.map fun l => (l, eaOf g f l)
     (Ready s g (.ld f) → Readable s g (idxSrc f (g.act f.p)) vm → dstBusy s g f.data (memRegs w) m = false →
       Reaches s g .rd w ls →
       let b := reqLines s g (m.map fun l => (paOf s g (eaOf g f l), w))
       Requested s b ∧ InFlightOn b (.ld f) s g g f.data (memRegs w) m (m.map fun l =>
         { gAcc g 0x60 .load (.glob (paOf s g (eaOf g f l))) (eaOf g f l) w f.acq false f.scope with
           dst := some ⟨f.data, l, f.ty, none⟩, miss := missesL1 s g (paOf s g (eaOf g f l)) w }.byLanes g [l]) vm) ∧
     (∀ t, Ready s g (.lds f) → Readable s g (idxSrc f (g.act f.p)) vm → dstBusy s g f.data (memRegs w) m = false →
       s.team? g.team = some t → ReachesSpad t w false ls →
       InFlight (.lds f) s g { g with bkpass := g.bkpass + BitVec.ofNat 64 (bankPasses w ls) } f.data (memRegs w) m (m.map fun l =>
         { gAcc g 0x62 .load (.spad t.id (eaOf g f l)) (eaOf g f l) w f.acq false f.scope with
           dst := some ⟨f.data, l, f.ty, none⟩ }.byLanes g [l]) vm) ∧
     (Ready s g (.ldf f) → Readable s g (idxSrc f (g.act f.p)) vm → dstBusy s g f.data 1 m = false →
       Reaches s g .rd 1 ls →
       (∀ x ∈ hitXls s g ls, x.va % fmtWidth (leafFmt x.leaf) = 0 ∧ ldfIsF32 (leafFmt x.leaf) = some (f.ty == .f32) ∧
         ldfReads x ≠ []) →
       let at_ := fun (x : Xl) (r : Nat × Nat) => x.pa + r.1 - (x.va - x.base)
       let b := reqLines s g (((hitXls s g ls).map fun x => (ldfReads x).map fun r => (at_ x r, r.2)).flatten)
       Requested s b ∧ InFlightOn b (.ldf f) s g g f.data 1 m (((hitXls s g ls).map fun x => (ldfReads x).map fun r =>
         { gAcc g 0x64 .load (.glob (at_ x r)) (x.base + r.1) r.2 f.acq false f.scope with
           dst := some ⟨f.data, x.lane, f.ty, some (leafFmt x.leaf, leafGeom x.leaf + 256 * ldfBit x)⟩,
           miss := missesL1 s g (at_ x r) r.2 }.byLanes g [x.lane]).flatten) vm)) ∧
  (∀ (s : State) (g : Group) (f : FM), Ready s g (.sld f) → g.act f.p ≠ 0 →
     Reaches s g .rd (memW f.ty) [(0, eaOf g f 0)] →
     let a := { gAcc g 0x65 .load (.glob (paOf s g (eaOf g f 0))) (eaOf g f 0) (memW f.ty) f.acq false f.scope with
       id := s.nextId, seq := s.nextId }
     let n := leNat ((accRead s a).map (·.1))
     let late := g.idx + 1 = g.count ∧ missesL1 s g (paOf s g (eaOf g f 0)) (memW f.ty) = true
     (late → InFlight (.sld f) s g { g with sld := some (g.hdr, g.idx, g.word?.getD 0) } (.v 0) 0 []
       [{ a with dst := some ⟨f.data, 0, f.ty, none⟩, miss := true }] 0) ∧
     (¬late → blocked s.accs a = false → (accRead s a).all (fun b => b.2 == .ok) = true →
     ∃ h t, exec (.sld f) s = .next t ∧ t.focus = some h ∧ Moved g h 0 ∧ h.v = g.v ∧ h.k = g.k ∧ SameMemory s t ∧
       t.accs = s.accs ∧ Woken s t ∧
       SWritten g h f.data (match memW f.ty with
         | 1 => if f.ty.signed then (BitVec.ofNat 8 n).signExtend 64 else (BitVec.ofNat 8 n).setWidth 64
         | 2 => if f.ty.signed then (BitVec.ofNat 16 n).signExtend 64 else (BitVec.ofNat 16 n).setWidth 64
         | 4 => if f.ty.signed then (BitVec.ofNat 32 n).signExtend 64 else (BitVec.ofNat 32 n).setWidth 64
         | _ => BitVec.ofNat 64 n)))

/-- Stores: where every acting lane's access can go ahead and the iteration's stores are not held, the lanes' bytes go in flight, as
one access for each line of global memory, and one for each lane in the scratchpad; every address that some lane covers carries the
byte of the highest lane that does, and no other address carries any. No byte of memory changes until the steps that follow (R165, R178, R182, R183, R186). Where
the spec is silent it follows the model's choice, log entry 106: the bank passes of 1 B and 2 B accesses. -/
def Obligations.Stores : Prop :=
  ∀ (s : State) (g : Group) (f : FM) (vm : W32), uncommitted s g = false →
    let m := lanesOf (g.act f.p)
    let w := memW f.ty
    let ls := m.map fun l => (l, eaOf g f l)
    let src := idxSrc f (g.act f.p)
    let dat := ([⟨f.data, memRegs w, f.t, m.map fun l => (l, l)⟩] : List Src)
    (Ready s g (.st f) → readSrcs s g true (src ++ dat) = .ok vm → firstBad s g src = none → Reaches s g .wr w ls →
      LinesFollow s g ls → ∃ accs, InFlight (.st f) s g g (.v 0) 0 [] accs vm ∧
        (∀ a ∈ accs, a.kind = .store ∧ a.stage = .issued ∧ a.rel = f.rel ∧ a.scope = f.scope ∧ a.gid = some g.gid ∧
          ∃ x ∈ ls, a.place = .glob (paOf s g x.2 / 128 * 128) ∧ a.va = x.2 / 128 * 128) ∧
        (accs.map (·.pa)).Nodup ∧
        ∀ a, accPaByte accs a = storedByte (ls.map fun x => (paOf s g x.2, dataBytes s g f.data w x.1)) a) ∧
    (∀ t, Ready s g (.sts f) → readSrcs s g true (src ++ dat) = .ok vm → firstBad s g src = none →
      s.team? g.team = some t → ReachesSpad t w true ls →
      ∃ accs, InFlight (.sts f) s g { g with bkpass := g.bkpass + BitVec.ofNat 64 (bankPasses w ls) } (.v 0) 0 [] accs vm ∧
        (∀ a ∈ accs, a.kind = .store ∧ a.stage = .issued ∧ a.rel = f.rel ∧ a.scope = f.scope ∧ a.gid = some g.gid ∧
          a.place = .spad t.id a.va) ∧
        accs.map (·.tids) = m.map (fun l => [g.tids.getD l 0]) ∧
        ∀ a, accByte accs a = storedByte (ls.map fun x => (x.2, dataBytes s g f.data w x.1)) a) ∧
    (Ready s g (.sst f) → g.act f.p ≠ 0 → Reaches s g .wr w [(0, eaOf g f 0)] →
      ∃ a, InFlight (.sst f) s g g (.v 0) 0 [] [a] 0 ∧ a.kind = .store ∧ a.stage = .issued ∧ a.rel = f.rel ∧ a.scope = f.scope ∧
        a.gid = some g.gid ∧ a.place = .glob (paOf s g (eaOf g f 0)) ∧ a.va = eaOf g f 0 ∧
        ∀ x, accPaByte [a] x = storedByte [(paOf s g (eaOf g f 0), okBytes (leBytes w (g.rdSc f.data).toNat))] x)

/-- PREF and CCTL change no register, no access and no byte of memory. PREF faults on no lane; CCTL.inv1 discards the acting
lanes' lines from the core's L1, CCTL.wb writes the dirty lines of their superblocks in the home's L2 back and keeps them valid, CCTL.evict
takes the superblocks out of every L1, L2 and RDC of the package (R187, R188). FENCE and FENCE.RG put one order point into the group's stream; an empty range orders
nothing. WAITL completes at once where its count is 0 or L1 holds no copy of the line, also after a wake, and else sleeps on
the line, its count cut at 2^20 cycles (R189, R190). Where the spec is silent it follows the model's choice, log entries 17, 87 and
105: that CCTL and WAITL take any reachable address, aligned or not, is log entry 87. -/
def Obligations.CacheFencesWaitl : Prop :=
  (∀ (s : State) (g : Group) (f : FM) (lvl : PrefLvl) (vm : W32),
     let ls := (lanesOf (g.act f.p)).map fun l => (l, eaOf g f l)
     Readable s g (idxSrc f (g.act f.p)) vm →
     (Ready s g (.pref lvl f) → (∀ x ∈ (xlateAll s g.die g.core g.ctx g.gid ls).2, x.2.2 ≠ .miss) →
       ∃ h t, exec (.pref lvl f) s = .next t ∧ t.focus = some h ∧ Moved g h vm ∧ h.s = g.s ∧ h.v = g.v ∧ h.k = g.k ∧
         SameMemory s t ∧ t.accs = s.accs ∧ Woken s t) ∧
     (∀ i ∈ ([.cctlInv1 f, .cctlWb f, .cctlEvict f] : List Instr), Ready s g i → Reaches s g .rd 1 ls →
       ∃ h t, exec i s = .next t ∧ t.focus = some h ∧ Moved g h vm ∧ h.s = g.s ∧ h.v = g.v ∧ h.k = g.k ∧ SameMemory s t ∧
         t.accs = s.accs ∧ Woken s t ∧
         (i = .cctlWb f → t = { s with focus := some h, dies := t.dies } ∧
           (∀ d, t.die d = { s.die d with l2 := (t.die d).l2 } ∧ ∀ l, sbHas (t.die d).l2 l = sbHas (s.die d).l2 l) ∧
           ∀ x ∈ ls, paFar (paOf s g x.2) = false → ∀ j, j < 4 →
             sbDirty (t.die (homeDie (paOf s g x.2))).l2 (paOf s g x.2 / 512 * 4 + j) = false) ∧
         (i = .cctlInv1 f → ∀ x ∈ ls, paFar (paOf s g x.2) = false →
           (t.core g.die g.core).line? (paOf s g x.2 / 128) = none) ∧
         (i = .cctlEvict f → ∀ x ∈ ls, paFar (paOf s g x.2) = false → ∀ d, d < 4 → ∀ c, c < 48 → ∀ j, j < 4 →
           (t.core d c).line? (paOf s g x.2 / 512 * 4 + j) = none ∧
           sbHas (t.die d).l2 (paOf s g x.2 / 512 * 4 + j) = false ∧ sbHas (t.die d).rdc (paOf s g x.2 / 512 * 4 + j) = false))) ∧
  (∀ (s : State) (g : Group) (f : FM), g.act f.p ≠ 0 →
     (Ready s g (.fence f) →
       InFlight (.fence f) s g g (.v 0) 0 [] [gAcc g 0x69 (.fence f.scope) (.glob 0) 0 0 false false f.scope] 0) ∧
     (Ready s g (.fenceRg f) → (g.rdSc f.data) ≠ 0 →
       InFlight (.fenceRg f) s g g (.v 0) 0 [] [gAcc g 0x6A (.fenceRg f.scope (g.rdS f.base.toNat).toNat (g.rdSc f.data).toNat)
         (.glob 0) 0 0 false false f.scope] 0) ∧
     (Ready s g (.fenceRg f) → (g.rdSc f.data) = 0 → Idle (.fenceRg f) s g) ∧
     (Ready s g (.waitl f) → g.sleep = .rewoken → Idle (.waitl f) s g) ∧
     (Ready s g (.waitl f) → g.sleep ≠ .rewoken → Reaches s g .rd 1 [(0, eaOf g f 0)] →
       let pa := paOf s g (eaOf g f 0)
       let until_ := s.clk g.die g.core + min (g.rdSc f.data).toNat (2 ^ 20)
       ((g.rdSc f.data = 0 ∨ (paFar pa = false ∧ (s.core g.die g.core).line? (pa / 128) = none)) → Idle (.waitl f) s g) ∧
       (g.rdSc f.data ≠ 0 → paFar pa = true →
         exec (.waitl f) s = .next { s with focus := some { g with sleep := .waitl none until_ } }) ∧
       (g.rdSc f.data ≠ 0 → paFar pa = false → ((s.core g.die g.core).line? (pa / 128)).isSome →
         exec (.waitl f) s = .next { s with focus := some { g with sleep := .waitl (some (pa / 128)) until_ } })))

/-! ### Atomics and barriers -/

/-- Atomics: one access for each acting lane goes in flight with the lane's operation and operand; the destination lanes of ATOM and
ATOMS are owed, REDM writes none. Pod-remote memory asks for scope `.pod` or wider, host memory for `.sys` (R235, R236, R237,
R238). -/
def Obligations.Atomics : Prop :=
  ∀ (s : State) (g : Group) (op : AtomOp) (t : Ty) (f : FQ) (vm : W32), uncommitted s g = false →
    let m := lanesOf (g.act f.p)
    let w := if t.is64 then 8 else 4
    let ls := m.map fun l => (l, (g.rdS f.base.toNat + (s.rd32 g .f32 f.a l).setWidth 64).toNat)
    let srcs := [srcAt f.a false false (g.act f.p), srcAt f.b t.is64 false (g.act f.p)]
      ++ (if op = .cas then [srcAt f.dst t.is64 false (g.act f.p)] else [])
    let rmw := fun l => AccKind.rmw (Rmw.mk op t (s.rdN g (RealFmt.ofTy t) t.is64 f.b l)
      (if op = .cas then s.rdN g .f32 t.is64 f.dst l else 0))
    let atScope := ∀ x ∈ ls, (paRemote (paOf s g x.2) = true → f.scope = .pod ∨ f.scope = .sys) ∧
      (paHost (paOf s g x.2) = true → f.scope = .sys)
    Readable s g srcs vm →
    (Ready s g (.atom op t f) → dstBusy s g f.dst (memRegs w) m = false → Reaches s g .both w ls → atScope →
      InFlight (.atom op t f) s g g f.dst (memRegs w) m (ls.map fun x =>
        { gAcc g 0x78 (rmw x.1) (.glob (paOf s g x.2)) x.2 w f.acq f.rel f.scope with
          dst := some ⟨f.dst, x.1, t, none⟩ }.byLanes g [x.1]) vm) ∧
    (Ready s g (.redm op t f) → Reaches s g .both w ls → atScope →
      InFlight (.redm op t f) s g g (.v 0) 0 [] (ls.map fun x =>
        (gAcc g 0x7A (rmw x.1) (.glob (paOf s g x.2)) x.2 w f.acq f.rel f.scope).byLanes g [x.1]) vm) ∧
    (∀ tm, Ready s g (.atoms op t f) → dstBusy s g f.dst (memRegs w) m = false → s.team? g.team = some tm →
      ReachesSpad tm w true ls →
      InFlight (.atoms op t f) s g g f.dst (memRegs w) m (ls.map fun x =>
        { gAcc g 0x79 (rmw x.1) (.spad tm.id x.2) x.2 w f.acq f.rel f.scope with
          dst := some ⟨f.dst, x.1, t, none⟩ }.byLanes g [x.1]) vm)

/-- Barrier objects: BARINIT arms one with its counts and keeps its phase; BARARR adds the number of acting lanes, and the phase
advances when both counts are met; BARTEST and BARWAIT compare the phase; BARKILL kills it, and every group waiting on it
holds BARRUN to deliver. A BARWAIT that returns while chunks counted for a phase before have still to land, or their writes are on their
way, leaves the group an order point, and no later load of global memory by the group takes its value before they are in the die's view
(R95, R99, R239 to R244). Where the spec is silent it follows the model's choice, log entries 103, 124 and 136: that an object's poison is
dropped is log entry 124, that a BARTEST which writes 1 leaves no such point log entry 136. -/
def Obligations.BarrierObjects : Prop :=
  ∀ (s : State) (g : Group) (f : FQ) (t : Team) (o : Nat), g.act f.p ≠ 0 →
    let b := readObj t o
    let n := (lanesOf (g.act f.p)).length
    let e := ((g.rdSc f.a).setWidth 32).toNat
    let past := (BitVec.ofNat 16 b.phase - (g.rdSc f.a).setWidth 16)
    let armed := { b with expa := e, expb := ((g.rdSc f.b).setWidth 32).toNat, arr := 0, land := 0, resv := 0, cause := 0, st := 1 }
    (Ready s g (.barinit f) → uncommitted s g = false → ObjReady s g f t o false → b.st ≠ 3 → 1 ≤ e → e ≤ 65535 →
      (b.st = 1 → b.arr = 0 ∧ b.land = 0) →
      ObjDone (.barinit f) s g t o armed (.v 0) 0) ∧
    (Ready s g (.bararr f) → uncommitted s g = false → ObjReady s g f t o true → b.st = 1 → b.arr + n ≤ b.expa → b.land ≤ b.expb →
      ObjDone (.bararr f) s g t o
        (if b.arr + n = b.expa ∧ b.land = b.expb then { b with arr := 0, land := 0, phase := (b.phase + 1) % 65536 }
         else { b with arr := b.arr + n }) f.dst (BitVec.ofNat 64 b.phase)) ∧
    (Ready s g (.bartest f) → ObjReady s g f t o false → b.st = 1 →
      ObjDone (.bartest f) s g t o b f.dst (if 1 ≤ past.toNat ∧ past.toNat ≤ 32768 then 1 else 0)) ∧
    (Ready s g (.barwait f) → ObjReady s g f t o false → b.st = 1 → 1 ≤ past.toNat ∧ past.toNat ≤ 32768 →
      let toLand := fun (x : Nat × Nat) => ∃ c ∈ s.cmds, c.team = g.team ∧ 16 * c.bar = o ∧ c.rel = false ∧
        ∃ k ∈ c.chunks, k.counted = true ∧ k.landed = false ∧ k.phase ≠ b.phase ∧ x = (c.id, k.n)
      let onWay := fun (n : Nat) => (∃ a ∈ s.accs, a.id = n ∧ a.performed 1 = false) ∧
        ∃ x ∈ s.sights, x.team = g.team ∧ x.off = o ∧ x.phase ≠ b.phase ∧ n ∈ x.ids
      ((∀ x, ¬toLand x) → (∀ n, ¬onWay n) → ObjDone (.barwait f) s g t o b (.v 0) 0) ∧
      ((∃ x, toLand x) ∨ (∃ n, onWay n) → ∃ h v a cs ids, exec (.barwait f) s = .next v ∧ v.focus = some h ∧ Moved g h 0 ∧ h.s = g.s ∧
        h.v = g.v ∧ h.k = g.k ∧ v.groups = s.groups ∧ v.home = s.home ∧ v.host = s.host ∧ v.accs = s.accs ++ [a] ∧ a.id = s.nextId ∧
        a.kind = .counted cs ids ∧ a.gid = some g.gid ∧ (∀ x, toLand x → x ∈ cs) ∧ ∀ n, onWay n → n ∈ ids)) ∧
    (∀ a p cs ids ev, s.acc? a.id = some a → a.isLoad = true → a.isSpad = false → p ∈ s.accs → p.kind = .counted cs ids → p.before a = true →
      cs ≠ [] ∨ (∃ n ∈ ids, ∃ c ∈ s.accs, c.id = n ∧ c.performed 1 = false) → exec (.readFromView a.id ev) s = .next s) ∧
    (Ready s g (.barkill f) → uncommitted s g = false → ObjReady s g f t o false → b.st ≠ 3 →
      ObjLeft (.barkill f) s g t o { b with st := 0, arr := 0, land := 0 } (.v 0) 0 (waitersFaulted s g.team o))

/-- Network barriers: NETARR counts the group's arrival once its earlier accesses are performed at the scope, and returns the
generation; the generation completes when the expected count is reached. NETWAIT completes where its partition has seen a later
generation, and sleeps otherwise (R246, R247, R248). Where the spec is silent it follows the model's choice, log entries 58, 80
and 123. -/
def Obligations.NetworkBarriers : Prop :=
  ∀ (s : State) (g : Group) (f : FQ) (n : NetBar), g.act f.p ≠ 0 → netOf s g f = some n →
    (Ready s g (.netarr f) → n.arrived.all (fun x => x.1 != g.gid) = true → allDone s g f.scope = true →
      ∃ h t, exec (.netarr f) s = .next t ∧ t.focus = some h ∧ Moved g h 0 ∧ SWritten g h f.dst (BitVec.ofNat 64 n.gen) ∧ h.v = g.v ∧
        h.k = g.k ∧ SameMemory s t ∧ t.accs = s.accs ∧ t.groups = s.groups ∧
        ∃ m ∈ t.nets, m.key = n.key ∧
          (n.arr + 1 < n.exp → m.gen = n.gen ∧ m.arr = n.arr + 1 ∧ (g.gid, g.core / 4) ∈ m.arrived) ∧
          (n.exp ≤ n.arr + 1 → podCut s n = false → m.gen = (n.gen + 1) % 65536 ∧ m.arr = 0 ∧ m.arrived = [])) ∧
    (Ready s g (.netwait f) →
      let past := (BitVec.ofNat 16 (seenGen (s.partOf g) n) - (g.rdSc f.a).setWidth 16)
      (1 ≤ past.toNat ∧ past.toNat ≤ 32768 → Idle (.netwait f) s g) ∧
      (¬(1 ≤ past.toNat ∧ past.toNat ≤ 32768) →
        exec (.netwait f) s = .next { s with focus := some { g with sleep := .barrier } }))

/-! ### Pipes -/

/-- PIPE and PIPE.H open a pipe in the lowest free number and slot with the values captured at once: N from the operand's low
32 bits, the body at the target, the acting lanes; with N ≠ 0 iteration 0 starts in the pipe's slot with the opener's s
registers and its stage predicates (R211, R213, R215, R216, R222). Where the spec is silent it follows the model's choice, log
entries 18, 120 and 121: that a poisoned live-in is captured as it stands is log entry 120. -/
def Obligations.PipeOpens : Prop :=
  ∀ (s : State) (g : Group) (f : FPipe) (held : Bool) (num slot : Nat),
    let i := if held then Instr.pipeH f else Instr.pipe f
    Ready s g i → g.act f.p ≠ 0 →
    (∀ l ∈ lanesOf (g.act f.p), ∀ n, n < f.live.val → (g.laneV n l).empty = false) → pipeRoom s g = some (num, slot) →
    ∃ t q, exec i s = .next t ∧ t.focus = some { g with opened := some num }.advance ∧ SameMemory s t ∧
      (t.partOf g).pipe? num = some q ∧ q.n = ((g.rdSc f.a).setWidth 32).toNat ∧ q.body = g.hdr + f.off.signExtend 64 <<< 3 ∧
      q.lanes = g.act f.p ∧ q.stride = (match f.stride with | .s4 => 4 | .s8 => 8 | .s16 => 16) ∧ q.dist = f.dist.val + 1 ∧
      q.held = held ∧ q.opener = g.gid ∧ q.slot = slot ∧ q.brk = none ∧
      (q.n = 0 → q.launched = 0 ∧ t.groups = s.groups) ∧
      (q.n ≠ 0 → q.launched = 1 ∧ ∃ c, t.groups = s.groups ++ [c] ∧ c.gid = s.nextId ∧ c.iter = some ⟨num, 0, false⟩ ∧ c.slot = slot ∧
        AtClause c q.body ∧ c.active = g.act f.p ∧ (∀ n, c.rdS n = g.rdS n) ∧ c.rdK 12 = 0 ∧ c.rdK 13 = 0 ∧ c.rdK 14 = 0 ∧
        c.rdK 15 = (if 1 < q.n then g.act f.p else 0))

/-- PEND and PBRK retire an iteration that has no write to its own slots pending: its group is gone, lanes of its own slots still
EMPTY become VOID; PEND leaves it retired, PBRK by iteration k sets the break at the lowest such k and cancels the running
iterations above (R220, R223, R224, R225). A cancelled iteration retires broken either way. No byte of memory changes but those of
scratchpad stores that the pipe's iterations held, which a commitment may write (R226). That a cancelled iteration which issues PEND
retires as by cancellation is the model's choice, log entry 132. -/
def Obligations.IterationsEnd : Prop :=
  ∀ (s : State) (g : Group) (f : VR) (it : IterRec) (q : Pipe) (x : IterInfo), g.act f.p ≠ 0 → g.iter = some it →
    s.pipeOf g = some q → q.iter? it.k = some x → q.owedOwn it.k = false → (s.accs.map (·.id)).Nodup →
    ∀ i ∈ ([.pend f, .pbrk f] : List Instr), Ready s g i →
      ∃ t q' x', exec i s = .next t ∧ t.focus = none ∧ HeldWritten s t (q.iters.map (·.gid)) ∧ (t.partOf g).pipe? it.pipe = some q' ∧
        q'.iter? it.k = some x' ∧ x'.st = (if i = .pend f ∧ x.cancelled = false then .pended else .broken) ∧
        (q'.brk = if i = .pbrk f ∧ x.cancelled = false then some (match q.brk with | none => it.k | some b => min b it.k) else q.brk) ∧
        (i = .pbrk f → x.cancelled = false → ∀ y ∈ q.iters, it.k < y.k → y.st = .running →
          ∃ y' ∈ q'.iters, y'.k = y.k ∧ y'.cancelled = true) ∧
        ∀ n l, n < q.stride → l < 32 → (q'.slotLane (winSlot q.stride n it.k) l).st ≠ .empty

/-- PJOIN, once no iteration runs and none is still to come, closes the pipe and gives the break number, or N; YVOID makes acting
lanes of its slot VOID with data 0; PSTAT gives the pipe's word, 0 with no pipe (R227, R229, R230). -/
def Obligations.PipeQueries : Prop :=
  ∀ (s : State) (g : Group) (f : VR) (q : Pipe),
    (Ready s g (.pjoin f) → g.act f.p ≠ 0 → (∃ n, g.opened = some n ∧ (s.partOf g).pipe? n = some q) →
      (q.brk.isSome ∨ q.n ≤ q.launched) → (∀ x ∈ q.iters, x.st ≠ .running) →
      (∀ a ∈ s.accs, a.stage = .held → ∀ x ∈ q.iters, a.gid ≠ some x.gid) →
      ∃ h t, exec (.pjoin f) s = .next t ∧ t.focus = some h ∧ Moved { g with opened := none } h 0 ∧
        SWritten g h f.dst (BitVec.ofNat 64 (q.brk.getD q.n)) ∧ h.v = g.v ∧ h.k = g.k ∧ SameMemory s t ∧
        (t.partOf g).pipe? q.num = none) ∧
    (∀ d, Ready s g (.yvoid f) → f.dst = .y d → dstBusy s g f.dst 1 (lanesOf (g.act f.p)) = false →
      ∃ h t, exec (.yvoid f) s = .next t ∧ OnlyGroupPart s t h ∧ Moved g h 0 ∧ h.s = g.s ∧ h.v = g.v ∧ h.k = g.k ∧
        SlotWritten s t g d.toNat (lanesOf (g.act f.p)) fun _ _ => ⟨0, .void, false, .ok⟩) ∧
    (Ready s g (.pstat f) → g.act f.p ≠ 0 →
      (∀ it, g.iter = some it → s.pipeOf g = some q → SDone (.pstat f) s g f.dst (pstatWord q true (q.isCancelled it.k)) 0) ∧
      (∀ n, g.iter = none → g.opened = some n → (s.partOf g).pipe? n = some q →
        SDone (.pstat f) s g f.dst (pstatWord q false false) 0) ∧
      (g.iter = none → g.opened = none → SDone (.pstat f) s g f.dst 0 0))

/-! ### Queues -/

/-- ENQ and ENQT reserve the slot at the tail: the block's TAIL rises by one, FREE falls, PE rises, and the element, the listed
registers' bytes, is on its way to that slot; ENQT writes all ones. On a full queue ENQ sleeps, counted at the home, and ENQT
writes 0. DEQ and DEQT reserve the element at the head: HEAD, FREE and PD rise by one and the destination registers' lanes are
owed, those of the lowest lanes alone for an element shorter than a register; on a queue with nothing to read DEQ sleeps and DEQT
writes 0. A grant that would take PE + PD beyond the capacity waits. LNCH enqueues its packet in a work queue of the front end and writes
the sequence number (R258 to R264, R370). States in which the front end has an event to post on a queue that the DEQ frees are left out:
its post may take the slot in the same step. Where the spec is silent it follows the model's choice, log entries 28, 95 and 104: that the
grant at PE + PD = C waits in a stall is log entry 95, that a block's poison is dropped log entry 104. -/
def Obligations.QueueReservations : Prop :=
  ∀ (s : State) (g : Group) (f : FQ) (pa : Nat) (q : Qcb) (n : BitVec 8) (vm : W32), QueueOpen s g f pa q →
    let fits := n.toNat + elemRegs g q.e ≤ kVregs (s.kword g)
    let src := ([⟨f.b, elemRegs g q.e, false, (elemLanes g q.e).map fun l => (l, l)⟩] : List Src)
    (∀ i ∈ ([.enq f, .enqt f] : List Instr), Ready s g i → f.b = .v n → fits → readSrcs s g true src = .ok vm →
      (q.free ≠ 0 → q.cap ≤ q.pe + q.pd →
        exec i s = .next { s with focus := some { g with voidm := g.voidm ||| vm, sleep := .stall } }) ∧
      (q.free ≠ 0 → q.pe + q.pd < q.cap → Reaches s g .wr 1 (slotLines q q.tail) →
        ∃ h t m, exec i s = .next t ∧ t.focus = some h ∧ Moved g h vm ∧ h.s = g.s ∧ h.v = g.v ∧
          (∀ k, h.rdK k = if i = .enqt f ∧ f.dst = .k (BitVec.ofNat 4 k) ∧ k ≠ 0 ∧ k < 16 then g.wmask else g.rdK k) ∧
          QueueNow t pa q q.head ((q.tail + 1) % 2 ^ 64) (q.free - 1) q.pd (q.pe + 1) 0 ∧
          t.qmoves = s.qmoves ++ [m] ∧ m.kind = .enq ∧ m.gid = g.gid ∧ m.qcb = pa ∧ m.n = q.tail ∧ m.landed = false ∧
          m.data = elemData g n.toNat q.e ∧ m.pas = (slotLines q q.tail).map fun x => paOf s g x.2) ∧
      (q.free = 0 → i = .enqt f →
        ∃ h, exec i s = .next { s with focus := some h } ∧ Moved g h vm ∧ KWritten g h f.dst 0 ∧ h.v = g.v ∧ h.s = g.s) ∧
      (q.free = 0 → i = .enq f →
        ∃ t, exec i s = .next t ∧ t.focus = some { g with voidm := g.voidm ||| vm, sleep := .full pa } ∧
          (t.qhome pa).full = (s.qhome pa).full ++ [g.gid] ∧ QueueNow t pa q q.head q.tail q.free q.pd q.pe 0)) ∧
    (∀ p ∈ ([(.deq f, false), (.deqt f, true)] : List (Instr × Bool)), Ready s g p.1 → f.dst = .v n → fits →
      dstBusy s g f.dst (elemRegs g q.e) (elemLanes g q.e) = false → (∀ c ∈ s.contexts, c.posts = [] ∨ 2 ^ 52 ≤ c.evq.toNat) →
      (q.head < q.tail - q.pe → q.cap ≤ q.pe + q.pd →
        exec p.1 s = .next { s with focus := some { g with sleep := .stall } }) ∧
      (q.head < q.tail - q.pe → q.pe + q.pd < q.cap → Reaches s g .rd 1 (slotLines q q.head) →
        ∃ h t m, exec p.1 s = .next t ∧ t.focus = some h ∧ Moved g h 0 ∧ h.s = g.s ∧
          (∀ k, h.rdK k = if p.2 = true ∧ f.a = .k (BitVec.ofNat 4 k) ∧ k ≠ 0 ∧ k < 16 then g.wmask else g.rdK k) ∧
          LanesOwed s t g h f.dst (elemRegs g q.e) (elemLanes g q.e) ∧
          QueueNow t pa q ((q.head + 1) % 2 ^ 64) q.tail ((q.free + 1) % 2 ^ 32) (q.pd + 1) q.pe 0 ∧
          t.qmoves = s.qmoves ++ [m] ∧ m.kind = .deq ∧ m.gid = g.gid ∧ m.qcb = pa ∧ m.n = q.head ∧ m.dst = n.toNat ∧
          m.pas = (slotLines q q.head).map fun x => paOf s g x.2) ∧
      (q.tail - q.pe ≤ q.head → p.2 = true → KDone p.1 s g f.a 0 0) ∧
      (q.tail - q.pe ≤ q.head → p.2 = false →
        ∃ t, exec p.1 s = .next t ∧ t.focus = some { g with sleep := .empty pa } ∧
          (t.qhome pa).empty = (s.qhome pa).empty ++ [g.gid] ∧ QueueNow t pa q q.head q.tail q.free q.pd q.pe 0)) ∧
    (∀ fy : FY, f = lnchQ fy → Ready s g (.lnch fy) → Reaches s g .rd 128 [(0, (g.rdSc fy.b).toNat)] → q.f 6 16 1 = 1 →
      q.free ≠ 0 → q.pe + q.pd < q.cap → Reaches s g .wr 1 (slotLines q q.tail) →
      ∃ h t m, exec (.lnch fy) s = .next t ∧ t.focus = some h ∧ Moved g h 0 ∧ SWritten g h fy.dst (BitVec.ofNat 64 q.tail) ∧
        h.v = g.v ∧ h.k = g.k ∧ QueueNow t pa q q.head ((q.tail + 1) % 2 ^ 64) (q.free - 1) q.pd (q.pe + 1) 0 ∧
        t.qmoves = s.qmoves ++ [m] ∧ m.kind = .lnch ∧ m.n = q.tail ∧ m.src = paOf s g (g.rdSc fy.b).toNat)

/-- QOPEN writes a fresh block of the specified element size, capacity and scope, `.quad` as `.die`, with nothing in it; it
passes the checks of every queue instruction. QCLOSE closes an open queue and wakes every group asleep on it; QSTAT gives
state, sizes, scope, free slots and published elements, or bit 63 alone for a block that fails the checks (R256, R266, R267,
R268). Where the spec is silent it follows the model's choice, log entries 24, 25 and 104. -/
def Obligations.QueueControl : Prop :=
  ∀ (s : State) (g : Group) (f : FQ) (pa : Nat) (q : Qcb), q = readQcb s pa →
    (let sp := g.rdSc f.a
     let esz := (sp.extractLsb' 0 4).toNat
     let logc := (sp.extractLsb' 8 5).toNat
     let sc := (sp.extractLsb' 16 3).toNat
     let sc1 := if sc = 1 then 2 else sc
     Ready s g (.qopen f) → QueueAt s g f pa → uncommitted s g = false → s.pkg < 64 →
      ¬(q.f 0 0 16 = 0x51C3 ∧ q.f 7 0 64 = q.sum ∧ q.st = 0) → 3 ≤ esz → esz ≤ 8 → 1 ≤ logc → logc ≤ 20 → 1 ≤ sc → sc ≤ 5 →
      sp.extractLsb' 4 4 = 0 → sp.extractLsb' 13 3 = 0 → sp >>> 19 = 0 → (g.rdSc f.b).toNat % 64 = 0 → mayUse g pa sc1 = true →
      allDone s g (scopeOfCode sc1) = true →
      ∃ h t, exec (.qopen f) s = .next t ∧ t.focus = some h ∧ Moved g h 0 ∧ h.s = g.s ∧ h.v = g.v ∧ h.k = g.k ∧
        (let r := readQcb t pa
         r.ok t pa = true ∧ r.esz = esz ∧ r.logc = logc ∧ r.scope = sc1 ∧ r.base = (g.rdSc f.b).toNat ∧ r.head = 0 ∧ r.tail = 0 ∧
         r.free = 2 ^ logc ∧ r.pd = 0 ∧ r.pe = 0 ∧ r.st = 0)) ∧
    (∀ i ∈ ([.qclose f, .qcloseKill f] : List Instr), Ready s g i → QueueOpen s g f pa q →
      ∃ h t, exec i s = .next t ∧ t.focus = some h ∧ Moved g h 0 ∧ h.s = g.s ∧ h.v = g.v ∧ h.k = g.k ∧
        QueueNow t pa q q.head q.tail q.free q.pd q.pe 1 ∧ (∀ x ∈ t.groups, x.sleep ≠ .full pa ∧ x.sleep ≠ .empty pa)) ∧
    (Ready s g (.qstat f) → QueueAt s g f pa → q.ok s pa = true → mayUse g pa q.scope = true →
      SDone (.qstat f) s g f.dst (BitVec.ofNat 64 (q.st * 2 ^ 54 + q.esz * 2 ^ 50 + q.logc * 2 ^ 45 + q.scope * 2 ^ 42 +
        q.free * 2 ^ 21 + (q.tail - q.pe - q.head))) 0) ∧
    (Ready s g (.qstat f) → QueueAt s g f pa → q.ok s pa = false → SDone (.qstat f) s g f.dst (BitVec.ofNat 64 (2 ^ 63)) 0)

/-! ### Matrix and copy -/

/-- The arrays and operand slots of a team: MXACQ takes the lowest free arrays, cleared, or says that it cannot; MXREL gives all up;
TCLAIM takes the lowest free slots, empty, and names them in the lanes; TFREE gives slots up; TFILL writes a unit of one slot and its
tag; SCLD writes one scale register of the acting quarters; MXSYNC completes once none of the group's operations is under way
(R290, R292 to R295, R309). -/
def Obligations.SlotsAndArrays : Prop :=
  ∀ (s : State) (g : Group) (f : FX) (n4 : Fin 4) (n16 : Fin 16) (mid pl4 : Bool) (u : BitVec 5) (vm : W32),
    let fr := s.frameOf g
    let m := g.act f.p
    let held := (List.range 4).filter fun a => fr.arrays[a]? == some (some g.team)
    let free := (List.range 4).filter fun a => fr.arrays[a]? == some none
    let slots := ((List.range fr.count).filter fun t => fr.holder t == none).take (n16.val + 1)
    let src := srcAt (.v f.va) false false m
    (Ready s g (.mxacq n4 f) → m ≠ 0 →
      (held = [] → n4.val + 1 ≤ free.length →
        ∃ h t, exec (.mxacq n4 f) s = .next t ∧ OnlyFrame s t g h ∧ Moved g h 0 ∧ KWritten g h (.k f.z) ones32 ∧ h.v = g.v ∧
          h.s = g.s ∧ (∀ a, (t.frameOf g).arrays[a]? =
            if a ∈ free.take (n4.val + 1) then some (some g.team) else fr.arrays[a]?) ∧
          (∀ a z i j, a < 4 → z < 16 → i < 16 → j < 16 → (t.frameOf g).tile a z i j =
            if a ∈ free.take (n4.val + 1) then (0, .ok) else fr.tile a z i j) ∧
          ∀ x o, x < 192 → o < 2048 → (t.frameOf g).byte x o = fr.byte x o) ∧
      (held = [] → free.length < n4.val + 1 → KDone (.mxacq n4 f) s g (.k f.z) 0 0) ∧
      (held ≠ [] → KDone (.mxacq n4 f) s g (.k f.z) (if n4.val + 1 ≤ held.length then ones32 else 0) 0)) ∧
    (Ready s g (.mxrel f) → m ≠ 0 → teamBusy s g.team = false →
      ∃ h t, exec (.mxrel f) s = .next t ∧ OnlyFrame s t g h ∧ Moved g h 0 ∧ h.v = g.v ∧ h.s = g.s ∧ h.k = g.k ∧
        ∀ a, (t.frameOf g).arrays[a]? = if a ∈ held then some none else fr.arrays[a]?) ∧
    (Ready s g (.tclaim n16 f) → m ≠ 0 →
      (slots.length = n16.val + 1 → dstBusy s g (.v f.va) 1 (List.range (n16.val + 1)) = false →
        ∃ h t, exec (.tclaim n16 f) s = .next t ∧ OnlyFrame s t g h ∧ Moved g h 0 ∧ KWritten g h (.k f.z) ones32 ∧
          VWritten g h f.va.toNat false (List.range (n16.val + 1)) (fun l => slots.getD l 0) ∧ h.s = g.s ∧
          ∀ x, (t.frameOf g).holder x = (if x ∈ slots then some g.team else fr.holder x) ∧
            (t.frameOf g).tag x = if x ∈ slots then noTag else fr.tag x) ∧
      (slots.length < n16.val + 1 → KDone (.tclaim n16 f) s g (.k f.z) 0 0)) ∧
    (Ready s g (.tfree f) → Readable s g [src] vm → (∀ l ∈ lanesOf m, fr.badRef g.team (vAt g f.va l) = false) →
      slotsBusy s g.ctx g.die g.core ((lanesOf m).map (vAt g f.va)) = false →
      ∃ h t, exec (.tfree f) s = .next t ∧ OnlyFrame s t g h ∧ Moved g h vm ∧ h.v = g.v ∧ h.s = g.s ∧ h.k = g.k ∧
        ∀ x, (t.frameOf g).holder x = if x ∈ (lanesOf m).map (vAt g f.va) then none else fr.holder x) ∧
    (∀ slot, Ready s g (.tfill mid pl4 u f) → Readable s g [src, srcAt (.v f.vb) false false m] vm → m ≠ 0 →
      (∀ l ∈ lanesOf m, vAt g f.va l = slot) → fr.badRef g.team slot = false →
      ∃ h t, exec (.tfill mid pl4 u f) s = .next t ∧ OnlyFrame s t g h ∧ Moved g h vm ∧ h.v = g.v ∧ h.s = g.s ∧ h.k = g.k ∧
        (t.frameOf g).tag slot = ⟨f.tA.code, pl4, mid, true⟩ ∧
        ∀ o, o < 2048 → (t.frameOf g).byte slot o = if 64 * u.toNat ≤ o ∧ (o - 64 * u.toNat) / 4 ∈ lanesOf m then
            (BitVec.ofNat 8 (vAt g f.vb ((o - 64 * u.toNat) / 4) / 256 ^ (o % 4)), .ok) else fr.byte slot o) ∧
    (let lanes := ((actQs g m).map (qLanes g)).flatten
     Ready s g (.scld f) → Readable s g [⟨.v f.va, 2, false, lanes.map fun l => (l, l)⟩] vm →
      ∃ h, exec (.scld f) s = .next { s with focus := some h } ∧ Moved { g with x := h.x } h vm ∧ h.v = g.v ∧ h.s = g.s ∧ h.k = g.k ∧
        (∀ l ∈ lanes, ∀ b, b < 8 → h.xCode (quarterOf g l) f.xa.toNat (8 * (l % 8) + b) =
          BitVec.ofNat 8 (pairAt g f.va l / 256 ^ b)) ∧
        ∀ q r n, r < 8 → n < 64 → ¬(q ∈ actQs g m ∧ r = f.xa.toNat) → h.xCode q r n = g.xCode q r n) ∧
    (Ready s g (.mxsync f) → m ≠ 0 →
      (mxPending s g.preds = false → Idle (.mxsync f) s g) ∧
      (mxPending s g.preds = true → exec (.mxsync f) s = .next { s with focus := some { g with sleep := .barrier } }))

/-- Products and tile operations join the queues of their arrays with what they capture: MMQ, MMQX and PHMMA in waves of as
many quarters as the team holds arrays, each quarter with its array, its slots, its scales and its part of the outlier list;
MXZERO, MXLDZ, MXDRAIN and PHFIN with each quarter's array, first row and pitch (R133, R291, R299, R300, R304, R306 to R308,
R310). Where the spec is silent it follows the model's choice, log entries 30 and 138. -/
def Obligations.MatrixOperations : Prop :=
  ∀ (s : State) (g : Group) (f : FX) (x : AuxProd) (y : AuxTile) (vm : W32),
    let fr := s.frameOf g
    let m := g.act f.p
    let qs := actQs g m
    let arrs := fr.arraysOf g.team
    let srcs := fun w => ([srcAt (.v f.va) w false m, srcAt (.v f.vb) false false m] : List Src)
    let first := fun (v : Nat → Nat) q => v ((qAct g m q).headD 0)
    let same := fun (v : Nat → Nat) => ∀ q ∈ qs, ∀ l ∈ qAct g m q, v l = first v q
    let onArray := fun (ab : BitVec 2) q => arrs.getD ((ab.toNat + q) % arrs.length) 0
    let room := fun (ab : BitVec 2) => queueRoom s g (qs.map (onArray ab)) = true
    let sa := first (vAt g f.va)
    let sb := first (vAt g f.vb)
    arrs ≠ [] →
    (∀ p ∈ ([(.mmq x f, .mmq, x.ab, x.pa, x.pb, x.sc, 0), (.mmqx x f, .mmqx, x.ab, x.pa, x.pb, x.sc, x.so),
        (.phmma x.ab f, .phmma, x.ab, 0, 0, false, 0)] : List (Instr × MxKind × BitVec 2 × BitVec 3 × BitVec 3 × Bool × BitVec 6)),
      let o := (g.rdS p.2.2.2.2.2.2.toNat).toNat % 2 ^ 32
      let n := if p.2.1 = .mmqx then ((g.rdS p.2.2.2.2.2.2.toNat).extractLsb' 32 16).toNat else 0
      Ready s g p.1 → Readable s g (srcs false) vm → same (vAt g f.va) → same (vAt g f.vb) →
      (∀ q ∈ qs, fr.badRef g.team (sa q) = false ∧ fr.badRef g.team (sb q) = false ∧
        fmtBad fr f p.2.2.2.1 p.2.2.2.2.1 (sa q) (sb q) = none ∧
        (n ≠ 0 → o % 8 = 0 ∧ n ≤ 4096 ∧ ∃ t, s.team? g.team = some t ∧ o + 8 * n * (q + 1) ≤ t.spadLen)) →
      room p.2.2.1 →
      ∃ ops, MatrixQueued p.1 s g vm ops ∧
        (∀ op ∈ ops, op.kind = p.2.1 ∧ op.z = f.z.toNat ∧ op.tA = f.tA ∧ op.tB = f.tB ∧
          ∀ a ∈ op.qs, ∀ b ∈ op.qs, a.q / arrs.length = b.q / arrs.length) ∧
        (ops.map (·.qs)).flatten.map (fun q => (q.q, q.arr, q.sa, q.sb, q.outl, q.outm)) =
          qs.map (fun q => (q, onArray p.2.2.1 q, sa q, sb q,
            (if p.2.1 = .mmqx then o + 8 * n * q else (g.rdS 0).toNat % 2 ^ 32), n)) ∧
        ∀ op ∈ ops, ∀ q ∈ op.qs, q.tagA = fr.tag q.sa ∧ q.tagB = fr.tag q.sb ∧
          q.xa = captured g p.2.2.2.2.2.1 q.q f.xa ∧ q.xb = captured g p.2.2.2.2.2.1 q.q f.xb) ∧
    (Ready s g (.mxzero x.ab f) → qs ≠ [] → room x.ab →
      ∃ op, MatrixQueued (.mxzero x.ab f) s g 0 [op] ∧ op.kind = .zero ∧ op.z = f.z.toNat ∧
        op.qs.map (fun q => (q.q, q.arr)) = qs.map (fun q => (q, onArray x.ab q))) ∧
    (let e := fun q => if y.g then first (pairAt g f.va) q else first (pairAt g f.va) q % 2 ^ 32
     let p := first (vAt g f.vb)
     let rows := fun q => (List.range 16).map fun r => (e q + r * p q) % 2 ^ 64
     ∀ k ∈ ([(.mxldz y f, .ldz, .rd, false), (.mxdrain y f, .drain, .wr, true), (.phfin y f, .phfin, .wr, true)] :
        List (Instr × MxKind × Need × Bool)),
      Ready s g k.1 → (k.2.2.2 = true → uncommitted s g = false) → Readable s g (srcs true) vm → qs ≠ [] →
      same (pairAt g f.va) → same (vAt g f.vb) →
      (∀ q ∈ qs, e q % 64 = 0 ∧ p q % 64 = 0 ∧ 64 ≤ p q ∧ p q ≤ 65536 ∧
        (y.add = true → y.g = true → e q / 2048 = (e q + 15 * p q + 63) / 2048)) → room y.ab →
      (y.g = true → Reaches s g k.2.2.1 1 ((qs.map fun q => (rows q).map fun a => (q, a)).flatten) ∧
        (y.add = true → ∀ q ∈ qs, ∀ a ∈ rows q, paRegion (paOf s g a) = 0)) →
      (y.g = false → ∃ t, s.team? g.team = some t ∧ ∀ q ∈ qs, ∀ a ∈ rows q, a + 64 ≤ t.spadLen ∧
        (k.2.2.2 = true → touchesArmed t a 64 = false)) →
      ∃ op, MatrixQueued k.1 s g vm [op] ∧ op.kind = k.2.1 ∧ op.z = f.z.toNat ∧ op.g = y.g ∧ op.add = y.add ∧ op.zr = y.zr ∧
        op.acq = y.acq ∧ op.rel = y.rel ∧ op.scope = y.scope ∧
        op.qs.map (fun q => (q.q, q.arr, q.base, q.pitch, q.pas)) = qs.map (fun q => (q, onArray y.ab q, e q, p q,
          if y.g then (rows q).map (paOf s g) else [])))

/-- Copies: one command joins the core's issue queue with its lanes gathered by line, CPYR's in elements of 4 bytes, CPYT's
with the shape record, the box and one chunk for each 128 B of the destination; the record fences empty the record cache (R315,
R319 to R322, R328, R330, R332). Where the spec is silent it follows the model's choice, log entries 33, 36 and 37. -/
def Obligations.CopyCommands : Prop :=
  ∀ (s : State) (g : Group) (f : FP) (op : CpyrOp) (t : Team) (vm : W32),
    let m := g.act f.p
    let n := CpSize.n f.size
    let ls := (lanesOf m).map (copyLane g f)
    let va := ls.map fun x => (x.lane, x.va)
    let at_ := fun l => { copyLane g f l with pa := paOf s g (copyLane g f l).va }
    (m ≠ 0 → uncommitted s g = false → s.team? g.team = some t → copyFree s g.die g.core ≠ 0 → copyObj f + 16 ≤ t.spadLen →
      (f.cmp = true → copyRing f + 16 ≤ t.spadLen ∧ ringShape t f = false ∧ ringArmed t f = false) →
      (Readable s g (copySrc f m) vm → (∀ x ∈ ls, x.off % n = 0 ∧ x.off + n ≤ t.spadLen) →
        (∀ p ∈ ([(.cpyIn f, .cpyIn, .rd), (.cpyOut f, .cpyOut, .wr)] : List (Instr × CmdKind × Need)),
          Ready s g p.1 → Reaches s g p.2.2 n va → (p.1 = .cpyIn f → ∀ x ∈ ls, touchesArmed t x.off n = false) →
          ∃ c, CopyQueued p.1 s g f t vm c ∧ c.kind = p.2.1 ∧
            (∀ k ∈ c.chunks, k.len = n ∧ k.count = n * k.lanes.length ∧ ∀ a ∈ k.lanes, ∀ b ∈ k.lanes, a.pa / 128 = b.pa / 128) ∧
            ∀ a, (∃ k ∈ c.chunks, a ∈ k.lanes) ↔ ∃ l ∈ lanesOf m, a = at_ l) ∧
        (Ready s g (.cpyr op f) → Reaches s g .wr n va → (∀ x ∈ ls, paFar (paOf s g x.va) = false) →
          ∃ c, CopyQueued (.cpyr op f) s g f t vm c ∧ c.kind = .cpyr op ∧ (∀ k ∈ c.chunks, k.len = 4 ∧ k.count = 4) ∧
            c.chunks.map (·.lanes) = ((lanesOf m).map fun l => (List.range (n / 4)).map fun j =>
              [{ at_ l with va := (at_ l).va + 4 * j, pa := (at_ l).pa + 4 * j, off := (at_ l).off + 4 * j }]).flatten)) ∧
      (∀ p ∈ ([(.cpytOm f, .cpytOm, true), (.cpytSp f, .cpytSp, false)] : List (Instr × CmdKind × Bool)), ∀ e,
        let addr := (g.rdS f.g.toNat).toNat
        let sv := (g.rdS f.sp.toNat).toNat % 2 ^ 32
        let d := if p.2.2 then 0 else sv + 16 * f.disp.toNat
        Ready s g p.1 → Readable s g [⟨.v (f.x.getD 0), 1, false, (List.range 4).map fun l => (l, l)⟩] vm → addr % 64 = 0 →
        (s.core g.die g.core).recs.find? (fun e => e.ctx == g.ctx && e.addr == addr) = some e → shapeBad p.2.2 e.data = false →
        d % (if recLayout e.data = 1 then 128 else recW e.data) = 0 →
        (if p.2.2 then (s.frameOf g).badRef g.team sv = false
         else d + recSize e.data ≤ t.spadLen ∧ touchesArmed t d (recSize e.data) = false) →
        (∀ a, (firstIn e.data (boxOrigin g f)).bind (boxVa e.data (boxOrigin g f)) = some a →
          a < 2 ^ 52 ∧ ∃ w pas len bit, tlbFind (s.core g.die g.core).tlb g.ctx a = some w ∧
            elemX s g.die g.core g.ctx g.gid g.sys e.data a = (s, .ok pas len bit)) →
        ∃ c, CopyQueued p.1 s g f t vm c ∧ c.kind = p.2.1 ∧ c.recData = e.data ∧ c.slot = sv ∧ c.dst = d ∧ c.coords = boxOrigin g f ∧
          (∀ k ∈ c.chunks, k.lanes = [] ∧ k.count = k.len ∧ k.doff / 128 = (k.doff + k.len - 1) / 128) ∧
          ∀ o, (∃ k ∈ c.chunks, k.doff ≤ o ∧ o < k.doff + k.len) ↔ d ≤ o ∧ o < d + recSize e.data)) ∧
    (∀ p ∈ ([(.rcfence f, (g.rdS f.g.toNat).toNat, min ((g.rdS f.g.toNat).toNat + (g.rdS f.sp.toNat).toNat) (2 ^ 64)),
        (.rcfenceAll f, 0, 2 ^ 64)] : List (Instr × Nat × Nat)), Ready s g p.1 → m ≠ 0 →
      ∃ h u, exec p.1 s = .next u ∧ u.focus = some h ∧ Moved g h 0 ∧ h.s = g.s ∧ h.v = g.v ∧ h.k = g.k ∧
        u = { s with focus := some h, cores := u.cores } ∧ (u.core g.die g.core) = { s.core g.die g.core with
          recs := (s.core g.die g.core).recs.filter fun e => !(e.ctx == g.ctx && decide (p.2.1 ≤ e.addr) && decide (e.addr < p.2.2)) })

/-! ### Gates and the system -/

/-- Gate instructions read their operands, leave their destination lanes owed, and hold their results for 16 cycles, GATEH for 24;
the unit takes the next two cycles later. The special arguments give the listed codes (R356, R358, R359, R360, R361). -/
def Obligations.GateResults : Prop :=
  (∀ (s : State) (g : Group) (f : VR) (vm : W32),
    let fn := fun (c : FV → Nat) l => let x := fF32.dec (finF32 g.nbv (s.rd32 g .f32 f.a l).toNat)
      if x.isNan then nanResult g.nbv fF32 fF32 [x] else foutF32 g.nbv (c x)
    let n32 := fun o l => (s.rd32 g .f32 o l).toNat
    let lo := fun o l => ((s.rd64 g .f32 o l).setWidth 32).toNat
    let hi := fun o l => ((s.rd64 g .f32 o l).extractLsb' 32 32).toNat
    let ls := lanesOf (g.act f.p)
    let clk := s.clk g.die g.core
    ∀ p ∈ ([
      (.sigm f, 16, fn sigmCode), (.tanh f, 16, fn tanhCode), (.exp2 f, 16, fn exp2Code), (.log2 f, 16, fn log2Code),
      (.rcp f, 16, fn rcpCode), (.rsq f, 16, fn rsqCode),
      (.gatec f, 16, fun l => gatecCode g.nbv (n32 f.a l) (n32 f.b l) (lo f.c l) (hi f.c l)),
      (.gateh f, 24, fun l => gatehCode g.nbv (n32 f.a l) (n32 f.b l)),
      (.gatecComp f, 16, fun l => gateCompCode g.nbv (n32 f.a l) (lo f.b l) (hi f.b l) (lo f.c l) (hi f.c l))] :
        List (Instr × Nat × (Nat → Nat))),
      ∀ sg, p.1.vsig = some (sg, f) → Ready s g p.1 → Readable s g (vrSrcs sg f (g.act f.p)) vm → (s.partOf g).gateBusy ≤ clk →
        let w := sg.dst.is64 f.ty
        dstBusy s g f.dst (if w then 2 else 1) ls = false →
        ∃ h t wb, exec p.1 s = .next t ∧ t.focus = some h ∧ Moved { g with gates := g.gates ++ [wb] } h vm ∧ h.s = g.s ∧ h.k = g.k ∧
          wb.dst = f.dst ∧ wb.due = clk + p.2.1 ∧ wb.vals = ls.map (fun l => (l, BitVec.ofNat 32 (p.2.2 l))) ∧
          wb.hi = (if w then ls.map fun l => (l, BitVec.ofNat 32 (p.2.2 l / 2 ^ 32)) else []) ∧
          LanesOwed (s.setPartOf g { s.partOf g with gateBusy := clk + 2 }) t g h f.dst (if w then 2 else 1) ls) ∧
  ∀ p ∈ ([(sigmCode, 0x3F000000, 0x3F800000, 0, 0x3F000000), (tanhCode, 0, 0x3F800000, 0xBF800000, 0x80000000),
      (exp2Code, 0x3F800000, 0x7F800000, 0, 0x3F800000), (log2Code, 0xFF800000, 0x7F800000, 0x7FC00000, 0xFF800000),
      (rcpCode, 0x7F800000, 0, 0x80000000, 0xFF800000), (rsqCode, 0x7F800000, 0, 0x7FC00000, 0xFF800000)] :
        List ((FV → Nat) × Nat × Nat × Nat × Nat)),
    p.1 (fF32.dec 0) = p.2.1 ∧ p.1 (fF32.dec 0x7F800000) = p.2.2.1 ∧ p.1 (fF32.dec 0xFF800000) = p.2.2.2.1 ∧
      p.1 (fF32.dec 0x80000000) = p.2.2.2.2

/-- System instructions: TRAP takes SWTRAP with its number as info; the divisions announced for CK4 take RSVD; MARK adds its
record to the die's trace stream where that is on; BKPT sets a slot of the context's; BUDGET gives what is left and sets what
is to be left; TLBI, the group's writes performed, takes the matching entries out of every core's and every die's TLB and completes once nothing that
used them is under way; PCHK describes a page; NETCFG writes the volley configuration of a die (R80, R366, R368, R369, R371 to
R374, R384). Where the spec is silent it follows the model's choice, log entry 44. -/
def Obligations.SystemInstructions : Prop :=
  ∀ (s : State) (g : Group) (f : FY) (v : VR),
    (Ready s g (.trap f) → g.act f.p ≠ 0 → exec (.trap f) s = .next { s with focus := some { g with
      trap := some ⟨.swtrap, 0, 0, encode (.trap f), f.imm.setWidth 64, g.idx, g.hdr⟩, sleep := .awake } }) ∧
    (∀ i ∈ ([.idivs v, .idivu v] : List Instr), Selected s g → exec i s = .next { s with focus := some { g with
      trap := some ⟨.rsvd, g.hdr + BitVec.ofNat 64 (8 * (g.idx + 1)), 0, encode i, 0, g.idx, g.hdr⟩, sleep := .awake } }) ∧
    (Ready s g (.mark f) → g.act f.p ≠ 0 →
      ∃ h t, exec (.mark f) s = .next t ∧ t.focus = some h ∧ Moved g h 0 ∧ h.s = g.s ∧ h.v = g.v ∧ h.k = g.k ∧ SameMemory s t ∧
        (t.die g.die).trcWait = (s.die g.die).trcWait ++ (if (s.die g.die).trcctl.getLsbD 0 && (s.die g.die).trcctl.getLsbD 2 then
          [leBytes 1 1 ++ leBytes 1 0 ++ leBytes 2 (4 * g.core + g.part) ++ leBytes 4 f.imm.toNat ++ leBytes 8 (g.rdSc f.a).toNat ++
            leBytes 8 s.gtb.toNat ++ leBytes 8 (g.hdr.toNat % 2 ^ 52 * 2 ^ 12 + g.idx)] else [])) ∧
    (∀ c, s.ctx? g.ctx = some c →
      (Ready s g (.bkpt f) → g.act f.p ≠ 0 → bkptBad (g.rdSc f.a) (g.rdSc f.b) = false →
        ∃ h, exec (.bkpt f) s = .next { s.setCtx { c with bkpts := (c.bkpts.filter fun b => b.1 != f.imm.toNat) ++
          [(f.imm.toNat, ⟨g.rdSc f.a, g.rdSc f.b, g.team⟩)] } with focus := some h } ∧
          Moved g h 0 ∧ h.s = g.s ∧ h.v = g.v ∧ h.k = g.k) ∧
      (Ready s g (.budget f) → g.act f.p ≠ 0 → SDone (.budget f) s g f.dst (BitVec.ofNat 64 (c.budget - c.energy)) 0) ∧
      (Ready s g (.budgetSet f) → g.act f.p ≠ 0 →
        ∃ h, exec (.budgetSet f) s = .next { s.setCtx { c with budget := min (c.energy + (g.rdSc f.a).toNat) (2 ^ 64 - 1) } with
          focus := some h } ∧ Moved g h 0 ∧ SWritten g h f.dst (BitVec.ofNat 64 (c.budget - c.energy)) ∧ h.v = g.v ∧ h.k = g.k)) ∧
    (∀ p ∈ ([(.tlbiPage f, (g.rdSc f.a).toNat, (g.rdSc f.a).toNat + 1),
        (.tlbiRange f, (g.rdSc f.a).toNat, min ((g.rdSc f.a).toNat + (g.rdSc f.b).toNat) (2 ^ 64)), (.tlbiAll f, 0, 2 ^ 64)] :
          List (Instr × Nat × Nat)), Ready s g p.1 → g.act f.p ≠ 0 →
      (g.waitFor = none → writesDone s g = true → ∃ t ids, exec p.1 s = .next t ∧
        t.focus = some { g with waitFor := some ids, sleep := .barrier } ∧ SameMemory s t ∧
        let stays := fun (e : TlbEntry) =>
          !(e.ctx == g.ctx && decide (p.2.1 < p.2.2) && decide (e.va < p.2.2) && decide (p.2.1 < e.va + e.size))
        ∀ d, (t.die d).tlb = (s.die d).tlb.filter stays ∧ ∀ c, (t.core d c).tlb = (s.core d c).tlb.filter stays) ∧
      (∀ ids, g.waitFor = some ids → (∀ x ∈ ids, tlbiHeld s x = false) →
        ∃ h, exec p.1 s = .next { s with focus := some h } ∧ Moved { g with waitFor := none } h 0 ∧ h.s = g.s ∧ h.v = g.v ∧ h.k = g.k)) ∧
    (Ready s g (.pchk f) → g.act f.p ≠ 0 → (g.rdSc f.a).toNat < 2 ^ 52 →
      ∀ e, tlbFind (s.core g.die g.core).tlb g.ctx (g.rdSc f.a).toNat = some e →
        SDone (.pchk f) s g f.dst (BitVec.ofNat 64 (2 ^ 63 + leafFmt e.leaf * 2 ^ 56 + leafGeom e.leaf * 2 ^ 48 +
          (if e.size = 2 ^ 30 then 2 else if e.size = 2 ^ 21 then 1 else 0) * 2 ^ 46 + (e.leaf.extractLsb' 13 1).toNat * 2 ^ 45 +
          (e.leaf.extractLsb' 11 2).toNat * 2 ^ 43 + (e.leaf.extractLsb' 5 4).toNat * 2 ^ 39 +
          (if g.sys then (e.leaf.extractLsb' 16 36).toNat else 0))) 0) ∧
    (let ds := if f.imm.toNat / 32 < 4 then [f.imm.toNat / 32] else if f.imm.toNat / 32 = 4 then [0, 1, 2, 3] else [g.die]
     Ready s g (.netcfg f) → g.act f.p ≠ 0 → (f.imm.toNat % 32 = 0 → nbcfgBad (g.rdSc f.a) = false) →
      ∃ h t, exec (.netcfg f) s = .next t ∧ t.focus = some h ∧ Moved g h 0 ∧ h.s = g.s ∧ h.v = g.v ∧ h.k = g.k ∧
        ∀ d, t.die d = if d ∉ ds then s.die d else if f.imm.toNat % 32 = 0 then { s.die d with nbcfg := g.rdSc f.a }
          else { s.die d with nvt := (s.die d).nvt.map fun e => if e.1 + 1 = f.imm.toNat % 32 then (e.1, g.rdSc f.a) else e })

/-- TRET returns to what the group's frame holds: a frame whose PC, index, and NBV are legal gives back the position, the mode,
VOIDM, NBV, BKPASS, the s and k registers, stage predicates of an iteration apart, and the v registers of the active lanes
(R222, R367, R379). Where the spec is silent it follows the model's choice, log entry 43. -/
def Obligations.TrapReturn : Prop :=
  ∀ (s s1 : State) (g : Group) (f : FY) (hw : W64), Ready s g (.tret f) → g.act f.p ≠ 0 → frameVa g % 128 = 0 →
    Reaches s g .rd 1 [(0, frameVa g), (0, frameVa g + frameLen - 128)] →
    (∀ p ∈ frameLines (frameVa g) (hitXls s g [(0, frameVa g), (0, frameVa g + frameLen - 128)]),
      blocked s.accs { gAcc g 0xBC .load (.glob p.2) p.1 128 false false .core with id := s.nextId, seq := s.nextId } = false) →
    let fr := frameRead s g
    let pc := frN fr 0 8
    let i := frN fr 8 4
    let n := cCount hw + 1
    tretWord s g pc = (s1, .word hw) → pc % 8 = 0 → cTag hw = 7 → cClass hw ≤ 5 → i ≤ n → 1 ≤ frN fr 0x34 4 → frN fr 0x34 4 ≤ 3 →
    ∃ h t, exec (.tret f) s = .next t ∧ t.focus = some h ∧ SameMemory s t ∧ t.groups = s.groups ∧
      h.clause = none ∧ h.entered = false ∧ h.sys = (frN fr 0x28 8).testBit 2 ∧ h.nbv = frN fr 0x34 4 ∧
      (if i = n then h.hdr = BitVec.ofNat 64 (pc + 8 * (n + 1)) ∧ h.idx = 0 else h.hdr = BitVec.ofNat 64 pc ∧ h.idx = i) ∧
      h.voidm = BitVec.ofNat 32 (frN fr 0x30 4) ∧ h.bkpass = BitVec.ofNat 64 (frN fr 0xA80 8) ∧
      (∀ k, 0 < k → k < 64 → h.rdS k = BitVec.ofNat 64 (frN fr (0x80 + 8 * k) 8)) ∧
      (∀ k, 0 < k → k < 16 → h.rdK k = if g.iter.isSome ∧ 12 ≤ k then g.rdK k
        else BitVec.ofNat 32 (frN fr (0x40 + 4 * k) 4) &&& g.wmask) ∧
      (∀ k l, k < kVregs (s.kword g) → l ∈ lanesOf g.active → (h.laneV k l).val = BitVec.ofNat 32 (frN fr (0xC00 + 128 * k + 4 * l) 4) ∧
        (h.laneV k l).empty = false) ∧
      h.trapbase = g.trapbase ∧ h.trapvec = g.trapvec ∧ h.active = g.active ∧ h.tids = g.tids

/-! ### The ordering machine -/

/-- Writes on their way: a store joins its core's buffer, or is written to scratchpad; publishing gives the die's view its
bytes, takes the die's next number and discards the die's copies; a published write travels; its home takes it once it is
causally ready, home value and home view alike, or, a conditional write whose old value no longer stands, not at all; a
serialized write goes to the other dies, and each takes it unless its view holds a later one. The report of a discard gives
back what the write replaced (R85, R87, R89, R90, R97). A write to host or pod-remote memory leaves the buffer for its home without
being published. Where the spec is silent it follows the model's choice, log entries 9, 10, 11, 12, 86, 114 and 130: that the home die keeps no L1
copy of a line that its home takes from another die is log entry 86, that a store to scratchpad is written without a new check log entry
130. -/
def Obligations.WritesInOrder : Prop :=
  ∀ (s : State) (id : Nat) (a : Acc), s.acc? id = some a →
    (a.isStore = true → a.stage = .issued → blocked s.accs a = false → (a.rel = true → released s.accs a = true) →
      keptWaits s.accs a = false →
      ∃ t, exec (.enterCb id) s = .next t ∧ t.home = s.home ∧ t.host = s.host ∧ (∀ d, t.view d = s.view d) ∧
        (a.isSpad = false → t.teams = s.teams ∧ t.acc? id = some { a with stage := .inCb }) ∧
        ∀ tm o w, a.place = .spad tm o → s.team? tm = some w → ∃ u, t.team? tm = some u ∧
          u = { w with spad := u.spad, badSpad := u.badSpad } ∧ ∀ x, u.byte x = (a.newByte x).getD (w.byte x)) ∧
    (a.isStore = true → a.stage = .inCb → a.isSpad = false → a.far = false → a.cond = none → cbBefore s a = false →
      seenBefore s a = false → mayPublish s a.die = true → blocked s.accs a = false → (a.rel = true → released s.accs a = true) →
      ∃ t, exec (.publishToDie id) s = .next t ∧ Overlaid (t.view a.die) (s.view a.die) a ∧ NoCopies t a.die a ∧ t.host = s.host ∧
        t.teams = s.teams ∧ (∀ d, d ≠ a.die → t.view d = s.view d) ∧
        (∀ v, (s.die a.die).vc[a.die]? = some v → (t.die a.die).vc[a.die]? = some ((v + 1) % 2 ^ 32)) ∧
        (homeDie a.pa ≠ a.die → t.home = s.home) ∧ (homeDie a.pa = a.die → Overlaid t.home s.home a)) ∧
    ((a.stage = .published ∨ ((a.isStore = true ∧ a.stage = .inCb ∨ a.homeRmw = true ∧ a.stage = .issued) ∧ a.read = false ∧
        a.far = true ∧ blocked s.accs a = false ∧ released s.accs a = true ∧ cbBefore s a = false)) →
      ∃ t, exec (.sendToHome id) s = .next t ∧ SameMemory s t ∧ t.acc? id = some { a with stage := .sent }) ∧
    (a.stage = .sent → a.homeRmw = false → paFar a.pa = false → causal s (homeDie a.pa) a = true →
      ∃ t, exec (.serialize id) s = .next t ∧ t.host = s.host ∧ t.teams = s.teams ∧
        (condHolds s a = true → Overlaid t.home s.home a ∧ Overlaid (t.view (homeDie a.pa)) (s.view (homeDie a.pa)) a ∧
          NoCopies t (homeDie a.pa) a) ∧
        (condHolds s a = false → t.home = s.home ∧ ∀ d, t.view d = s.view d)) ∧
    (a.stage = .sent → a.homeRmw = false → paRemote a.pa = true →
      ∃ t, exec (.serialize id) s = .next t ∧ t.host = s.host ∧ t.teams = s.teams ∧ (∀ d, t.view d = s.view d) ∧
        (paLost s a.pa = false → Overlaid t.home s.home a) ∧ (paLost s a.pa = true → t.home = s.home)) ∧
    (a.isStore = true ∨ a.isRmw = true → a.stage = .serialized → a.isSpad = false → a.far = false →
      ∃ t b, exec (.propagate id) s = .next t ∧ SameMemory s t ∧ t.acc? id = some b ∧ b.stage = .done ∧
        ∀ d, d ∈ b.aq ↔ d < 4 ∧ d ≠ homeDie a.pa ∧ (d ≠ a.die ∨ a.homeRmw = true)) ∧
    (∀ d, d ∈ a.aq → (d = a.die ∨ causal s d a = true) → pendingOwn s d a = false →
      ∃ t, exec (.apply d id) s = .next t ∧ t.home = s.home ∧ t.host = s.host ∧ t.teams = s.teams ∧ NoCopies t d a ∧
        (∀ e, e ≠ d → t.view e = s.view e) ∧
        ∀ x, (t.view d).byte x = if a.cidx < (s.view d).index x then (s.view d).byte x else (a.newByte x).getD ((s.view d).byte x)) ∧
    (a.report = true → (∀ b ∈ s.accs, later a b = false) → (a.saved.map (·.1)).Nodup →
      ∃ t, exec (.discardReport id) s = .next t ∧ t.home = s.home ∧ t.host = s.host ∧ t.teams = s.teams ∧
        ∀ x ∈ a.saved, (s.view a.die).index x.1 = x.2.2.1 → (t.view a.die).byte x.1 = (x.2.1, x.2.2.2))

/-- Reads: a load takes its value from where its place in the order lets it look, and changes no memory; its destination lane
then becomes FULL with what its accesses brought, unless its thread has retired. An atomic takes the old word and leaves the
new one, at the scratchpad port, on the home value in one step, or at `.core` in the core's buffer; it returns the bytes that its location
held before. The host answers for its own memory, with poison where it
reports an error (R85, R88, R92, R96, R97, R180, R235, R237). Where the spec is silent it follows the model's choice, log entries 11,
14, 21 and 114. -/
def Obligations.ReadsAndAtomics : Prop :=
  ∀ (s : State) (id : Nat) (a : Acc), s.acc? id = some a →
    (∀ ev, a.isLoad = true → a.read = false → a.fin = false → a.cmd = none → blocked s.accs a = false →
      ∃ t, exec (.readFromView id ev) s = .next t ∧ SameMemory s t ∧ t.acc? id = some { a with read := true, got := accRead s a }) ∧
    (∀ gid h n lane ty fmt, a.isLoad = true ∨ a.isRmw = true → a.fin = false → (siblings s a).all Acc.arrived = true →
      a.gid = some gid → s.anyGroup? gid = some h → (s.partOf h).stop = false → a.dst = some ⟨.v n, lane, ty, fmt⟩ → lane < 32 →
      let bs := ((siblings s a).map (·.got)).flatten
      let vals := loadVals ⟨.v n, lane, ty, fmt⟩ (bs.map (·.1))
      ∃ t h', exec (.loadWriteback id) s = .next t ∧ SameMemory s t ∧ t.anyGroup? gid = some h' ∧
        ∀ m l, l < 32 → h'.laneV m l =
          if l = lane ∧ n.toNat ≤ m ∧ m < n.toNat + vals.length then
            (if h.active.getLsbD l then ⟨vals.getD (m - n.toNat) 0, false, worst bs⟩ else { h.laneV m l with empty := false })
          else h.laneV m l) ∧
    (∀ r, a.kind = .rmw r → a.read = false → blocked s.accs a = false → released s.accs a = true →
      (∀ tm o w, a.place = .spad tm o → s.team? tm = some w →
        ∃ t u, exec (.drainApply (.access id)) s = .next t ∧ t.team? tm = some u ∧
          (u.bytes o a.len).map (·.1) = leBytes a.len (atomNew r a.len (leNat ((w.bytes o a.len).map (·.1)))) ∧
          (∀ x, (x < o ∨ o + a.len ≤ x) → u.byte x = w.byte x) ∧ t.home = s.home ∧ t.host = s.host ∧
          (a.dst.isSome = true → a.fin = false → ∃ b, t.acc? id = some b ∧ b.read = true ∧ b.got = w.bytes o a.len)) ∧
      (∀ pa, a.place = .glob pa → paFar pa = false → Scope.rank a.scope ≠ 0 → a.cond = none →
        (homeDie pa = a.die ∧ a.stage = .issued ∧ cbBefore s a = false ∧ seenInCb s a = false ∧ mayPublish s a.die = true ∨
          homeDie pa ≠ a.die ∧ a.stage = .sent ∧ causal s (homeDie pa) a = true) →
        let old := (List.range a.len).map fun i => s.home.byte (pa + i)
        ∃ t, exec (.drainApply (.access id)) s = .next t ∧ t.host = s.host ∧ t.teams = s.teams ∧
          ((List.range a.len).map fun i => (t.home.byte (pa + i)).1) = leBytes a.len (atomNew r a.len (leNat (old.map (·.1)))) ∧
          (∀ x, (x < pa ∨ pa + a.len ≤ x) → t.home.byte x = s.home.byte x) ∧
          (a.dst.isSome = true → a.fin = false → ∃ b, t.acc? id = some b ∧ b.read = true ∧ b.got = old)) ∧
      (∀ pa, a.place = .glob pa → paFar pa = false → Scope.rank a.scope = 0 → cbOverlap s a = false →
        ∃ t b, exec (.drainApply (.access id)) s = .next t ∧ SameMemory s t ∧ t.acc? id = some b ∧ b.stage = .inCb ∧ b.read = true ∧
          b.got = ((List.range a.len).map fun i => l1Byte s a.die a.core (pa + i)) ∧
          b.bytes.map (·.val) = leBytes a.len (atomNew r a.len (leNat (b.got.map (·.1)))))) ∧
    (∀ pa err, a.place = .glob pa → paHost pa = true →
      let old := (List.range a.len).map fun i => if err then (0, .poison) else s.host.byte (pa + i)
      (a.isLoad = true → a.read = false → a.fin = false → a.cmd = none → blocked s.accs a = false →
        ∃ t, exec (.hostCxlCompletion id err) s = .next t ∧ SameMemory s t ∧ t.acc? id = some { a with read := true, got := old }) ∧
      (a.isStore = true → a.stage = .sent →
        ∃ t, exec (.hostCxlCompletion id err) s = .next t ∧ t.home = s.home ∧ (∀ d, t.view d = s.view d) ∧ t.teams = s.teams ∧
          (err = true → t.host = s.host) ∧ (err = false → Overlaid t.host s.host a)))

/-! ### Scheduling -/

/-- The scheduler. A clause entered is fetched whole and checked, and the group waits before it; the oldest ready active group
takes the issue slot of its partition, of the two halves of a slot the first, one that has been ready for 64 cycles before all others; the hold of an N clause ends; a
waiting group is exchanged with the oldest ready pending group, which else takes a vacant place, or the one that its slot's other half
has; a cycle of a quad moves its clock and grants requests while its balance covers the next: those past AGELIM first, the oldest before
the others, then by class, and in a class by arrival; none is granted before one that goes first (R47 to R50, R118 to R121, R207, R417, R418).
Where the spec is silent it follows the model's choice, log entries 8, 20, 22, 119 and 127: that one half of a legacy pair issues before the
other is log entry 22, that a half that starves goes before the one that holds the turn log entry 119. -/
def Obligations.Scheduling : Prop :=
  (∀ (s s0 s1 : State) (gid fresh : Nat) (g : Group) (tm : Team) (hw : W64) (ws : List (Nat × W64)), s.group? gid = some g →
    g.clause = none → live s g = true → cancelled s g = false → stopping s g.ctx g.die g.core = false → s.team? g.team = some tm →
    g.hdr.toNat % 8 = 0 → tm.secLo ≤ g.hdr.toNat → g.hdr.toNat + 8 * (cCount hw + 2) ≤ tm.secHi →
    fetchWord s g g.hdr.toNat (fresh.testBit 0) = (s0, .word hw) →
    fetchWords s0 g fresh (List.range (cCount hw + 1)) = (s1, ws.map fun x => (x.1, .word x.2)) →
    cTag hw = 7 → cClass hw ≤ 5 → hw.getLsbD 53 = false → hw.getLsbD 44 = false →
    (∀ e ∈ cWs hw, e.1 + e.2 ≤ kVregs tm.kword) → (∀ j x, ws[j]? = some x → wordOk (kMagic tm.kword) (cClass hw) x.2 (j == cCount hw) = true) →
    roleOk g.role (cClass hw) = true → (g.sys = true ∨ overBudget s1 g = false) →
    ∃ t h, exec (.clauseEntry gid fresh) s = .next t ∧ SameMemory s t ∧ t.group? gid = some h ∧
      h.clause = some ⟨hw, ws.map (·.2)⟩ ∧ h.entered = false ∧ h.hdr = g.hdr ∧ h.idx = g.idx ∧ h.s = g.s ∧ h.v = g.v ∧ h.k = g.k ∧
      h.trap = none) ∧
  (∀ (s : State) (p : PartId) (c : Group), s.focus = none → (s.partn p.die p.core p.part).stop = false →
    (s.partn p.die p.core p.part).lastIssue ≠ some (s.clk p.die p.core) → (s.partn p.die p.core p.part).busy ≤ s.clk p.die p.core →
    c ∈ s.onPart p →
    let first := fun (i : Instr) (ok : Group → Bool) => let gs := (s.onPart p).filter ok
      ∃ t v w, exec i s = .next t ∧ t.focus = some w ∧ v ∈ gs ∧ behind gs v = false ∧
      (∀ h ∈ gs, behind gs h = false → older v h = true) ∧
      w = { v with entered := true, nHold := none, sleep := w.sleep, holds := w.holds } ∧ t.groups = s.groups.filter (fun h => h.gid != v.gid) ∧
      SameMemory s t
    (starving s c = true → first (.starvationGuard p) (starving s) ∧ first (.issueCycle p) (starving s)) ∧
    ((∀ h ∈ s.onPart p, starving s h = false) → ready s c = true → halfBlocked s c = false →
      first (.issueCycle p) fun h => ready s h && !halfBlocked s h)) ∧
  (∀ (s : State) (gid c : Nat) (g : Group), s.group? gid = some g → g.nHold = some c → c ≤ s.clk g.die g.core →
    exec (.noSwapExpiry gid) s = .next (s.setGroup { g with nHold := none })) ∧
  (∀ (s : State) (out inn : Nat) (a b : Group), s.group? out = some a → s.group? inn = some b →
    (a.inSet = true → live s a = true → (slotMates s a).all (candidate s) = true → a.die = b.die → a.core = b.core → a.part = b.part →
      a.slot ≠ b.slot → (oldestPending s a).map (·.gid) = some inn →
      (∀ x ∈ s.groups, (x.gid = out → x = a) ∧ (x.gid = inn → x = b)) →
      ∃ t a' b', exec (.groupSwap out inn) s = .next t ∧ t.group? out = some a' ∧ a'.inSet = false ∧ t.group? inn = some b' ∧
        b'.inSet = true ∧ s.clk a.die a.core + 4 ≤ b'.stall ∧ SameMemory s t) ∧
    ((oldestPending s b).map (·.gid) = some inn → activeSlots s b < 8 ∨ (∃ m ∈ slotMates s b, m.inSet = true) →
      ∃ t b', exec (.vacancyFill inn) s = .next t ∧ t.group? inn = some b' ∧ b'.inSet = true ∧ SameMemory s t)) ∧
  (∀ (s : State) (die quad : Nat), die < 4 → quad < 12 →
    ∃ t, exec (.umpireCycle die quad) s = .next t ∧ (t.quad die quad).clk = (s.quad die quad).clk + 1 ∧ SameMemory s t ∧
      (∀ k, k ≠ die * 12 + quad → SMap.get Quad.reset t.quads k = SMap.get Quad.reset s.quads k) ∧
      (let q := s.quad die quad
       let u := t.quad die quad
       let live := fun (r : UReq) => r ∈ q.reqs ∧ (r.kind ≠ 0 ∨ (s.anyGroup? r.owner).isSome = true)
       let asks := fun (r : UReq) => live r ∧ r.since ≤ q.clk ∧ r.cls < 3 ∧ reqOpen s r (q.clk + 1) = true
       let old := fun (r : UReq) => r.since + (q.umpcfg.extractLsb' 0 10).toNat < q.clk + 1
       let goes := fun (x y : UReq) => (old x ∧ ¬old y) ∨ (old x ∧ old y ∧ x.since < y.since) ∨
         (¬old x ∧ ¬old y ∧ (x.cls < y.cls ∨ (x.cls = y.cls ∧ x.since < y.since)))
       let cap := (q.umpcfg.extractLsb' 16 16).toNat
       let b := min (256 * (cap : Int)) (q.bal + (q.umpcfg.extractLsb' 32 16).toNat * s.ffac)
       (∀ r ∈ q.reqs, r.cls < 3) →
       ∃ got : List UReq, u.granted = q.granted ++ got.map (fun r => (r.owner, r.kind, q.clk + 1)) ∧
         u.bal = b - 256 * (got.map fun r => (r.cu : Int)).sum ∧ (∀ r, r ∈ u.reqs ↔ live r ∧ r ∉ got) ∧ (∀ r ∈ got, asks r) ∧
         (∀ x y, asks x → y ∈ got → goes x y → x ∈ got) ∧
         ∀ x, asks x → (∀ y, asks y → y ≠ x → goes x y) →
           (x ∈ got ↔ (x.cu ≤ cap ∧ 256 * (x.cu : Int) ≤ b) ∨ (cap < x.cu ∧ b = 256 * (cap : Int)))) ∧
      ∀ r, (s.quad die quad).reqs = [r] → r.kind ≠ 0 → r.since ≤ (s.quad die quad).clk → r.cls < 3 →
        reqOpen s r ((s.quad die quad).clk + 1) = true →
        let cap := ((s.quad die quad).umpcfg.extractLsb' 16 16).toNat
        let b := min (256 * (cap : Int)) ((s.quad die quad).bal + ((s.quad die quad).umpcfg.extractLsb' 32 16).toNat * s.ffac)
        r.cu ≤ cap → 256 * (r.cu : Int) ≤ b →
        (r.owner, r.kind, (s.quad die quad).clk + 1) ∈ (t.quad die quad).granted ∧ (t.quad die quad).reqs = [] ∧ (t.quad die quad).bal = b - 256 * r.cu)

/-- Groups, iterations and their late events: a glade past its age is drawn, and the draw takes a vacant slot with its threads in
increasing TID order; an iteration starts with the values PIPE captured; a cancelled one retires; a group waiting at PIPE goes on once
a pipe is to be had; gate results are written back when due; sleepers of WAITL and of queues wake; a volley reaches a partition once
its delay has passed; elements move between registers and slots, a dequeue's into the pending buffer of a frozen partition (R116, R123,
R190, R214 to R217, R222, R225, R248, R261 to R264, R271, R356). Where the spec is silent it follows the model's choice, log entries 14,
15, 18, 27, 88, 104, 113, 115, 116 and 120: the draw into a slot that EXIT left is log entry 88, the dequeue read during a stop log entry
27, the clock of a volley log entry 115, the cancelled iteration that leaves LNCH log entry 116. -/
def Obligations.LateEvents : Prop :=
  (∀ (s : State) (p : PartId) (x : Glade) (d : Draw) (v : Vacancy),
    let q := s.partn p.die p.core p.part
    q.stop = false →
    (s.partIds.find? (fun r => (s.partn r.die r.core r.part).glades.any fun y => y.id == x.id) = some p →
      q.glades.find? (fun y => y.id == x.id) = some x → x.since + (q.ageNow (s.clk p.die p.core)).toNat < s.clk p.die p.core →
      ∃ t, exec (.gladeAgeExpiry x.id) s = .next t ∧ SameMemory s t ∧ t.groups = s.groups ∧
        t.partn p.die p.core p.part = { q with glades := q.glades.filter fun y => y != x, draws := q.draws ++ [⟨x.id, x⟩] }) ∧
    (s.partIds.find? (fun r => (s.partn r.die r.core r.part).draws.any fun y => y.id == d.id) = some p →
      q.draws.find? (fun y => y.id == d.id) = some d → drawPlace s p q d.glade = some v →
      ∃ t g, exec (.drawnGroupPlace d.id) s = .next t ∧ SameMemory s t ∧ t.groups = s.groups ++ [g] ∧ g.gid = s.nextId ∧
        AtClause g d.glade.pc ∧ g.slot = v.slot ∧ g.team = d.glade.team ∧ g.tids.Pairwise (· ≤ ·) ∧
        ∀ n, n ∈ g.tids ↔ n ∈ d.glade.filed.map (·.tid))) ∧
  (∀ (s : State) (gid slot n : Nat) (o : Group) (q : Pipe), s.group? gid = some o → o.opened = some n →
    (s.partOf o).pipe? n = some q → q.mayStart = true → (s.partOf o).stop = false → q.slot = slot →
    (∀ x ∈ s.allGroups, ¬(x.ctx = q.ctx ∧ x.die = o.die ∧ x.core = o.core ∧ x.part = o.part ∧ x.slot = slot)) →
    ∃ t c q', exec (.iterationStart gid slot) s = .next t ∧ SameMemory s t ∧ t.groups = s.groups ++ [c] ∧ c.gid = s.nextId ∧
      c.iter = some ⟨q.num, q.launched, false⟩ ∧ AtClause c q.body ∧ c.active = q.lanes ∧ c.slot = slot ∧ c.s = q.capS ∧ c.v = q.capV ∧
      c.rdK 12 = (if 1 ≤ q.launched then q.lanes else 0) ∧ c.rdK 13 = (if 2 ≤ q.launched then q.lanes else 0) ∧
      c.rdK 14 = (if 3 ≤ q.launched then q.lanes else 0) ∧ c.rdK 15 = (if q.launched + 1 < q.n then q.lanes else 0) ∧
      (t.partOf o).pipe? n = some q' ∧ q'.launched = q.launched + 1 ∧
      ∀ j l, j < q.stride → l < 32 → q'.slotLane (winSlot q.stride j q.launched) l = ⟨0, .empty, false, .ok⟩) ∧
  (∀ (s : State) (gid : Nat) (g : Group) (it : IterRec) (q : Pipe), s.group? gid = some g →
    (g.iter = some it → s.pipeOf g = some q → q.isCancelled it.k = true → (g.entered = false ∨ abandons g = true) → g.trap = none →
      q.owedOwn it.k = false → (s.partOf g).stop = false → (∀ pa b, g.sleep ≠ .full pa ∧ g.sleep ≠ .empty pa ∧ g.sleep ≠ .woken pa b) →
      ∃ t q' x, exec (.cancelledRetire gid) s = .next t ∧ SameMemory s t ∧ (∀ h ∈ t.groups, h.gid ≠ gid) ∧
        (t.partOf g).pipe? it.pipe = some q' ∧ q'.iter? it.k = some x ∧ x.st = .broken) ∧
    (∀ n slot i fp, s.focus = none → g.instr? = some i → (i = .pipe fp ∨ i = .pipeH fp) → pipeRoom s g = some (n, slot) →
      g.sleep = .stall → slotOpen s g = true →
      exec (.pipeLaunchResourceWait gid slot) s =
        .next { s with focus := some g, groups := s.groups.filter fun h => h.gid != gid }) ∧
    (∀ w n, g.gates.find? (fun x => x.n == w.n) = some w → w.dst = .v n → w.due ≤ s.clk g.die g.core → (s.partOf g).stop = false →
      s.focus = none → (w.vals.map (·.1)).Nodup → (∀ x ∈ w.vals, x.1 < 32) → w.hi = [] →
      ∃ t h, exec (.gateWriteback gid w.n) s = .next t ∧ SameMemory s t ∧ t.group? gid = some h ∧ (∀ x ∈ h.gates, x.n ≠ w.n) ∧
        ∀ x ∈ w.vals, h.laneV n.toNat x.1 = ⟨x.2, false, .ok⟩) ∧
    (∀ l till, g.sleep = .waitl l till →
      (till ≤ s.clk g.die g.core → (s.partOf g).stop = false →
        exec (.waitlTimeout gid) s = .next (s.setGroup { g with sleep := .rewoken })) ∧
      exec (.spuriousWake gid) s = .next (s.setGroup { g with sleep := .rewoken })) ∧
    (∀ pa, (g.sleep = .full pa → exec (.spuriousWake gid) s = .next (s.setGroup { g with sleep := .woken pa true })) ∧
      (g.sleep = .empty pa → exec (.spuriousWake gid) s = .next (s.setGroup { g with sleep := .woken pa false }))) ∧
    (∀ pa b, g.sleep = .woken pa b → cancelled s g = true → abandons g = true → exec (.queueRetry gid) s = .next s) ∧
    (∀ pa b, g.sleep = .woken pa b → (s.partOf g).stop = false → (cancelled s g = true → abandons g = false) →
      ∃ t h, exec (.queueRetry gid) s = .next t ∧ t.group? gid = some h ∧ h = { g with sleep := .awake } ∧
        gid ∉ (t.qhome pa).full ∧ gid ∉ (t.qhome pa).empty)) ∧
  (∀ (s : State) (n : NetBar) (p : PartId) (l : List Release) (r : Release),
    s.nets.find? (fun m => m.key == n.key) = some n → n.rel = l ++ [r] → seenGen (s.partn p.die p.core p.part) n ≠ r.gen →
    12 * r.gtb + volleyDelay s r n.key p ≤ 12 * s.gtb.toNat →
    ∃ t, exec (.volleyRelease n.key p) s = .next t ∧ SameMemory s t ∧ t.groups = s.groups ∧
      seenGen (t.partn p.die p.core p.part) n = r.gen) ∧
  (∀ (s : State) (mv : Nat) (m : QMove), s.move? mv = some m →
    (m.kind = .enq → m.landed = false → (∀ u ∈ (s.qhome m.qcb).unread, u ≠ m.n → u % m.cap ≠ m.n % m.cap) →
      enqMay s m = true → mayLand s m.die 64 = true →
      ∃ t, exec (.enqElementMove mv) s = .next t ∧
        t.move? mv = some { m with moved := m.moved + 1, landed := decide (m.pas.length ≤ m.moved + 1) } ∧
        ∀ pa, m.pas[m.moved]? = some pa → paFar pa = false → pa % 128 ≤ 64 →
          ∀ j x, j < 64 → m.data[64 * m.moved + j]? = some x → (t.view m.die).byte (pa + j) = x) ∧
    (m.kind ≠ .deq → m.landed = true → landedDone s m.id m.scope = true → paHost m.qcb = false → paLost s m.qcb = false →
      m.n ∈ (s.qhome m.qcb).unpub → m.n ∉ (s.qhome m.qcb).landed →
      let q := readQcb s m.qcb
      let l := (s.qhome m.qcb).landed ++ [m.n]
      ∃ t, exec (.enqElementMove mv) s = .next t ∧ (m.n ∉ (t.qhome m.qcb).unpub → t.move? mv = none) ∧
        QueueNow t m.qcb q q.head q.tail q.free q.pd (q.pe - runFrom l l.length (q.tail - q.pe)) q.st) ∧
    (∀ h, m.kind = .deq → m.fe = false → m.landed = false → s.anyGroup? m.gid = some h → m.width = 32 →
      let bs := (m.pas.map fun p => opBytes s m.id m.die m.core p (min m.esz 64)).flatten
      ∃ t h', exec (.deqElementRead mv) s = .next t ∧ t.anyGroup? m.gid = some h' ∧ m.n ∉ (t.qhome m.qcb).unread ∧
       ((s.partOf h).stop = true → t.move? mv = some { m with data := bs, landed := true } ∧ h'.v = h.v ∧
         (t.partOf h).pendingBuf = if HeldWb.deq mv ∈ (s.partOf h).pendingBuf then (s.partOf h).pendingBuf
           else (s.partOf h).pendingBuf ++ [.deq mv]) ∧
       ((s.partOf h).stop = false → t.move? mv = none ∧
        ∀ j, j < m.esz / 4 → h'.laneV (m.dst + j / 32) (j % 32) =
          ⟨BitVec.ofNat 32 (leNat (((bs.drop (4 * j)).take 4).map (·.1))), false, worst ((bs.drop (4 * j)).take 4)⟩)))

/-! ### The engines -/

/-- The copy engine: a command starts, CPYT.om writing its slot's tag; a chunk's source is read, of a CPYT's plane bytes one or more in a
step (R288), then its bytes land, at a scratchpad or in its die's view, an element of CPYR on the home value; bytes are counted into the command's object; the
completion record and NEXT are written; a command with a fault passes to the firmware path, which finishes it or loses it,
poisoning an armed object with COPYLOST (R85, R94 to R96, R315 to R317, R322, R328, R334 to R338). Where the spec is silent it
follows the model's choice, log entries 34, 38, 39, 40 and 124. A record whose descriptor lies in an armed object goes to that path too. -/
def Obligations.CopyEngine : Prop :=
  ∀ (s : State) (cmd : Nat) (c : Cmd), s.mxop? cmd = none → s.cmd? cmd = some c →
    (c.started = false → c.fw ≠ .lost → (∃ k ∈ c.chunks, k.landed = false) → afterLanded s c = true →
      (c.acq = true → earlierDone s c.preds c.id c.scope = true) →
      ∃ t, exec (.engineStart cmd) s = .next t ∧ SameMemory s t ∧ t.cmd? cmd = some { c with started := true } ∧
        (∃ r ∈ (t.quad c.die (c.core / 4)).reqs, r.owner = c.id ∧ r.cu = 8 ∧ r.cls = 1) ∧
        (c.kind = .cpytOm → (t.frame c.die c.core c.ctx).tag c.slot = recTag c.recData)) ∧
    (∀ n k, c.chunks.find? (fun x => x.n == n) = some k → c.started = true → c.fw = .engine → k.landed = false →
      (k.read = false → c.faulted = none → (0 < c.credit ∨ granted s c.die c.core c.id 1 = true) →
        (c.kind = .cpyIn ∨ c.kind = .cpyOut ∨ ∃ op, c.kind = .cpyr op) →
        ∃ t c', exec (.engineLand cmd n) s = .next t ∧ SameMemory s t ∧ t.cmd? cmd = some c' ∧
          c'.chunks.find? (fun x => x.n == n) = some { k with read := true, data :=
            if c.kind = .cpyIn then (k.lanes.map fun x => opBytes s c.id c.die c.core x.pa k.len).flatten
            else (k.lanes.map fun x => spadBytes s c.team x.off k.len).flatten }) ∧
      (∀ s1 k', k.read = false → c.faulted = none → (0 < c.credit ∨ granted s c.die c.core c.id 1 = true) → c.kind = .cpytOm ∨ c.kind = .cpytSp →
        (∃ bs, chunkSrc s c k = (s1, .ok bs) ∧ k' = { k with read := true, data := bs }) ∨
          (∃ rs, chunkSrc s c k = (s1, .part rs) ∧ k' = { k with runs := k.runs ++ rs }) →
        ∃ t c', exec (.engineLand cmd n) s = .next t ∧ SameMemory s t ∧ t.cmd? cmd = some c' ∧ c'.chunks.find? (fun x => x.n == n) = some k') ∧
      (∀ t0, k.read = true → c.kind = .cpyIn ∨ c.kind = .cpytSp → s.team? c.team = some t0 →
        (∀ w ∈ spadWrites c k, touchesArmed t0 w.1 w.2.length = false) →
        ∃ t u, exec (.engineLand cmd n) s = .next t ∧ t.home = s.home ∧ t.host = s.host ∧ t.team? c.team = some u ∧
          ∀ x, u.byte x = (storedByte (spadWrites c k) x).getD (t0.byte x)) ∧
      (k.read = true → c.kind = .cpyOut → mayPublish s c.die = true → k.data.length = k.len * k.lanes.length →
        (∀ x ∈ k.lanes, paFar x.pa = false ∧ x.pa % 128 + k.len ≤ 128) →
        ∃ t, exec (.engineLand cmd n) s = .next t ∧ t.host = s.host ∧ t.teams = s.teams ∧
          ∀ x, (t.view c.die).byte x = (storedByte (((List.range k.lanes.length).zip k.lanes).map fun y => (y.2.pa, laneData k y.1)) x).getD
            ((s.view c.die).byte x)) ∧
      (∀ op l ls, k.read = true → c.kind = .cpyr op → k.lanes = l :: ls → mayPublish s c.die = true → homeDie l.pa = c.die →
        paFar l.pa = false →
        ∃ t, exec (.drainApply (.cpyr cmd n)) s = .next t ∧ t.host = s.host ∧ t.teams = s.teams ∧
          ((List.range 4).map fun i => (t.home.byte (l.pa + i)).1) = leBytes 4 (atomNew (cpyrRmw op (leNat (k.data.map (·.1)))) 4
            (leNat ((List.range 4).map fun i => (s.home.byte (l.pa + i)).1))) ∧
          ∀ x, (x < l.pa ∨ l.pa + 4 ≤ x) → t.home.byte x = s.home.byte x)) ∧
    (∀ n k t0, c.chunks.find? (fun x => x.n == n) = some k → k.counted = false → mayCount s c k = true → s.team? c.team = some t0 →
      let b := readObj t0 (16 * c.bar)
      b.st = 1 → b.arr ≤ b.expa → b.land + k.count ≤ b.expb →
      ∃ t u, exec (.chunkCount cmd n) s = .next t ∧ t.team? c.team = some u ∧ t.home = s.home ∧ t.host = s.host ∧
        readObj u (16 * c.bar) = (if b.arr = b.expa ∧ b.land + k.count = b.expb then
          { b with arr := 0, land := 0, phase := (b.phase + 1) % 65536 } else { b with land := b.land + k.count }) ∧
        ∀ x, (x < 16 * c.bar ∨ 16 * c.bar + 16 ≤ x) → u.byte x = t0.byte x) ∧
    (∀ t0, s.team? c.team = some t0 → mayRecord c = true → c.fw = .engine → touchesArmed t0 (16 * c.bar + 16) 16 = true →
      ∃ t, exec (.completionRecordWrite cmd) s = .next t ∧ SameMemory s t ∧
        t.cmd? cmd = some { c with faulted := some (.barclob, 16 * c.bar + 16), recBad := true }) ∧
    (∀ t0 e, s.team? c.team = some t0 → mayRecord c = true →
      let d := 16 * c.bar + 16
      let num := ringWord t0 (d + 12) 4
      let va := (ringWord t0 d 8 + 32 * (num % 2 ^ (ringWord t0 (d + 8) 4 % 32))) % 2 ^ 64
      touchesArmed t0 d 16 = false → va < 2 ^ 52 → tlbFind (s.core c.die c.core).tlb c.ctx va = some e → refused e.leaf c.sys .wr = false →
      mayPublish s c.die = true →
      let pa := fldN e.leaf 16 36 * 65536 + (va - e.va)
      paFar pa = false → pa % 128 + 32 ≤ 128 →
      ∃ t u, exec (.completionRecordWrite cmd) s = .next t ∧ t.team? c.team = some u ∧ ringWord u (d + 12) 4 = (num + 1) % 2 ^ 32 ∧
        (∀ x, (x < d + 12 ∨ d + 16 ≤ x) → u.byte x = t0.byte x) ∧
        ((List.range 32).map fun j => ((t.view c.die).byte (pa + j)).1) = recordBytes s c num) ∧
    (∀ f va, c.fw = .engine → c.faulted = some (f, va) → (∀ k ∈ c.chunks, k.read = true → k.landed = true) →
      (∃ k ∈ c.chunks, k.landed = false) →
      ∃ t c', exec (.firmwareHandover cmd) s = .next t ∧ t.cmd? cmd = some c' ∧ c'.handed = true ∧ c'.chunks = c.chunks ∧
        c'.fw = if f = .xlate then .reply else .finish) ∧
    ((∃ k ∈ c.chunks, k.landed = false) → c.fw = .reply →
      ∃ t, exec (.copyXlateReply cmd) s = .next t ∧ SameMemory s t ∧
        t.cmd? cmd = some { c with fw := .finish, retried := c.retried ++ (c.faulted.map (·.2)).toList }) ∧
    (c.fw = .lostReply →
      exec (.copyXlateReply cmd) s = .next (s.setCmd { c with fw := .lost })) ∧
    (∀ k t0, c.fw = .finish → c.chunks.find? (fun x => !x.landed) = some k →
      (∀ b, c.bads.find? (fun b => b.1 == k.n) = some b →
        ∃ t, exec (.firmwareCopyFinish cmd) s = .next t ∧ SameMemory s t ∧
          t.cmd? cmd = some { c with fw := .losing, faulted := some b.2 }) ∧
      (∀ bs, s.team? c.team = some t0 → c.bads.find? (fun b => b.1 == k.n) = none →
        (c.kind = .cpyIn ∧ bs = (k.lanes.map fun x => opBytes s c.id c.die c.core x.pa k.len).flatten ∨
          c.kind = .cpytSp ∧ ∃ s1, chunkSrc s c k = (s1, .ok bs)) →
        let ws := spadWrites c { k with data := bs }
        (∀ w ∈ ws, touchesArmed t0 w.1 w.2.length = false) →
        ∃ t u, exec (.firmwareCopyFinish cmd) s = .next t ∧ t.home = s.home ∧ t.team? c.team = some u ∧
          ∀ x, u.byte x = (storedByte ws x).getD (t0.byte x))) ∧
    (c.fw = .finish → (∀ k ∈ c.chunks, k.landed = true) → c.recBad = true → c.faulted.map (·.1) ≠ some .xlate →
      ∃ t, exec (.firmwareCopyFinish cmd) s = .next t ∧ SameMemory s t ∧ t.cmd? cmd = some { c with fw := .losing }) ∧
    (∀ t0, c.fw = .losing → (∀ k ∈ c.chunks, k.landed = true → k.counted = true) → s.team? c.team = some t0 →
      let b := readObj t0 (16 * c.bar)
      ∃ t u, exec (.copyLost cmd) s = .next t ∧ t.team? c.team = some u ∧ t.home = s.home ∧ t.host = s.host ∧
        readObj u (16 * c.bar) = (if b.st = 1 then { b with st := 2, cause := 0x14 } else b) ∧
        ∀ x, (x < 16 * c.bar ∨ 16 * c.bar + 16 ≤ x) → u.byte x = t0.byte x)

/-- The arrays, for the context that runs on their core: a granted pass whose arrays are free starts and reads its operands; after the
last of its cycles, which follow its grant, the tiles of its quarters, and
no others, hold the products; the side unit takes its outliers in list order, each in a cycle, the one that ends the list too; a tile operation zeroes, loads or reads its tile
in one cycle, a drain with the words that its rows are written from, PHFIN's resultants among them, and rows travel between tile and
memory (R299, R303 to R311). Where the spec is silent it follows the model's
choice, log entries 29 and 31. -/
def Obligations.MatrixEngine : Prop :=
  ∀ (s : State) (op : Nat) (m : MxOp), s.mxop? op = some m →
    let fr := s.frame m.die m.core m.ctx
    (∀ us, isPass m.kind = true → m.dense = false → m.running = false → granted s m.die m.core op 2 = true → runsNow s m = true →
      (∀ q ∈ m.qs, arrayFree s m q.arr = true ∧ q.done = false) → m.qs ≠ [] →
      ∃ t m', exec (.matrixPass op us) s = .next t ∧ SameMemory s t ∧ t.mxop? op = some m' ∧ m'.running = true ∧
        m'.till = grantAt s m.die m.core op 2 + passCycles m ∧ t.cores = s.cores ∧
        m'.qs.map (fun q => { q with ents := [] }) = m.qs.map fun q => { q with ents := [] }) ∧
    (isPass m.kind = true → m.dense = false → m.running = true → m.till < s.clk m.die m.core → m.z < 14 → (m.qs.map (·.arr)).Nodup →
      let m' := readUnits s m (unitKeys m)
      ∃ t, exec (.matrixPassComplete op) s = .next t ∧ SameMemory s t ∧
        (∀ a z i j, i < 16 → j < 16 → z < 16 → ¬(a ∈ m.qs.map (·.arr) ∧ m.z ≤ z ∧ z < m.z + if m.kind = .phmma then 3 else 1) →
          (t.frame m.die m.core m.ctx).tile a z i j = fr.tile a z i j) ∧ ∀ q ∈ m.qs,
        let n := fun (b : Nat) => (operand m' (if b = 0 then q.q else (fusedWith m.qs q).q) b).map fun x => x.1.toNat
        (m.kind ≠ .phmma → ∀ i j, i < 16 → j < 16 → ((t.frame m.die m.core m.ctx).tile q.arr m.z i j).1 = BitVec.ofNat 32
          (if q.tagA.fmt = 15 then dotBp m.nbv (q.xa.map (·.toNat)) (q.xb.map (·.toNat)) i j (fr.tile q.arr m.z i j).1.toNat
              ((rowCodes q.tagA q.pa (n 0) i).map (viewVal q.pa q.tagA.mid)) ((rowCodes q.tagB q.pb (n 1) j).map (viewVal q.pb q.tagB.mid))
           else dotF m.nbv (tagFmt q.tagA) (tagFmt q.tagB) (q.xa.map (·.toNat)) (q.xb.map (·.toNat)) i j
              (fr.tile q.arr m.z i j).1.toNat (rowCodes q.tagA q.pa (n 0) i) (rowCodes q.tagB q.pb (n 1) j))) ∧
        (m.kind = .phmma → ∀ i j, i < 16 → j < 16 →
          let r := phTerms (rowCodes q.tagA q.pa (n 0) i) (rowCodes q.tagB q.pb (n 1) j)
          ((t.frame m.die m.core m.ctx).tile q.arr m.z i j).1 = (fr.tile q.arr m.z i j).1 + BitVec.ofInt 32 r.1 ∧
          ((t.frame m.die m.core m.ctx).tile q.arr (m.z + 1) i j).1 = (fr.tile q.arr (m.z + 1) i j).1 + BitVec.ofInt 32 r.2.1 ∧
          ((t.frame m.die m.core m.ctx).tile q.arr (m.z + 2) i j).1 = (fr.tile q.arr (m.z + 2) i j).1 + BitVec.ofInt 32 r.2.2)) ∧
    (∀ q, m.qs.find? (fun x => x.q == q.q) = some q → m.kind = .mmqx → m.dense = true → q.done = false → m.z < 16 →
      lastCycle s m q.arr < s.clk m.die m.core →
      let w := leNat ((((q.ents.find? fun x => x.1 == entKey q.q q.outs).map (·.2)).getD
        (spadBytes s m.team (q.outl + 8 * q.outs) 8)).map (·.1))
      ∃ t, exec (.outlierApply op q.q) s = .next t ∧ SameMemory s t ∧
        (q.arr < 4 → lastCycle t m q.arr = s.clk m.die m.core) ∧
        (∀ a z i j, i < 16 → j < 16 → z < 16 → ¬(a = q.arr ∧ z = m.z ∧ i = w % 256) →
          (t.frame m.die m.core m.ctx).tile a z i j = fr.tile a z i j) ∧
        (w = 2 ^ 64 - 1 → (t.frame m.die m.core m.ctx) = fr ∧
          ∀ n x, t.mxop? op = some n → x ∈ n.qs → x.q = q.q → x.done = true) ∧
        (w ≠ 2 ^ 64 - 1 → w % 256 ≤ 15 → w / 2 ^ 16 % 2 ^ 16 < tagK q.tagB → ∀ j, j < 16 →
          ((t.frame m.die m.core m.ctx).tile q.arr m.z (w % 256) j).1 = BitVec.ofNat 32 (outlierInto m.nbv
            (outlierFmt q (w / 2 ^ 16 % 2 ^ 16) j) (w / 2 ^ 32 % 2 ^ 16) (fr.tile q.arr m.z (w % 256) j).1.toNat
            (outlierB m q (w / 2 ^ 16 % 2 ^ 16) j)))) ∧
    (∀ q, m.qs.find? (fun x => x.q == q.q) = some q → isPass m.kind = false → q.done = false →
      runsNow s m = true → lastCycle s m q.arr < s.clk m.die m.core →
      (m.running = true ∨ (granted s m.die m.core op 3 = true ∧ grantAt s m.die m.core op 3 < s.clk m.die m.core)) → arrayFree s m q.arr = true → quarterFirst m q = true → m.z < 14 →
      (m.kind = .ldz → 16 ≤ q.rows.length) →
      let clear := m.kind = .zero ∨ m.zr = true ∧ (m.kind = .drain ∨ m.kind = .phfin)
      let tiles := if m.kind = .phfin then 3 else 1
      ∃ t, exec (.tileArrayCycle op q.q) s = .next t ∧ SameMemory s t ∧
        (∀ a z i j, i < 16 → j < 16 → z < 16 → ((t.frame m.die m.core m.ctx).tile a z i j).1 =
          if a = q.arr ∧ m.z ≤ z ∧ z < m.z + tiles then
            (if m.kind = .ldz then SMap.get 0 q.data (16 * i + j) else if clear then 0 else (fr.tile a z i j).1)
          else (fr.tile a z i j).1) ∧
        (m.kind = .drain ∨ m.kind = .phfin → (∀ z i j, i < 16 → j < 16 → m.z ≤ z → z < m.z + tiles → (fr.tile q.arr z i j).2 = .ok) →
          ∃ m' q', t.mxop? op = some m' ∧ m'.qs.find? (fun x => x.q == q.q) = some q' ∧ q'.done = true ∧ q'.rows = q.rows ∧
            ∀ i j, i < 16 → j < 16 → SMap.get 0 q'.data (16 * i + j) =
              if m.kind = .phfin then BitVec.ofNat 32 (resultant (fr.tile q.arr m.z i j).1.toInt (fr.tile q.arr (m.z + 1) i j).1.toInt
                (fr.tile q.arr (m.z + 2) i j).1.toNat)
              else (fr.tile q.arr m.z i j).1)) ∧
    (∀ q r, m.qs.find? (fun x => x.q == q.q) = some q → q.q < 4 → m.kind = .ldz → q.done = false → r < 16 → r ∉ q.rows → mxMayRead s m = true →
      let bs := if m.g then opBytes s m.id m.die m.core (q.pas.getD r 0) 64 else spadBytes s m.team (q.base + r * q.pitch) 64
      ∃ t m' q', exec (.mxldzDataArrive op (q.q + 4 * r)) s = .next t ∧ SameMemory s t ∧ t.mxop? op = some m' ∧
        m'.qs.find? (fun x => x.q == q.q) = some q' ∧ q'.rows = q.rows ++ [r] ∧
        ∀ j, j < 16 → SMap.get 0 q'.data (16 * r + j) = BitVec.ofNat 32 (leNat (((bs.drop (4 * j)).take 4).map (·.1)))) ∧
    (∀ q r t0, m.qs.find? (fun x => x.q == q.q) = some q → q.q < 4 → m.kind = .drain ∨ m.kind = .phfin → m.add = false → m.g = false →
      q.done = true → r < 16 → r ∉ q.rows → s.team? m.team = some t0 →
      ∃ t u, exec (.engineLand op (q.q + 4 * r)) s = .next t ∧ t.home = s.home ∧ t.team? m.team = some u ∧
        ∀ x, u.byte x = if q.base + r * q.pitch ≤ x ∧ x < q.base + r * q.pitch + 64 then
            (BitVec.ofNat 8 ((SMap.get 0 q.data (16 * r + (x - (q.base + r * q.pitch)) / 4)).toNat /
              256 ^ ((x - (q.base + r * q.pitch)) % 4)), .ok)
          else t0.byte x)

/-! ### Traps, translation, sources -/

/-- Taking a trap: once no late write-back is owed, the frame is written with ordinary stores of the group, its fields where
R379 puts them; then the vector entry is read and the group goes on at its handler's clause in system mode; a fault in system
mode, a frame or an entry that cannot be had, an entry of 0 or not a multiple of 8 stop the group and its context; a fault of a drain
that came while the group held another is next (R364, R375, R377 to R379). Where the spec is silent it follows the model's choice, log
entries 26, 42, 45, 98 and 110: that a context whose event queue lies at no address keeps the kind 2 element is log entry 26. -/
def Obligations.TrapDelivery : Prop :=
  (∀ (s : State) (gid : Nat) (g : Group) (f : FaultRec), Trapped s gid g f →
    let lost := ∃ u, exec (.trapTake gid) s = .next u ∧ DoubleFaulted s u gid g f
    let va := frameVa g
    let kw := s.kword g
    (g.sys = true → lost) ∧
    (g.sys = false → owesLate s g = false →
      (g.framed = false → va % 128 ≠ 0 → lost) ∧
      (g.framed = false → va % 128 = 0 → Paged s g .wr va → Paged s g .wr (va + 0x8C00 - 128) →
        (∀ j, j < 280 → ∃ x ∈ hitXls s g [(0, va), (0, va + 0x8C00 - 128)], x.base ≤ va + 128 * j ∧ va + 128 * j < x.base + x.size) →
        ∃ u as, exec (.trapTake gid) s = .next u ∧
          u = { s with groups := (s.setGroup { g with framed := true }).groups, accs := u.accs, nextId := s.nextId + as.length } ∧
          u.accs = s.accs ++ inOrder s.nextId as ∧
          (∀ a ∈ as, a.isStore = true ∧ a.gid = some gid ∧ a.preds = g.preds ∧ a.rel = false ∧ ∀ b ∈ a.bytes, b.bad = .ok) ∧
          let fld := fun (o n : Nat) => accField as (va + o) n
          fld 0 8 = f.hdr.toNat ∧ fld 8 4 = f.idx % 2 ^ 32 ∧ fld 0xC 4 = f.code.num ∧ fld 0x10 8 = f.word.toNat ∧
          fld 0x18 8 = f.addr.toNat ∧ fld 0x20 4 = g.active.toNat ∧ fld 0x24 4 = f.lanes.toNat ∧
          fld 0x28 8 = (if g.half.isSome then 1 else 0) + (if g.iter.isSome then 2 else 0) ∧ fld 0x30 4 = g.voidm.toNat ∧
          fld 0x34 4 = g.nbv % 2 ^ 32 ∧ fld 0x38 8 = f.info.toNat ∧ (∀ n, n < 16 → fld (0x40 + 4 * n) 4 = (g.rdK n).toNat) ∧
          (∀ n, n < 64 → fld (0x80 + 8 * n) 8 = if n < kSregs kw then (g.rdS n).toNat else 0) ∧
          (∀ n l, n < 256 → n < kVregs kw → l < g.width → fld (0x280 + 8 * n) 8 / 4 ^ l % 4 =
            if (g.laneV n l).empty then 0 else if (g.laneV n l).bad = .ok then 1 else 3) ∧
          fld 0xA80 8 = g.bkpass.toNat ∧ fld 0xA88 4 = (24 * g.part + g.slot) % 2 ^ 32 ∧ fld 0xA8C 4 = Role.num g.role ∧
          ∀ n l, n < 256 → l < 32 → fld (0xC00 + 128 * n + 4 * l) 4 =
            if n < kVregs kw ∧ l < g.width then (g.laneV n l).val.toNat else 0) ∧
      (g.framed = true →
        let e := (g.trapvec.toNat + 8 * f.code.num) % 2 ^ 64
        (2 ^ 52 ≤ e → lost) ∧
        ((∃ x, tlbFind (s.core g.die g.core).tlb g.ctx e = some x ∧ e < 2 ^ 52 ∧ refused x.leaf false .rd = true) → lost) ∧
        (Paged s g .rd e →
          let a := { gAcc g 0 .load (.glob (paOf s g e)) e 8 false false .core with id := s.nextId, seq := s.nextId }
          let pc := leNat ((accRead s a).map (·.1))
          blocked s.accs a = false →
            (pc = 0 ∨ pc % 8 ≠ 0 → lost) ∧
            (pc ≠ 0 → pc % 8 = 0 → ∃ h u, exec (.trapTake gid) s = .next u ∧ SameMemory s u ∧
              u = { s.setGroup h with nextId := s.nextId + 1, parts := u.parts, dies := u.dies, quads := u.quads, moved := u.moved,
                                      cbSeen := u.cbSeen } ∧
              (∀ x ∈ (u.quad g.die (g.core / 4)).reqs, ¬(x.owner = g.gid ∧ x.kind = 0)) ∧
              (∀ x ∈ (u.quad g.die (g.core / 4)).granted, ¬(x.1 = g.gid ∧ x.2.1 = 0)) ∧
              AtClause h (BitVec.ofNat 64 pc) ∧ h.sys = true ∧ h.trap = none ∧
              (∃ x, x = { g with trap := none, framed := false } ∧
                h = { x with hdr := h.hdr, idx := h.idx, clause := none, entered := false, sleep := .awake, sys := true })))))) ∧
  ∀ (s : State) (gid : Nat) (g : Group) (r : FaultRec) (l : List FaultRec), s.group? gid = some g → g.trap = none → g.late = r :: l →
    g.sys = false → g.stopped = false →
    exec (.trapTake gid) s = .next (s.setGroup { g with trap := some r, late := l, sleep := .awake })

/-- Translation: a walk that ends gives its die's TLB the leaf it found, or fails, or is discarded, the host window as it stood when the
walk started; the walks that queue start in order; an address in no TLB starts a walk or joins the one under way, and waits; a failed
walk raises XLATE, once for each group that waited, a page that refuses the access PROT, a misaligned address ALIGN, with the address
and the lanes at fault; no memory changes (R165, R168, R173, R174, R179, R375, R447). Where the spec is silent it follows the model's
choice, log entries 79, 92, 104, 113 and 129: that a walk reads all its entries in one step is log entry 129. -/
def Obligations.Translation : Prop :=
  (∀ (s : State) (id d : Nat) (w : Walk),
    (List.range 4).find? (fun d => (s.die d).walks.any fun x => x.id == id && !x.failed && x.limit.isSome) = some d →
    (s.die d).walks.find? (fun x => x.id == id) = some w →
    let root := ((s.ctx? w.ctx).map (·.root)).getD 0
    let rest := (s.die d).walks.filter fun x => x.id != id
    let s0 := { readBy s id with hostlim := w.limit.getD s.hostlim }
    ∃ t, exec (.pageWalk id) s = .next t ∧ SameMemory s t ∧ t = { s with dies := t.dies, moved := t.moved } ∧
      (w.dead = true → (t.die d).walks = runWalks s.hostlim 512 rest ∧ (t.die d).tlb = (s.die d).tlb) ∧
      (w.dead = false → walk s0 d root (w.va * 65536) = none → (t.die d).tlb = (s.die d).tlb ∧
        (t.die d).walks = runWalks s.hostlim 512 ((s.die d).walks.map fun x => if x.id = id then { x with failed := true } else x)) ∧
      ∀ l size, w.dead = false → walk s0 d root (w.va * 65536) = some (l, size) → (s.die d).tlb.length < 32768 →
        tlbFind (s.die d).tlb w.ctx (w.va * 65536) = none →
        (t.die d).walks = runWalks s.hostlim 512 rest ∧ (size = 2 ^ 16 ∨ size = 2 ^ 21 ∨ size = 2 ^ 30) ∧ leafOk s0 l size = true ∧
        tlbFind (t.die d).tlb w.ctx (w.va * 65536) = some ⟨w.ctx, w.va * 65536 / size * size, size, l⟩) ∧
  (∀ (s : State) (g : Group) (f : FM), Ready s g (.sld f) → g.act f.p ≠ 0 →
    let a := eaOf g f 0
    let trapped := fun (c : FaultCode) => some { g with trap := some ⟨c, BitVec.ofNat 64 a, 0, encode (.sld f), 0, g.idx, g.hdr⟩, sleep := .awake }
    watchFind s g false (memW f.ty) [(0, a)] = none →
    (a % memW f.ty ≠ 0 → exec (.sld f) s = .next { s with focus := trapped .align }) ∧
    (a % memW f.ty = 0 →
      (2 ^ 52 ≤ a → ∃ t, exec (.sld f) s = .next t ∧ SameMemory s t ∧ t.focus = trapped .xlate) ∧
      (a < 2 ^ 52 → tlbFind (s.core g.die g.core).tlb g.ctx a = none → tlbFind (s.die g.die).tlb g.ctx a = none →
        (failedFor s g.die g.ctx g.gid a = false →
          ∃ t, exec (.sld f) s = .next t ∧ SameMemory s t ∧ t.focus = some { g with sleep := .stall } ∧
            (walkFor s g.die g.ctx a = none → (t.die g.die).walks = runWalks s.hostlim 512
              ((s.die g.die).walks ++ [⟨s.nextId, g.ctx, a / 65536, g.die, [g.gid], none, false, false⟩])) ∧
            ∀ w, walkFor s g.die g.ctx a = some w → (t.die g.die).walks = (s.die g.die).walks.map fun x =>
              if x.id = w.id ∧ g.gid ∉ w.asks then { x with asks := x.asks ++ [g.gid] } else x) ∧
        (failedFor s g.die g.ctx g.gid a = true →
          ∃ t, exec (.sld f) s = .next t ∧ SameMemory s t ∧ t.focus = trapped .xlate ∧
            ∀ x ∈ (t.die g.die).walks, x.failed = true → x.ctx = g.ctx → x.va = a / 65536 → g.gid ∉ x.asks)) ∧
      ∀ e, a < 2 ^ 52 → tlbFind (s.core g.die g.core).tlb g.ctx a = some e → refused e.leaf g.sys .rd = true →
        exec (.sld f) s = .next { s with focus := trapped .prot })) ∧
  ∀ (s : State) (g : Group) (f : FM) (vm : W32) (l : Nat) (ls : List Nat), Ready s g (.ld f) → Readable s g (idxSrc f (g.act f.p)) vm →
    dstBusy s g f.data (memRegs (memW f.ty)) (lanesOf (g.act f.p)) = false →
    watchFind s g false (memW f.ty) ((lanesOf (g.act f.p)).map fun l => (l, eaOf g f l)) = none →
    ((lanesOf (g.act f.p)).filter fun l => eaOf g f l % memW f.ty != 0) = l :: ls →
    let tr : FaultRec := ⟨.align, BitVec.ofNat 64 (eaOf g f l), maskWhere (l :: ls) fun _ => true, encode (.ld f), 0, g.idx, g.hdr⟩
    exec (.ld f) s = .next { s with focus := some { g with trap := some tr, sleep := .awake } }

/-- Source lanes of an instruction that reads lanes, whether it writes lanes, a mask or an s register: an own window name that is EMPTY with
no write pending is PIPESTATE; a trap-marked source with an EMPTY lane faults EMPTY, with a VOID one VOID, in the order of the operands;
an EMPTY lane of another source makes the instruction wait, in a swap candidate's wait where it is a window name's; a poisoned lane faults
POISON, or MARGIN where undervolting set it; else it reads, and the VOID lanes are those that VOIDM gains. A fault names the operand and its
lanes (R73, R74, R120, R130, R221, R375, R378). Where the spec is silent it follows the model's choice, log entries 112, 117 and 118: MARGIN
before POISON within one operand, and the low register of a pair before the high one, is log entry 112; that a trap-marked EMPTY source
faults beside one that waits log entry 117; that of several the first is named log entry 118. -/
def Obligations.SourceLanes : Prop :=
  ∀ (s : State) (g : Group) (f : VR) (c : Cond) (op : RedOp),
    let n := if f.ty.is64 then 2 else 1
    ∀ p ∈ ([(.iadd f, [(f.a, n, f.ta), (f.b, n, f.tb)]), (.isub f, [(f.a, n, f.ta), (f.b, n, f.tb)]), (.imul f, [(f.a, n, f.ta), (f.b, n, f.tb)]),
        (.and f, [(f.a, n, f.ta), (f.b, n, f.tb)]), (.icmp c f, [(f.a, n, f.ta), (f.b, n, f.tb)]), (.iabs f, [(f.a, n, f.ta)]),
        (.fadd f, [(f.a, 1, f.ta), (f.b, 1, f.tb)]), (.fsub f, [(f.a, 1, f.ta), (f.b, 1, f.tb)]), (.fmul f, [(f.a, 1, f.ta), (f.b, 1, f.tb)]),
        (.fcmp c f, [(f.a, 1, f.ta), (f.b, 1, f.tb)]), (.redg op f, [(f.a, n, f.ta)])] : List (Instr × List (Opnd × Nat × Bool))),
      Ready s g p.1 →
      let ls := lanesOf (g.act f.p)
      let empty := fun (x : Opnd × Nat × Bool) (l : Nat) => SrcEmpty s g x.1 x.2.1 l
      let void := fun (x : Opnd × Nat × Bool) (l : Nat) => SrcVoid s g x.1 l
      let bad := fun (b : Bad) (x : Opnd × Nat × Bool) (l : Nat) => SrcBad s g b x.1 x.2.1 l
      let misused := ∃ x ∈ p.2, ∃ l ∈ ls, SrcMisuse s g x.1 l
      let traps := fun (x : Opnd × Nat × Bool) => x.2.2 = true ∧ ∃ l ∈ ls, empty x l ∨ void x l
      let poisoned := fun (x : Opnd × Nat × Bool) => ∃ l ∈ ls, bad .margin x l ∨ bad .poison x l
      let waiting := ∃ x ∈ p.2, ∃ l ∈ ls, empty x l
      (misused → RaisesAt s g p.1 .pipestate 0 0) ∧
      (∀ pre x post, p.2 = pre ++ x :: post → ¬misused → (∀ y ∈ pre, ¬traps y) → traps x →
        ((∃ l ∈ ls, empty x l) → FaultsIn s g p.1 .empty x.1 ls (empty x)) ∧
        ((∀ l ∈ ls, ¬empty x l) → FaultsIn s g p.1 .void x.1 ls (void x))) ∧
      (¬misused → (∀ x ∈ p.2, ¬traps x) → waiting →
        ((∃ x ∈ p.2, x.1.isY = true ∧ ∃ l ∈ ls, empty x l) → exec p.1 s = .next { s with focus := some { g with sleep := .window } }) ∧
        ((∀ x ∈ p.2, x.1.isY = true → ∀ l ∈ ls, ¬empty x l) → exec p.1 s = .next { s with focus := some { g with sleep := .stall } })) ∧
      (∀ pre x post, p.2 = pre ++ x :: post → ¬misused → (∀ y ∈ p.2, ¬traps y) → ¬waiting → (∀ y ∈ pre, ¬poisoned y) → poisoned x →
        ((∃ l ∈ ls, bad .margin x l) → FaultsIn s g p.1 .margin x.1 ls (bad .margin x)) ∧
        ((∀ l ∈ ls, ¬bad .margin x l) → FaultsIn s g p.1 .poison x.1 ls (bad .poison x))) ∧
      (¬misused → (∀ x ∈ p.2, ¬traps x) → ¬waiting → (∀ x ∈ p.2, ¬poisoned x) →
        ∃ vm, Readable s g (p.2.map fun x => ⟨x.1, x.2.1, x.2.2, ls.map fun l => (l, l)⟩) vm ∧
          ∀ l, l < 32 → (vm.getLsbD l = true ↔ l ∈ ls ∧ ∃ x ∈ p.2, void x l))

/-! ### Saves -/

/-- A context leaves a core and comes back: the request starts its deferral limit, after which the save is forced and its
groups stop; partly arrived barriers defer the save of a context that is not forced, whether it runs or not; another resident context runs once they have and its started passes have ended, its sleepers of WAITL completing; with its glades drawn and nothing in flight, its groups, teams,
pipes and frame leave the core, its code cache dropped; a free frame takes it back, each group as its frame in memory says, with an empty
code cache (R117, R232, R233, R250, R380 to R383, R448). Where the spec is silent it follows the model's choice, log entries 47, 48, 50,
104, 128, 135 and 137: that a sleeper of WAITL inside a clause is past it at its stop point is log entry 137. -/
def Obligations.ContextSaves : Prop :=
  (∀ (s : State) (ctx die core : Nat) (c : Context) (r : SaveRec), s.ctx? ctx = some c → c.rec? die core = some r →
    (r.st = .resident → ∃ t d, exec (.saveRequest ctx die core) s = .next t ∧ t = { s with contexts := t.contexts } ∧
      t.ctx? ctx = some d ∧ ∃ n z, n = s.gtb.toNat + 1000 * (s.pdefer.extractLsb' 0 10).toNat ∧
        z = (if frozenOn s ctx die core then some s.gtb.toNat else none) ∧
        d.rec? die core = some { r with st := .requested, forced := false, asked := s.gtb.toNat, due := n, frozen := z }) ∧
    (r.st = .requested → r.due ≤ s.gtb.toNat → frozenOn s ctx die core = false →
      ∃ t d, exec (.preemptDeferExpiry ctx die core) s = .next t ∧ t = { s with contexts := t.contexts } ∧ t.ctx? ctx = some d ∧
        d.rec? die core = some { r with st := .forced, forced := true } ∧ stopping t ctx die core = true) ∧
    (r.st = .requested → s.gtb.toNat < r.due → exec (.preemptDeferExpiry ctx die core) s = .next s) ∧
    (allAtStop s ctx die core = true → frozenOn s ctx die core = false →
      (r.st ≠ .saved → r.st ≠ .streaming → mayPublishN s die 65536 = true → ((s.core die core).running = some ctx → stopping s ctx die core = true) →
        (r.st ≠ .forced → deferred s ctx die core = false) →
        ((s.core die core).running ≠ some ctx → ∀ m ∈ s.mxops, m.ctx = ctx → m.die = die → m.core = core → m.over s = true) →
        ∃ t d q, exec (.contextStreamOut ctx die core) s = .next t ∧ t.ctx? ctx = some d ∧ d.rec? die core = some q ∧ q.st = .streaming ∧
          t.groups.map (·.gid) = s.groups.map (·.gid) ∧ ∀ j, j < 4 → ∀ x ∈ (t.partn die core j).glades, x.ctx ≠ ctx) ∧
      (r.st = .streaming → gladesLeft s ctx die core = true ∨ quiet s ctx die core = false →
        exec (.contextStreamOut ctx die core) s = .next s) ∧
      (r.st = .streaming → gladesLeft s ctx die core = false → quiet s ctx die core = true → mayPublishN s die 65536 = true →
        ∃ t d q, exec (.contextStreamOut ctx die core) s = .next t ∧ t.ctx? ctx = some d ∧ d.rec? die core = some q ∧ q.st = .saved ∧
          q.forced = r.forced ∧ q.gtb = s.gtb.toNat ∧ q.groups.map (·.gid) = (onCore s ctx die core).map (·.gid) ∧
          (∀ g ∈ t.groups, ¬(g.ctx = ctx ∧ g.die = die ∧ g.core = core)) ∧
          (∀ u ∈ t.teams, ¬(u.ctx = ctx ∧ u.die = die ∧ u.core = core)) ∧ (∀ f ∈ (t.core die core).frames, f.ctx ≠ ctx) ∧
          (∀ e ∈ (t.core die core).code, e.ctx ≠ ctx) ∧ (t.core die core).running ≠ some ctx ∧ ∀ j, j < 4 → ∀ p ∈ (t.partn die core j).pipes, p.ctx ≠ ctx))) ∧
  (∀ (s : State) (ctx die core : Nat) (c : Context) (f : Frame), (s.core die core).frames.find? (fun x => x.ctx == ctx) = some f →
    s.ctx? ctx = some c → (c.rec? die core).map (·.st) ≠ some .streaming →
    ((s.core die core).running = none → exec (.contextSwitch die core ctx) s =
      .next (s.setCore die core { s.core die core with running := some ctx })) ∧
    ∀ a, (s.core die core).running = some a → a ≠ ctx → stopping s a die core = true → allAtStop s a die core = true →
      frozenOn s a die core = false → passesHold s a die core = false →
      ∃ t, exec (.contextSwitch die core ctx) s = .next t ∧ SameMemory s t ∧ t.groups.length = s.groups.length ∧
        (∀ p ∈ s.groups.zip t.groups,
          let ends := p.1.ctx = a ∧ p.1.die = die ∧ p.1.core = core ∧ (p.1.sleep = .rewoken ∨ ∃ l n, p.1.sleep = .waitl l n)
          (ends → p.2 = { p.1.advance with sleep := if p.1.advance.entered then .passed else .awake }) ∧ (¬ends → p.2 = p.1)) ∧
        t.core die core = { s.core die core with running := some ctx } ∧
        ∀ b q, s.ctx? a = some b → b.rec? die core = some q → q.st ≠ .streaming →
          ∃ d, t.ctx? a = some d ∧ d.rec? die core = some { q with st := .resident }) ∧
  ∀ (s : State) (ctx die core first : Nat) (c : Context) (r : SaveRec), s.ctx? ctx = some c →
    c.saves.find? (fun x => x.st == .saved && x.die == die && x.core == core) = some r →
    freeFrame s die core (r.teams.any fun t => t.wide) = some first → pipesFit s die core r.pipes = true → feAway s ctx = false → mayPublishN s die 4096 = true →
    ∃ t d q f, exec (.contextResume ctx die core) s = .next t ∧ t.ctx? ctx = some d ∧ d.rec? die core = some q ∧ q.st = .resident ∧
      f ∈ (t.core die core).frames ∧ f.ctx = ctx ∧ (∀ e ∈ (t.core die core).code, e.ctx ≠ ctx) ∧
      t.groups.map (·.gid) = s.groups.map (·.gid) ++ r.groups.map (·.gid) ∧ t.teams.map (·.id) = s.teams.map (·.id) ++ r.teams.map (·.id) ∧
      ∀ g tm, r.groups = [g] → r.teams.find? (fun x => x.id == g.team) = some tm →
        let fr := feReadBy s g.gid c die (frameVa g) 0x8C00
        let h := frN fr 0 8
        let w := BitVec.ofNat 64 (frN (feReadBy s g.gid c die h 8) 0 8)
        tm.secLo ≤ h → h + 8 ≤ tm.secHi → (fePage s c die h).map (fun p => bitAt p.1 7) = some true → h % 8 = 0 → cTag w = 7 → cClass w ≤ 5 → frN fr 8 4 ≤ cCount w → 1 ≤ frN fr 0x34 4 →
        frN fr 0x34 4 ≤ 3 →
        ∃ x ∈ t.groups, x.gid = g.gid ∧ x.hdr = BitVec.ofNat 64 h ∧ x.idx = frN fr 8 4 ∧ x.clause = none ∧ x.nbv = frN fr 0x34 4 ∧
          x.pass = true ∧ (∀ n, 0 < n → n < 64 → x.rdS n = BitVec.ofNat 64 (frN fr (0x80 + 8 * n) 8)) ∧
          ∀ n l, n < kVregs tm.kword → l < 32 → g.active.getLsbD l = true →
            (x.laneV n l).val = BitVec.ofNat 32 (frN fr (0xC00 + 128 * n + 4 * l) 4) ∧ (x.laneV n l).empty = false

/-! ### The front end -/

/-- Work comes to the cores: a context is admitted with its queues; a doorbell's packet joins its queue, and waits while the
queue is full; a core of the queue's die takes the next node of the ready list, else a reservation of the next element, which it then
reads and judges; the teams
of a launch are placed where there is room, those of a cohort together, those of a gang by partition, to start at one tick,
each group in its initial state; a copy node publishes bytes on its die, once what it acquires is visible; an ended team leaves
its core; a finished node's status record is published on the die that acts for it, and PLEFT of each successor falls by one (R272, R386
to R401, R403). Where the spec is silent it follows the model's choice, log entries 2, 51, 52, 53, 54, 55, 56, 57, 59, 60, 95 and 104: a
gang's teams off the package count as ended where they are reserved is log entry 57, the delay of a gang's start log entry 2. -/
def Obligations.LaunchSteps : Prop :=
  (∀ (s : State) (a : Admission), 6 ≤ s.upStep → fePkg s = true → s.ctx? a.ctx = none → s.pkg < 64 →
    (∀ d, d < 4 → mayPublishN s d 512 = true) →
    let names := ∀ p ∈ a.home :: a.granted, p.toNat % 1024 ≤ 30
    (¬names → exec (.contextAdmission a) s = .next s) ∧
    (names → (∀ c : Context, c.home = a.home → c.granted = a.granted → c.far = a.far →
        0x1000 + (savedCores s c).length * 0x130000 ≤ a.saveLen) →
      ∃ t c, exec (.contextAdmission a) s = .next t ∧ t.ctx? a.ctx = some c ∧ c.caps = a.caps ∧ c.root = a.root ∧ c.energy = 0 ∧
        c.budget = 2 ^ 64 - 1 ∧ c.bkpts = [] ∧ c.stopped = none ∧ c.saves = [] ∧ t.groups.map (·.gid) = s.groups.map (·.gid) ∧
        let s1 := dirInit { s with contexts := s.contexts ++ [c] } c
        (a.queues = [] → t = s1) ∧
        ∀ f pa, a.queues = [f] → fePa s1 c 0 f.va = some pa → paFar pa = false → f.va % 64 = 0 → f.base % 64 = 0 → f.base < 2 ^ 64 →
          1 ≤ f.logc → f.logc ≤ 20 → 2 ≤ f.scope → f.scope ≤ 5 →
          QueueNow t pa (freshQcb s pa 7 f.logc f.scope f.base) 0 0 (2 ^ f.logc) 0 0 0 ∧ (readQcb t pa).isWork = true ∧
          t.workq? pa = some ⟨pa, BitVec.ofNat 64 f.va, a.ctx, homeDie pa, 0, none, none, false⟩)) ∧
  (∀ (s : State) (w : WorkQ) (c : Context) (addr : W64), s.workq? w.qcb = some w → s.ctx? w.ctx = some c → w.dead = false →
    let q := readQcb s w.qcb
    q.scope = 5 →
    (w.doorbell ≠ none → exec (.doorbellWrite w.qcb addr) s = .next s) ∧
    (w.doorbell = none → feDie s w.die = false →
      exec (.doorbellWrite w.qcb addr) s = .next (s.setWorkq { w with doorbell := some addr })) ∧
    (w.doorbell = none → feDie s w.die = true → q.ok s w.qcb = true → q.isWork = false →
      exec (.doorbellWrite w.qcb addr) s = .next (s.setWorkq { w with doorbell := none })) ∧
    (w.doorbell = none → feDie s w.die = true → paLost s w.qcb = false → paHost w.qcb = false → q.ok s w.qcb = false → q.st ≤ 1 →
      ∃ t v, exec (.doorbellWrite w.qcb addr) s = .next t ∧ t.workq? w.qcb = some v ∧ v.doorbell = none ∧ (readQcb t w.qcb).st = 2 ∧
        (readQcb t w.qcb).f 4 40 8 = 0x0E) ∧
    (w.doorbell = none → feDie s w.die = true → q.ok s w.qcb = true → addr.toNat % 128 ≠ 0 →
      exec (.doorbellWrite w.qcb addr) s = .next (s.setWorkq { w with doorbell := none })) ∧
    (∀ pk, w.doorbell = none → feDie s w.die = true → q.ok s w.qcb = true → q.isWork = true → q.st = 0 → addr.toNat % 128 = 0 →
      fePa s c w.die addr.toNat = some pk → paLost s w.qcb = false →
      let waits := q.free = 0 ∨ q.cap ≤ q.pe + q.pd
      (waits → ∃ t, exec (.doorbellWrite w.qcb addr) s = .next t ∧ t = s.setWorkq { w with doorbell := some addr } ∧
        doorbellRead t w.qcb = 1) ∧
      ∀ ep eq l k, ¬waits → q.tail + 1 < 2 ^ 64 → feLeaf s c w.die (q.base + 128 * (q.tail % q.cap)) = some (ep, l) →
        feLeaf s c w.die (q.base + 128 * (q.tail % q.cap) + 64) = some (eq, k) → l.getLsbD 6 = true → k.getLsbD 6 = true →
        paHost w.qcb = false →
        ∃ t v m, exec (.doorbellWrite w.qcb addr) s = .next t ∧ t.workq? w.qcb = some v ∧ v.doorbell = none ∧ doorbellRead t w.qcb = 0 ∧
          QueueNow t w.qcb q q.head (q.tail + 1) (q.free - 1) q.pd (q.pe + 1) 0 ∧ t.qmoves = s.qmoves ++ [m] ∧ m.id = s.nextId ∧
          m.kind = .lnch ∧ m.fe = true ∧ m.die = w.die ∧ m.qcb = w.qcb ∧ m.n = q.tail ∧ m.landed = false ∧ m.moved = 0 ∧
          m.pas = [ep, eq] ∧ m.src = pk)) ∧
  (∀ (s : State) (w : WorkQ) (c : Context) (fe : Nat), s.workq? w.qcb = some w → feUp s w.die fe = true → w.doorbell = none →
    s.ctx? w.ctx = some c → c.stopped = none →
    (mayPublish s w.die = false → exec (.packetDispatch w.qcb fe) s = .next s) ∧
    (∀ r rest l, c.ready = r :: rest → s.launch? r.1 = some l → mayPublish s w.die = true → entryClear s l = true →
      ∃ t m, exec (.packetDispatch w.qcb fe) s = .next t ∧ t.launch? r.1 = some m ∧ m.die = w.die ∧ m.fe = fe ∧ m.packet = l.packet ∧
        t.ctx? w.ctx = some { c with ready := rest }) ∧
    (c.ready = [] → w.dead = true ∨ inDispatch s w = true → exec (.packetDispatch w.qcb fe) s = .next s) ∧
    (c.ready = [] → w.dead = false → inDispatch s w = false → mayPublish s w.die = true → paLost s w.qcb = false →
      let q := readQcb s w.qcb
      let va := q.base + 128 * (q.head % q.cap)
      q.ok s w.qcb = true → q.isWork = true → q.st = 0 → q.head < q.tail - q.pe → (∀ d ∈ s.contexts, d.posts = []) → paHost w.qcb = false →
      (q.cap ≤ q.pe + q.pd → exec (.packetDispatch w.qcb fe) s = .next s) ∧
      (q.pe + q.pd < q.cap → feLeaf s c w.die va = none → va + 64 < 2 ^ 64 →
        ∃ t, exec (.packetDispatch w.qcb fe) s = .next t ∧ QueueNow t w.qcb q (q.head + 1) q.tail (q.free + 1) (q.pd + 1) q.pe 2 ∧
          (readQcb t w.qcb).f 4 40 8 = 0x09 ∧ t.qmoves = s.qmoves) ∧
      ∀ ep eq l k, q.pe + q.pd < q.cap → feLeaf s c w.die va = some (ep, l) → feLeaf s c w.die (va + 64) = some (eq, k) →
        l.getLsbD 5 = true → k.getLsbD 5 = true →
        ∃ t v m, exec (.packetDispatch w.qcb fe) s = .next t ∧ t.workq? w.qcb = some v ∧ v.inFlight = some s.nextId ∧ v.fe = fe ∧
          t.qmoves = s.qmoves ++ [m] ∧ m.id = s.nextId ∧ m.kind = .deq ∧ m.fe = true ∧ m.ctx = w.ctx ∧ m.die = w.die ∧ m.qcb = w.qcb ∧
          m.n = q.head ∧ m.pas = [ep, eq] ∧ m.landed = false ∧ m.cut = 0 ∧ t.launches = s.launches ∧ inDispatch t v = true ∧
          QueueNow t w.qcb q (q.head + 1) q.tail (q.free + 1) (q.pd + 1) q.pe 0)) ∧
  (∀ (s : State) (m : QMove) (w : WorkQ) (c : Context), s.move? m.id = some m → m.kind = .deq → m.fe = true → m.landed = false →
    s.workq? m.qcb = some w → s.ctx? m.ctx = some c → (∀ d ∈ s.contexts, d.posts = []) → s.launch? m.id = none →
    let p := ((m.pas.map fun a => opBytes s m.id m.die m.core a (min m.esz 64)).flatten).map (·.1)
    (mayPublish s m.die = false → exec (.deqElementRead m.id) s = .next s) ∧
    (mayPublish s m.die = true → ∃ t l, exec (.deqElementRead m.id) s = .next t ∧ t.move? m.id = none ∧ m.n ∉ (t.qhome m.qcb).unread ∧
      t.launch? m.id = some l ∧ l.packet = p ∧ l.ctx = m.ctx ∧ l.die = m.die ∧ l.fe = w.fe ∧ l.queue = some m.qcb ∧ l.placed = 0 ∧
      (m.cut = 0 → pkOk c p = false ∨ pkPred p ≠ 0 → l.status = 0x40 ∧ l.boundary = true) ∧
      (m.cut = 0 → pkOk c p = true → pkPred p = 0 → pkType p ≠ 1 ∨ pkTeams p = 0 → l.status = 0 ∧ l.boundary = true) ∧
      (m.cut ≠ 0 → l.killed = true ∧ l.boundary = true ∧ l.status ≠ 0) ∧
      (pkGraphed p = false → m.n ∈ (s.qhome m.qcb).unread → paHost m.qcb = false → paLost s m.qcb = false →
        let q := readQcb s m.qcb
        QueueNow t m.qcb q q.head q.tail q.free (q.pd - 1) q.pe q.st))) ∧
  (∀ (s : State) (l : Launch) (c : Context), InHand s l.id l c → placing s l = true →
    (∀ core, pkCoh l.packet = false → placeOk s c l l.placed (core / 48) (core % 48) = true →
      ∃ t tm m, exec (.teamPlace l.id core) s = .next t ∧ t.teams = s.teams ++ [tm] ∧ tm.launch = l.id ∧ tm.ctx = l.ctx ∧
        tm.die = core / 48 ∧ tm.core = core % 48 ∧ tm.index = l.placed ∧ tm.kword = l.kword ∧ tm.kaddr = BitVec.ofNat 64 l.kaddr ∧
        tm.secLo = l.secLo ∧ tm.secHi = l.secHi ∧ tm.spadLen = pkScratch l.packet ∧ tm.ended = false ∧
        t.launch? l.id = some m ∧ m.placed = l.placed + 1 ∧ (m.boundary = true ↔ l.placed + 1 = pkTeams l.packet) ∧
        Started s t l tm ((capBase c (pkF l.packet 0x48 0 32) 0 1 0).getD 0) true ∧
        (kL16 l.kword = false → t.groups.length = s.groups.length + kGroups l.kword)) ∧
    (∀ cores, pkCoh l.packet = true → pkGang l.packet = false → cores.length = pkTeams l.packet →
      let all := placeAll s l.id true ((List.range cores.length).zip cores)
      (all = none → exec (.cohortAdmit l.id cores) s = .next s) ∧
      (all ≠ none → ∃ t m, exec (.cohortAdmit l.id cores) s = .next t ∧ t.teams.length = s.teams.length + pkTeams l.packet ∧
        (∀ u ∈ t.teams.drop s.teams.length, u.launch = l.id) ∧ t.launch? l.id = some m ∧ m.placed = l.placed + pkTeams l.packet ∧
        (l.placed = 0 → 0 < pkTeams l.packet → m.boundary = true))) ∧
    (∀ cores id, pkGang l.packet = true → nextPart (l.gang.map (·.1)) l.held = some id →
      let ts := gangTeams c l id
      let held := fun (t : State) (m : Launch) => exec (.gangReserve l.id cores) s = .next t ∧ t.launch? l.id = some m ∧
        m.held = l.held ++ [id] ∧ m.placed = l.placed + ts.length ∧
        (nextPart (l.gang.map (·.1)) (l.held ++ [id]) = none →
          m.startAt = some (s.gtb.toNat + 10000 + Config.gangDelay l.id) ∧ m.boundary = true)
      (onPkg s (BitVec.ofNat 16 id) = false → ∃ t m, held t m ∧ t.teams = s.teams ∧ m.ended = l.ended + ts.length) ∧
      (onPkg s (BitVec.ofNat 16 id) = true → cores.length = ts.length → placeAll s l.id false (ts.zip cores) ≠ none →
        ∃ t m, held t m ∧ t.teams.length = s.teams.length + ts.length ∧
          ∀ g ∈ t.groups, (∀ h ∈ s.groups, h.gid ≠ g.gid) → g.started = false))) ∧
  (∀ (s : State) (l : Launch) (n : Nat), s.launch? l.id = some l → l.startAt = some n →
    (n ≤ s.gtb.toNat → exec (.gangStart l.id) s =
      .next { s with groups := s.groups.map fun g => if g.launch == l.id then { g with started := true } else g }) ∧
    (s.gtb.toNat < n → exec (.gangStart l.id) s = .next s)) ∧
  (∀ (s : State) (tm : Team), s.team? tm.id = some tm →
    (teamHeld s tm = true → exec (.teamEndRelease tm.id) s = .next s) ∧
    (teamHeld s tm = false → mayPublishN s tm.die 4 = true → ∃ t, exec (.teamEndRelease tm.id) s = .next t ∧ (∀ u ∈ t.teams, u.id ≠ tm.id) ∧
      (∀ u ∈ s.teams, u.id ≠ tm.id → u ∈ t.teams) ∧ (∀ g ∈ t.groups, g.team ≠ tm.id) ∧
      ((∀ u ∈ s.teams, u.id ≠ tm.id → ¬(u.ctx = tm.ctx ∧ u.die = tm.die ∧ u.core = tm.core)) →
        ∀ f ∈ (t.core tm.die tm.core).frames, f.ctx ≠ tm.ctx) ∧
      ∀ l, s.launch? tm.launch = some l → ∃ m, t.launch? tm.launch = some m ∧ m.ended = l.ended + 1 ∧ m.placed = l.placed ∧
        tm.res ∉ m.resident)) ∧
  ∀ (s : State) (l : Launch) (c : Context), InHand s l.id l c →
    (∀ va pa, l.complete = false → fePkg s = true → l.killed = false → nodeOver l false = true → relDone s l = true →
      mayPublishN s (actDie s l.die) 5 = true → pkStatus c l.packet = some va → fePa s c (actDie s l.die) va = some pa → paFar pa = false →
      va % 128 ≤ 112 → l.node = none →
      ∃ t, exec (.nodeComplete l.id) s = .next t ∧
        ((List.range 16).map fun i => (t.view (actDie s l.die)).byte (pa + i)) =
          okBytes (leBytes 1 l.status ++ leBytes 3 0 ++ leBytes 4 (min l.placed (2 ^ 32 - 1)) ++ leBytes 8 s.gtb.toNat) ∧
        (∀ d, d ≠ actDie s l.die → t.view d = s.view d) ∧
        (pkNsucc l.packet = 0 → (∀ tm ∈ s.teams, tm.launch ≠ l.id) →
          (∀ x ∈ t.launches, x.id ≠ l.id) ∧ ∀ n ∈ t.nets, n.launch ≠ some l.id) ∧
        ∀ b, 0 < pkNsucc l.packet → pkNsucc l.packet ≤ 4096 → pkSucc c l.packet = some b →
          ∃ m, t.launch? l.id = some m ∧ m.complete = true ∧ m.status = l.status ∧ m.todo.length = pkNsucc l.packet) ∧
    (∀ n rest b pa, l.complete = true → fePkg s = true → l.todo = n :: rest → pkGraph c l.packet n = some b → (b + 16 * n) % 16 = 0 →
      let die := actDie s l.die
      let left := leNat ((homeBytes s pa 4).map (·.1))
      mayPublishN s die 3 = true → fePa s c die (b + 16 * n + 4) = some pa → paFar pa = false → homeDie pa = die → l.status = 0 → left ≠ 1 →
      ∃ t, exec (.nodeComplete l.id) s = .next t ∧
        (homeBytes t pa 4).map (·.1) = leBytes 4 ((left + 2 ^ 32 - 1) % 2 ^ 32) ∧
        (∀ x, (x < pa ∨ pa + 4 ≤ x) → t.home.byte x = s.home.byte x) ∧ (∀ m, t.launch? l.id = some m → m.todo = rest) ∧
        ∀ d, s.ctx? l.ctx = some d → ∃ e, t.ctx? l.ctx = some e ∧ e.ready = d.ready ∧ e.posts = d.posts) ∧
    ∀ src dst pa pb, l.status = 0 → pkType l.packet = 2 → feUp s l.die l.fe = true → pkCopy c l.packet = some (src, dst) →
      let a := src + l.copyAt
      let b := dst + l.copyAt
      let n := min (pkF l.packet 0x18 0 64 - l.copyAt) (min (128 - a % 128) (128 - b % 128))
      (acquired s l = false ∨ mayLand s l.die n = false → exec (.copyNodeRun l.id) s = .next s) ∧
      (0 < n → acquired s l = true → mayLand s l.die n = true → fePa s c l.die a = some pa → fePa s c l.die b = some pb → paFar pb = false →
        ∃ t m, exec (.copyNodeRun l.id) s = .next t ∧ t.launch? l.id = some m ∧ m.copyAt = l.copyAt + n ∧
          (∀ x, (t.view l.die).byte x =
            if pb ≤ x ∧ x < pb + n then (hostRead s l.id pa (feRead s c l.die a n)).getD (x - pb) (0, .ok) else (s.view l.die).byte x) ∧
          (∀ d, d ≠ l.die → t.view d = s.view d) ∧ (homeDie pb ≠ l.die → t.home = s.home) ∧
          ∀ x, (x < pb ∨ pb + n ≤ x) → t.home.byte x = s.home.byte x)

/-- The front end's losses and ends: a halted core's work passes to a sibling; a lost queue is dead and faulted, its packet cut
short, its context told; with all cores of a die halted its queues and packets end, and a reset of the die lets them run again;
a context that ends leaves nothing of itself on any core; a registered translation clears the code caches, and frees the old
code once it has been swapped in and out, every group has left it and nothing refers to it, while its dispatch table stands unwritten (R251, R402 to R404, R414, R415). Where the spec is silent it follows the
model's choice, log entries 26, 61, 62, 74 and 97: that an event for a context whose event queue lies at no address is kept is log
entry 26. -/
def Obligations.FrontEndSteps : Prop :=
  (∀ (s : State) (die fe : Nat), die < 4 → fe < 4 →
    ∃ t, exec (.feCoreHalt die fe) s = .next t ∧ t = { s with dies := t.dies, feLost := t.feLost } ∧ SameMemory s t ∧ feUp t die fe = false ∧
      (t.die die).fe = (s.die die).fe.set fe true ∧
      (2 ≤ s.upStep → (∀ d k, d < 4 → k < 4 → feUp t d k = false) → fePkg t = false ∧ t.feLost = true)) ∧
  (∀ (s : State) (die fe sib : Nat) (image : FwImage), feUp s die fe = false → feUp s die sib = true →
    let good := sigIndex image ∈ s.images ∧ image.sig.length = 2820 ∧ ∃ k ∈ s.keys, Config.xmssValid k image.bytes image.sig = true
    (¬good → exec (.feTakeover die fe (sib, image)) s = .next s) ∧
    (good → ∃ t, exec (.feTakeover die fe (sib, image)) s = .next t ∧ t = { s with launches := t.launches, workqs := t.workqs } ∧
      (∀ l ∈ s.launches, l.die = die → l.fe = fe → { l with fe := sib } ∈ t.launches) ∧
      ∀ w ∈ s.workqs, w.die = die → w.fe = fe → { w with fe := sib } ∈ t.workqs)) ∧
  (∀ (s : State) (w : WorkQ), s.workq? w.qcb = some w →
    ∃ t v, exec (.queueTableLost w.qcb) s = .next t ∧ t.workq? w.qcb = some v ∧ v.dead = true ∧ v.doorbell = none ∧
      ((∀ c, s.ctx? w.ctx = some c → 2 ^ 52 ≤ c.evq.toNat) → paHost w.qcb = false → paLost s w.qcb = false →
        (readQcb t w.qcb).st = 3 ∧ (readQcb t w.qcb).f 4 40 8 = 0x44 ∧ (readQcb t w.qcb).f 7 0 64 = (readQcb t w.qcb).sum) ∧
      (∀ l, w.inFlight = some l.id → s.launch? l.id = some l → l.boundary = false → isReady s l = false →
        ∃ m, t.launch? l.id = some m ∧ m.killed = true ∧ m.boundary = true ∧ m.status = if l.status = 0 then 0x44 else l.status) ∧
      ∀ c, s.ctx? w.ctx = some c → ∃ d r n, t.ctx? w.ctx = some d ∧ r.length = 32 ∧ r.take 1 = [3] ∧
        d.posts = (c.posts ++ [r]).drop n ∧ (2 ^ 52 ≤ c.evq.toNat → n = 0)) ∧
  (∀ (s : State) (die : Nat), die < 4 → (∀ h ∈ (s.die die).fe, h = true) →
    (∃ t, exec (.dieFeHalt die) s = .next t ∧ (∀ w ∈ t.workqs, w.die = die → w.dead = true) ∧
        ∀ l, s.launch? l.id = some l → l.die = die → l.boundary = false ∨ copying l = true → isReady s l = false →
          ∃ m, t.launch? l.id = some m ∧ m.killed = true ∧ m.boundary = true ∧ m.status = if l.status = 0 then 0x46 else l.status) ∧
    ∃ t, exec (.dieReset die) s = .next t ∧ (t.die die).fe = [false, false, false, false] ∧
      (∀ w ∈ s.workqs, w.die = die → { w with dead := (readQcb t w.qcb).st == 3 } ∈ t.workqs) ∧
      ((∀ w ∈ s.workqs, w.die = die → w.dead = true ∧ (s.die die).feTold = true) →
        (∀ l ∈ s.launches, l.die = die → l.boundary = false ∨ copying l = true → isReady s l = true) → SameMemory s t ∧ t.launches = s.launches) ∧
      ∀ l, s.launch? l.id = some l → l.die = die → l.boundary = false ∨ copying l = true → isReady s l = false → ∃ m, t.launch? l.id = some m ∧ m.killed = true ∧ m.boundary = true ∧
          m.status = if l.status = 0 then 0x46 else l.status) ∧
  (∀ (s : State) (c : Context), s.ctx? c.id = some c → (∀ d, d < 4 → mayPublishN s d 512 = true) →
    ∃ t, exec (.contextDestroy c.id) s = .next t ∧ t.ctx? c.id = none ∧ (∀ g ∈ t.groups, g.ctx ≠ c.id) ∧ (∀ u ∈ t.teams, u.ctx ≠ c.id) ∧
      (∀ l ∈ t.launches, l.ctx ≠ c.id) ∧ (∀ w ∈ t.workqs, w.ctx ≠ c.id) ∧ (∀ x ∈ t.cmds, x.ctx ≠ c.id) ∧ (∀ m ∈ t.mxops, m.ctx ≠ c.id) ∧
      ∀ d k, (∀ f ∈ (t.core d k).frames, f.ctx ≠ c.id) ∧ (∀ e ∈ (t.core d k).tlb, e.ctx ≠ c.id) ∧ (t.core d k).running ≠ some c.id ∧
        (∀ e ∈ (t.die d).tlb, e.ctx ≠ c.id) ∧ (∀ e ∈ (t.core d k).code, e.ctx ≠ c.id) ∧ (∀ e ∈ (t.core d k).recs, e.ctx ≠ c.id) ∧
        ∀ j, (∀ q ∈ (t.partn d k j).pipes, q.ctx ≠ c.id) ∧ (∀ x ∈ (t.partn d k j).glades, x.ctx ≠ c.id) ∧
          ∀ x ∈ (t.partn d k j).draws, x.glade.ctx ≠ c.id) ∧
  (∀ (s : State) (ctx lo hi table words : Nat) (c : Context), s.ctx? ctx = some c →
    ∃ t, exec (.translationRegister ctx (lo, hi) (table, words)) s = .next t ∧ SameMemory s t ∧
      t.transl = s.transl ++ [⟨s.nextId, ctx, lo, hi, table, words, false, [], none, false⟩] ∧ ∀ d k, ∀ x ∈ (t.core d k).code, x.ctx ≠ ctx) ∧
  ∀ (s : State) (x : Transl), s.transl.find? (fun t => t.id == x.id) = some x →
    let here := ((s.allGroups ++ savedGroups s x.ctx).filter fun g => g.ctx == x.ctx && !g.retired).map (·.gid)
    let goes := fun (y : Transl) => ∃ t, exec (.translationSwapFree x.id) s = .next t ∧ t = { s with transl := t.transl } ∧
      t.transl.find? (fun t => t.id == x.id) = some y
    (s.ctx? x.ctx = none → goes { x with free := true }) ∧
    ∀ c, s.ctx? x.ctx = some c →
      (x.wait = none → swappedOut s c x = false → goes { x with swapped := true }) ∧
      (x.wait = none → swappedOut s c x = true → x.swapped = true → goes { x with wait := some here, seen := tableIdx s c x }) ∧
      (x.wait = none → swappedOut s c x = true → x.swapped = false → exec (.translationSwapFree x.id) s = .next s) ∧
      ∀ l, x.wait = some l → (x.free = true → exec (.translationSwapFree x.id) s = .next s) ∧
        (x.free = false → swappedOut s c x = false ∨ x.seen ≠ tableIdx s c x → goes { x with wait := none }) ∧
        (x.free = false → swappedOut s c x = true → x.seen = tableIdx s c x →
          ((∀ g ∈ l, g ∉ here) → scanFinds s c x = false → goes { x with free := true }) ∧
          ((∃ g ∈ l, g ∈ here) ∨ scanFinds s c x = true → exec (.translationSwapFree x.id) s = .next s))

/-! ### Power, debug, the outside world -/

/-- The power controller: the factor follows the two averages and their caps; quads drift back to base; the supply explores
down while errors stay rare and returns when they do not; an uncorrectable error is MARGIN while undervolted or just after,
else POISON, in the unit its check covers, on every die that has no copy of its own; contexts are charged their energy, that of
the uncore by bytes moved; control registers take valid values and ignore others (R383, R387, R418 to R426, R441, R447). Where the
spec is silent it follows the model's choice, log entries 5, 63, 64, 65, 66, 99 and 113. -/
def Obligations.PowerSteps : Prop :=
  (∀ (s : State) (q u : Nat),
    let now := s.gtb.toNat
    let l := (s.power.filter fun x => decide (now < x.2.1 + 10 ^ 9)) ++ [(s.powerAt, now, q + u)]
    let pk := energyIn l now 10000
    let su := energyIn l now (10 ^ 9)
    let f := fun (e cap : Nat) => max 1 (min 16 (256 - 256 * e / cap))
    (s.powerAt + 1000 ≤ now → ∃ n p a, n = min (f pk (10000 * (s.pwrcap.extractLsb' 32 13).toNat)) (f su (10 ^ 9 * (s.pwrcap.extractLsb' 0 13).toNat)) ∧
      p = pk / 10000 ∧ a = su / 10 ^ 9 ∧
      exec (.integratorUpdate q u) s = .next { s with power := l, ppeak := p, psust := a, powerAt := now, ffac := n }) ∧
    (now < s.powerAt + 1000 → exec (.integratorUpdate q u) s = .next s)) ∧
  (∀ (s : State) (die : Nat), die < 4 →
    let d := s.die die
    let now := s.gtb.toNat
    let F := fun (v : W64) (lo n : Nat) => (v.extractLsb' lo n).toNat
    (d.lastStep + 1000 * F d.rebal 8 16 ≤ now → (∃ q, q < 12 ∧ (s.quad die q).step ≠ 0) →
      ∃ t, exec (.rebalanceDecay die) s = .next t ∧ SameMemory s t ∧ t.die die = { d with lastStep := now } ∧
        ∀ q, q < 12 → t.quad die q = { s.quad die q with
          step := if 0 < (s.quad die q).step then (s.quad die q).step - 1 else if (s.quad die q).step < 0 then (s.quad die q).step + 1 else 0 }) ∧
    (∀ v : W64, let ok := F v 24 40 = 0 ∧ 1 ≤ F v 8 16 ∧ F v 4 4 ≤ 4 ∧ 1 ≤ F v 0 4
      (ok → ∃ t, exec (.rebalWrite die v) s = .next t ∧ SameMemory s t ∧ t.die die = { d with rebal := v } ∧
        ∀ q, q < 12 → t.quad die q = if F v 4 4 = 0 then { s.quad die q with step := 0 } else s.quad die q) ∧
      (¬ok → exec (.rebalWrite die v) s = .next s)) ∧
    (∀ q v, q < 12 → let ok := F v 48 16 = 0 ∧ F v 10 6 = 0 ∧ 1 ≤ F v 32 16 ∧ 1 ≤ F v 16 16 ∧ F v 16 16 ≤ 32767 ∧ 16 ≤ F v 0 10
      (ok → exec (.umpcfgWrite die q v) s =
        .next (s.setQuad die q { s.quad die q with umpcfg := v, bal := min (s.quad die q).bal (256 * (F v 16 16 : Int)) })) ∧
      (¬ok → exec (.umpcfgWrite die q v) s = .next s)) ∧
    (d.uvcfg.getLsbD 0 = true → d.uvNext ≤ now → d.uvPause ≤ now →
      ∃ t e, exec (.undervoltInterval die) s = .next t ∧ t = { s with dies := t.dies } ∧ t.die die = e ∧ SameMemory s t ∧
        e.uvNext = now + 1000 * F d.uvcfg 48 16 ∧
        (uvCalm d now = true → e.uvSafe = d.uvOff ∧ e.uvOff = min (d.uvOff + F d.uvcfg 16 8) (F d.uvcfg 24 16) ∧ e.uvPause = d.uvPause) ∧
        (uvCalm d now = false → e.uvSafe = d.uvSafe ∧ e.uvOff = min d.uvOff d.uvSafe ∧ e.uvPause = now + 100 * (1000 * F d.uvcfg 48 16))) ∧
    (∀ v : W64, let ok := 10 ≤ F v 48 16 ∧ 1 ≤ F v 40 8 ∧ F v 24 16 ≤ 300 ∧ 5 ≤ F v 16 8 ∧ F v 16 8 ≤ 20 ∧ F v 1 15 = 0
      (ok → ∃ t e, exec (.uvcfgWrite die v) s = .next t ∧ t.die die = e ∧ SameMemory s t ∧ e.uvcfg = v ∧
        e.uvOff = if v.getLsbD 0 then min d.uvOff (F v 24 16) else 0) ∧
      (¬ok → exec (.uvcfgWrite die v) s = .next s)) ∧
    (∀ v : W64, let moved := ∃ q, q < 12 ∧ F v (5 * q) 5 ≠ F d.qpart (5 * q) 5 ∧ quadUsed s die q = true
      (F v 60 4 = 0 → ¬moved → exec (.qpartWrite die v) s = .next (s.setDie die { d with qpart := v })) ∧
      (F v 60 4 ≠ 0 ∨ moved → exec (.qpartWrite die v) s = .next s)) ∧
    (∀ b, ∃ t e, exec (.correctableError die b) s = .next t ∧ t.die die = e ∧ SameMemory s t ∧ e.errs = d.errs + 1 ∧
      (b = true → now ∈ e.uvTimes) ∧ (b = false → e.uvTimes = d.uvTimes)) ∧
    (let under := 0 < d.uvOff ∨ now < d.uvRestore
     let bad := fun (b : Bad) => (under → b = .margin) ∧ (¬under → b = .poison)
     let told := fun (t : State) => (under → (t.die die).uvOff = min d.uvOff d.uvSafe ∧ now + 10 ^ 9 ≤ (t.die die).uvPause ∧
       (t.die die).uvMargins = min (d.uvMargins + 1) 65535 ∧ (t.die die).errs = d.errs) ∧ (¬under → (t.die die).errs = d.errs + 1)
     (∃ t, exec (.uncorrectableError (.clean die)) s = .next t ∧ SameMemory s t ∧ told t) ∧
     (∀ id off tm, s.team? id = some tm → tm.die = die → ∃ t u, exec (.uncorrectableError (.spad id off)) s = .next t ∧ told t ∧
       t.team? id = some u ∧ ∀ x, (u.byte x).1 = (tm.byte x).1 ∧ (x / 4 = off / 4 → bad (u.byte x).2) ∧ (x / 4 ≠ off / 4 → u.byte x = tm.byte x)) ∧
     (∀ gid r lane g, s.group? gid = some g → g.die = die → lane < 32 → ∃ t h, exec (.uncorrectableError (.reg gid r lane)) s = .next t ∧
       told t ∧ t.group? gid = some h ∧ (h.laneV r lane).val = (g.laneV r lane).val ∧ bad (h.laneV r lane).bad ∧
       ∀ n l, l < 32 → (n, l) ≠ (r, lane) → h.laneV n l = g.laneV n l) ∧
     (∀ d c ctx key, exec (.uncorrectableError (.tile d c ctx key)) s = .next s) ∧
     (∀ pa, paFar pa = false → ∃ t, exec (.uncorrectableError (.rdc die pa)) s = .next t ∧ told t ∧ t.home = s.home ∧
       (sbDirty d.rdc (lineOf pa) = false → SameMemory s t) ∧
       (sbDirty d.rdc (lineOf pa) = true → ∀ x, ((t.view die).byte x).1 = ((s.view die).byte x).1 ∧
         (x / 8 = pa / 8 → bad ((t.view die).byte x).2) ∧ (x / 8 ≠ pa / 8 → (t.view die).byte x = (s.view die).byte x))) ∧
     ∀ pa, paFar pa = false → homeDie pa = die → ∃ t, exec (.uncorrectableError (.hbm pa)) s = .next t ∧ told t ∧
       (sbHas d.l2 (lineOf pa) = true → SameMemory s t) ∧
       (sbHas d.l2 (lineOf pa) = false → ∀ x, (t.home.byte x).1 = (s.home.byte x).1 ∧ (x / 32 = pa / 32 → bad (t.home.byte x).2) ∧
         (x / 32 ≠ pa / 32 → t.home.byte x = s.home.byte x) ∧
         ∀ e, e < 4 → (e = die ∨ sbHas (s.die e).rdc (lineOf pa) = false) → ((t.view e).byte x).1 = ((s.view e).byte x).1 ∧
           (x / 32 = pa / 32 → bad ((t.view e).byte x).2)))) ∧
  (∀ (s : State) (nj : List Nat) (un : List (Nat × Nat)), s.energyAt + 1000 ≤ s.gtb.toNat →
    ∃ t, exec (.energyUpdate nj un) s = .next t ∧ SameMemory s t ∧ t.moved = [] ∧ (∀ d q, d < 4 → q < 12 → (t.quad d q).spent = []) ∧
      ∀ c, s.ctx? c.id = some c → ∃ d, t.ctx? c.id = some d ∧ d.energy = c.energy
        + ((List.range 48).map fun n => quadShare s (n / 12) (n % 12) (nj.getD n 0) c.id).sum
        + uncoreNj s c.id ((un.filter fun u => u.1 == c.id).map (·.2)).sum) ∧
  ∀ (s : State) (v : W64) (p : PartId), p.die < 4 → p.core < 48 → p.part < 4 →
    let F := fun (lo n : Nat) => (v.extractLsb' lo n).toNat
    let q := s.partn p.die p.core p.part
    let takes := fun (r : PReg) (ok : Prop) (t : State) =>
      (ok → exec (.registerWrite r v) s = .next t) ∧ (¬ok → exec (.registerWrite r v) s = .next s)
    takes .pdefer (F 10 54 = 0 ∧ 1 ≤ F 0 10 ∧ F 0 10 ≤ 1000) { s with pdefer := v } ∧
    takes .pwrcap (F 45 19 = 0 ∧ F 13 19 = 0 ∧ 500 ≤ F 0 13 ∧ F 0 13 ≤ 3500 ∧ F 0 13 ≤ F 32 13 ∧ F 32 13 ≤ 4800) { s with pwrcap := v } ∧
    takes .hostlim (F 27 37 = 0) { s with hostlim := v } ∧
    takes (.dumpbase p) (F 52 12 = 0 ∧ F 0 12 = 0) (s.setPartn p.die p.core p.part { q with dumpbase := v }) ∧
    takes (.sampcfg p) (F 32 32 = 0 ∧ F 1 7 = 0 ∧ 1 ≤ F 8 24) (s.setPartn p.die p.core p.part { q with sampcfg := v })

/-- Debug: a stop freezes the partitions its scope names, on one cycle, and a breakpoint under BKSTOP its own, as its group is about to issue; a resume lets
every partition of the stop go on, its dump written by then; the dump of a stop is written once; trace control is taken, and the
oldest record goes to its ring, the upper one for dependence records of 16 B, and is dropped where the ring is full without WRAP
(R427 to R431, R435, R436). Where the spec is silent it follows the model's choice, log entries 23, 63, 67, 68 and 69: that a write of
DBGCTL or TRCCTL with a reserved bit set is ignored is log entry 63. -/
def Obligations.DebugSteps : Prop :=
  (∀ (s : State) (p : PartId) (sc : Nat), p.die < 4 → p.core < 48 → p.part < 4 → sc ≤ 2 →
    ∃ t, exec (.debugStop p sc) s = .next t ∧ t = { s with parts := t.parts, contexts := t.contexts } ∧
      t.contexts.map (·.id) = s.contexts.map (·.id) ∧
      (∀ c ∈ s.contexts, ∀ r ∈ c.saves, r.die = p.die → r.core = p.core → (s.partn p.die p.core p.part).stop = false →
        (∃ g ∈ s.allGroups, g.ctx = c.id ∧ g.die = p.die ∧ g.core = p.core ∧ g.part = p.part) ∨
          (∃ x ∈ (s.partn p.die p.core p.part).glades, x.ctx = c.id) ∨ (∃ x ∈ (s.partn p.die p.core p.part).draws, x.glade.ctx = c.id) →
        ∃ d ∈ t.contexts, d.id = c.id ∧ { r with frozen := some (r.frozen.getD s.gtb.toNat) } ∈ d.saves) ∧
      ∀ r : PartId, r.die < 4 → r.core < 48 → r.part < 4 →
        let named := r = p ∨ r.die = p.die ∧ (sc = 1 ∧ r.core = p.core ∨ sc = 2 ∧ r.core / 4 = p.core / 4)
        let q := s.partn r.die r.core r.part
        t.partn r.die r.core r.part = if named ∧ q.stop = false then
          { q with stop := true, dumped := false, cause := if r = p then 0 else 2, bkslot := 0, stopClk := s.clk r.die r.core, stopGtb := s.gtb.toNat, stopNo := s.tick }
        else q) ∧
  (∀ (s : State) (gid slot : Nat) (g : Group), s.group? gid = some g → execHit s g = some slot → (s.partOf g).dbgctl.getLsbD 4 = true →
    (s.partOf g).busy ≤ s.clk g.die g.core + 1 → chosen s ⟨g.die, g.core, g.part⟩ = some g →
    ∃ t, exec (.breakpointStop gid) s = .next t ∧ t.group? gid = some { g with pass := true } ∧ (t.partOf g).stop = true ∧
      (t.partOf g).cause = 1 ∧ (t.partOf g).bkslot = slot ∧ SameMemory s t) ∧
  (∀ (s : State) (p : PartId),
    let q := s.partn p.die p.core p.part
    (q.stop = false → exec (.debugResume p) s = .next s) ∧
    (q.stop = true → ∃ t, exec (.debugResume p) s = .next t ∧
      let same := fun (r : PartId) => (s.partn r.die r.core r.part).stop = true ∧ (s.partn r.die r.core r.part).stopNo = q.stopNo
      ((∀ r ∈ s.partIds, same r → (s.partn r.die r.core r.part).dumped = true) → SameMemory s t) ∧
      (q.dumped = false → (∀ r ∈ s.partIds, same r ↔ r = p) → p ∈ s.partIds → paFar q.dumpbase.toNat = false → q.dumpbase.toNat % 4096 = 0 →
        homeBytes t q.dumpbase.toNat 16 = okBytes (leBytes 8 q.stopGtb ++ leBytes 8 q.stopClk)) ∧
      ∀ r ∈ s.partIds, same r → (t.partn r.die r.core r.part).stop = false ∧ (t.partn r.die r.core r.part).dumped = false ∧
        (t.partn r.die r.core r.part).pendingBuf = []) ∧
    (∀ v : W64, p.die < 4 → p.core < 48 → p.part < 4 →
      ((v.extractLsb' 5 59).toNat ≠ 0 → exec (.registerWrite (.dbgctl p) v) s = .next s) ∧
      ((v.extractLsb' 5 59).toNat = 0 → (v.extractLsb' 0 2).toNat = 0 → (v.extractLsb' 2 2).toNat ≠ 3 →
        exec (.registerWrite (.dbgctl p) v) s = .next (s.setPartn p.die p.core p.part { q with dbgctl := v }))) ∧
    (q.stop = false ∨ q.dumped = true → exec (.dumpWrite p) s = .next s) ∧
    (q.stop = true → q.dumped = false → paFar q.dumpbase.toNat = false → q.dumpbase.toNat % 4096 = 0 →
      ∃ t, exec (.dumpWrite p) s = .next t ∧ (t.partn p.die p.core p.part).dumped = true ∧ (t.partn p.die p.core p.part).stop = true ∧
        t.groups.map (·.gid) = s.groups.map (·.gid) ∧
        homeBytes t q.dumpbase.toNat 16 = okBytes (leBytes 8 q.stopGtb ++ leBytes 8 q.stopClk) ∧
        ∀ n g, n < 24 → slotGroup s p n = some g →
          homeBytes t (q.dumpbase.toNat + 0x40 + 64 * n) 16 = okBytes (leBytes 8 g.hdr.toNat ++ leBytes 4 g.idx ++ leBytes 4 g.active.toNat))) ∧
  ∀ (s : State) (die : Nat), die < 4 →
    let d := s.die die
    (∀ v : W64, ((v.extractLsb' 5 59).toNat = 0 → exec (.trcctlWrite die v) s = .next (s.setDie die { d with trcctl := v })) ∧
      ((v.extractLsb' 5 59).toNat ≠ 0 → exec (.trcctlWrite die v) s = .next s)) ∧
    ∀ r rest, d.trcWait = r :: rest → ∃ t e, exec (.traceRecordWrite die) s = .next t ∧ t.die die = e ∧ e.trcWait = rest ∧
      t.accs = s.accs ∧ t.host = s.host ∧ t.teams = s.teams ∧
      (r.length = 16 → d.trcDep < 2 ^ 21 → d.trcctl.getLsbD 1 = true ∨ d.trcDepFull = false → e.trcDep = d.trcDep + 1 ∧ e.trcLog = d.trcLog ∧
        (e.trcDepFull = true ↔ d.trcDepFull = true ∨ d.trcDep + 1 = 2 ^ 21) ∧
        homeBytes t (d.trcbase + 16 * (2 ^ 21 + d.trcDep)) 16 = okBytes r) ∧
      (r.length = 16 → 2 ^ 21 ≤ d.trcDep → d.trcctl.getLsbD 1 = true → e.trcDep = 1 ∧ homeBytes t (d.trcbase + 16 * 2 ^ 21) 16 = okBytes r) ∧
      (r.length ≠ 16 → d.trcLog + r.length / 16 ≤ 2 ^ 21 → d.trcctl.getLsbD 1 = true ∨ d.trcLogFull = false →
        e.trcLog = d.trcLog + r.length / 16 ∧ e.trcDep = d.trcDep ∧
        (e.trcLogFull = true ↔ d.trcLogFull = true ∨ d.trcLog + r.length / 16 = 2 ^ 21) ∧
        homeBytes t (d.trcbase + 16 * d.trcLog) r.length = okBytes r) ∧
      (r.length ≠ 16 → 2 ^ 21 < d.trcLog + r.length / 16 → d.trcctl.getLsbD 1 = true →
        e.trcLog = r.length / 16 ∧ e.trcLogFull = true ∧ homeBytes t d.trcbase r.length = okBytes r) ∧
      (d.trcctl.getLsbD 1 = false → (if r.length = 16 then d.trcDepFull = true else d.trcLogFull = true ∨ 2 ^ 21 < d.trcLog + r.length / 16) →
        e.trcDrops = d.trcDrops + 1 ∧ t.home = s.home)

/-- The outside world: the host writes and reads the interleaved window at the home die, and a write's completion returns once it is
performed; an error that the host reports for an operation of an engine, a queue, the arrays or a copy node poisons what it reads there;
a flit is replayed, eight failures
retrain the link, 1 ms without success takes it down, and the last link's loss poisons what was under way and is reported; a
quote is signed over the measurements; bring-up reads the public keys, and fixes the defect map, the measurements, the memory split and the package number
in its order, and stops at a step that fails (R437 to R441, R443 to R446). Where the spec is silent it follows the model's
choice, log entries 5, 26, 70, 71, 72 and 73: that the kind 6 element for a context whose event queue lies at no address is kept is log
entry 26, the byte order of a signature's index log entry 5. -/
def Obligations.OutsideSteps : Prop :=
  (∀ (s : State) (pa : Nat) (bs : List Byte), cxlMem s pa bs.length = true → bs ≠ [] → pa % 128 + bs.length ≤ 128 →
    (∀ d, d < 4 → mayLand s d bs.length = true) →
    ∃ t n, exec (.hostMemWrite pa bs) s = .next t ∧ t.host = s.host ∧ t.teams = s.teams ∧
      t.hostWr = s.hostWr ++ [(n, s.nextId, n)] ∧ t.hostDone = s.hostDone ∧ t.nextId = n + 1 ∧
      (∀ x, t.home.byte x = if pa ≤ x ∧ x < pa + bs.length then (bs.getD (x - pa) 0, .ok) else s.home.byte x) ∧
      ∀ x, pa ≤ x → x < pa + bs.length → (t.view (homeDie pa)).byte x = (bs.getD (x - pa) 0, .ok)) ∧
  (∀ (s : State) (pa n : Nat), cxlMem s pa n = true → exec (.hostMemRead pa n) s =
    .next { s with hostReads := s.hostReads ++ [(List.range n).map fun i => ((s.view (homeDie (pa + i))).byte (pa + i)).1] }) ∧
  (∀ (s : State) (id lo hi : Nat) (err : Bool), s.acc? id = none → s.hostWr.find? (fun x => x.1 == id) = some (id, lo, hi) →
    ((∃ a ∈ s.accs, lo ≤ a.id ∧ a.id < hi) → exec (.hostCxlCompletion id err) s = .next s) ∧
    ((∀ a ∈ s.accs, a.id < lo ∨ hi ≤ a.id) → ∃ t, exec (.hostCxlCompletion id err) s = .next t ∧
      t = { s with hostWr := t.hostWr, hostDone := s.hostDone ++ [id] } ∧ ∀ x ∈ t.hostWr, x.1 ≠ id)) ∧
  (∀ (s : State) (id : Nat) (err : Bool), s.acc? id = none → s.hostWr.find? (fun x => x.1 == id) = none → isOp s id = true →
    ∃ t, exec (.hostCxlCompletion id err) s = .next t ∧ t = { s with hostErr := t.hostErr } ∧
      (∀ n, n ∈ t.hostErr ↔ if n = id then err = true else n ∈ s.hostErr) ∧
      ∀ pa bs, paHost pa = true → hostRead t id pa bs = if err then bs.map fun _ => (0, .poison) else bs) ∧
  (∀ (s : State) (n : Nat) (l : Link), s.link? n = some l →
    let goes := fun (i : Instr) (k : Link) => ∃ t, exec i s = .next t ∧ t = { s with links := t.links } ∧ t.link? n = some k
    (l.up = true → l.retrain = false →
      (l.fails < 8 → goes (.flitReplay n true) { l with fails := 0 } ∧ goes (.flitReplay n false) { l with fails := l.fails + 1 }) ∧
      (8 ≤ l.fails → ∀ ok, exec (.flitReplay n ok) s = .next s) ∧
      (8 ≤ l.fails → goes (.linkRetrain n) { l with retrain := true, since := s.gtb.toNat, fails := 0 }) ∧
      (l.fails < 8 → exec (.linkRetrain n) s = .next s)) ∧
    (l.retrain = true →
      (s.gtb.toNat ≤ l.since + 1000000 → goes (.retrainComplete n) { l with retrain := false } ∧ exec (.linkDown n) s = .next s) ∧
      (l.since + 1000000 < s.gtb.toNat → goes (.linkDown n) { l with retrain := false, up := false } ∧ exec (.retrainComplete n) s = .next s))) ∧
  (∀ (s : State) (p : Nat), p ∉ s.lost → (∃ x ∈ s.links, x.2.pkg = p) → (∀ x ∈ s.links, x.2.pkg = p → x.2.up = false) →
    ∃ t, exec (.podLinkLost p) s = .next t ∧ t.lost = s.lost ++ [p] ∧
      (∀ a pa, a ∈ s.accs → a.place = .glob pa → paRemote pa = true → pa / 2 ^ 40 % 64 = p → a.isLoad = true → a.read = false → a.cmd = none →
        a.fin = false → a.stage ≠ .held → { a with read := true, got := List.replicate a.len (0, .poison) } ∈ t.accs) ∧
      ∀ c, s.ctx? c.id = some c → usesPkg s c p = true → s.contexts.Pairwise (fun a b => a.id ≠ b.id) → 2 ^ 52 ≤ c.evq.toNat →
        ∃ d, t.ctx? c.id = some d ∧ d.posts = c.posts ++
          [leBytes 1 6 ++ leBytes 1 0 ++ leBytes 6 0 ++ leBytes 8 (p % 64) ++ leBytes 8 s.gtb.toNat ++ leBytes 8 0]) ∧
  (∀ (s : State) (nonce : List Byte),
    (2 ≤ s.upStep → s.measure ≠ [] → nonce.length = 32 →
      ∃ q, q = s.measure.flatten ++ leBytes 4 (defectSig s) ++ nonce ++ leBytes 8 s.gtb.toNat ∧
        exec (.attestationQuote nonce) s = .next { s with quotes := s.quotes ++ [q ++ Config.xmssSign q] }) ∧
    (s.upStep < 2 ∨ s.measure = [] → exec (.attestationQuote nonce) s = .next s)) ∧
  ∀ (s : State) (b : BringUp), s.upFail = false → s.upStep < 6 →
    (b.ok = false → exec (.bringUp b) s = .next { s with upFail := true }) ∧
    (b.ok = true →
      (s.upStep = 0 → (b.cores.length = 4 → b.keys ≠ [] → (∀ k ∈ b.keys, k.length = 68) →
          exec (.bringUp b) s = .next { s with fuses := b.cores.map fun m => m % 2 ^ 48, keys := b.keys, upStep := 1 }) ∧
        (b.keys = [] ∨ (∃ k ∈ b.keys, k.length ≠ 68) → exec (.bringUp b) s = .next { s with upFail := true })) ∧
      (s.upStep = 1 → ∀ i, b.images = [i] →
        let valid := i.sig.length = 2820 ∧ ∃ k ∈ s.keys, Config.xmssValid k i.bytes i.sig = true
        let fresh := sigIndex i < 2 ^ 20 ∧ ∀ x ∈ s.images, x < sigIndex i
        (valid → fresh → exec (.bringUp b) s =
          .next { s with images := s.images ++ [sigIndex i], measure := s.measure ++ [Config.shake256 (Config.shake256 i.bytes)], upStep := 2 }) ∧
        (¬valid ∨ ¬fresh → exec (.bringUp b) s = .next { s with upFail := true })) ∧
      (s.upStep = 2 → b.sdw.length = 4 → (∀ n ∈ b.sdw, 1 ≤ n ∧ n ≤ 128) → ∃ t, exec (.bringUp b) s = .next t ∧ t.upStep = 3 ∧ SameMemory s t ∧
        ∀ d n, b.sdw[d]? = some n → (t.die d).memsplit = BitVec.ofNat 64 n ∧ (t.die d).trcbase = d * 2 ^ 38 + n * 2 ^ 30 - 2 ^ 26) ∧
      (s.upStep = 3 →
        (∀ w, w ∈ b.widths → w = 16 ∨ w = 8 ∨ w = 4 → (∀ x ∈ b.widths, x = 16 ∨ x = 8 ∨ x = 4 → x ≤ w) →
          exec (.bringUp b) s = .next { s with cxlWidth := w, upStep := 4 }) ∧
        ((∀ w ∈ b.widths, w ≠ 16 ∧ w ≠ 8 ∧ w ≠ 4) → exec (.bringUp b) s = .next { s with upFail := true })) ∧
      (s.upStep = 4 → (b.links.length ≠ 12 → exec (.bringUp b) s = .next { s with upFail := true }) ∧
        (b.links.length = 12 → ∃ t, exec (.bringUp b) s = .next t ∧ t.upStep = 5 ∧ t.pkg = b.slotId % 64 ∧
          ∀ n p, b.links[n]? = some p → t.link? n = some ⟨n / 3, p % 64, p % 64 != b.slotId % 64, false, 0, 0⟩)) ∧
      (s.upStep = 5 → exec (.bringUp b) s = .next { s with upStep := 6 }))

/-! ### The machine as a whole -/

/-- What reset leaves: the registers at the reset values of their tables (R103, R249, R383, R387, R418, R420, R422, R425, R433, R436, R446,
R447), no group, no context, and every memory in its canonical form. That a quad's step is 0 is the model's choice, log entry 4: R421 and
R422 give REBSTAT no reset value. -/
def Obligations.StateAtReset : Prop :=
  Canonical State.reset ∧ Numbered State.reset ∧ State.reset.focus = none ∧ State.reset.groups = [] ∧ State.reset.contexts = [] ∧
  State.reset.pdefer.toNat = 50 ∧ (State.reset.pwrcap.extractLsb' 32 13).toNat = 4800 ∧ (State.reset.pwrcap.extractLsb' 0 13).toNat = 3500 ∧
  State.reset.hostlim = 0 ∧
  (∀ d c p, (State.reset.partn d c p).age = 256 ∧ (State.reset.partn d c p).dbgctl = 0 ∧ (State.reset.partn d c p).stop = false ∧
    ((State.reset.partn d c p).sampcfg.extractLsb' 8 24).toNat = 4096 ∧ (State.reset.partn d c p).sampcfg.getLsbD 0 = false) ∧
  (∀ d q, ((State.reset.quad d q).umpcfg.extractLsb' 32 16).toNat = 64 ∧ ((State.reset.quad d q).umpcfg.extractLsb' 16 16).toNat = 256 ∧
    ((State.reset.quad d q).umpcfg.extractLsb' 0 10).toNat = 512 ∧ (State.reset.quad d q).step = 0) ∧
  ∀ d, (State.reset.die d).qpart = 0 ∧ ((State.reset.die d).rebal.extractLsb' 8 16).toNat = 1000 ∧
    ((State.reset.die d).rebal.extractLsb' 4 4).toNat = 4 ∧ ((State.reset.die d).rebal.extractLsb' 0 4).toNat = 4 ∧
    ((State.reset.die d).uvcfg.extractLsb' 48 16).toNat = 100 ∧ ((State.reset.die d).uvcfg.extractLsb' 40 8).toNat = 4 ∧
    ((State.reset.die d).uvcfg.extractLsb' 24 16).toNat = 150 ∧ ((State.reset.die d).uvcfg.extractLsb' 16 8).toNat = 10 ∧
    (State.reset.die d).uvcfg.getLsbD 0 = false ∧ ((State.reset.die d).memsplit.extractLsb' 0 8).toNat = 16 ∧ (State.reset.die d).trcctl = 0 ∧
    ((State.reset.die d).nbcfg.extractLsb' 10 11).toNat = 64 ∧ ((State.reset.die d).nbcfg.extractLsb' 0 4).toNat = 3 ∧
    (State.reset.die d).nvt.map (·.1) = List.range 12 ∧
    ∀ x ∈ (State.reset.die d).nvt, ∀ j, j < 16 → (x.2.extractLsb' (4 * j) 4).toNat = (16 * x.1 + j) / 4 % 4

/-- Every step keeps every memory of the machine in its canonical form: the homes and the views, host memory, the scratchpads, those of
saved teams too. It keeps the accesses of the ordering machine numbered apart, each below the next number. -/
def Obligations.StepKeepsCanonical : Prop :=
  ∀ s t : State, step s = .next t → (Canonical s → Canonical t) ∧ (Numbered s → Numbered t)

/-- User mode does not reach the privileged state: an instruction of a kernel run in user mode leaves the mode, NBV, TRAPBASE and TRAPVEC of
its group, every AGE, the volley registers, every breakpoint and every budget as they are (R103, R108, R249, R363, R365, R369, R371,
R372). -/
def Obligations.UserModeKeeps : Prop :=
  ∀ (i : Instr) (s t : State) (g : Group), s.focus = some g → g.sys = false → i.isEvent = false → exec i s = .next t →
    (∀ h, t.focus = some h → h.sys = false ∧ h.nbv = g.nbv ∧ h.trapbase = g.trapbase ∧ h.trapvec = g.trapvec) ∧
    (∀ d c p, (t.partn d c p).age = (s.partn d c p).age) ∧ (∀ d, (t.die d).nbcfg = (s.die d).nbcfg ∧ (t.die d).nvt = (s.die d).nvt) ∧
    ∀ id c, s.ctx? id = some c → ∃ e, t.ctx? id = some e ∧ e.bkpts = c.bkpts ∧ e.budget = c.budget ∧ e.caps = c.caps
end

