-- ==== Sys2Proof/Laws/SMap.lean ====
section
/-!
SUPPORT. Laws of sparse maps: a read after a write, a write keeps the canonical form, equal reads of canonical maps are
equal maps.
-/
namespace Sys2Proof.Machine

@[simp] theorem SMap.get_nil {α : Type} (d : α) (i : Nat) : SMap.get d [] i = d := rfl

theorem SMap.get_drop_self {α : Type} (d : α) (m : List (Nat × α)) (i : Nat) : SMap.get d (SMap.drop m i) i = d := by
  induction m with
  | nil => rfl
  | cons x r ih =>
    obtain ⟨k, w⟩ := x
    by_cases h : k = i
    · simp only [SMap.drop, h, if_true, ih]
    · simp only [SMap.drop, SMap.get, h, if_false, ih]

theorem SMap.get_drop_ne {α : Type} (d : α) (m : List (Nat × α)) {i j : Nat} (h : j ≠ i) :
    SMap.get d (SMap.drop m i) j = SMap.get d m j := by
  induction m with
  | nil => rfl
  | cons x r ih =>
    obtain ⟨k, w⟩ := x
    by_cases hk : k = i
    · have hkj : ¬k = j := fun e => h (e.symm.trans hk)
      simp only [SMap.drop, SMap.get, hk, if_true, ih]
      rw [if_neg (fun e => h e.symm)]
    · simp only [SMap.drop, SMap.get, hk, if_false, ih]

theorem SMap.get_ins_self {α : Type} (d v : α) (m : List (Nat × α)) (i : Nat) :
    SMap.get d (SMap.ins (SMap.drop m i) i v) i = v := by
  induction m with
  | nil => simp only [SMap.drop, SMap.ins, SMap.get, if_true]
  | cons x r ih =>
    obtain ⟨k, w⟩ := x
    by_cases hk : k = i
    · simpa only [SMap.drop, hk, if_true] using ih
    · by_cases hi : i < k
      · simp only [SMap.drop, SMap.ins, SMap.get, hk, hi, if_true, if_false]
      · simp only [SMap.drop, SMap.ins, SMap.get, hk, hi, if_false, ih]

theorem SMap.get_ins_ne {α : Type} (d v : α) (m : List (Nat × α)) {i j : Nat} (h : j ≠ i) :
    SMap.get d (SMap.ins m i v) j = SMap.get d m j := by
  induction m with
  | nil => simp only [SMap.ins, SMap.get]; rw [if_neg (fun e => h e.symm)]
  | cons x r ih =>
    obtain ⟨k, w⟩ := x
    by_cases hi : i < k
    · simp only [SMap.ins, hi, if_true, SMap.get]
      rw [if_neg (fun e => h e.symm)]
    · simp only [SMap.ins, SMap.get, hi, if_false, ih]

/-- A read at the key just written gives the value written. -/
@[simp] theorem SMap.get_set_self {α : Type} [DecidableEq α] (d v : α) (m : List (Nat × α)) (i : Nat) :
    SMap.get d (SMap.set d m i v) i = v := by
  unfold SMap.set
  split
  · next h => rw [SMap.get_drop_self, h]
  · exact SMap.get_ins_self d v m i

/-- A write leaves every other key alone. -/
theorem SMap.get_set_ne {α : Type} [DecidableEq α] (d v : α) (m : List (Nat × α)) {i j : Nat} (h : j ≠ i) :
    SMap.get d (SMap.set d m i v) j = SMap.get d m j := by
  unfold SMap.set
  split
  · exact SMap.get_drop_ne d m h
  · rw [SMap.get_ins_ne d v _ h, SMap.get_drop_ne d m h]

theorem SMap.get_set {α : Type} [DecidableEq α] (d v : α) (m : List (Nat × α)) (i j : Nat) :
    SMap.get d (SMap.set d m i v) j = if j = i then v else SMap.get d m j := by
  by_cases h : j = i
  · rw [if_pos h, h, SMap.get_set_self]
  · rw [if_neg h, SMap.get_set_ne d v m h]

/-! ### The canonical form -/

theorem SMap.wfFrom_mono {α : Type} [DecidableEq α] (d : α) (m : List (Nat × α)) {lo lo' : Nat} (h : lo' ≤ lo)
    (hm : SMap.wfFrom d lo m = true) : SMap.wfFrom d lo' m = true := by
  cases m with
  | nil => rfl
  | cons x r =>
    obtain ⟨k, w⟩ := x
    simp only [SMap.wfFrom, Bool.and_eq_true, decide_eq_true_eq] at hm ⊢
    exact ⟨⟨Nat.le_trans h hm.1.1, hm.1.2⟩, hm.2⟩

theorem SMap.wfFrom_drop {α : Type} [DecidableEq α] (d : α) (m : List (Nat × α)) (i : Nat) {lo : Nat}
    (hm : SMap.wfFrom d lo m = true) : SMap.wfFrom d lo (SMap.drop m i) = true := by
  induction m generalizing lo with
  | nil => rfl
  | cons x r ih =>
    obtain ⟨k, w⟩ := x
    simp only [SMap.wfFrom, Bool.and_eq_true, decide_eq_true_eq] at hm
    by_cases hk : k = i
    · simp only [SMap.drop, hk, if_true]
      exact SMap.wfFrom_mono d _ (by omega) (ih (lo := k + 1) hm.2)
    · simp only [SMap.drop, hk, if_false, SMap.wfFrom, Bool.and_eq_true, decide_eq_true_eq]
      exact ⟨hm.1, ih hm.2⟩

theorem SMap.wfFrom_ins {α : Type} [DecidableEq α] (d v : α) (m : List (Nat × α)) (i : Nat) {lo : Nat} (hv : v ≠ d)
    (hi : lo ≤ i) (hm : SMap.wfFrom d lo (SMap.drop m i) = true) :
    SMap.wfFrom d lo (SMap.ins (SMap.drop m i) i v) = true := by
  induction m generalizing lo with
  | nil => simp [SMap.drop, SMap.ins, SMap.wfFrom, hi, hv]
  | cons x r ih =>
    obtain ⟨k, w⟩ := x
    by_cases hk : k = i
    · simp only [SMap.drop, hk, if_true] at hm ⊢
      exact ih hi hm
    · simp only [SMap.drop, hk, if_false, SMap.wfFrom, Bool.and_eq_true, decide_eq_true_eq] at hm
      by_cases hik : i < k
      · simp only [SMap.drop, hk, if_false, SMap.ins, hik, if_true, SMap.wfFrom, Bool.and_eq_true, decide_eq_true_eq]
        exact ⟨⟨hi, by simpa using hv⟩, ⟨hik, hm.1.2⟩, hm.2⟩
      · simp only [SMap.drop, hk, if_false, SMap.ins, hik, SMap.wfFrom, Bool.and_eq_true, decide_eq_true_eq]
        exact ⟨hm.1, ih (by omega) hm.2⟩

/-- A write keeps the canonical form. -/
theorem SMap.wf_set {α : Type} [DecidableEq α] (d v : α) (m : List (Nat × α)) (i : Nat) (h : SMap.wf d m = true) :
    SMap.wf d (SMap.set d m i v) = true := by
  unfold SMap.set
  split
  · exact SMap.wfFrom_drop d m i h
  · next hv => exact SMap.wfFrom_ins d v m i hv (Nat.zero_le _) (SMap.wfFrom_drop d m i h)

theorem SMap.wf_setMany {α : Type} [DecidableEq α] (d : α) (vs : List α) (m : List (Nat × α)) (k : Nat)
    (h : SMap.wf d m = true) : SMap.wf d (SMap.setMany d m k vs) = true := by
  induction vs generalizing m k with
  | nil => exact h
  | cons v r ih => exact ih _ _ (SMap.wf_set d v m k h)

theorem SMap.get_lt {α : Type} [DecidableEq α] (d : α) (m : List (Nat × α)) {lo i : Nat} (h : SMap.wfFrom d lo m = true)
    (hi : i < lo) : SMap.get d m i = d := by
  induction m generalizing lo with
  | nil => rfl
  | cons x r ih =>
    obtain ⟨k, w⟩ := x
    simp only [SMap.wfFrom, Bool.and_eq_true, decide_eq_true_eq] at h
    have hk : ¬k = i := by omega
    simp only [SMap.get, hk, if_false]
    exact ih h.2 (by omega)

theorem SMap.wfFrom_ext {α : Type} [DecidableEq α] (d : α) (m n : List (Nat × α)) {lo : Nat} (hm : SMap.wfFrom d lo m = true)
    (hn : SMap.wfFrom d lo n = true) (h : ∀ i, SMap.get d m i = SMap.get d n i) : m = n := by
  induction m generalizing n lo with
  | nil =>
    cases n with
    | nil => rfl
    | cons y t =>
      obtain ⟨j, u⟩ := y
      simp only [SMap.wfFrom, Bool.and_eq_true, Bool.not_eq_true', decide_eq_false_iff_not] at hn
      have := h j
      simp only [SMap.get, if_true] at this
      exact absurd this.symm hn.1.2
  | cons x r ih =>
    obtain ⟨k, w⟩ := x
    simp only [SMap.wfFrom, Bool.and_eq_true, Bool.not_eq_true', decide_eq_false_iff_not, decide_eq_true_eq] at hm
    cases n with
    | nil =>
      have := h k
      simp only [SMap.get, if_true] at this
      exact absurd this hm.1.2
    | cons y t =>
      obtain ⟨j, u⟩ := y
      simp only [SMap.wfFrom, Bool.and_eq_true, Bool.not_eq_true', decide_eq_false_iff_not, decide_eq_true_eq] at hn
      have hkj : k = j := by
        rcases Nat.lt_trichotomy k j with hlt | heq | hgt
        · have e := h k
          have hj : ¬j = k := by omega
          simp only [SMap.get, if_true, hj, if_false] at e
          rw [SMap.get_lt d t hn.2 (by omega)] at e
          exact absurd e hm.1.2
        · exact heq
        · have e := h j
          have hk : ¬k = j := by omega
          simp only [SMap.get, if_true, hk, if_false] at e
          rw [SMap.get_lt d r hm.2 (by omega)] at e
          exact absurd e.symm hn.1.2
      subst hkj
      have hw : w = u := by
        have e := h k
        simpa only [SMap.get, if_true] using e
      subst hw
      have hr : r = t := by
        refine ih t hm.2 hn.2 fun i => ?_
        by_cases hi : k = i
        · subst hi
          rw [SMap.get_lt d r hm.2 (Nat.lt_succ_self _), SMap.get_lt d t hn.2 (Nat.lt_succ_self _)]
        · have e := h i
          simpa only [SMap.get, hi, if_false] using e
      rw [hr]

/-- Canonical maps that read alike at every key are equal. -/
theorem SMap.ext_of_wf {α : Type} [DecidableEq α] (d : α) (m n : List (Nat × α)) (hm : SMap.wf d m = true)
    (hn : SMap.wf d n = true) (h : ∀ i, SMap.get d m i = SMap.get d n i) : m = n :=
  SMap.wfFrom_ext d m n hm hn h

/-! ### Memory -/

@[simp] theorem Memory.read_write_self (m : Memory) (a : Nat) (b : Byte) : (m.write a b).read a = b :=
  SMap.get_set_self _ _ _ _

theorem Memory.read_write_ne (m : Memory) {a x : Nat} (b : Byte) (h : x ≠ a) : (m.write a b).read x = m.read x :=
  SMap.get_set_ne _ _ _ h

theorem Memory.read_write (m : Memory) (a x : Nat) (b : Byte) : (m.write a b).read x = if x = a then b else m.read x :=
  SMap.get_set _ _ _ _ _

/-- Every write keeps the canonical form. -/
theorem Memory.wf_write (m : Memory) (a : Nat) (b : Byte) (h : m.wf = true) : (m.write a b).wf = true :=
  SMap.wf_set _ _ _ _ h

theorem Memory.wf_writeMany (m : Memory) (a : Nat) (bs : List Byte) (h : m.wf = true) : (m.writeMany a bs).wf = true :=
  SMap.wf_setMany _ _ _ _ h

theorem Memory.read_writeMany (m : Memory) (a x : Nat) (bs : List Byte) :
    (m.writeMany a bs).read x = if a ≤ x ∧ x < a + bs.length then bs.getD (x - a) 0 else m.read x := by
  induction bs generalizing m a with
  | nil =>
    have hx : ¬(a ≤ x ∧ x < a + ([] : List Byte).length) := by simp only [List.length_nil]; omega
    rw [if_neg hx]; rfl
  | cons b r ih =>
    have e : m.writeMany a (b :: r) = (m.write a b).writeMany (a + 1) r := rfl
    rw [e, ih, Memory.read_write]
    by_cases hx : x = a
    · subst hx
      have h1 : ¬(x + 1 ≤ x ∧ x < x + 1 + r.length) := by omega
      have h2 : x ≤ x ∧ x < x + (b :: r).length := by simp only [List.length_cons]; omega
      rw [if_neg h1, if_pos rfl, if_pos h2]
      simp
    · rw [if_neg hx]
      by_cases hr : a ≤ x ∧ x < a + (b :: r).length
      · have h1 : a + 1 ≤ x ∧ x < a + 1 + r.length := by simp only [List.length_cons] at hr; omega
        have h3 : x - a = (x - (a + 1)) + 1 := by omega
        rw [if_pos h1, if_pos hr, h3, List.getD_cons_succ]
      · have h1 : ¬(a + 1 ≤ x ∧ x < a + 1 + r.length) := by simp only [List.length_cons] at hr; omega
        rw [if_neg h1, if_neg hr]

end Sys2Proof.Machine
end

