-- ==== Sys2Proof/Laws/Memory.lean ====
section
/-!
SUPPORT. Laws of memories at their levels: every operation on a view, a home or a scratchpad keeps the canonical form of
its bytes and leaves every other address as it was; the memories at reset have the form.
-/
namespace Sys2Proof.Machine

/-! ### Canonical form -/

theorem View.wf_put (v : View) (a : Nat) (b : Byte) (bad : Bad) (idx : Nat) (h : v.mem.wf = true) :
    (v.put a b bad idx).mem.wf = true := Memory.wf_write _ _ _ h

theorem View.wf_putVal (v : View) (a : Nat) (b : Byte) (bad : Bad) (h : v.mem.wf = true) :
    (v.putVal a b bad).mem.wf = true := Memory.wf_write _ _ _ h

theorem View.wf_putMany (bs : List (Byte × Bad)) (v : View) (a : Nat) (h : v.mem.wf = true) :
    (v.putMany a bs).mem.wf = true := by
  induction bs generalizing v a with
  | nil => exact h
  | cons x r ih => exact ih _ _ (View.wf_putVal v a x.1 x.2 h)

/-- A fold whose every step keeps the form keeps it. -/
theorem View.wf_foldl {α : Type} (f : View → α → View) (hf : ∀ v x, v.mem.wf = true → (f v x).mem.wf = true) (ws : List α)
    (v : View) (h : v.mem.wf = true) : (ws.foldl f v).mem.wf = true := by
  induction ws generalizing v with
  | nil => exact h
  | cons w r ih => exact ih _ (hf v w h)

theorem View.wf_putAcc (v : View) (a : Acc) (h : v.mem.wf = true) : (v.putAcc a).mem.wf = true :=
  View.wf_foldl _ (fun v w hv => View.wf_put v w.1 w.2.1 w.2.2 a.cidx hv) _ v h

theorem View.wf_putVals (v : View) (a : Acc) (h : v.mem.wf = true) : (v.putVals a).mem.wf = true :=
  View.wf_foldl _ (fun v w hv => View.wf_putVal v w.1 w.2.1 w.2.2 hv) _ v h

theorem Team.wf_put (t : Team) (o : Nat) (b : Byte) (bad : Bad) (h : t.spad.wf = true) : (t.put o b bad).spad.wf = true :=
  Memory.wf_write _ _ _ h

theorem Team.wf_putMany (bs : List (Byte × Bad)) (t : Team) (o : Nat) (h : t.spad.wf = true) :
    (t.putMany o bs).spad.wf = true := by
  induction bs generalizing t o with
  | nil => exact h
  | cons x r ih => exact ih _ _ (Team.wf_put t o x.1 x.2 h)

theorem Team.wf_putAcc (t : Team) (a : Acc) (h : t.spad.wf = true) : (t.putAcc a).spad.wf = true := by
  unfold Team.putAcc
  generalize a.writes = ws
  induction ws generalizing t with
  | nil => exact h
  | cons w r ih => exact ih _ (Team.wf_put t w.1 w.2.1 w.2.2 h)

theorem State.reset_home_wf : State.reset.home.mem.wf = true := rfl
theorem State.reset_host_wf : State.reset.host.mem.wf = true := rfl
theorem State.reset_view_wf (d : Nat) : (State.reset.view d).mem.wf = true := rfl

/-! ### One byte written, every other byte kept -/

@[simp] theorem View.byte_put_self (v : View) (a : Nat) (b : Byte) (bad : Bad) (idx : Nat) :
    (v.put a b bad idx).byte a = (b, bad) := by
  simp [View.byte, View.put]

theorem View.byte_put_ne (v : View) {a x : Nat} (b : Byte) (bad : Bad) (idx : Nat) (h : x ≠ a) :
    (v.put a b bad idx).byte x = v.byte x := by
  simp [View.byte, View.put, Memory.read_write_ne _ _ h, SMap.get_set_ne _ _ _ h]

@[simp] theorem View.byte_putVal_self (v : View) (a : Nat) (b : Byte) (bad : Bad) : (v.putVal a b bad).byte a = (b, bad) := by
  simp [View.byte, View.putVal]

theorem View.byte_putVal_ne (v : View) {a x : Nat} (b : Byte) (bad : Bad) (h : x ≠ a) :
    (v.putVal a b bad).byte x = v.byte x := by
  simp [View.byte, View.putVal, Memory.read_write_ne _ _ h, SMap.get_set_ne _ _ _ h]

@[simp] theorem View.index_put_self (v : View) (a : Nat) (b : Byte) (bad : Bad) (idx : Nat) :
    (v.put a b bad idx).index a = idx := by
  simp [View.index, View.put]

theorem View.index_put_ne (v : View) {a x : Nat} (b : Byte) (bad : Bad) (idx : Nat) (h : x ≠ a) :
    (v.put a b bad idx).index x = v.index x := by
  simp [View.index, View.put, SMap.get_set_ne _ _ _ h]

@[simp] theorem View.index_putVal (v : View) (a x : Nat) (b : Byte) (bad : Bad) : (v.putVal a b bad).index x = v.index x := rfl

theorem View.byte_putMany_out (bs : List (Byte × Bad)) (v : View) {a x : Nat} (h : x < a ∨ a + bs.length ≤ x) :
    (v.putMany a bs).byte x = v.byte x := by
  induction bs generalizing v a with
  | nil => rfl
  | cons y r ih =>
    simp only [List.length_cons] at h
    rw [View.putMany, ih _ (by omega), View.byte_putVal_ne _ _ _ (by omega)]

theorem View.byte_putMany_in (bs : List (Byte × Bad)) (v : View) (a : Nat) {i : Nat} (h : i < bs.length) :
    (v.putMany a bs).byte (a + i) = bs[i] := by
  induction bs generalizing v a i with
  | nil => exact absurd h (Nat.not_lt_zero _)
  | cons y r ih =>
    cases i with
    | zero => rw [View.putMany, View.byte_putMany_out _ _ (by omega)]; simp
    | succ j =>
      have := ih (v.putVal a y.1 y.2) (a + 1) (i := j) (by simpa using h)
      rw [View.putMany, show a + (j + 1) = a + 1 + j by omega, this]; rfl

/-- An access's bytes leave a location that none of them names as it was. -/
theorem View.byte_putAcc_out (v : View) (a : Acc) {x : Nat} (h : ∀ w ∈ a.writes, w.1 ≠ x) : (v.putAcc a).byte x = v.byte x := by
  unfold View.putAcc
  revert h
  generalize a.writes = ws
  intro h
  induction ws generalizing v with
  | nil => rfl
  | cons w r ih =>
    rw [List.foldl_cons, ih _ fun u hu => h u (List.mem_cons_of_mem _ hu),
      View.byte_put_ne _ _ _ _ (h w (List.mem_cons_self ..)).symm]

theorem Team.read_put_ne (t : Team) {o x : Nat} (b : Byte) (bad : Bad) (h : x ≠ o) : (t.put o b bad).spad.read x = t.spad.read x :=
  Memory.read_write_ne _ _ h

@[simp] theorem Team.read_put_self (t : Team) (o : Nat) (b : Byte) (bad : Bad) : (t.put o b bad).spad.read o = b :=
  Memory.read_write_self _ _ _

end Sys2Proof.Machine
end

