-- ==== Sys2Proof/Laws/State.lean ====
section
/-!
SUPPORT. Laws of the state: what each named update leaves alone, field by field, and what a lookup gives after it.
-/
namespace Sys2Proof.Machine

/-! ### State.modG -/

@[simp] theorem State.modG_groups (s : State) (f : Group → Group) : (s.modG f).groups = s.groups := rfl
@[simp] theorem State.modG_agenda (s : State) (f : Group → Group) : (s.modG f).agenda = s.agenda := rfl
@[simp] theorem State.modG_tick (s : State) (f : Group → Group) : (s.modG f).tick = s.tick := rfl
@[simp] theorem State.modG_changes (s : State) (f : Group → Group) : (s.modG f).changes = s.changes := rfl
@[simp] theorem State.modG_nextId (s : State) (f : Group → Group) : (s.modG f).nextId = s.nextId := rfl
@[simp] theorem State.modG_accs (s : State) (f : Group → Group) : (s.modG f).accs = s.accs := rfl
@[simp] theorem State.modG_teams (s : State) (f : Group → Group) : (s.modG f).teams = s.teams := rfl
@[simp] theorem State.modG_parts (s : State) (f : Group → Group) : (s.modG f).parts = s.parts := rfl
@[simp] theorem State.modG_cores (s : State) (f : Group → Group) : (s.modG f).cores = s.cores := rfl
@[simp] theorem State.modG_quads (s : State) (f : Group → Group) : (s.modG f).quads = s.quads := rfl
@[simp] theorem State.modG_dies (s : State) (f : Group → Group) : (s.modG f).dies = s.dies := rfl
@[simp] theorem State.modG_home (s : State) (f : Group → Group) : (s.modG f).home = s.home := rfl
@[simp] theorem State.modG_lineClk (s : State) (f : Group → Group) : (s.modG f).lineClk = s.lineClk := rfl
@[simp] theorem State.modG_lineBy (s : State) (f : Group → Group) : (s.modG f).lineBy = s.lineBy := rfl
@[simp] theorem State.modG_host (s : State) (f : Group → Group) : (s.modG f).host = s.host := rfl
@[simp] theorem State.modG_hostWr (s : State) (f : Group → Group) : (s.modG f).hostWr = s.hostWr := rfl
@[simp] theorem State.modG_hostDone (s : State) (f : Group → Group) : (s.modG f).hostDone = s.hostDone := rfl
@[simp] theorem State.modG_nets (s : State) (f : Group → Group) : (s.modG f).nets = s.nets := rfl
@[simp] theorem State.modG_qmoves (s : State) (f : Group → Group) : (s.modG f).qmoves = s.qmoves := rfl
@[simp] theorem State.modG_qhomes (s : State) (f : Group → Group) : (s.modG f).qhomes = s.qhomes := rfl
@[simp] theorem State.modG_cmds (s : State) (f : Group → Group) : (s.modG f).cmds = s.cmds := rfl
@[simp] theorem State.modG_mxops (s : State) (f : Group → Group) : (s.modG f).mxops = s.mxops := rfl
@[simp] theorem State.modG_contexts (s : State) (f : Group → Group) : (s.modG f).contexts = s.contexts := rfl
@[simp] theorem State.modG_launches (s : State) (f : Group → Group) : (s.modG f).launches = s.launches := rfl
@[simp] theorem State.modG_workqs (s : State) (f : Group → Group) : (s.modG f).workqs = s.workqs := rfl
@[simp] theorem State.modG_transl (s : State) (f : Group → Group) : (s.modG f).transl = s.transl := rfl
@[simp] theorem State.modG_gtb (s : State) (f : Group → Group) : (s.modG f).gtb = s.gtb := rfl
@[simp] theorem State.modG_pdefer (s : State) (f : Group → Group) : (s.modG f).pdefer = s.pdefer := rfl
@[simp] theorem State.modG_pwrcap (s : State) (f : Group → Group) : (s.modG f).pwrcap = s.pwrcap := rfl
@[simp] theorem State.modG_ppeak (s : State) (f : Group → Group) : (s.modG f).ppeak = s.ppeak := rfl
@[simp] theorem State.modG_psust (s : State) (f : Group → Group) : (s.modG f).psust = s.psust := rfl
@[simp] theorem State.modG_power (s : State) (f : Group → Group) : (s.modG f).power = s.power := rfl
@[simp] theorem State.modG_ffac (s : State) (f : Group → Group) : (s.modG f).ffac = s.ffac := rfl
@[simp] theorem State.modG_powerAt (s : State) (f : Group → Group) : (s.modG f).powerAt = s.powerAt := rfl
@[simp] theorem State.modG_energyAt (s : State) (f : Group → Group) : (s.modG f).energyAt = s.energyAt := rfl
@[simp] theorem State.modG_hostlim (s : State) (f : Group → Group) : (s.modG f).hostlim = s.hostlim := rfl
@[simp] theorem State.modG_pkg (s : State) (f : Group → Group) : (s.modG f).pkg = s.pkg := rfl
@[simp] theorem State.modG_lost (s : State) (f : Group → Group) : (s.modG f).lost = s.lost := rfl
@[simp] theorem State.modG_links (s : State) (f : Group → Group) : (s.modG f).links = s.links := rfl
@[simp] theorem State.modG_upStep (s : State) (f : Group → Group) : (s.modG f).upStep = s.upStep := rfl
@[simp] theorem State.modG_upFail (s : State) (f : Group → Group) : (s.modG f).upFail = s.upFail := rfl
@[simp] theorem State.modG_cxlWidth (s : State) (f : Group → Group) : (s.modG f).cxlWidth = s.cxlWidth := rfl
@[simp] theorem State.modG_feLost (s : State) (f : Group → Group) : (s.modG f).feLost = s.feLost := rfl
@[simp] theorem State.modG_fuses (s : State) (f : Group → Group) : (s.modG f).fuses = s.fuses := rfl
@[simp] theorem State.modG_images (s : State) (f : Group → Group) : (s.modG f).images = s.images := rfl
@[simp] theorem State.modG_measure (s : State) (f : Group → Group) : (s.modG f).measure = s.measure := rfl
@[simp] theorem State.modG_remote (s : State) (f : Group → Group) : (s.modG f).remote = s.remote := rfl
@[simp] theorem State.modG_quotes (s : State) (f : Group → Group) : (s.modG f).quotes = s.quotes := rfl
@[simp] theorem State.modG_hostReads (s : State) (f : Group → Group) : (s.modG f).hostReads = s.hostReads := rfl
@[simp] theorem State.modG_keys (s : State) (f : Group → Group) : (s.modG f).keys = s.keys := rfl
@[simp] theorem State.modG_hostErr (s : State) (f : Group → Group) : (s.modG f).hostErr = s.hostErr := rfl
@[simp] theorem State.modG_moved (s : State) (f : Group → Group) : (s.modG f).moved = s.moved := rfl
@[simp] theorem State.modG_sights (s : State) (f : Group → Group) : (s.modG f).sights = s.sights := rfl
@[simp] theorem State.modG_cbSeen (s : State) (f : Group → Group) : (s.modG f).cbSeen = s.cbSeen := rfl

/-! ### State.modGroup -/

@[simp] theorem State.modGroup_agenda (s : State) (n : Nat) (f : Group → Group) : (s.modGroup n f).agenda = s.agenda := rfl
@[simp] theorem State.modGroup_tick (s : State) (n : Nat) (f : Group → Group) : (s.modGroup n f).tick = s.tick := rfl
@[simp] theorem State.modGroup_changes (s : State) (n : Nat) (f : Group → Group) : (s.modGroup n f).changes = s.changes := rfl
@[simp] theorem State.modGroup_nextId (s : State) (n : Nat) (f : Group → Group) : (s.modGroup n f).nextId = s.nextId := rfl
@[simp] theorem State.modGroup_accs (s : State) (n : Nat) (f : Group → Group) : (s.modGroup n f).accs = s.accs := rfl
@[simp] theorem State.modGroup_teams (s : State) (n : Nat) (f : Group → Group) : (s.modGroup n f).teams = s.teams := rfl
@[simp] theorem State.modGroup_parts (s : State) (n : Nat) (f : Group → Group) : (s.modGroup n f).parts = s.parts := rfl
@[simp] theorem State.modGroup_cores (s : State) (n : Nat) (f : Group → Group) : (s.modGroup n f).cores = s.cores := rfl
@[simp] theorem State.modGroup_quads (s : State) (n : Nat) (f : Group → Group) : (s.modGroup n f).quads = s.quads := rfl
@[simp] theorem State.modGroup_dies (s : State) (n : Nat) (f : Group → Group) : (s.modGroup n f).dies = s.dies := rfl
@[simp] theorem State.modGroup_home (s : State) (n : Nat) (f : Group → Group) : (s.modGroup n f).home = s.home := rfl
@[simp] theorem State.modGroup_lineClk (s : State) (n : Nat) (f : Group → Group) : (s.modGroup n f).lineClk = s.lineClk := rfl
@[simp] theorem State.modGroup_lineBy (s : State) (n : Nat) (f : Group → Group) : (s.modGroup n f).lineBy = s.lineBy := rfl
@[simp] theorem State.modGroup_host (s : State) (n : Nat) (f : Group → Group) : (s.modGroup n f).host = s.host := rfl
@[simp] theorem State.modGroup_hostWr (s : State) (n : Nat) (f : Group → Group) : (s.modGroup n f).hostWr = s.hostWr := rfl
@[simp] theorem State.modGroup_hostDone (s : State) (n : Nat) (f : Group → Group) : (s.modGroup n f).hostDone = s.hostDone := rfl
@[simp] theorem State.modGroup_nets (s : State) (n : Nat) (f : Group → Group) : (s.modGroup n f).nets = s.nets := rfl
@[simp] theorem State.modGroup_qmoves (s : State) (n : Nat) (f : Group → Group) : (s.modGroup n f).qmoves = s.qmoves := rfl
@[simp] theorem State.modGroup_qhomes (s : State) (n : Nat) (f : Group → Group) : (s.modGroup n f).qhomes = s.qhomes := rfl
@[simp] theorem State.modGroup_cmds (s : State) (n : Nat) (f : Group → Group) : (s.modGroup n f).cmds = s.cmds := rfl
@[simp] theorem State.modGroup_mxops (s : State) (n : Nat) (f : Group → Group) : (s.modGroup n f).mxops = s.mxops := rfl
@[simp] theorem State.modGroup_contexts (s : State) (n : Nat) (f : Group → Group) : (s.modGroup n f).contexts = s.contexts := rfl
@[simp] theorem State.modGroup_launches (s : State) (n : Nat) (f : Group → Group) : (s.modGroup n f).launches = s.launches := rfl
@[simp] theorem State.modGroup_workqs (s : State) (n : Nat) (f : Group → Group) : (s.modGroup n f).workqs = s.workqs := rfl
@[simp] theorem State.modGroup_transl (s : State) (n : Nat) (f : Group → Group) : (s.modGroup n f).transl = s.transl := rfl
@[simp] theorem State.modGroup_gtb (s : State) (n : Nat) (f : Group → Group) : (s.modGroup n f).gtb = s.gtb := rfl
@[simp] theorem State.modGroup_pdefer (s : State) (n : Nat) (f : Group → Group) : (s.modGroup n f).pdefer = s.pdefer := rfl
@[simp] theorem State.modGroup_pwrcap (s : State) (n : Nat) (f : Group → Group) : (s.modGroup n f).pwrcap = s.pwrcap := rfl
@[simp] theorem State.modGroup_ppeak (s : State) (n : Nat) (f : Group → Group) : (s.modGroup n f).ppeak = s.ppeak := rfl
@[simp] theorem State.modGroup_psust (s : State) (n : Nat) (f : Group → Group) : (s.modGroup n f).psust = s.psust := rfl
@[simp] theorem State.modGroup_power (s : State) (n : Nat) (f : Group → Group) : (s.modGroup n f).power = s.power := rfl
@[simp] theorem State.modGroup_ffac (s : State) (n : Nat) (f : Group → Group) : (s.modGroup n f).ffac = s.ffac := rfl
@[simp] theorem State.modGroup_powerAt (s : State) (n : Nat) (f : Group → Group) : (s.modGroup n f).powerAt = s.powerAt := rfl
@[simp] theorem State.modGroup_energyAt (s : State) (n : Nat) (f : Group → Group) : (s.modGroup n f).energyAt = s.energyAt := rfl
@[simp] theorem State.modGroup_hostlim (s : State) (n : Nat) (f : Group → Group) : (s.modGroup n f).hostlim = s.hostlim := rfl
@[simp] theorem State.modGroup_pkg (s : State) (n : Nat) (f : Group → Group) : (s.modGroup n f).pkg = s.pkg := rfl
@[simp] theorem State.modGroup_lost (s : State) (n : Nat) (f : Group → Group) : (s.modGroup n f).lost = s.lost := rfl
@[simp] theorem State.modGroup_links (s : State) (n : Nat) (f : Group → Group) : (s.modGroup n f).links = s.links := rfl
@[simp] theorem State.modGroup_upStep (s : State) (n : Nat) (f : Group → Group) : (s.modGroup n f).upStep = s.upStep := rfl
@[simp] theorem State.modGroup_upFail (s : State) (n : Nat) (f : Group → Group) : (s.modGroup n f).upFail = s.upFail := rfl
@[simp] theorem State.modGroup_cxlWidth (s : State) (n : Nat) (f : Group → Group) : (s.modGroup n f).cxlWidth = s.cxlWidth := rfl
@[simp] theorem State.modGroup_feLost (s : State) (n : Nat) (f : Group → Group) : (s.modGroup n f).feLost = s.feLost := rfl
@[simp] theorem State.modGroup_fuses (s : State) (n : Nat) (f : Group → Group) : (s.modGroup n f).fuses = s.fuses := rfl
@[simp] theorem State.modGroup_images (s : State) (n : Nat) (f : Group → Group) : (s.modGroup n f).images = s.images := rfl
@[simp] theorem State.modGroup_measure (s : State) (n : Nat) (f : Group → Group) : (s.modGroup n f).measure = s.measure := rfl
@[simp] theorem State.modGroup_remote (s : State) (n : Nat) (f : Group → Group) : (s.modGroup n f).remote = s.remote := rfl
@[simp] theorem State.modGroup_quotes (s : State) (n : Nat) (f : Group → Group) : (s.modGroup n f).quotes = s.quotes := rfl
@[simp] theorem State.modGroup_hostReads (s : State) (n : Nat) (f : Group → Group) : (s.modGroup n f).hostReads = s.hostReads := rfl
@[simp] theorem State.modGroup_keys (s : State) (n : Nat) (f : Group → Group) : (s.modGroup n f).keys = s.keys := rfl
@[simp] theorem State.modGroup_hostErr (s : State) (n : Nat) (f : Group → Group) : (s.modGroup n f).hostErr = s.hostErr := rfl
@[simp] theorem State.modGroup_moved (s : State) (n : Nat) (f : Group → Group) : (s.modGroup n f).moved = s.moved := rfl
@[simp] theorem State.modGroup_sights (s : State) (n : Nat) (f : Group → Group) : (s.modGroup n f).sights = s.sights := rfl
@[simp] theorem State.modGroup_cbSeen (s : State) (n : Nat) (f : Group → Group) : (s.modGroup n f).cbSeen = s.cbSeen := rfl

/-! ### State.setGroup -/

@[simp] theorem State.setGroup_focus (s : State) (g : Group) : (s.setGroup g).focus = s.focus := rfl
@[simp] theorem State.setGroup_agenda (s : State) (g : Group) : (s.setGroup g).agenda = s.agenda := rfl
@[simp] theorem State.setGroup_tick (s : State) (g : Group) : (s.setGroup g).tick = s.tick := rfl
@[simp] theorem State.setGroup_changes (s : State) (g : Group) : (s.setGroup g).changes = s.changes := rfl
@[simp] theorem State.setGroup_nextId (s : State) (g : Group) : (s.setGroup g).nextId = s.nextId := rfl
@[simp] theorem State.setGroup_accs (s : State) (g : Group) : (s.setGroup g).accs = s.accs := rfl
@[simp] theorem State.setGroup_teams (s : State) (g : Group) : (s.setGroup g).teams = s.teams := rfl
@[simp] theorem State.setGroup_parts (s : State) (g : Group) : (s.setGroup g).parts = s.parts := rfl
@[simp] theorem State.setGroup_cores (s : State) (g : Group) : (s.setGroup g).cores = s.cores := rfl
@[simp] theorem State.setGroup_quads (s : State) (g : Group) : (s.setGroup g).quads = s.quads := rfl
@[simp] theorem State.setGroup_dies (s : State) (g : Group) : (s.setGroup g).dies = s.dies := rfl
@[simp] theorem State.setGroup_home (s : State) (g : Group) : (s.setGroup g).home = s.home := rfl
@[simp] theorem State.setGroup_lineClk (s : State) (g : Group) : (s.setGroup g).lineClk = s.lineClk := rfl
@[simp] theorem State.setGroup_lineBy (s : State) (g : Group) : (s.setGroup g).lineBy = s.lineBy := rfl
@[simp] theorem State.setGroup_host (s : State) (g : Group) : (s.setGroup g).host = s.host := rfl
@[simp] theorem State.setGroup_hostWr (s : State) (g : Group) : (s.setGroup g).hostWr = s.hostWr := rfl
@[simp] theorem State.setGroup_hostDone (s : State) (g : Group) : (s.setGroup g).hostDone = s.hostDone := rfl
@[simp] theorem State.setGroup_nets (s : State) (g : Group) : (s.setGroup g).nets = s.nets := rfl
@[simp] theorem State.setGroup_qmoves (s : State) (g : Group) : (s.setGroup g).qmoves = s.qmoves := rfl
@[simp] theorem State.setGroup_qhomes (s : State) (g : Group) : (s.setGroup g).qhomes = s.qhomes := rfl
@[simp] theorem State.setGroup_cmds (s : State) (g : Group) : (s.setGroup g).cmds = s.cmds := rfl
@[simp] theorem State.setGroup_mxops (s : State) (g : Group) : (s.setGroup g).mxops = s.mxops := rfl
@[simp] theorem State.setGroup_contexts (s : State) (g : Group) : (s.setGroup g).contexts = s.contexts := rfl
@[simp] theorem State.setGroup_launches (s : State) (g : Group) : (s.setGroup g).launches = s.launches := rfl
@[simp] theorem State.setGroup_workqs (s : State) (g : Group) : (s.setGroup g).workqs = s.workqs := rfl
@[simp] theorem State.setGroup_transl (s : State) (g : Group) : (s.setGroup g).transl = s.transl := rfl
@[simp] theorem State.setGroup_gtb (s : State) (g : Group) : (s.setGroup g).gtb = s.gtb := rfl
@[simp] theorem State.setGroup_pdefer (s : State) (g : Group) : (s.setGroup g).pdefer = s.pdefer := rfl
@[simp] theorem State.setGroup_pwrcap (s : State) (g : Group) : (s.setGroup g).pwrcap = s.pwrcap := rfl
@[simp] theorem State.setGroup_ppeak (s : State) (g : Group) : (s.setGroup g).ppeak = s.ppeak := rfl
@[simp] theorem State.setGroup_psust (s : State) (g : Group) : (s.setGroup g).psust = s.psust := rfl
@[simp] theorem State.setGroup_power (s : State) (g : Group) : (s.setGroup g).power = s.power := rfl
@[simp] theorem State.setGroup_ffac (s : State) (g : Group) : (s.setGroup g).ffac = s.ffac := rfl
@[simp] theorem State.setGroup_powerAt (s : State) (g : Group) : (s.setGroup g).powerAt = s.powerAt := rfl
@[simp] theorem State.setGroup_energyAt (s : State) (g : Group) : (s.setGroup g).energyAt = s.energyAt := rfl
@[simp] theorem State.setGroup_hostlim (s : State) (g : Group) : (s.setGroup g).hostlim = s.hostlim := rfl
@[simp] theorem State.setGroup_pkg (s : State) (g : Group) : (s.setGroup g).pkg = s.pkg := rfl
@[simp] theorem State.setGroup_lost (s : State) (g : Group) : (s.setGroup g).lost = s.lost := rfl
@[simp] theorem State.setGroup_links (s : State) (g : Group) : (s.setGroup g).links = s.links := rfl
@[simp] theorem State.setGroup_upStep (s : State) (g : Group) : (s.setGroup g).upStep = s.upStep := rfl
@[simp] theorem State.setGroup_upFail (s : State) (g : Group) : (s.setGroup g).upFail = s.upFail := rfl
@[simp] theorem State.setGroup_cxlWidth (s : State) (g : Group) : (s.setGroup g).cxlWidth = s.cxlWidth := rfl
@[simp] theorem State.setGroup_feLost (s : State) (g : Group) : (s.setGroup g).feLost = s.feLost := rfl
@[simp] theorem State.setGroup_fuses (s : State) (g : Group) : (s.setGroup g).fuses = s.fuses := rfl
@[simp] theorem State.setGroup_images (s : State) (g : Group) : (s.setGroup g).images = s.images := rfl
@[simp] theorem State.setGroup_measure (s : State) (g : Group) : (s.setGroup g).measure = s.measure := rfl
@[simp] theorem State.setGroup_remote (s : State) (g : Group) : (s.setGroup g).remote = s.remote := rfl
@[simp] theorem State.setGroup_quotes (s : State) (g : Group) : (s.setGroup g).quotes = s.quotes := rfl
@[simp] theorem State.setGroup_hostReads (s : State) (g : Group) : (s.setGroup g).hostReads = s.hostReads := rfl
@[simp] theorem State.setGroup_keys (s : State) (g : Group) : (s.setGroup g).keys = s.keys := rfl
@[simp] theorem State.setGroup_hostErr (s : State) (g : Group) : (s.setGroup g).hostErr = s.hostErr := rfl
@[simp] theorem State.setGroup_moved (s : State) (g : Group) : (s.setGroup g).moved = s.moved := rfl
@[simp] theorem State.setGroup_sights (s : State) (g : Group) : (s.setGroup g).sights = s.sights := rfl
@[simp] theorem State.setGroup_cbSeen (s : State) (g : Group) : (s.setGroup g).cbSeen = s.cbSeen := rfl

/-! ### State.setPartn -/

@[simp] theorem State.setPartn_focus (s : State) (d c p : Nat) (x : Partn) : (s.setPartn d c p x).focus = s.focus := rfl
@[simp] theorem State.setPartn_groups (s : State) (d c p : Nat) (x : Partn) : (s.setPartn d c p x).groups = s.groups := rfl
@[simp] theorem State.setPartn_agenda (s : State) (d c p : Nat) (x : Partn) : (s.setPartn d c p x).agenda = s.agenda := rfl
@[simp] theorem State.setPartn_tick (s : State) (d c p : Nat) (x : Partn) : (s.setPartn d c p x).tick = s.tick := rfl
@[simp] theorem State.setPartn_changes (s : State) (d c p : Nat) (x : Partn) : (s.setPartn d c p x).changes = s.changes := rfl
@[simp] theorem State.setPartn_nextId (s : State) (d c p : Nat) (x : Partn) : (s.setPartn d c p x).nextId = s.nextId := rfl
@[simp] theorem State.setPartn_accs (s : State) (d c p : Nat) (x : Partn) : (s.setPartn d c p x).accs = s.accs := rfl
@[simp] theorem State.setPartn_teams (s : State) (d c p : Nat) (x : Partn) : (s.setPartn d c p x).teams = s.teams := rfl
@[simp] theorem State.setPartn_cores (s : State) (d c p : Nat) (x : Partn) : (s.setPartn d c p x).cores = s.cores := rfl
@[simp] theorem State.setPartn_quads (s : State) (d c p : Nat) (x : Partn) : (s.setPartn d c p x).quads = s.quads := rfl
@[simp] theorem State.setPartn_dies (s : State) (d c p : Nat) (x : Partn) : (s.setPartn d c p x).dies = s.dies := rfl
@[simp] theorem State.setPartn_home (s : State) (d c p : Nat) (x : Partn) : (s.setPartn d c p x).home = s.home := rfl
@[simp] theorem State.setPartn_lineClk (s : State) (d c p : Nat) (x : Partn) : (s.setPartn d c p x).lineClk = s.lineClk := rfl
@[simp] theorem State.setPartn_lineBy (s : State) (d c p : Nat) (x : Partn) : (s.setPartn d c p x).lineBy = s.lineBy := rfl
@[simp] theorem State.setPartn_host (s : State) (d c p : Nat) (x : Partn) : (s.setPartn d c p x).host = s.host := rfl
@[simp] theorem State.setPartn_hostWr (s : State) (d c p : Nat) (x : Partn) : (s.setPartn d c p x).hostWr = s.hostWr := rfl
@[simp] theorem State.setPartn_hostDone (s : State) (d c p : Nat) (x : Partn) : (s.setPartn d c p x).hostDone = s.hostDone := rfl
@[simp] theorem State.setPartn_nets (s : State) (d c p : Nat) (x : Partn) : (s.setPartn d c p x).nets = s.nets := rfl
@[simp] theorem State.setPartn_qmoves (s : State) (d c p : Nat) (x : Partn) : (s.setPartn d c p x).qmoves = s.qmoves := rfl
@[simp] theorem State.setPartn_qhomes (s : State) (d c p : Nat) (x : Partn) : (s.setPartn d c p x).qhomes = s.qhomes := rfl
@[simp] theorem State.setPartn_cmds (s : State) (d c p : Nat) (x : Partn) : (s.setPartn d c p x).cmds = s.cmds := rfl
@[simp] theorem State.setPartn_mxops (s : State) (d c p : Nat) (x : Partn) : (s.setPartn d c p x).mxops = s.mxops := rfl
@[simp] theorem State.setPartn_contexts (s : State) (d c p : Nat) (x : Partn) : (s.setPartn d c p x).contexts = s.contexts := rfl
@[simp] theorem State.setPartn_launches (s : State) (d c p : Nat) (x : Partn) : (s.setPartn d c p x).launches = s.launches := rfl
@[simp] theorem State.setPartn_workqs (s : State) (d c p : Nat) (x : Partn) : (s.setPartn d c p x).workqs = s.workqs := rfl
@[simp] theorem State.setPartn_transl (s : State) (d c p : Nat) (x : Partn) : (s.setPartn d c p x).transl = s.transl := rfl
@[simp] theorem State.setPartn_gtb (s : State) (d c p : Nat) (x : Partn) : (s.setPartn d c p x).gtb = s.gtb := rfl
@[simp] theorem State.setPartn_pdefer (s : State) (d c p : Nat) (x : Partn) : (s.setPartn d c p x).pdefer = s.pdefer := rfl
@[simp] theorem State.setPartn_pwrcap (s : State) (d c p : Nat) (x : Partn) : (s.setPartn d c p x).pwrcap = s.pwrcap := rfl
@[simp] theorem State.setPartn_ppeak (s : State) (d c p : Nat) (x : Partn) : (s.setPartn d c p x).ppeak = s.ppeak := rfl
@[simp] theorem State.setPartn_psust (s : State) (d c p : Nat) (x : Partn) : (s.setPartn d c p x).psust = s.psust := rfl
@[simp] theorem State.setPartn_power (s : State) (d c p : Nat) (x : Partn) : (s.setPartn d c p x).power = s.power := rfl
@[simp] theorem State.setPartn_ffac (s : State) (d c p : Nat) (x : Partn) : (s.setPartn d c p x).ffac = s.ffac := rfl
@[simp] theorem State.setPartn_powerAt (s : State) (d c p : Nat) (x : Partn) : (s.setPartn d c p x).powerAt = s.powerAt := rfl
@[simp] theorem State.setPartn_energyAt (s : State) (d c p : Nat) (x : Partn) : (s.setPartn d c p x).energyAt = s.energyAt := rfl
@[simp] theorem State.setPartn_hostlim (s : State) (d c p : Nat) (x : Partn) : (s.setPartn d c p x).hostlim = s.hostlim := rfl
@[simp] theorem State.setPartn_pkg (s : State) (d c p : Nat) (x : Partn) : (s.setPartn d c p x).pkg = s.pkg := rfl
@[simp] theorem State.setPartn_lost (s : State) (d c p : Nat) (x : Partn) : (s.setPartn d c p x).lost = s.lost := rfl
@[simp] theorem State.setPartn_links (s : State) (d c p : Nat) (x : Partn) : (s.setPartn d c p x).links = s.links := rfl
@[simp] theorem State.setPartn_upStep (s : State) (d c p : Nat) (x : Partn) : (s.setPartn d c p x).upStep = s.upStep := rfl
@[simp] theorem State.setPartn_upFail (s : State) (d c p : Nat) (x : Partn) : (s.setPartn d c p x).upFail = s.upFail := rfl
@[simp] theorem State.setPartn_cxlWidth (s : State) (d c p : Nat) (x : Partn) : (s.setPartn d c p x).cxlWidth = s.cxlWidth := rfl
@[simp] theorem State.setPartn_feLost (s : State) (d c p : Nat) (x : Partn) : (s.setPartn d c p x).feLost = s.feLost := rfl
@[simp] theorem State.setPartn_fuses (s : State) (d c p : Nat) (x : Partn) : (s.setPartn d c p x).fuses = s.fuses := rfl
@[simp] theorem State.setPartn_images (s : State) (d c p : Nat) (x : Partn) : (s.setPartn d c p x).images = s.images := rfl
@[simp] theorem State.setPartn_measure (s : State) (d c p : Nat) (x : Partn) : (s.setPartn d c p x).measure = s.measure := rfl
@[simp] theorem State.setPartn_remote (s : State) (d c p : Nat) (x : Partn) : (s.setPartn d c p x).remote = s.remote := rfl
@[simp] theorem State.setPartn_quotes (s : State) (d c p : Nat) (x : Partn) : (s.setPartn d c p x).quotes = s.quotes := rfl
@[simp] theorem State.setPartn_hostReads (s : State) (d c p : Nat) (x : Partn) : (s.setPartn d c p x).hostReads = s.hostReads := rfl
@[simp] theorem State.setPartn_keys (s : State) (d c p : Nat) (x : Partn) : (s.setPartn d c p x).keys = s.keys := rfl
@[simp] theorem State.setPartn_hostErr (s : State) (d c p : Nat) (x : Partn) : (s.setPartn d c p x).hostErr = s.hostErr := rfl
@[simp] theorem State.setPartn_moved (s : State) (d c p : Nat) (x : Partn) : (s.setPartn d c p x).moved = s.moved := rfl
@[simp] theorem State.setPartn_sights (s : State) (d c p : Nat) (x : Partn) : (s.setPartn d c p x).sights = s.sights := rfl
@[simp] theorem State.setPartn_cbSeen (s : State) (d c p : Nat) (x : Partn) : (s.setPartn d c p x).cbSeen = s.cbSeen := rfl

/-! ### State.setPartOf -/

@[simp] theorem State.setPartOf_focus (s : State) (g : Group) (x : Partn) : (s.setPartOf g x).focus = s.focus := rfl
@[simp] theorem State.setPartOf_groups (s : State) (g : Group) (x : Partn) : (s.setPartOf g x).groups = s.groups := rfl
@[simp] theorem State.setPartOf_agenda (s : State) (g : Group) (x : Partn) : (s.setPartOf g x).agenda = s.agenda := rfl
@[simp] theorem State.setPartOf_tick (s : State) (g : Group) (x : Partn) : (s.setPartOf g x).tick = s.tick := rfl
@[simp] theorem State.setPartOf_changes (s : State) (g : Group) (x : Partn) : (s.setPartOf g x).changes = s.changes := rfl
@[simp] theorem State.setPartOf_nextId (s : State) (g : Group) (x : Partn) : (s.setPartOf g x).nextId = s.nextId := rfl
@[simp] theorem State.setPartOf_accs (s : State) (g : Group) (x : Partn) : (s.setPartOf g x).accs = s.accs := rfl
@[simp] theorem State.setPartOf_teams (s : State) (g : Group) (x : Partn) : (s.setPartOf g x).teams = s.teams := rfl
@[simp] theorem State.setPartOf_cores (s : State) (g : Group) (x : Partn) : (s.setPartOf g x).cores = s.cores := rfl
@[simp] theorem State.setPartOf_quads (s : State) (g : Group) (x : Partn) : (s.setPartOf g x).quads = s.quads := rfl
@[simp] theorem State.setPartOf_dies (s : State) (g : Group) (x : Partn) : (s.setPartOf g x).dies = s.dies := rfl
@[simp] theorem State.setPartOf_home (s : State) (g : Group) (x : Partn) : (s.setPartOf g x).home = s.home := rfl
@[simp] theorem State.setPartOf_lineClk (s : State) (g : Group) (x : Partn) : (s.setPartOf g x).lineClk = s.lineClk := rfl
@[simp] theorem State.setPartOf_lineBy (s : State) (g : Group) (x : Partn) : (s.setPartOf g x).lineBy = s.lineBy := rfl
@[simp] theorem State.setPartOf_host (s : State) (g : Group) (x : Partn) : (s.setPartOf g x).host = s.host := rfl
@[simp] theorem State.setPartOf_hostWr (s : State) (g : Group) (x : Partn) : (s.setPartOf g x).hostWr = s.hostWr := rfl
@[simp] theorem State.setPartOf_hostDone (s : State) (g : Group) (x : Partn) : (s.setPartOf g x).hostDone = s.hostDone := rfl
@[simp] theorem State.setPartOf_nets (s : State) (g : Group) (x : Partn) : (s.setPartOf g x).nets = s.nets := rfl
@[simp] theorem State.setPartOf_qmoves (s : State) (g : Group) (x : Partn) : (s.setPartOf g x).qmoves = s.qmoves := rfl
@[simp] theorem State.setPartOf_qhomes (s : State) (g : Group) (x : Partn) : (s.setPartOf g x).qhomes = s.qhomes := rfl
@[simp] theorem State.setPartOf_cmds (s : State) (g : Group) (x : Partn) : (s.setPartOf g x).cmds = s.cmds := rfl
@[simp] theorem State.setPartOf_mxops (s : State) (g : Group) (x : Partn) : (s.setPartOf g x).mxops = s.mxops := rfl
@[simp] theorem State.setPartOf_contexts (s : State) (g : Group) (x : Partn) : (s.setPartOf g x).contexts = s.contexts := rfl
@[simp] theorem State.setPartOf_launches (s : State) (g : Group) (x : Partn) : (s.setPartOf g x).launches = s.launches := rfl
@[simp] theorem State.setPartOf_workqs (s : State) (g : Group) (x : Partn) : (s.setPartOf g x).workqs = s.workqs := rfl
@[simp] theorem State.setPartOf_transl (s : State) (g : Group) (x : Partn) : (s.setPartOf g x).transl = s.transl := rfl
@[simp] theorem State.setPartOf_gtb (s : State) (g : Group) (x : Partn) : (s.setPartOf g x).gtb = s.gtb := rfl
@[simp] theorem State.setPartOf_pdefer (s : State) (g : Group) (x : Partn) : (s.setPartOf g x).pdefer = s.pdefer := rfl
@[simp] theorem State.setPartOf_pwrcap (s : State) (g : Group) (x : Partn) : (s.setPartOf g x).pwrcap = s.pwrcap := rfl
@[simp] theorem State.setPartOf_ppeak (s : State) (g : Group) (x : Partn) : (s.setPartOf g x).ppeak = s.ppeak := rfl
@[simp] theorem State.setPartOf_psust (s : State) (g : Group) (x : Partn) : (s.setPartOf g x).psust = s.psust := rfl
@[simp] theorem State.setPartOf_power (s : State) (g : Group) (x : Partn) : (s.setPartOf g x).power = s.power := rfl
@[simp] theorem State.setPartOf_ffac (s : State) (g : Group) (x : Partn) : (s.setPartOf g x).ffac = s.ffac := rfl
@[simp] theorem State.setPartOf_powerAt (s : State) (g : Group) (x : Partn) : (s.setPartOf g x).powerAt = s.powerAt := rfl
@[simp] theorem State.setPartOf_energyAt (s : State) (g : Group) (x : Partn) : (s.setPartOf g x).energyAt = s.energyAt := rfl
@[simp] theorem State.setPartOf_hostlim (s : State) (g : Group) (x : Partn) : (s.setPartOf g x).hostlim = s.hostlim := rfl
@[simp] theorem State.setPartOf_pkg (s : State) (g : Group) (x : Partn) : (s.setPartOf g x).pkg = s.pkg := rfl
@[simp] theorem State.setPartOf_lost (s : State) (g : Group) (x : Partn) : (s.setPartOf g x).lost = s.lost := rfl
@[simp] theorem State.setPartOf_links (s : State) (g : Group) (x : Partn) : (s.setPartOf g x).links = s.links := rfl
@[simp] theorem State.setPartOf_upStep (s : State) (g : Group) (x : Partn) : (s.setPartOf g x).upStep = s.upStep := rfl
@[simp] theorem State.setPartOf_upFail (s : State) (g : Group) (x : Partn) : (s.setPartOf g x).upFail = s.upFail := rfl
@[simp] theorem State.setPartOf_cxlWidth (s : State) (g : Group) (x : Partn) : (s.setPartOf g x).cxlWidth = s.cxlWidth := rfl
@[simp] theorem State.setPartOf_feLost (s : State) (g : Group) (x : Partn) : (s.setPartOf g x).feLost = s.feLost := rfl
@[simp] theorem State.setPartOf_fuses (s : State) (g : Group) (x : Partn) : (s.setPartOf g x).fuses = s.fuses := rfl
@[simp] theorem State.setPartOf_images (s : State) (g : Group) (x : Partn) : (s.setPartOf g x).images = s.images := rfl
@[simp] theorem State.setPartOf_measure (s : State) (g : Group) (x : Partn) : (s.setPartOf g x).measure = s.measure := rfl
@[simp] theorem State.setPartOf_remote (s : State) (g : Group) (x : Partn) : (s.setPartOf g x).remote = s.remote := rfl
@[simp] theorem State.setPartOf_quotes (s : State) (g : Group) (x : Partn) : (s.setPartOf g x).quotes = s.quotes := rfl
@[simp] theorem State.setPartOf_hostReads (s : State) (g : Group) (x : Partn) : (s.setPartOf g x).hostReads = s.hostReads := rfl
@[simp] theorem State.setPartOf_keys (s : State) (g : Group) (x : Partn) : (s.setPartOf g x).keys = s.keys := rfl
@[simp] theorem State.setPartOf_hostErr (s : State) (g : Group) (x : Partn) : (s.setPartOf g x).hostErr = s.hostErr := rfl
@[simp] theorem State.setPartOf_moved (s : State) (g : Group) (x : Partn) : (s.setPartOf g x).moved = s.moved := rfl
@[simp] theorem State.setPartOf_sights (s : State) (g : Group) (x : Partn) : (s.setPartOf g x).sights = s.sights := rfl
@[simp] theorem State.setPartOf_cbSeen (s : State) (g : Group) (x : Partn) : (s.setPartOf g x).cbSeen = s.cbSeen := rfl

/-! ### State.setCore -/

@[simp] theorem State.setCore_focus (s : State) (d c : Nat) (x : Core) : (s.setCore d c x).focus = s.focus := rfl
@[simp] theorem State.setCore_groups (s : State) (d c : Nat) (x : Core) : (s.setCore d c x).groups = s.groups := rfl
@[simp] theorem State.setCore_agenda (s : State) (d c : Nat) (x : Core) : (s.setCore d c x).agenda = s.agenda := rfl
@[simp] theorem State.setCore_tick (s : State) (d c : Nat) (x : Core) : (s.setCore d c x).tick = s.tick := rfl
@[simp] theorem State.setCore_changes (s : State) (d c : Nat) (x : Core) : (s.setCore d c x).changes = s.changes := rfl
@[simp] theorem State.setCore_nextId (s : State) (d c : Nat) (x : Core) : (s.setCore d c x).nextId = s.nextId := rfl
@[simp] theorem State.setCore_accs (s : State) (d c : Nat) (x : Core) : (s.setCore d c x).accs = s.accs := rfl
@[simp] theorem State.setCore_teams (s : State) (d c : Nat) (x : Core) : (s.setCore d c x).teams = s.teams := rfl
@[simp] theorem State.setCore_parts (s : State) (d c : Nat) (x : Core) : (s.setCore d c x).parts = s.parts := rfl
@[simp] theorem State.setCore_quads (s : State) (d c : Nat) (x : Core) : (s.setCore d c x).quads = s.quads := rfl
@[simp] theorem State.setCore_dies (s : State) (d c : Nat) (x : Core) : (s.setCore d c x).dies = s.dies := rfl
@[simp] theorem State.setCore_home (s : State) (d c : Nat) (x : Core) : (s.setCore d c x).home = s.home := rfl
@[simp] theorem State.setCore_lineClk (s : State) (d c : Nat) (x : Core) : (s.setCore d c x).lineClk = s.lineClk := rfl
@[simp] theorem State.setCore_lineBy (s : State) (d c : Nat) (x : Core) : (s.setCore d c x).lineBy = s.lineBy := rfl
@[simp] theorem State.setCore_host (s : State) (d c : Nat) (x : Core) : (s.setCore d c x).host = s.host := rfl
@[simp] theorem State.setCore_hostWr (s : State) (d c : Nat) (x : Core) : (s.setCore d c x).hostWr = s.hostWr := rfl
@[simp] theorem State.setCore_hostDone (s : State) (d c : Nat) (x : Core) : (s.setCore d c x).hostDone = s.hostDone := rfl
@[simp] theorem State.setCore_nets (s : State) (d c : Nat) (x : Core) : (s.setCore d c x).nets = s.nets := rfl
@[simp] theorem State.setCore_qmoves (s : State) (d c : Nat) (x : Core) : (s.setCore d c x).qmoves = s.qmoves := rfl
@[simp] theorem State.setCore_qhomes (s : State) (d c : Nat) (x : Core) : (s.setCore d c x).qhomes = s.qhomes := rfl
@[simp] theorem State.setCore_cmds (s : State) (d c : Nat) (x : Core) : (s.setCore d c x).cmds = s.cmds := rfl
@[simp] theorem State.setCore_mxops (s : State) (d c : Nat) (x : Core) : (s.setCore d c x).mxops = s.mxops := rfl
@[simp] theorem State.setCore_contexts (s : State) (d c : Nat) (x : Core) : (s.setCore d c x).contexts = s.contexts := rfl
@[simp] theorem State.setCore_launches (s : State) (d c : Nat) (x : Core) : (s.setCore d c x).launches = s.launches := rfl
@[simp] theorem State.setCore_workqs (s : State) (d c : Nat) (x : Core) : (s.setCore d c x).workqs = s.workqs := rfl
@[simp] theorem State.setCore_transl (s : State) (d c : Nat) (x : Core) : (s.setCore d c x).transl = s.transl := rfl
@[simp] theorem State.setCore_gtb (s : State) (d c : Nat) (x : Core) : (s.setCore d c x).gtb = s.gtb := rfl
@[simp] theorem State.setCore_pdefer (s : State) (d c : Nat) (x : Core) : (s.setCore d c x).pdefer = s.pdefer := rfl
@[simp] theorem State.setCore_pwrcap (s : State) (d c : Nat) (x : Core) : (s.setCore d c x).pwrcap = s.pwrcap := rfl
@[simp] theorem State.setCore_ppeak (s : State) (d c : Nat) (x : Core) : (s.setCore d c x).ppeak = s.ppeak := rfl
@[simp] theorem State.setCore_psust (s : State) (d c : Nat) (x : Core) : (s.setCore d c x).psust = s.psust := rfl
@[simp] theorem State.setCore_power (s : State) (d c : Nat) (x : Core) : (s.setCore d c x).power = s.power := rfl
@[simp] theorem State.setCore_ffac (s : State) (d c : Nat) (x : Core) : (s.setCore d c x).ffac = s.ffac := rfl
@[simp] theorem State.setCore_powerAt (s : State) (d c : Nat) (x : Core) : (s.setCore d c x).powerAt = s.powerAt := rfl
@[simp] theorem State.setCore_energyAt (s : State) (d c : Nat) (x : Core) : (s.setCore d c x).energyAt = s.energyAt := rfl
@[simp] theorem State.setCore_hostlim (s : State) (d c : Nat) (x : Core) : (s.setCore d c x).hostlim = s.hostlim := rfl
@[simp] theorem State.setCore_pkg (s : State) (d c : Nat) (x : Core) : (s.setCore d c x).pkg = s.pkg := rfl
@[simp] theorem State.setCore_lost (s : State) (d c : Nat) (x : Core) : (s.setCore d c x).lost = s.lost := rfl
@[simp] theorem State.setCore_links (s : State) (d c : Nat) (x : Core) : (s.setCore d c x).links = s.links := rfl
@[simp] theorem State.setCore_upStep (s : State) (d c : Nat) (x : Core) : (s.setCore d c x).upStep = s.upStep := rfl
@[simp] theorem State.setCore_upFail (s : State) (d c : Nat) (x : Core) : (s.setCore d c x).upFail = s.upFail := rfl
@[simp] theorem State.setCore_cxlWidth (s : State) (d c : Nat) (x : Core) : (s.setCore d c x).cxlWidth = s.cxlWidth := rfl
@[simp] theorem State.setCore_feLost (s : State) (d c : Nat) (x : Core) : (s.setCore d c x).feLost = s.feLost := rfl
@[simp] theorem State.setCore_fuses (s : State) (d c : Nat) (x : Core) : (s.setCore d c x).fuses = s.fuses := rfl
@[simp] theorem State.setCore_images (s : State) (d c : Nat) (x : Core) : (s.setCore d c x).images = s.images := rfl
@[simp] theorem State.setCore_measure (s : State) (d c : Nat) (x : Core) : (s.setCore d c x).measure = s.measure := rfl
@[simp] theorem State.setCore_remote (s : State) (d c : Nat) (x : Core) : (s.setCore d c x).remote = s.remote := rfl
@[simp] theorem State.setCore_quotes (s : State) (d c : Nat) (x : Core) : (s.setCore d c x).quotes = s.quotes := rfl
@[simp] theorem State.setCore_hostReads (s : State) (d c : Nat) (x : Core) : (s.setCore d c x).hostReads = s.hostReads := rfl
@[simp] theorem State.setCore_keys (s : State) (d c : Nat) (x : Core) : (s.setCore d c x).keys = s.keys := rfl
@[simp] theorem State.setCore_hostErr (s : State) (d c : Nat) (x : Core) : (s.setCore d c x).hostErr = s.hostErr := rfl
@[simp] theorem State.setCore_moved (s : State) (d c : Nat) (x : Core) : (s.setCore d c x).moved = s.moved := rfl
@[simp] theorem State.setCore_sights (s : State) (d c : Nat) (x : Core) : (s.setCore d c x).sights = s.sights := rfl
@[simp] theorem State.setCore_cbSeen (s : State) (d c : Nat) (x : Core) : (s.setCore d c x).cbSeen = s.cbSeen := rfl

/-! ### State.setDie -/

@[simp] theorem State.setDie_focus (s : State) (d : Nat) (x : Die) : (s.setDie d x).focus = s.focus := rfl
@[simp] theorem State.setDie_groups (s : State) (d : Nat) (x : Die) : (s.setDie d x).groups = s.groups := rfl
@[simp] theorem State.setDie_agenda (s : State) (d : Nat) (x : Die) : (s.setDie d x).agenda = s.agenda := rfl
@[simp] theorem State.setDie_tick (s : State) (d : Nat) (x : Die) : (s.setDie d x).tick = s.tick := rfl
@[simp] theorem State.setDie_changes (s : State) (d : Nat) (x : Die) : (s.setDie d x).changes = s.changes := rfl
@[simp] theorem State.setDie_nextId (s : State) (d : Nat) (x : Die) : (s.setDie d x).nextId = s.nextId := rfl
@[simp] theorem State.setDie_accs (s : State) (d : Nat) (x : Die) : (s.setDie d x).accs = s.accs := rfl
@[simp] theorem State.setDie_teams (s : State) (d : Nat) (x : Die) : (s.setDie d x).teams = s.teams := rfl
@[simp] theorem State.setDie_parts (s : State) (d : Nat) (x : Die) : (s.setDie d x).parts = s.parts := rfl
@[simp] theorem State.setDie_cores (s : State) (d : Nat) (x : Die) : (s.setDie d x).cores = s.cores := rfl
@[simp] theorem State.setDie_quads (s : State) (d : Nat) (x : Die) : (s.setDie d x).quads = s.quads := rfl
@[simp] theorem State.setDie_home (s : State) (d : Nat) (x : Die) : (s.setDie d x).home = s.home := rfl
@[simp] theorem State.setDie_lineClk (s : State) (d : Nat) (x : Die) : (s.setDie d x).lineClk = s.lineClk := rfl
@[simp] theorem State.setDie_lineBy (s : State) (d : Nat) (x : Die) : (s.setDie d x).lineBy = s.lineBy := rfl
@[simp] theorem State.setDie_host (s : State) (d : Nat) (x : Die) : (s.setDie d x).host = s.host := rfl
@[simp] theorem State.setDie_hostWr (s : State) (d : Nat) (x : Die) : (s.setDie d x).hostWr = s.hostWr := rfl
@[simp] theorem State.setDie_hostDone (s : State) (d : Nat) (x : Die) : (s.setDie d x).hostDone = s.hostDone := rfl
@[simp] theorem State.setDie_nets (s : State) (d : Nat) (x : Die) : (s.setDie d x).nets = s.nets := rfl
@[simp] theorem State.setDie_qmoves (s : State) (d : Nat) (x : Die) : (s.setDie d x).qmoves = s.qmoves := rfl
@[simp] theorem State.setDie_qhomes (s : State) (d : Nat) (x : Die) : (s.setDie d x).qhomes = s.qhomes := rfl
@[simp] theorem State.setDie_cmds (s : State) (d : Nat) (x : Die) : (s.setDie d x).cmds = s.cmds := rfl
@[simp] theorem State.setDie_mxops (s : State) (d : Nat) (x : Die) : (s.setDie d x).mxops = s.mxops := rfl
@[simp] theorem State.setDie_contexts (s : State) (d : Nat) (x : Die) : (s.setDie d x).contexts = s.contexts := rfl
@[simp] theorem State.setDie_launches (s : State) (d : Nat) (x : Die) : (s.setDie d x).launches = s.launches := rfl
@[simp] theorem State.setDie_workqs (s : State) (d : Nat) (x : Die) : (s.setDie d x).workqs = s.workqs := rfl
@[simp] theorem State.setDie_transl (s : State) (d : Nat) (x : Die) : (s.setDie d x).transl = s.transl := rfl
@[simp] theorem State.setDie_gtb (s : State) (d : Nat) (x : Die) : (s.setDie d x).gtb = s.gtb := rfl
@[simp] theorem State.setDie_pdefer (s : State) (d : Nat) (x : Die) : (s.setDie d x).pdefer = s.pdefer := rfl
@[simp] theorem State.setDie_pwrcap (s : State) (d : Nat) (x : Die) : (s.setDie d x).pwrcap = s.pwrcap := rfl
@[simp] theorem State.setDie_ppeak (s : State) (d : Nat) (x : Die) : (s.setDie d x).ppeak = s.ppeak := rfl
@[simp] theorem State.setDie_psust (s : State) (d : Nat) (x : Die) : (s.setDie d x).psust = s.psust := rfl
@[simp] theorem State.setDie_power (s : State) (d : Nat) (x : Die) : (s.setDie d x).power = s.power := rfl
@[simp] theorem State.setDie_ffac (s : State) (d : Nat) (x : Die) : (s.setDie d x).ffac = s.ffac := rfl
@[simp] theorem State.setDie_powerAt (s : State) (d : Nat) (x : Die) : (s.setDie d x).powerAt = s.powerAt := rfl
@[simp] theorem State.setDie_energyAt (s : State) (d : Nat) (x : Die) : (s.setDie d x).energyAt = s.energyAt := rfl
@[simp] theorem State.setDie_hostlim (s : State) (d : Nat) (x : Die) : (s.setDie d x).hostlim = s.hostlim := rfl
@[simp] theorem State.setDie_pkg (s : State) (d : Nat) (x : Die) : (s.setDie d x).pkg = s.pkg := rfl
@[simp] theorem State.setDie_lost (s : State) (d : Nat) (x : Die) : (s.setDie d x).lost = s.lost := rfl
@[simp] theorem State.setDie_links (s : State) (d : Nat) (x : Die) : (s.setDie d x).links = s.links := rfl
@[simp] theorem State.setDie_upStep (s : State) (d : Nat) (x : Die) : (s.setDie d x).upStep = s.upStep := rfl
@[simp] theorem State.setDie_upFail (s : State) (d : Nat) (x : Die) : (s.setDie d x).upFail = s.upFail := rfl
@[simp] theorem State.setDie_cxlWidth (s : State) (d : Nat) (x : Die) : (s.setDie d x).cxlWidth = s.cxlWidth := rfl
@[simp] theorem State.setDie_feLost (s : State) (d : Nat) (x : Die) : (s.setDie d x).feLost = s.feLost := rfl
@[simp] theorem State.setDie_fuses (s : State) (d : Nat) (x : Die) : (s.setDie d x).fuses = s.fuses := rfl
@[simp] theorem State.setDie_images (s : State) (d : Nat) (x : Die) : (s.setDie d x).images = s.images := rfl
@[simp] theorem State.setDie_measure (s : State) (d : Nat) (x : Die) : (s.setDie d x).measure = s.measure := rfl
@[simp] theorem State.setDie_remote (s : State) (d : Nat) (x : Die) : (s.setDie d x).remote = s.remote := rfl
@[simp] theorem State.setDie_quotes (s : State) (d : Nat) (x : Die) : (s.setDie d x).quotes = s.quotes := rfl
@[simp] theorem State.setDie_hostReads (s : State) (d : Nat) (x : Die) : (s.setDie d x).hostReads = s.hostReads := rfl
@[simp] theorem State.setDie_keys (s : State) (d : Nat) (x : Die) : (s.setDie d x).keys = s.keys := rfl
@[simp] theorem State.setDie_hostErr (s : State) (d : Nat) (x : Die) : (s.setDie d x).hostErr = s.hostErr := rfl
@[simp] theorem State.setDie_moved (s : State) (d : Nat) (x : Die) : (s.setDie d x).moved = s.moved := rfl
@[simp] theorem State.setDie_sights (s : State) (d : Nat) (x : Die) : (s.setDie d x).sights = s.sights := rfl
@[simp] theorem State.setDie_cbSeen (s : State) (d : Nat) (x : Die) : (s.setDie d x).cbSeen = s.cbSeen := rfl

/-! ### State.setView -/

@[simp] theorem State.setView_focus (s : State) (d : Nat) (v : View) : (s.setView d v).focus = s.focus := rfl
@[simp] theorem State.setView_groups (s : State) (d : Nat) (v : View) : (s.setView d v).groups = s.groups := rfl
@[simp] theorem State.setView_agenda (s : State) (d : Nat) (v : View) : (s.setView d v).agenda = s.agenda := rfl
@[simp] theorem State.setView_tick (s : State) (d : Nat) (v : View) : (s.setView d v).tick = s.tick := rfl
@[simp] theorem State.setView_changes (s : State) (d : Nat) (v : View) : (s.setView d v).changes = s.changes := rfl
@[simp] theorem State.setView_nextId (s : State) (d : Nat) (v : View) : (s.setView d v).nextId = s.nextId := rfl
@[simp] theorem State.setView_accs (s : State) (d : Nat) (v : View) : (s.setView d v).accs = s.accs := rfl
@[simp] theorem State.setView_teams (s : State) (d : Nat) (v : View) : (s.setView d v).teams = s.teams := rfl
@[simp] theorem State.setView_parts (s : State) (d : Nat) (v : View) : (s.setView d v).parts = s.parts := rfl
@[simp] theorem State.setView_cores (s : State) (d : Nat) (v : View) : (s.setView d v).cores = s.cores := rfl
@[simp] theorem State.setView_quads (s : State) (d : Nat) (v : View) : (s.setView d v).quads = s.quads := rfl
@[simp] theorem State.setView_home (s : State) (d : Nat) (v : View) : (s.setView d v).home = s.home := rfl
@[simp] theorem State.setView_lineClk (s : State) (d : Nat) (v : View) : (s.setView d v).lineClk = s.lineClk := rfl
@[simp] theorem State.setView_lineBy (s : State) (d : Nat) (v : View) : (s.setView d v).lineBy = s.lineBy := rfl
@[simp] theorem State.setView_host (s : State) (d : Nat) (v : View) : (s.setView d v).host = s.host := rfl
@[simp] theorem State.setView_hostWr (s : State) (d : Nat) (v : View) : (s.setView d v).hostWr = s.hostWr := rfl
@[simp] theorem State.setView_hostDone (s : State) (d : Nat) (v : View) : (s.setView d v).hostDone = s.hostDone := rfl
@[simp] theorem State.setView_nets (s : State) (d : Nat) (v : View) : (s.setView d v).nets = s.nets := rfl
@[simp] theorem State.setView_qmoves (s : State) (d : Nat) (v : View) : (s.setView d v).qmoves = s.qmoves := rfl
@[simp] theorem State.setView_qhomes (s : State) (d : Nat) (v : View) : (s.setView d v).qhomes = s.qhomes := rfl
@[simp] theorem State.setView_cmds (s : State) (d : Nat) (v : View) : (s.setView d v).cmds = s.cmds := rfl
@[simp] theorem State.setView_mxops (s : State) (d : Nat) (v : View) : (s.setView d v).mxops = s.mxops := rfl
@[simp] theorem State.setView_contexts (s : State) (d : Nat) (v : View) : (s.setView d v).contexts = s.contexts := rfl
@[simp] theorem State.setView_launches (s : State) (d : Nat) (v : View) : (s.setView d v).launches = s.launches := rfl
@[simp] theorem State.setView_workqs (s : State) (d : Nat) (v : View) : (s.setView d v).workqs = s.workqs := rfl
@[simp] theorem State.setView_transl (s : State) (d : Nat) (v : View) : (s.setView d v).transl = s.transl := rfl
@[simp] theorem State.setView_gtb (s : State) (d : Nat) (v : View) : (s.setView d v).gtb = s.gtb := rfl
@[simp] theorem State.setView_pdefer (s : State) (d : Nat) (v : View) : (s.setView d v).pdefer = s.pdefer := rfl
@[simp] theorem State.setView_pwrcap (s : State) (d : Nat) (v : View) : (s.setView d v).pwrcap = s.pwrcap := rfl
@[simp] theorem State.setView_ppeak (s : State) (d : Nat) (v : View) : (s.setView d v).ppeak = s.ppeak := rfl
@[simp] theorem State.setView_psust (s : State) (d : Nat) (v : View) : (s.setView d v).psust = s.psust := rfl
@[simp] theorem State.setView_power (s : State) (d : Nat) (v : View) : (s.setView d v).power = s.power := rfl
@[simp] theorem State.setView_ffac (s : State) (d : Nat) (v : View) : (s.setView d v).ffac = s.ffac := rfl
@[simp] theorem State.setView_powerAt (s : State) (d : Nat) (v : View) : (s.setView d v).powerAt = s.powerAt := rfl
@[simp] theorem State.setView_energyAt (s : State) (d : Nat) (v : View) : (s.setView d v).energyAt = s.energyAt := rfl
@[simp] theorem State.setView_hostlim (s : State) (d : Nat) (v : View) : (s.setView d v).hostlim = s.hostlim := rfl
@[simp] theorem State.setView_pkg (s : State) (d : Nat) (v : View) : (s.setView d v).pkg = s.pkg := rfl
@[simp] theorem State.setView_lost (s : State) (d : Nat) (v : View) : (s.setView d v).lost = s.lost := rfl
@[simp] theorem State.setView_links (s : State) (d : Nat) (v : View) : (s.setView d v).links = s.links := rfl
@[simp] theorem State.setView_upStep (s : State) (d : Nat) (v : View) : (s.setView d v).upStep = s.upStep := rfl
@[simp] theorem State.setView_upFail (s : State) (d : Nat) (v : View) : (s.setView d v).upFail = s.upFail := rfl
@[simp] theorem State.setView_cxlWidth (s : State) (d : Nat) (v : View) : (s.setView d v).cxlWidth = s.cxlWidth := rfl
@[simp] theorem State.setView_feLost (s : State) (d : Nat) (v : View) : (s.setView d v).feLost = s.feLost := rfl
@[simp] theorem State.setView_fuses (s : State) (d : Nat) (v : View) : (s.setView d v).fuses = s.fuses := rfl
@[simp] theorem State.setView_images (s : State) (d : Nat) (v : View) : (s.setView d v).images = s.images := rfl
@[simp] theorem State.setView_measure (s : State) (d : Nat) (v : View) : (s.setView d v).measure = s.measure := rfl
@[simp] theorem State.setView_remote (s : State) (d : Nat) (v : View) : (s.setView d v).remote = s.remote := rfl
@[simp] theorem State.setView_quotes (s : State) (d : Nat) (v : View) : (s.setView d v).quotes = s.quotes := rfl
@[simp] theorem State.setView_hostReads (s : State) (d : Nat) (v : View) : (s.setView d v).hostReads = s.hostReads := rfl
@[simp] theorem State.setView_keys (s : State) (d : Nat) (v : View) : (s.setView d v).keys = s.keys := rfl
@[simp] theorem State.setView_hostErr (s : State) (d : Nat) (v : View) : (s.setView d v).hostErr = s.hostErr := rfl
@[simp] theorem State.setView_moved (s : State) (d : Nat) (v : View) : (s.setView d v).moved = s.moved := rfl
@[simp] theorem State.setView_sights (s : State) (d : Nat) (v : View) : (s.setView d v).sights = s.sights := rfl
@[simp] theorem State.setView_cbSeen (s : State) (d : Nat) (v : View) : (s.setView d v).cbSeen = s.cbSeen := rfl

/-! ### State.setQuad -/

@[simp] theorem State.setQuad_focus (s : State) (d q : Nat) (x : Quad) : (s.setQuad d q x).focus = s.focus := rfl
@[simp] theorem State.setQuad_groups (s : State) (d q : Nat) (x : Quad) : (s.setQuad d q x).groups = s.groups := rfl
@[simp] theorem State.setQuad_agenda (s : State) (d q : Nat) (x : Quad) : (s.setQuad d q x).agenda = s.agenda := rfl
@[simp] theorem State.setQuad_tick (s : State) (d q : Nat) (x : Quad) : (s.setQuad d q x).tick = s.tick := rfl
@[simp] theorem State.setQuad_changes (s : State) (d q : Nat) (x : Quad) : (s.setQuad d q x).changes = s.changes := rfl
@[simp] theorem State.setQuad_nextId (s : State) (d q : Nat) (x : Quad) : (s.setQuad d q x).nextId = s.nextId := rfl
@[simp] theorem State.setQuad_accs (s : State) (d q : Nat) (x : Quad) : (s.setQuad d q x).accs = s.accs := rfl
@[simp] theorem State.setQuad_teams (s : State) (d q : Nat) (x : Quad) : (s.setQuad d q x).teams = s.teams := rfl
@[simp] theorem State.setQuad_parts (s : State) (d q : Nat) (x : Quad) : (s.setQuad d q x).parts = s.parts := rfl
@[simp] theorem State.setQuad_cores (s : State) (d q : Nat) (x : Quad) : (s.setQuad d q x).cores = s.cores := rfl
@[simp] theorem State.setQuad_dies (s : State) (d q : Nat) (x : Quad) : (s.setQuad d q x).dies = s.dies := rfl
@[simp] theorem State.setQuad_home (s : State) (d q : Nat) (x : Quad) : (s.setQuad d q x).home = s.home := rfl
@[simp] theorem State.setQuad_lineClk (s : State) (d q : Nat) (x : Quad) : (s.setQuad d q x).lineClk = s.lineClk := rfl
@[simp] theorem State.setQuad_lineBy (s : State) (d q : Nat) (x : Quad) : (s.setQuad d q x).lineBy = s.lineBy := rfl
@[simp] theorem State.setQuad_host (s : State) (d q : Nat) (x : Quad) : (s.setQuad d q x).host = s.host := rfl
@[simp] theorem State.setQuad_hostWr (s : State) (d q : Nat) (x : Quad) : (s.setQuad d q x).hostWr = s.hostWr := rfl
@[simp] theorem State.setQuad_hostDone (s : State) (d q : Nat) (x : Quad) : (s.setQuad d q x).hostDone = s.hostDone := rfl
@[simp] theorem State.setQuad_nets (s : State) (d q : Nat) (x : Quad) : (s.setQuad d q x).nets = s.nets := rfl
@[simp] theorem State.setQuad_qmoves (s : State) (d q : Nat) (x : Quad) : (s.setQuad d q x).qmoves = s.qmoves := rfl
@[simp] theorem State.setQuad_qhomes (s : State) (d q : Nat) (x : Quad) : (s.setQuad d q x).qhomes = s.qhomes := rfl
@[simp] theorem State.setQuad_cmds (s : State) (d q : Nat) (x : Quad) : (s.setQuad d q x).cmds = s.cmds := rfl
@[simp] theorem State.setQuad_mxops (s : State) (d q : Nat) (x : Quad) : (s.setQuad d q x).mxops = s.mxops := rfl
@[simp] theorem State.setQuad_contexts (s : State) (d q : Nat) (x : Quad) : (s.setQuad d q x).contexts = s.contexts := rfl
@[simp] theorem State.setQuad_launches (s : State) (d q : Nat) (x : Quad) : (s.setQuad d q x).launches = s.launches := rfl
@[simp] theorem State.setQuad_workqs (s : State) (d q : Nat) (x : Quad) : (s.setQuad d q x).workqs = s.workqs := rfl
@[simp] theorem State.setQuad_transl (s : State) (d q : Nat) (x : Quad) : (s.setQuad d q x).transl = s.transl := rfl
@[simp] theorem State.setQuad_gtb (s : State) (d q : Nat) (x : Quad) : (s.setQuad d q x).gtb = s.gtb := rfl
@[simp] theorem State.setQuad_pdefer (s : State) (d q : Nat) (x : Quad) : (s.setQuad d q x).pdefer = s.pdefer := rfl
@[simp] theorem State.setQuad_pwrcap (s : State) (d q : Nat) (x : Quad) : (s.setQuad d q x).pwrcap = s.pwrcap := rfl
@[simp] theorem State.setQuad_ppeak (s : State) (d q : Nat) (x : Quad) : (s.setQuad d q x).ppeak = s.ppeak := rfl
@[simp] theorem State.setQuad_psust (s : State) (d q : Nat) (x : Quad) : (s.setQuad d q x).psust = s.psust := rfl
@[simp] theorem State.setQuad_power (s : State) (d q : Nat) (x : Quad) : (s.setQuad d q x).power = s.power := rfl
@[simp] theorem State.setQuad_ffac (s : State) (d q : Nat) (x : Quad) : (s.setQuad d q x).ffac = s.ffac := rfl
@[simp] theorem State.setQuad_powerAt (s : State) (d q : Nat) (x : Quad) : (s.setQuad d q x).powerAt = s.powerAt := rfl
@[simp] theorem State.setQuad_energyAt (s : State) (d q : Nat) (x : Quad) : (s.setQuad d q x).energyAt = s.energyAt := rfl
@[simp] theorem State.setQuad_hostlim (s : State) (d q : Nat) (x : Quad) : (s.setQuad d q x).hostlim = s.hostlim := rfl
@[simp] theorem State.setQuad_pkg (s : State) (d q : Nat) (x : Quad) : (s.setQuad d q x).pkg = s.pkg := rfl
@[simp] theorem State.setQuad_lost (s : State) (d q : Nat) (x : Quad) : (s.setQuad d q x).lost = s.lost := rfl
@[simp] theorem State.setQuad_links (s : State) (d q : Nat) (x : Quad) : (s.setQuad d q x).links = s.links := rfl
@[simp] theorem State.setQuad_upStep (s : State) (d q : Nat) (x : Quad) : (s.setQuad d q x).upStep = s.upStep := rfl
@[simp] theorem State.setQuad_upFail (s : State) (d q : Nat) (x : Quad) : (s.setQuad d q x).upFail = s.upFail := rfl
@[simp] theorem State.setQuad_cxlWidth (s : State) (d q : Nat) (x : Quad) : (s.setQuad d q x).cxlWidth = s.cxlWidth := rfl
@[simp] theorem State.setQuad_feLost (s : State) (d q : Nat) (x : Quad) : (s.setQuad d q x).feLost = s.feLost := rfl
@[simp] theorem State.setQuad_fuses (s : State) (d q : Nat) (x : Quad) : (s.setQuad d q x).fuses = s.fuses := rfl
@[simp] theorem State.setQuad_images (s : State) (d q : Nat) (x : Quad) : (s.setQuad d q x).images = s.images := rfl
@[simp] theorem State.setQuad_measure (s : State) (d q : Nat) (x : Quad) : (s.setQuad d q x).measure = s.measure := rfl
@[simp] theorem State.setQuad_remote (s : State) (d q : Nat) (x : Quad) : (s.setQuad d q x).remote = s.remote := rfl
@[simp] theorem State.setQuad_quotes (s : State) (d q : Nat) (x : Quad) : (s.setQuad d q x).quotes = s.quotes := rfl
@[simp] theorem State.setQuad_hostReads (s : State) (d q : Nat) (x : Quad) : (s.setQuad d q x).hostReads = s.hostReads := rfl
@[simp] theorem State.setQuad_keys (s : State) (d q : Nat) (x : Quad) : (s.setQuad d q x).keys = s.keys := rfl
@[simp] theorem State.setQuad_hostErr (s : State) (d q : Nat) (x : Quad) : (s.setQuad d q x).hostErr = s.hostErr := rfl
@[simp] theorem State.setQuad_moved (s : State) (d q : Nat) (x : Quad) : (s.setQuad d q x).moved = s.moved := rfl
@[simp] theorem State.setQuad_sights (s : State) (d q : Nat) (x : Quad) : (s.setQuad d q x).sights = s.sights := rfl
@[simp] theorem State.setQuad_cbSeen (s : State) (d q : Nat) (x : Quad) : (s.setQuad d q x).cbSeen = s.cbSeen := rfl

/-! ### State.setTeam -/

@[simp] theorem State.setTeam_focus (s : State) (x : Team) : (s.setTeam x).focus = s.focus := rfl
@[simp] theorem State.setTeam_groups (s : State) (x : Team) : (s.setTeam x).groups = s.groups := rfl
@[simp] theorem State.setTeam_agenda (s : State) (x : Team) : (s.setTeam x).agenda = s.agenda := rfl
@[simp] theorem State.setTeam_tick (s : State) (x : Team) : (s.setTeam x).tick = s.tick := rfl
@[simp] theorem State.setTeam_changes (s : State) (x : Team) : (s.setTeam x).changes = s.changes := rfl
@[simp] theorem State.setTeam_nextId (s : State) (x : Team) : (s.setTeam x).nextId = s.nextId := rfl
@[simp] theorem State.setTeam_accs (s : State) (x : Team) : (s.setTeam x).accs = s.accs := rfl
@[simp] theorem State.setTeam_parts (s : State) (x : Team) : (s.setTeam x).parts = s.parts := rfl
@[simp] theorem State.setTeam_cores (s : State) (x : Team) : (s.setTeam x).cores = s.cores := rfl
@[simp] theorem State.setTeam_quads (s : State) (x : Team) : (s.setTeam x).quads = s.quads := rfl
@[simp] theorem State.setTeam_dies (s : State) (x : Team) : (s.setTeam x).dies = s.dies := rfl
@[simp] theorem State.setTeam_home (s : State) (x : Team) : (s.setTeam x).home = s.home := rfl
@[simp] theorem State.setTeam_lineClk (s : State) (x : Team) : (s.setTeam x).lineClk = s.lineClk := rfl
@[simp] theorem State.setTeam_lineBy (s : State) (x : Team) : (s.setTeam x).lineBy = s.lineBy := rfl
@[simp] theorem State.setTeam_host (s : State) (x : Team) : (s.setTeam x).host = s.host := rfl
@[simp] theorem State.setTeam_hostWr (s : State) (x : Team) : (s.setTeam x).hostWr = s.hostWr := rfl
@[simp] theorem State.setTeam_hostDone (s : State) (x : Team) : (s.setTeam x).hostDone = s.hostDone := rfl
@[simp] theorem State.setTeam_nets (s : State) (x : Team) : (s.setTeam x).nets = s.nets := rfl
@[simp] theorem State.setTeam_qmoves (s : State) (x : Team) : (s.setTeam x).qmoves = s.qmoves := rfl
@[simp] theorem State.setTeam_qhomes (s : State) (x : Team) : (s.setTeam x).qhomes = s.qhomes := rfl
@[simp] theorem State.setTeam_cmds (s : State) (x : Team) : (s.setTeam x).cmds = s.cmds := rfl
@[simp] theorem State.setTeam_mxops (s : State) (x : Team) : (s.setTeam x).mxops = s.mxops := rfl
@[simp] theorem State.setTeam_contexts (s : State) (x : Team) : (s.setTeam x).contexts = s.contexts := rfl
@[simp] theorem State.setTeam_launches (s : State) (x : Team) : (s.setTeam x).launches = s.launches := rfl
@[simp] theorem State.setTeam_workqs (s : State) (x : Team) : (s.setTeam x).workqs = s.workqs := rfl
@[simp] theorem State.setTeam_transl (s : State) (x : Team) : (s.setTeam x).transl = s.transl := rfl
@[simp] theorem State.setTeam_gtb (s : State) (x : Team) : (s.setTeam x).gtb = s.gtb := rfl
@[simp] theorem State.setTeam_pdefer (s : State) (x : Team) : (s.setTeam x).pdefer = s.pdefer := rfl
@[simp] theorem State.setTeam_pwrcap (s : State) (x : Team) : (s.setTeam x).pwrcap = s.pwrcap := rfl
@[simp] theorem State.setTeam_ppeak (s : State) (x : Team) : (s.setTeam x).ppeak = s.ppeak := rfl
@[simp] theorem State.setTeam_psust (s : State) (x : Team) : (s.setTeam x).psust = s.psust := rfl
@[simp] theorem State.setTeam_power (s : State) (x : Team) : (s.setTeam x).power = s.power := rfl
@[simp] theorem State.setTeam_ffac (s : State) (x : Team) : (s.setTeam x).ffac = s.ffac := rfl
@[simp] theorem State.setTeam_powerAt (s : State) (x : Team) : (s.setTeam x).powerAt = s.powerAt := rfl
@[simp] theorem State.setTeam_energyAt (s : State) (x : Team) : (s.setTeam x).energyAt = s.energyAt := rfl
@[simp] theorem State.setTeam_hostlim (s : State) (x : Team) : (s.setTeam x).hostlim = s.hostlim := rfl
@[simp] theorem State.setTeam_pkg (s : State) (x : Team) : (s.setTeam x).pkg = s.pkg := rfl
@[simp] theorem State.setTeam_lost (s : State) (x : Team) : (s.setTeam x).lost = s.lost := rfl
@[simp] theorem State.setTeam_links (s : State) (x : Team) : (s.setTeam x).links = s.links := rfl
@[simp] theorem State.setTeam_upStep (s : State) (x : Team) : (s.setTeam x).upStep = s.upStep := rfl
@[simp] theorem State.setTeam_upFail (s : State) (x : Team) : (s.setTeam x).upFail = s.upFail := rfl
@[simp] theorem State.setTeam_cxlWidth (s : State) (x : Team) : (s.setTeam x).cxlWidth = s.cxlWidth := rfl
@[simp] theorem State.setTeam_feLost (s : State) (x : Team) : (s.setTeam x).feLost = s.feLost := rfl
@[simp] theorem State.setTeam_fuses (s : State) (x : Team) : (s.setTeam x).fuses = s.fuses := rfl
@[simp] theorem State.setTeam_images (s : State) (x : Team) : (s.setTeam x).images = s.images := rfl
@[simp] theorem State.setTeam_measure (s : State) (x : Team) : (s.setTeam x).measure = s.measure := rfl
@[simp] theorem State.setTeam_remote (s : State) (x : Team) : (s.setTeam x).remote = s.remote := rfl
@[simp] theorem State.setTeam_quotes (s : State) (x : Team) : (s.setTeam x).quotes = s.quotes := rfl
@[simp] theorem State.setTeam_hostReads (s : State) (x : Team) : (s.setTeam x).hostReads = s.hostReads := rfl
@[simp] theorem State.setTeam_keys (s : State) (x : Team) : (s.setTeam x).keys = s.keys := rfl
@[simp] theorem State.setTeam_hostErr (s : State) (x : Team) : (s.setTeam x).hostErr = s.hostErr := rfl
@[simp] theorem State.setTeam_moved (s : State) (x : Team) : (s.setTeam x).moved = s.moved := rfl
@[simp] theorem State.setTeam_sights (s : State) (x : Team) : (s.setTeam x).sights = s.sights := rfl
@[simp] theorem State.setTeam_cbSeen (s : State) (x : Team) : (s.setTeam x).cbSeen = s.cbSeen := rfl

/-! ### State.setCtx -/

@[simp] theorem State.setCtx_focus (s : State) (x : Context) : (s.setCtx x).focus = s.focus := rfl
@[simp] theorem State.setCtx_groups (s : State) (x : Context) : (s.setCtx x).groups = s.groups := rfl
@[simp] theorem State.setCtx_agenda (s : State) (x : Context) : (s.setCtx x).agenda = s.agenda := rfl
@[simp] theorem State.setCtx_tick (s : State) (x : Context) : (s.setCtx x).tick = s.tick := rfl
@[simp] theorem State.setCtx_changes (s : State) (x : Context) : (s.setCtx x).changes = s.changes := rfl
@[simp] theorem State.setCtx_nextId (s : State) (x : Context) : (s.setCtx x).nextId = s.nextId := rfl
@[simp] theorem State.setCtx_accs (s : State) (x : Context) : (s.setCtx x).accs = s.accs := rfl
@[simp] theorem State.setCtx_teams (s : State) (x : Context) : (s.setCtx x).teams = s.teams := rfl
@[simp] theorem State.setCtx_parts (s : State) (x : Context) : (s.setCtx x).parts = s.parts := rfl
@[simp] theorem State.setCtx_cores (s : State) (x : Context) : (s.setCtx x).cores = s.cores := rfl
@[simp] theorem State.setCtx_quads (s : State) (x : Context) : (s.setCtx x).quads = s.quads := rfl
@[simp] theorem State.setCtx_dies (s : State) (x : Context) : (s.setCtx x).dies = s.dies := rfl
@[simp] theorem State.setCtx_home (s : State) (x : Context) : (s.setCtx x).home = s.home := rfl
@[simp] theorem State.setCtx_lineClk (s : State) (x : Context) : (s.setCtx x).lineClk = s.lineClk := rfl
@[simp] theorem State.setCtx_lineBy (s : State) (x : Context) : (s.setCtx x).lineBy = s.lineBy := rfl
@[simp] theorem State.setCtx_host (s : State) (x : Context) : (s.setCtx x).host = s.host := rfl
@[simp] theorem State.setCtx_hostWr (s : State) (x : Context) : (s.setCtx x).hostWr = s.hostWr := rfl
@[simp] theorem State.setCtx_hostDone (s : State) (x : Context) : (s.setCtx x).hostDone = s.hostDone := rfl
@[simp] theorem State.setCtx_nets (s : State) (x : Context) : (s.setCtx x).nets = s.nets := rfl
@[simp] theorem State.setCtx_qmoves (s : State) (x : Context) : (s.setCtx x).qmoves = s.qmoves := rfl
@[simp] theorem State.setCtx_qhomes (s : State) (x : Context) : (s.setCtx x).qhomes = s.qhomes := rfl
@[simp] theorem State.setCtx_cmds (s : State) (x : Context) : (s.setCtx x).cmds = s.cmds := rfl
@[simp] theorem State.setCtx_mxops (s : State) (x : Context) : (s.setCtx x).mxops = s.mxops := rfl
@[simp] theorem State.setCtx_launches (s : State) (x : Context) : (s.setCtx x).launches = s.launches := rfl
@[simp] theorem State.setCtx_workqs (s : State) (x : Context) : (s.setCtx x).workqs = s.workqs := rfl
@[simp] theorem State.setCtx_transl (s : State) (x : Context) : (s.setCtx x).transl = s.transl := rfl
@[simp] theorem State.setCtx_gtb (s : State) (x : Context) : (s.setCtx x).gtb = s.gtb := rfl
@[simp] theorem State.setCtx_pdefer (s : State) (x : Context) : (s.setCtx x).pdefer = s.pdefer := rfl
@[simp] theorem State.setCtx_pwrcap (s : State) (x : Context) : (s.setCtx x).pwrcap = s.pwrcap := rfl
@[simp] theorem State.setCtx_ppeak (s : State) (x : Context) : (s.setCtx x).ppeak = s.ppeak := rfl
@[simp] theorem State.setCtx_psust (s : State) (x : Context) : (s.setCtx x).psust = s.psust := rfl
@[simp] theorem State.setCtx_power (s : State) (x : Context) : (s.setCtx x).power = s.power := rfl
@[simp] theorem State.setCtx_ffac (s : State) (x : Context) : (s.setCtx x).ffac = s.ffac := rfl
@[simp] theorem State.setCtx_powerAt (s : State) (x : Context) : (s.setCtx x).powerAt = s.powerAt := rfl
@[simp] theorem State.setCtx_energyAt (s : State) (x : Context) : (s.setCtx x).energyAt = s.energyAt := rfl
@[simp] theorem State.setCtx_hostlim (s : State) (x : Context) : (s.setCtx x).hostlim = s.hostlim := rfl
@[simp] theorem State.setCtx_pkg (s : State) (x : Context) : (s.setCtx x).pkg = s.pkg := rfl
@[simp] theorem State.setCtx_lost (s : State) (x : Context) : (s.setCtx x).lost = s.lost := rfl
@[simp] theorem State.setCtx_links (s : State) (x : Context) : (s.setCtx x).links = s.links := rfl
@[simp] theorem State.setCtx_upStep (s : State) (x : Context) : (s.setCtx x).upStep = s.upStep := rfl
@[simp] theorem State.setCtx_upFail (s : State) (x : Context) : (s.setCtx x).upFail = s.upFail := rfl
@[simp] theorem State.setCtx_cxlWidth (s : State) (x : Context) : (s.setCtx x).cxlWidth = s.cxlWidth := rfl
@[simp] theorem State.setCtx_feLost (s : State) (x : Context) : (s.setCtx x).feLost = s.feLost := rfl
@[simp] theorem State.setCtx_fuses (s : State) (x : Context) : (s.setCtx x).fuses = s.fuses := rfl
@[simp] theorem State.setCtx_images (s : State) (x : Context) : (s.setCtx x).images = s.images := rfl
@[simp] theorem State.setCtx_measure (s : State) (x : Context) : (s.setCtx x).measure = s.measure := rfl
@[simp] theorem State.setCtx_remote (s : State) (x : Context) : (s.setCtx x).remote = s.remote := rfl
@[simp] theorem State.setCtx_quotes (s : State) (x : Context) : (s.setCtx x).quotes = s.quotes := rfl
@[simp] theorem State.setCtx_hostReads (s : State) (x : Context) : (s.setCtx x).hostReads = s.hostReads := rfl
@[simp] theorem State.setCtx_keys (s : State) (x : Context) : (s.setCtx x).keys = s.keys := rfl
@[simp] theorem State.setCtx_hostErr (s : State) (x : Context) : (s.setCtx x).hostErr = s.hostErr := rfl
@[simp] theorem State.setCtx_moved (s : State) (x : Context) : (s.setCtx x).moved = s.moved := rfl
@[simp] theorem State.setCtx_sights (s : State) (x : Context) : (s.setCtx x).sights = s.sights := rfl
@[simp] theorem State.setCtx_cbSeen (s : State) (x : Context) : (s.setCtx x).cbSeen = s.cbSeen := rfl

/-! ### State.setLaunch -/

@[simp] theorem State.setLaunch_focus (s : State) (x : Launch) : (s.setLaunch x).focus = s.focus := rfl
@[simp] theorem State.setLaunch_groups (s : State) (x : Launch) : (s.setLaunch x).groups = s.groups := rfl
@[simp] theorem State.setLaunch_agenda (s : State) (x : Launch) : (s.setLaunch x).agenda = s.agenda := rfl
@[simp] theorem State.setLaunch_tick (s : State) (x : Launch) : (s.setLaunch x).tick = s.tick := rfl
@[simp] theorem State.setLaunch_changes (s : State) (x : Launch) : (s.setLaunch x).changes = s.changes := rfl
@[simp] theorem State.setLaunch_nextId (s : State) (x : Launch) : (s.setLaunch x).nextId = s.nextId := rfl
@[simp] theorem State.setLaunch_accs (s : State) (x : Launch) : (s.setLaunch x).accs = s.accs := rfl
@[simp] theorem State.setLaunch_teams (s : State) (x : Launch) : (s.setLaunch x).teams = s.teams := rfl
@[simp] theorem State.setLaunch_parts (s : State) (x : Launch) : (s.setLaunch x).parts = s.parts := rfl
@[simp] theorem State.setLaunch_cores (s : State) (x : Launch) : (s.setLaunch x).cores = s.cores := rfl
@[simp] theorem State.setLaunch_quads (s : State) (x : Launch) : (s.setLaunch x).quads = s.quads := rfl
@[simp] theorem State.setLaunch_dies (s : State) (x : Launch) : (s.setLaunch x).dies = s.dies := rfl
@[simp] theorem State.setLaunch_home (s : State) (x : Launch) : (s.setLaunch x).home = s.home := rfl
@[simp] theorem State.setLaunch_lineClk (s : State) (x : Launch) : (s.setLaunch x).lineClk = s.lineClk := rfl
@[simp] theorem State.setLaunch_lineBy (s : State) (x : Launch) : (s.setLaunch x).lineBy = s.lineBy := rfl
@[simp] theorem State.setLaunch_host (s : State) (x : Launch) : (s.setLaunch x).host = s.host := rfl
@[simp] theorem State.setLaunch_hostWr (s : State) (x : Launch) : (s.setLaunch x).hostWr = s.hostWr := rfl
@[simp] theorem State.setLaunch_hostDone (s : State) (x : Launch) : (s.setLaunch x).hostDone = s.hostDone := rfl
@[simp] theorem State.setLaunch_nets (s : State) (x : Launch) : (s.setLaunch x).nets = s.nets := rfl
@[simp] theorem State.setLaunch_qmoves (s : State) (x : Launch) : (s.setLaunch x).qmoves = s.qmoves := rfl
@[simp] theorem State.setLaunch_qhomes (s : State) (x : Launch) : (s.setLaunch x).qhomes = s.qhomes := rfl
@[simp] theorem State.setLaunch_cmds (s : State) (x : Launch) : (s.setLaunch x).cmds = s.cmds := rfl
@[simp] theorem State.setLaunch_mxops (s : State) (x : Launch) : (s.setLaunch x).mxops = s.mxops := rfl
@[simp] theorem State.setLaunch_contexts (s : State) (x : Launch) : (s.setLaunch x).contexts = s.contexts := rfl
@[simp] theorem State.setLaunch_workqs (s : State) (x : Launch) : (s.setLaunch x).workqs = s.workqs := rfl
@[simp] theorem State.setLaunch_transl (s : State) (x : Launch) : (s.setLaunch x).transl = s.transl := rfl
@[simp] theorem State.setLaunch_gtb (s : State) (x : Launch) : (s.setLaunch x).gtb = s.gtb := rfl
@[simp] theorem State.setLaunch_pdefer (s : State) (x : Launch) : (s.setLaunch x).pdefer = s.pdefer := rfl
@[simp] theorem State.setLaunch_pwrcap (s : State) (x : Launch) : (s.setLaunch x).pwrcap = s.pwrcap := rfl
@[simp] theorem State.setLaunch_ppeak (s : State) (x : Launch) : (s.setLaunch x).ppeak = s.ppeak := rfl
@[simp] theorem State.setLaunch_psust (s : State) (x : Launch) : (s.setLaunch x).psust = s.psust := rfl
@[simp] theorem State.setLaunch_power (s : State) (x : Launch) : (s.setLaunch x).power = s.power := rfl
@[simp] theorem State.setLaunch_ffac (s : State) (x : Launch) : (s.setLaunch x).ffac = s.ffac := rfl
@[simp] theorem State.setLaunch_powerAt (s : State) (x : Launch) : (s.setLaunch x).powerAt = s.powerAt := rfl
@[simp] theorem State.setLaunch_energyAt (s : State) (x : Launch) : (s.setLaunch x).energyAt = s.energyAt := rfl
@[simp] theorem State.setLaunch_hostlim (s : State) (x : Launch) : (s.setLaunch x).hostlim = s.hostlim := rfl
@[simp] theorem State.setLaunch_pkg (s : State) (x : Launch) : (s.setLaunch x).pkg = s.pkg := rfl
@[simp] theorem State.setLaunch_lost (s : State) (x : Launch) : (s.setLaunch x).lost = s.lost := rfl
@[simp] theorem State.setLaunch_links (s : State) (x : Launch) : (s.setLaunch x).links = s.links := rfl
@[simp] theorem State.setLaunch_upStep (s : State) (x : Launch) : (s.setLaunch x).upStep = s.upStep := rfl
@[simp] theorem State.setLaunch_upFail (s : State) (x : Launch) : (s.setLaunch x).upFail = s.upFail := rfl
@[simp] theorem State.setLaunch_cxlWidth (s : State) (x : Launch) : (s.setLaunch x).cxlWidth = s.cxlWidth := rfl
@[simp] theorem State.setLaunch_feLost (s : State) (x : Launch) : (s.setLaunch x).feLost = s.feLost := rfl
@[simp] theorem State.setLaunch_fuses (s : State) (x : Launch) : (s.setLaunch x).fuses = s.fuses := rfl
@[simp] theorem State.setLaunch_images (s : State) (x : Launch) : (s.setLaunch x).images = s.images := rfl
@[simp] theorem State.setLaunch_measure (s : State) (x : Launch) : (s.setLaunch x).measure = s.measure := rfl
@[simp] theorem State.setLaunch_remote (s : State) (x : Launch) : (s.setLaunch x).remote = s.remote := rfl
@[simp] theorem State.setLaunch_quotes (s : State) (x : Launch) : (s.setLaunch x).quotes = s.quotes := rfl
@[simp] theorem State.setLaunch_hostReads (s : State) (x : Launch) : (s.setLaunch x).hostReads = s.hostReads := rfl
@[simp] theorem State.setLaunch_keys (s : State) (x : Launch) : (s.setLaunch x).keys = s.keys := rfl
@[simp] theorem State.setLaunch_hostErr (s : State) (x : Launch) : (s.setLaunch x).hostErr = s.hostErr := rfl
@[simp] theorem State.setLaunch_moved (s : State) (x : Launch) : (s.setLaunch x).moved = s.moved := rfl
@[simp] theorem State.setLaunch_sights (s : State) (x : Launch) : (s.setLaunch x).sights = s.sights := rfl
@[simp] theorem State.setLaunch_cbSeen (s : State) (x : Launch) : (s.setLaunch x).cbSeen = s.cbSeen := rfl

/-! ### State.setAcc -/

@[simp] theorem State.setAcc_focus (s : State) (a : Acc) : (s.setAcc a).focus = s.focus := rfl
@[simp] theorem State.setAcc_groups (s : State) (a : Acc) : (s.setAcc a).groups = s.groups := rfl
@[simp] theorem State.setAcc_agenda (s : State) (a : Acc) : (s.setAcc a).agenda = s.agenda := rfl
@[simp] theorem State.setAcc_tick (s : State) (a : Acc) : (s.setAcc a).tick = s.tick := rfl
@[simp] theorem State.setAcc_changes (s : State) (a : Acc) : (s.setAcc a).changes = s.changes := rfl
@[simp] theorem State.setAcc_nextId (s : State) (a : Acc) : (s.setAcc a).nextId = s.nextId := rfl
@[simp] theorem State.setAcc_teams (s : State) (a : Acc) : (s.setAcc a).teams = s.teams := rfl
@[simp] theorem State.setAcc_parts (s : State) (a : Acc) : (s.setAcc a).parts = s.parts := rfl
@[simp] theorem State.setAcc_cores (s : State) (a : Acc) : (s.setAcc a).cores = s.cores := rfl
@[simp] theorem State.setAcc_quads (s : State) (a : Acc) : (s.setAcc a).quads = s.quads := rfl
@[simp] theorem State.setAcc_dies (s : State) (a : Acc) : (s.setAcc a).dies = s.dies := rfl
@[simp] theorem State.setAcc_home (s : State) (a : Acc) : (s.setAcc a).home = s.home := rfl
@[simp] theorem State.setAcc_lineClk (s : State) (a : Acc) : (s.setAcc a).lineClk = s.lineClk := rfl
@[simp] theorem State.setAcc_lineBy (s : State) (a : Acc) : (s.setAcc a).lineBy = s.lineBy := rfl
@[simp] theorem State.setAcc_host (s : State) (a : Acc) : (s.setAcc a).host = s.host := rfl
@[simp] theorem State.setAcc_hostWr (s : State) (a : Acc) : (s.setAcc a).hostWr = s.hostWr := rfl
@[simp] theorem State.setAcc_hostDone (s : State) (a : Acc) : (s.setAcc a).hostDone = s.hostDone := rfl
@[simp] theorem State.setAcc_nets (s : State) (a : Acc) : (s.setAcc a).nets = s.nets := rfl
@[simp] theorem State.setAcc_qmoves (s : State) (a : Acc) : (s.setAcc a).qmoves = s.qmoves := rfl
@[simp] theorem State.setAcc_qhomes (s : State) (a : Acc) : (s.setAcc a).qhomes = s.qhomes := rfl
@[simp] theorem State.setAcc_cmds (s : State) (a : Acc) : (s.setAcc a).cmds = s.cmds := rfl
@[simp] theorem State.setAcc_mxops (s : State) (a : Acc) : (s.setAcc a).mxops = s.mxops := rfl
@[simp] theorem State.setAcc_contexts (s : State) (a : Acc) : (s.setAcc a).contexts = s.contexts := rfl
@[simp] theorem State.setAcc_launches (s : State) (a : Acc) : (s.setAcc a).launches = s.launches := rfl
@[simp] theorem State.setAcc_workqs (s : State) (a : Acc) : (s.setAcc a).workqs = s.workqs := rfl
@[simp] theorem State.setAcc_transl (s : State) (a : Acc) : (s.setAcc a).transl = s.transl := rfl
@[simp] theorem State.setAcc_gtb (s : State) (a : Acc) : (s.setAcc a).gtb = s.gtb := rfl
@[simp] theorem State.setAcc_pdefer (s : State) (a : Acc) : (s.setAcc a).pdefer = s.pdefer := rfl
@[simp] theorem State.setAcc_pwrcap (s : State) (a : Acc) : (s.setAcc a).pwrcap = s.pwrcap := rfl
@[simp] theorem State.setAcc_ppeak (s : State) (a : Acc) : (s.setAcc a).ppeak = s.ppeak := rfl
@[simp] theorem State.setAcc_psust (s : State) (a : Acc) : (s.setAcc a).psust = s.psust := rfl
@[simp] theorem State.setAcc_power (s : State) (a : Acc) : (s.setAcc a).power = s.power := rfl
@[simp] theorem State.setAcc_ffac (s : State) (a : Acc) : (s.setAcc a).ffac = s.ffac := rfl
@[simp] theorem State.setAcc_powerAt (s : State) (a : Acc) : (s.setAcc a).powerAt = s.powerAt := rfl
@[simp] theorem State.setAcc_energyAt (s : State) (a : Acc) : (s.setAcc a).energyAt = s.energyAt := rfl
@[simp] theorem State.setAcc_hostlim (s : State) (a : Acc) : (s.setAcc a).hostlim = s.hostlim := rfl
@[simp] theorem State.setAcc_pkg (s : State) (a : Acc) : (s.setAcc a).pkg = s.pkg := rfl
@[simp] theorem State.setAcc_lost (s : State) (a : Acc) : (s.setAcc a).lost = s.lost := rfl
@[simp] theorem State.setAcc_links (s : State) (a : Acc) : (s.setAcc a).links = s.links := rfl
@[simp] theorem State.setAcc_upStep (s : State) (a : Acc) : (s.setAcc a).upStep = s.upStep := rfl
@[simp] theorem State.setAcc_upFail (s : State) (a : Acc) : (s.setAcc a).upFail = s.upFail := rfl
@[simp] theorem State.setAcc_cxlWidth (s : State) (a : Acc) : (s.setAcc a).cxlWidth = s.cxlWidth := rfl
@[simp] theorem State.setAcc_feLost (s : State) (a : Acc) : (s.setAcc a).feLost = s.feLost := rfl
@[simp] theorem State.setAcc_fuses (s : State) (a : Acc) : (s.setAcc a).fuses = s.fuses := rfl
@[simp] theorem State.setAcc_images (s : State) (a : Acc) : (s.setAcc a).images = s.images := rfl
@[simp] theorem State.setAcc_measure (s : State) (a : Acc) : (s.setAcc a).measure = s.measure := rfl
@[simp] theorem State.setAcc_remote (s : State) (a : Acc) : (s.setAcc a).remote = s.remote := rfl
@[simp] theorem State.setAcc_quotes (s : State) (a : Acc) : (s.setAcc a).quotes = s.quotes := rfl
@[simp] theorem State.setAcc_hostReads (s : State) (a : Acc) : (s.setAcc a).hostReads = s.hostReads := rfl
@[simp] theorem State.setAcc_keys (s : State) (a : Acc) : (s.setAcc a).keys = s.keys := rfl
@[simp] theorem State.setAcc_hostErr (s : State) (a : Acc) : (s.setAcc a).hostErr = s.hostErr := rfl
@[simp] theorem State.setAcc_moved (s : State) (a : Acc) : (s.setAcc a).moved = s.moved := rfl
@[simp] theorem State.setAcc_sights (s : State) (a : Acc) : (s.setAcc a).sights = s.sights := rfl
@[simp] theorem State.setAcc_cbSeen (s : State) (a : Acc) : (s.setAcc a).cbSeen = s.cbSeen := rfl

/-! ### State.addAcc -/

@[simp] theorem State.addAcc_focus (s : State) (a : Acc) : (s.addAcc a).focus = s.focus := rfl
@[simp] theorem State.addAcc_groups (s : State) (a : Acc) : (s.addAcc a).groups = s.groups := rfl
@[simp] theorem State.addAcc_agenda (s : State) (a : Acc) : (s.addAcc a).agenda = s.agenda := rfl
@[simp] theorem State.addAcc_tick (s : State) (a : Acc) : (s.addAcc a).tick = s.tick := rfl
@[simp] theorem State.addAcc_changes (s : State) (a : Acc) : (s.addAcc a).changes = s.changes := rfl
@[simp] theorem State.addAcc_teams (s : State) (a : Acc) : (s.addAcc a).teams = s.teams := rfl
@[simp] theorem State.addAcc_parts (s : State) (a : Acc) : (s.addAcc a).parts = s.parts := rfl
@[simp] theorem State.addAcc_cores (s : State) (a : Acc) : (s.addAcc a).cores = s.cores := rfl
@[simp] theorem State.addAcc_quads (s : State) (a : Acc) : (s.addAcc a).quads = s.quads := rfl
@[simp] theorem State.addAcc_dies (s : State) (a : Acc) : (s.addAcc a).dies = s.dies := rfl
@[simp] theorem State.addAcc_home (s : State) (a : Acc) : (s.addAcc a).home = s.home := rfl
@[simp] theorem State.addAcc_lineClk (s : State) (a : Acc) : (s.addAcc a).lineClk = s.lineClk := rfl
@[simp] theorem State.addAcc_lineBy (s : State) (a : Acc) : (s.addAcc a).lineBy = s.lineBy := rfl
@[simp] theorem State.addAcc_host (s : State) (a : Acc) : (s.addAcc a).host = s.host := rfl
@[simp] theorem State.addAcc_hostWr (s : State) (a : Acc) : (s.addAcc a).hostWr = s.hostWr := rfl
@[simp] theorem State.addAcc_hostDone (s : State) (a : Acc) : (s.addAcc a).hostDone = s.hostDone := rfl
@[simp] theorem State.addAcc_nets (s : State) (a : Acc) : (s.addAcc a).nets = s.nets := rfl
@[simp] theorem State.addAcc_qmoves (s : State) (a : Acc) : (s.addAcc a).qmoves = s.qmoves := rfl
@[simp] theorem State.addAcc_qhomes (s : State) (a : Acc) : (s.addAcc a).qhomes = s.qhomes := rfl
@[simp] theorem State.addAcc_cmds (s : State) (a : Acc) : (s.addAcc a).cmds = s.cmds := rfl
@[simp] theorem State.addAcc_mxops (s : State) (a : Acc) : (s.addAcc a).mxops = s.mxops := rfl
@[simp] theorem State.addAcc_contexts (s : State) (a : Acc) : (s.addAcc a).contexts = s.contexts := rfl
@[simp] theorem State.addAcc_launches (s : State) (a : Acc) : (s.addAcc a).launches = s.launches := rfl
@[simp] theorem State.addAcc_workqs (s : State) (a : Acc) : (s.addAcc a).workqs = s.workqs := rfl
@[simp] theorem State.addAcc_transl (s : State) (a : Acc) : (s.addAcc a).transl = s.transl := rfl
@[simp] theorem State.addAcc_gtb (s : State) (a : Acc) : (s.addAcc a).gtb = s.gtb := rfl
@[simp] theorem State.addAcc_pdefer (s : State) (a : Acc) : (s.addAcc a).pdefer = s.pdefer := rfl
@[simp] theorem State.addAcc_pwrcap (s : State) (a : Acc) : (s.addAcc a).pwrcap = s.pwrcap := rfl
@[simp] theorem State.addAcc_ppeak (s : State) (a : Acc) : (s.addAcc a).ppeak = s.ppeak := rfl
@[simp] theorem State.addAcc_psust (s : State) (a : Acc) : (s.addAcc a).psust = s.psust := rfl
@[simp] theorem State.addAcc_power (s : State) (a : Acc) : (s.addAcc a).power = s.power := rfl
@[simp] theorem State.addAcc_ffac (s : State) (a : Acc) : (s.addAcc a).ffac = s.ffac := rfl
@[simp] theorem State.addAcc_powerAt (s : State) (a : Acc) : (s.addAcc a).powerAt = s.powerAt := rfl
@[simp] theorem State.addAcc_energyAt (s : State) (a : Acc) : (s.addAcc a).energyAt = s.energyAt := rfl
@[simp] theorem State.addAcc_hostlim (s : State) (a : Acc) : (s.addAcc a).hostlim = s.hostlim := rfl
@[simp] theorem State.addAcc_pkg (s : State) (a : Acc) : (s.addAcc a).pkg = s.pkg := rfl
@[simp] theorem State.addAcc_lost (s : State) (a : Acc) : (s.addAcc a).lost = s.lost := rfl
@[simp] theorem State.addAcc_links (s : State) (a : Acc) : (s.addAcc a).links = s.links := rfl
@[simp] theorem State.addAcc_upStep (s : State) (a : Acc) : (s.addAcc a).upStep = s.upStep := rfl
@[simp] theorem State.addAcc_upFail (s : State) (a : Acc) : (s.addAcc a).upFail = s.upFail := rfl
@[simp] theorem State.addAcc_cxlWidth (s : State) (a : Acc) : (s.addAcc a).cxlWidth = s.cxlWidth := rfl
@[simp] theorem State.addAcc_feLost (s : State) (a : Acc) : (s.addAcc a).feLost = s.feLost := rfl
@[simp] theorem State.addAcc_fuses (s : State) (a : Acc) : (s.addAcc a).fuses = s.fuses := rfl
@[simp] theorem State.addAcc_images (s : State) (a : Acc) : (s.addAcc a).images = s.images := rfl
@[simp] theorem State.addAcc_measure (s : State) (a : Acc) : (s.addAcc a).measure = s.measure := rfl
@[simp] theorem State.addAcc_remote (s : State) (a : Acc) : (s.addAcc a).remote = s.remote := rfl
@[simp] theorem State.addAcc_quotes (s : State) (a : Acc) : (s.addAcc a).quotes = s.quotes := rfl
@[simp] theorem State.addAcc_hostReads (s : State) (a : Acc) : (s.addAcc a).hostReads = s.hostReads := rfl
@[simp] theorem State.addAcc_keys (s : State) (a : Acc) : (s.addAcc a).keys = s.keys := rfl
@[simp] theorem State.addAcc_hostErr (s : State) (a : Acc) : (s.addAcc a).hostErr = s.hostErr := rfl
@[simp] theorem State.addAcc_moved (s : State) (a : Acc) : (s.addAcc a).moved = s.moved := rfl
@[simp] theorem State.addAcc_sights (s : State) (a : Acc) : (s.addAcc a).sights = s.sights := rfl
@[simp] theorem State.addAcc_cbSeen (s : State) (a : Acc) : (s.addAcc a).cbSeen = s.cbSeen := rfl

/-! ### Lookups after an update -/

@[simp] theorem State.modG_focus (s : State) (f : Group → Group) : (s.modG f).focus = s.focus.map f := rfl

@[simp] theorem State.modG_some (s : State) (g : Group) (f : Group → Group) (h : s.focus = some g) :
    s.modG f = { s with focus := some (f g) } := by
  simp only [State.modG, h, Option.map_some]

@[simp] theorem State.die_setDie (s : State) (d : Nat) (x : Die) : (s.setDie d x).die d = x := SMap.get_set_self _ _ _ _

theorem State.die_setDie_ne (s : State) {d e : Nat} (x : Die) (h : e ≠ d) : (s.setDie d x).die e = s.die e :=
  SMap.get_set_ne _ _ _ h

theorem State.die_setDie_eq (s : State) (d e : Nat) (x : Die) : (s.setDie d x).die e = if e = d then x else s.die e :=
  SMap.get_set _ _ _ _ _

@[simp] theorem State.core_setCore (s : State) (d c : Nat) (x : Core) : (s.setCore d c x).core d c = x :=
  SMap.get_set_self _ _ _ _

@[simp] theorem State.quad_setQuad (s : State) (d q : Nat) (x : Quad) : (s.setQuad d q x).quad d q = x :=
  SMap.get_set_self _ _ _ _

@[simp] theorem State.partn_setPartn (s : State) (d c p : Nat) (x : Partn) : (s.setPartn d c p x).partn d c p = x :=
  SMap.get_set_self _ _ _ _

@[simp] theorem State.partOf_setPartOf (s : State) (g : Group) (x : Partn) : (s.setPartOf g x).partOf g = x :=
  SMap.get_set_self _ _ _ _

@[simp] theorem State.view_setView (s : State) (d : Nat) (v : View) : (s.setView d v).view d = v := by
  simp [State.view, State.setView]

theorem State.view_setView_ne (s : State) {d e : Nat} (v : View) (h : e ≠ d) : (s.setView d v).view e = s.view e := by
  simp [State.view, State.setView, State.die_setDie_ne s _ h]

/-! ### The group -/

@[simp] theorem Group.rdS_zero (g : Group) : g.rdS 0 = 0 := rfl
@[simp] theorem Group.rdK_zero (g : Group) : g.rdK 0 = g.wmask := rfl

/-- A write of an s register: the register reads the value, every other one as before; s0 stays 0 (R72, R102). -/
theorem Group.rdS_wrS (g : Group) (n m : Nat) (x : W64) :
    (g.wrS n x).rdS m = if m = n ∧ n ≠ 0 then x else g.rdS m := by
  unfold Group.wrS Group.rdS
  by_cases hn : n = 0
  · simp [hn]
  · by_cases hm : m = n
    · subst hm; simp [hn]
    · by_cases h0 : m = 0
      · have hz : ¬0 = n := fun e => hn e.symm
        simp [h0, hn, hz]
      · simp [hn, hm, h0, SMap.get_set_ne _ _ _ hm]

/-- A write of a k register: its own bits of the group's width; k0 is never written (R72, R206). -/
theorem Group.rdK_wrK (g : Group) (n m : Nat) (x : W32) :
    (g.wrK n x).rdK m = if m = n ∧ n ≠ 0 then x &&& g.wmask else g.rdK m := by
  unfold Group.wrK Group.rdK
  by_cases hn : n = 0
  · simp [hn]
  · by_cases hm : m = n
    · subst hm; simp [hn]
    · by_cases h0 : m = 0
      · have hz : ¬0 = n := fun e => hn e.symm
        simp [h0, hn, hz, Group.wmask]
      · simp [hn, hm, h0, SMap.get_set_ne _ _ _ hm]

theorem Group.laneV_setV (g : Group) (n l m j : Nat) (x : Lane) :
    (g.setV n l x).laneV m j = if m * 32 + j = n * 32 + l then x else g.laneV m j :=
  SMap.get_set _ _ _ _ _

@[simp] theorem Group.laneV_setV_self (g : Group) (n l : Nat) (x : Lane) : (g.setV n l x).laneV n l = x :=
  SMap.get_set_self _ _ _ _

/-- A write of an s register changes nothing else. -/
theorem Group.wrS_eq (g : Group) (n : Nat) (x : W64) : g.wrS n x = { g with s := (g.wrS n x).s } := by
  unfold Group.wrS; split <;> rfl

theorem Group.wrK_eq (g : Group) (n : Nat) (x : W32) : g.wrK n x = { g with k := (g.wrK n x).k } := by
  unfold Group.wrK; split <;> rfl

theorem Group.putS_eq (g : Group) (o : Opnd) (x : W64) : g.putS o x = { g with s := (g.putS o x).s } := by
  cases o <;> first | rfl | exact Group.wrS_eq _ _ _

theorem Group.putK_eq (g : Group) (o : Opnd) (x : W32) : g.putK o x = { g with k := (g.putK o x).k } := by
  cases o <;> first | rfl | exact Group.wrK_eq _ _ _

/-- Lanes written of a v register change nothing but v registers. -/
theorem Group.putLanes_eq (g : Group) (n : Nat) (w : Bool) (f : Nat → Nat) (ls : List Nat) :
    g.putLanes n w f ls = { g with v := (g.putLanes n w f ls).v } := by
  induction ls generalizing g with
  | nil => rfl
  | cons i r ih =>
    have e : g.putV n w i (f i) = { g with v := (g.putV n w i (f i)).v } := by
      unfold Group.putV; split <;> rfl
    unfold Group.putLanes
    rw [ih (g.putV n w i (f i))]
    rw [e]

/-- Moving on changes the position and the wait only. -/
theorem Group.advance_eq (g : Group) :
    g.advance = { g with hdr := g.advance.hdr, idx := g.advance.idx, clause := g.advance.clause,
                         entered := g.advance.entered, sleep := g.advance.sleep } := by
  unfold Group.advance; split <;> rfl

@[simp] theorem Group.advance_s (g : Group) : g.advance.s = g.s := by unfold Group.advance; split <;> rfl
@[simp] theorem Group.advance_v (g : Group) : g.advance.v = g.v := by unfold Group.advance; split <;> rfl
@[simp] theorem Group.advance_k (g : Group) : g.advance.k = g.k := by unfold Group.advance; split <;> rfl
@[simp] theorem Group.advance_x (g : Group) : g.advance.x = g.x := by unfold Group.advance; split <;> rfl
@[simp] theorem Group.advance_half (g : Group) : g.advance.half = g.half := by unfold Group.advance; split <;> rfl
@[simp] theorem Group.advance_rdS (g : Group) (n : Nat) : g.advance.rdS n = g.rdS n := by simp [Group.rdS]
@[simp] theorem Group.advance_rdK (g : Group) (n : Nat) : g.advance.rdK n = g.rdK n := by simp [Group.rdK, Group.wmask]
@[simp] theorem Group.advance_laneV (g : Group) (n l : Nat) : g.advance.laneV n l = g.laneV n l := by simp [Group.laneV]

end Sys2Proof.Machine
end

