-- ==== Sys2Proof/Laws/Ops.lean ====
section
/-!
SUPPORT. Laws of the shared operations: for each, once, everything it can do.
-/
namespace Sys2Proof.Machine

/-! ### Issue, completion, waits, faults -/

/-- An instruction of a selected group: it is held back, it faults at decode, or its body runs. -/
theorem issue_cases (i : Instr) (s : State) (body : Group → Out) :
    (s.focus = none ∧ issue i s body = .fault .noIssuer) ∨
    ∃ g, s.focus = some g ∧
      (((g.trap.isSome || g.stopped) = true ∧ issue i s body = .next s) ∨
       ((g.trap.isSome || g.stopped) = false ∧ ∃ c a, preFault s g i = some (c, a) ∧ issue i s body = raise s i c a 0 0) ∨
       (Ready s g i ∧ issue i s body = body g)) := by
  unfold issue
  cases hf : s.focus with
  | none => exact .inl ⟨rfl, rfl⟩
  | some g =>
    refine .inr ⟨g, rfl, ?_⟩
    by_cases ht : (g.trap.isSome || g.stopped) = true
    · exact .inl ⟨ht, by simp [ht]⟩
    · have ht' : (g.trap.isSome || g.stopped) = false := by simpa using ht
      cases hp : preFault s g i with
      | some ca => exact .inr (.inl ⟨ht', ca.1, ca.2, rfl, by simp [ht', hp]⟩)
      | none =>
        have h2 := Bool.or_eq_false_iff.mp ht'
        exact .inr (.inr ⟨⟨⟨hf, by simpa using h2.1, h2.2⟩, hp⟩, by simp [ht', hp]⟩)

/-- Of a group that may issue it, an instruction runs its body. -/
theorem issue_ready {s : State} {g : Group} {i : Instr} (h : Ready s g i) (body : Group → Out) : issue i s body = body g := by
  obtain ⟨⟨hf, ht, hs⟩, hp⟩ := h
  simp [issue, hf, ht, hs, hp]

theorem Ready.focus {s : State} {g : Group} {i : Instr} (h : Ready s g i) : s.focus = some g := h.1.1

theorem Group.advance_nextPos (g : Group) : NextPos g g.advance := by
  unfold NextPos Group.advance
  split <;> simp

theorem NextPos.of_pos {g h k : Group} (hp : NextPos g h) (e1 : k.hdr = h.hdr) (e2 : k.idx = h.idx) (e3 : k.clause = h.clause)
    (e4 : k.entered = h.entered) : NextPos g k := by
  unfold NextPos at *
  rw [e1, e2, e3, e4]; exact hp

theorem done_eq {s : State} {g : Group} (h : s.focus = some g) : done s = .next { s with focus := some g.advance } := by
  simp [done, State.modG_some s g _ h]

/-- A completed instruction whose last change is to the group. -/
theorem done_modG {s : State} {g : Group} (f : Group → Group) (h : s.focus = some g) :
    done (s.modG f) = .next { s with focus := some (f g).advance } := by
  simp [done, State.modG, h]

theorem waits_eq {s : State} {g : Group} (why : Sleep) (h : s.focus = some g) :
    waits s why = .next { s with focus := some { g with sleep := why } } := by
  simp [waits, State.modG_some s g _ h]

/-- A fault leaves everything but the group's record of it (R375, R377). -/
theorem raise_eq {s : State} {g : Group} (i : Instr) (c : FaultCode) (a : W64) (m : W32) (x : W64) (h : s.focus = some g) :
    raise s i c a m x =
      .next { s with focus := some { g with trap := some ⟨c, a, m, encode i, x, g.idx, g.hdr⟩, sleep := .awake } } := by
  simp [raise, raiseWord, State.modG_some s g _ h]

/-! ### Sources -/

/-- Reading the sources: a fault, a wait, or the rest of the instruction with VOIDM's new bits. -/
theorem withSrcs_cases (i : Instr) (s : State) (g : Group) (kb : Bool) (srcs : List Src) (k : State → Out) :
    (∃ c o m, readSrcs s g kb srcs = .fault c o m ∧ withSrcs i s g kb srcs k = raise s i c (BitVec.ofNat 64 o) m 0) ∨
    (readSrcs s g kb srcs = .wait ∧ withSrcs i s g kb srcs k = waits s (waitKind s g srcs)) ∨
    ∃ vm, readSrcs s g kb srcs = .ok vm ∧
      withSrcs i s g kb srcs k = k (s.modG fun h => { h with voidm := h.voidm ||| vm }) := by
  unfold withSrcs
  cases h : readSrcs s g kb srcs with
  | fault c o m => exact .inl ⟨c, o, m, rfl, rfl⟩
  | wait => exact .inr (.inl ⟨rfl, rfl⟩)
  | ok vm => exact .inr (.inr ⟨vm, rfl, rfl⟩)

theorem withSrcs_readable {s : State} {g : Group} {srcs : List Src} {vm : W32} (h : Readable s g srcs vm) (i : Instr)
    (k : State → Out) : withSrcs i s g false srcs k = k (s.modG fun h => { h with voidm := h.voidm ||| vm }) := by
  unfold Readable at h
  simp [withSrcs, h]

/-- Instructions without sources read nothing. -/
@[simp] theorem readSrcs_nil (s : State) (g : Group) (kb : Bool) : readSrcs s g kb [] = .ok 0 := by
  cases kb <;> rfl

/-! ### Scalar and mask shapes -/

/-- A scalar instruction where its predicate holds in some active lane. -/
theorem scalarOp_ready {s : State} {g : Group} {i : Instr} {f : VR} (val : W64 → W64 → W64 → W64) (h : Ready s g i)
    (ha : g.act f.p ≠ 0) :
    scalarOp i f s val =
      .next { s with focus := some (g.putS f.dst (val (g.rdSc f.a) (g.rdSc f.b) (g.rdSc f.c))).advance } := by
  rw [scalarOp, issue_ready h, if_neg ha, done_modG _ h.focus]

/-- A scalar instruction where its predicate holds in no active lane only advances (R104). -/
theorem scalarOp_idle {s : State} {g : Group} {i : Instr} {f : VR} (val : W64 → W64 → W64 → W64) (h : Ready s g i)
    (ha : g.act f.p = 0) : scalarOp i f s val = .next { s with focus := some g.advance } := by
  rw [scalarOp, issue_ready h, if_pos ha, done_eq h.focus]

theorem maskOp_ready {s : State} {g : Group} {i : Instr} {f : VR} (val : W32 → W32 → W32) (h : Ready s g i)
    (ha : g.act f.p ≠ 0) :
    maskOp i f s val =
      .next { s with focus := some (g.putK f.dst (val ((g.rdSc f.a).setWidth 32) ((g.rdSc f.b).setWidth 32))).advance } := by
  rw [maskOp, issue_ready h, if_neg ha, done_modG _ h.focus]

theorem maskOp_idle {s : State} {g : Group} {i : Instr} {f : VR} (val : W32 → W32 → W32) (h : Ready s g i)
    (ha : g.act f.p = 0) : maskOp i f s val = .next { s with focus := some g.advance } := by
  rw [maskOp, issue_ready h, if_pos ha, done_eq h.focus]

/-! ### Per-lane shapes -/

/-- A per-lane instruction whose sources are readable and whose destination lanes are owed nothing. -/
theorem laneOp_ready {s : State} {g : Group} {i : Instr} {f f' : VR} {sg : VSig} {vm : W32} (val : Group → Nat → Nat)
    (h : Ready s g i) (hv : i.vsig = some (sg, f')) (hr : Readable s g (vrSrcs sg f (g.act f.p)) vm)
    (hb : dstBusy (s.modG fun x => { x with voidm := x.voidm ||| vm }) g f.dst (if sg.dst.is64 f.ty then 2 else 1)
      (lanesOf (g.act f.p)) = false) :
    laneOp i f s val = done ((s.modG fun x => { x with voidm := x.voidm ||| vm }).putDst g f.dst (sg.dst.is64 f.ty)
      (lanesOf (g.act f.p)) (val g)) := by
  rw [laneOp, issue_ready h]
  simp only [hv]
  rw [withSrcs_readable hr]
  simp [hb]

theorem cmpOp_ready {s : State} {g : Group} {i : Instr} {f f' : VR} {sg : VSig} {vm : W32} (val : Group → Nat → Bool)
    (h : Ready s g i) (hv : i.vsig = some (sg, f')) (hr : Readable s g (vrSrcs sg f (g.act f.p)) vm) :
    cmpOp i f s val = done ((s.modG fun x => { x with voidm := x.voidm ||| vm }).modG fun x => x.putK f.dst
      ((match f.dst with | .k n => x.rdK n.toNat | _ => 0) &&& ~~~ (g.act f.p)
        ||| maskWhere (lanesOf (g.act f.p)) (val g))) := by
  rw [cmpOp, issue_ready h]
  simp only [hv]
  exact (withSrcs_readable hr ..).trans rfl

/-! ### Transfers -/

theorem takeTo_eq {s : State} {g : Group} (pc : W64) (h : s.focus = some g) :
    takeTo s pc = .next { s with focus := some { g.jump pc with stall := s.clk g.die g.core + 4 } } := by
  simp [takeTo, State.modG_some s g _ h]

theorem branchOp_taken {s : State} {g : Group} {i : Instr} {f : FC} {c : Group → Bool} (h : Ready s g i)
    (ha : g.act f.p ≠ 0) (hc : c g = true) :
    branchOp i f s c = .next { s with focus := some { g.jump (targetOf g f.off) with stall := s.clk g.die g.core + 4 } } := by
  rw [branchOp, issue_ready h, if_pos ⟨ha, hc⟩, takeTo_eq _ h.focus]

theorem branchOp_untaken {s : State} {g : Group} {i : Instr} {f : FC} {c : Group → Bool} (h : Ready s g i)
    (hc : g.act f.p = 0 ∨ c g = false) : branchOp i f s c = .next { s with focus := some g.advance } := by
  rw [branchOp, issue_ready h, if_neg, done_eq h.focus]
  rintro ⟨h1, h2⟩
  rcases hc with hc | hc
  · exact h1 hc
  · rw [hc] at h2; exact absurd h2 (by decide)

/-! ### Accesses of global memory -/

theorem watchFind_none {s : State} {g : Group} (wr : Bool) (w : Nat) (ls : List (Nat × Nat))
    (h : ((s.ctx? g.ctx).map (·.bkpts)).getD [] = []) : watchFind s g wr w ls = none := by
  unfold watchFind
  split
  · rfl
  · rw [h]
    have : (ls.find? fun x => ([] : List (Nat × Bkpt)).any fun b => watchHits b.2 g wr x.2 w) = none := by
      rw [List.find?_eq_none]
      simp
    simp only [this]

/-- Addresses that the core's TLB holds translate at once and leave the state as it is. -/
theorem xlateAll_hits {s : State} {d c ctx who : Nat} (ls : List (Nat × Nat))
    (h : ∀ x ∈ ls, x.2 < 2 ^ 52 ∧ ∃ e, tlbFind (s.core d c).tlb ctx x.2 = some e) :
    xlateAll s d c ctx who ls = (s, ls.map fun x => (x.1, x.2, match tlbFind (s.core d c).tlb ctx x.2 with
      | some e => XlRes.ok (xlOf x.1 x.2 e)
      | none => .bad)) := by
  induction ls with
  | nil => rfl
  | cons x r ih =>
    obtain ⟨lane, va⟩ := x
    obtain ⟨hlt, e, he⟩ := h (lane, va) (List.mem_cons_self ..)
    have hr := ih fun y hy => h y (List.mem_cons_of_mem _ hy)
    have hx : xlate1 s d c ctx who lane va = (s, .ok (xlOf lane va e)) := by
      have hlt' : ¬2 ^ 52 ≤ va := by simpa using hlt
      simp only [xlate1, if_neg hlt', tlbOf]
      simp only [he]
    simp only [xlateAll, hx, hr, List.map_cons, he]

/-- No further fault stands in the way. -/
theorem moreFault_none {c : GChk} {xs : List Xl} (h : ∀ x ∈ xs, c.more x = none) (ks : List FaultCode) : moreFault c xs ks = none := by
  induction ks with
  | nil => rfl
  | cons k r ih =>
    have : xs.filter (fun x => c.more x == some k) = [] := by
      rw [List.filter_eq_nil_iff]
      intro x hx
      simp [h x hx]
    unfold moreFault
    rw [this]
    exact ih

/-- An access that can go ahead goes ahead: nothing but the list of translated accesses reaches the rest of the instruction. -/
theorem withGlob_reaches {s : State} {g : Group} {c : GChk} {ls : List (Nat × Nat)} (h : Reaches s g c.need c.w ls)
    (i : Instr) (single : Bool) (ok : State → List Xl → Out) (ha : ∀ x ∈ hitXls s g ls, x.va % c.align x = 0)
    (hm : ∀ x ∈ hitXls s g ls, c.more x = none) : withGlob i s g c single ls ok = ok s (hitXls s g ls) := by
  obtain ⟨hb, hl⟩ := h
  have hal : ls.filter (fun x => x.2 % c.w != 0) = [] := by
    rw [List.filter_eq_nil_iff]
    intro x hx
    simp [(hl x hx).1]
  have hh := xlateAll_hits (s := s) (d := g.die) (c := g.core) (ctx := g.ctx) (who := g.gid) ls fun x hx => ⟨(hl x hx).2.1, by
    obtain ⟨e, he, _⟩ := (hl x hx).2.2; exact ⟨e, he⟩⟩
  have hmiss : (ls.map fun x => ((x.1, x.2, match tlbFind (s.core g.die g.core).tlb g.ctx x.2 with
      | some e => XlRes.ok (xlOf x.1 x.2 e)
      | none => .bad) : Nat × Nat × XlRes)).any (fun x => x.2.2 == .miss) = false := by
    rw [List.any_eq_false]
    intro y hy
    obtain ⟨x, hx, rfl⟩ := List.mem_map.mp hy
    obtain ⟨e, he, _⟩ := (hl x hx).2.2
    simp [he]
  have hbad : (ls.map fun x => ((x.1, x.2, match tlbFind (s.core g.die g.core).tlb g.ctx x.2 with
      | some e => XlRes.ok (xlOf x.1 x.2 e)
      | none => .bad) : Nat × Nat × XlRes)).filter (fun x => x.2.2 == .bad) = [] := by
    rw [List.filter_eq_nil_iff]
    intro y hy
    obtain ⟨x, hx, rfl⟩ := List.mem_map.mp hy
    obtain ⟨e, he, _⟩ := (hl x hx).2.2
    simp [he]
  have hxs : (ls.map fun x => ((x.1, x.2, match tlbFind (s.core g.die g.core).tlb g.ctx x.2 with
      | some e => XlRes.ok (xlOf x.1 x.2 e)
      | none => .bad) : Nat × Nat × XlRes)).filterMap (fun x => x.2.2.hit?) = hitXls s g ls := by
    clear hbad hmiss hh hal hb ha hm
    unfold hitXls
    induction ls with
    | nil => rfl
    | cons x r ih =>
      obtain ⟨e, he, _⟩ := (hl x (List.mem_cons_self ..)).2.2
      have hr := ih fun y hy => hl y (List.mem_cons_of_mem _ hy)
      rw [List.map_cons, List.filterMap_cons, List.filterMap_cons, he, hr]
      rfl
  have hal2 : (hitXls s g ls).filter (fun x => x.va % c.align x != 0) = [] := by
    rw [List.filter_eq_nil_iff]
    intro x hx
    simp [ha x hx]
  have hprot : (hitXls s g ls).filter (fun x => refused x.leaf g.sys c.need) = [] := by
    rw [List.filter_eq_nil_iff]
    intro y hy
    obtain ⟨x, hx, hxy⟩ := List.mem_filterMap.mp hy
    obtain ⟨e, he, hr⟩ := (hl x hx).2.2
    rw [he] at hxy
    simp only [Option.map_some, Option.some.injEq] at hxy
    subst hxy
    simpa [xlOf] using hr
  unfold withGlob
  cases hc : c.watch with
  | none => simp only [hal, hh, hmiss, hbad, hxs, hal2, hprot, Bool.false_eq_true, if_false, moreFault_none hm]
  | some x => simp only [hb, hal, hh, hmiss, hbad, hxs, hal2, hprot, Bool.false_eq_true, if_false, moreFault_none hm]

/-- A scratchpad access that can go ahead goes ahead. -/
theorem withSpad_reaches {s : State} {g : Group} {t : Team} {w : Nat} {wr : Bool} {ls : List (Nat × Nat)}
    (ht : s.team? g.team = some t) (h : ReachesSpad t w wr ls) (i : Instr) (ok : Team → Out) :
    withSpad i s g w wr ls ok = ok t := by
  have h1 : ls.filter (fun x => x.2 % w != 0) = [] := by
    rw [List.filter_eq_nil_iff]; intro x hx; simp [(h x hx).1]
  have h2 : ls.filter (fun x => decide (t.spadLen < x.2 + w)) = [] := by
    rw [List.filter_eq_nil_iff]; intro x hx; have := (h x hx).2.1; simp; omega
  have h3 : (if wr then ls.filter (fun x => touchesArmed t x.2 w) else []) = [] := by
    cases wr with
    | false => rfl
    | true =>
      simp only [if_true]
      rw [List.filter_eq_nil_iff]; intro x hx; simp [(h x hx).2.2 rfl]
  unfold withSpad
  simp only [ht, h1, h2, h3]

end Sys2Proof.Machine
end

