-- ==== Sys2Proof/Laws/Shapes.lean ====
section
/-!
SUPPORT. The shapes of a completed instruction: for each shared shape, what the machine holds after it.
-/
namespace Sys2Proof.Machine

/-! ### Lanes -/

theorem lanesOf_lt {m : W32} {l : Nat} (h : l ∈ lanesOf m) : l < 32 := by
  have := (List.mem_filter.mp h).1
  simpa using this

theorem Group.laneV_putV (g : Group) (d : Nat) (w : Bool) (i x n l : Nat) (hi : i < 32) (hl : l < 32) :
    (g.putV d w i x).laneV n l =
      if l = i ∧ n = d then ⟨BitVec.ofNat 32 x, false, .ok⟩
      else if l = i ∧ w = true ∧ n = d + 1 then ⟨BitVec.ofNat 32 (x / 2 ^ 32), false, .ok⟩
      else g.laneV n l := by
  unfold Group.putV
  cases w with
  | true =>
    simp only [if_true, Group.laneV_setV]
    by_cases h1 : l = i ∧ n = d
    · obtain ⟨rfl, rfl⟩ := h1
      have : ¬(n * 32 = (n + 1) * 32) := by omega
      simp [this]
    · by_cases h2 : l = i ∧ n = d + 1
      · obtain ⟨rfl, rfl⟩ := h2
        simp
      · have e1 : ¬(n * 32 + l = (d + 1) * 32 + i) := by omega
        have e2 : ¬(n * 32 + l = d * 32 + i) := by omega
        simp [h1, h2, e1, e2]
  | false =>
    simp only [Bool.false_eq_true, if_false, Group.laneV_setV]
    by_cases h1 : l = i ∧ n = d
    · obtain ⟨rfl, rfl⟩ := h1; simp
    · have e2 : ¬(n * 32 + l = d * 32 + i) := by omega
      simp [h1, e2]

theorem Group.vWritten_putLanes (d : Nat) (w : Bool) (x : Nat → Nat) (ls : List Nat) (hls : ∀ l ∈ ls, l < 32) (g : Group) :
    VWritten g (g.putLanes d w x ls) d w ls x := by
  induction ls generalizing g with
  | nil => intro n l _; simp [Group.putLanes]
  | cons i r ih =>
    intro n l hl
    have hi := hls i (List.mem_cons_self ..)
    have := ih (fun y hy => hls y (List.mem_cons_of_mem _ hy)) (g.putV d w i (x i)) n l hl
    rw [Group.putLanes, this, Group.laneV_putV _ _ _ _ _ _ _ hi hl]
    by_cases hn : n = d
    · by_cases hr : l ∈ r
      · simp [hr, hn]
      · by_cases hli : l = i
        · simp [hn, hli]
        · simp [hr, hn, hli]
    · by_cases hn2 : n = d + 1
      · by_cases hr : l ∈ r
        · cases w <;> simp [hr, hn2]
        · by_cases hli : l = i
          · cases w <;> simp [hn2, hli]
          · cases w <;> simp [hr, hn2, hli]
      · simp [hn, hn2]

/-- The lanes of a slot after some are written FULL. -/
theorem Pipe.slotLane_setSlot (q : Pipe) (sl i n l : Nat) (x : WSlot) (hi : i < 32) (hl : l < 32) :
    (q.setSlot sl i x).slotLane n l = if n = sl ∧ l = i then x else q.slotLane n l := by
  unfold Pipe.setSlot Pipe.slotLane
  rw [SMap.get_set]
  have : (n * 32 + l = sl * 32 + i) ↔ (n = sl ∧ l = i) := by omega
  simp [this]

theorem Pipe.slotLane_putLanes (sl : Nat) (x : Nat → Nat) (ls : List Nat) (hls : ∀ l ∈ ls, l < 32) (q : Pipe) (n l : Nat)
    (hl : l < 32) : (q.putLanes sl x ls).slotLane n l =
      if n = sl ∧ l ∈ ls then ⟨BitVec.ofNat 32 (x l), .full, false, .ok⟩ else q.slotLane n l := by
  induction ls generalizing q with
  | nil => simp [Pipe.putLanes]
  | cons i r ih =>
    rw [Pipe.putLanes, ih (fun y hy => hls y (List.mem_cons_of_mem _ hy)),
      Pipe.slotLane_setSlot _ _ _ _ _ _ (hls i (List.mem_cons_self ..)) hl]
    by_cases hn : n = sl
    · by_cases hr : l ∈ r
      · simp [hn, hr]
      · by_cases hli : l = i
        · simp [hn, hli]
        · simp [hn, hr, hli]
    · simp [hn]

theorem Pipe.putLanes_eq (sl : Nat) (x : Nat → Nat) (ls : List Nat) (q : Pipe) :
    q.putLanes sl x ls = { q with window := (q.putLanes sl x ls).window } := by
  induction ls generalizing q with
  | nil => rfl
  | cons i r ih => rw [Pipe.putLanes, ih]; rfl

/-! ### Pipes of a partition -/

theorem Partn.pipe?_num {p : Partn} {n : Nat} {q : Pipe} (h : p.pipe? n = some q) : q.num = n := by
  have := List.find?_some h
  simpa using this

theorem Partn.find_map_self (l : List Pipe) (q : Pipe) (h : l.any (fun r => r.num == q.num) = true) :
    (l.map fun r => if r.num == q.num then q else r).find? (fun r => r.num == q.num) = some q := by
  induction l with
  | nil => simp at h
  | cons r l ih =>
    by_cases hr : (r.num == q.num) = true
    · rw [List.map_cons, if_pos hr, List.find?_cons]
      simp
    · have hr' : (r.num == q.num) = false := by simpa using hr
      rw [List.any_cons, hr', Bool.false_or] at h
      rw [List.map_cons, List.find?_cons]
      simp only [hr', Bool.false_eq_true, if_false]
      exact ih h

theorem Partn.find_map_ne (l : List Pipe) (q : Pipe) {m : Nat} (h : m ≠ q.num) :
    (l.map fun r => if r.num == q.num then q else r).find? (fun r => r.num == m) = l.find? (fun r => r.num == m) := by
  induction l with
  | nil => rfl
  | cons r l ih =>
    rw [List.map_cons, List.find?_cons, List.find?_cons, ih]
    by_cases hr : r.num = q.num
    · have e1 : (r.num == q.num) = true := by simpa using hr
      have e2 : (r.num == m) = false := by simp; omega
      have e3 : (q.num == m) = false := by simp; omega
      simp [e1, e2, e3]
    · have e1 : (r.num == q.num) = false := by simpa using hr
      simp only [e1, Bool.false_eq_true, if_false]

theorem Partn.pipe?_setPipe {p : Partn} {q : Pipe} {n : Nat} (h : (p.pipe? n).isSome) (hq : q.num = n) :
    (p.setPipe q).pipe? n = some q := by
  subst hq
  unfold Partn.setPipe Partn.pipe?
  apply Partn.find_map_self
  unfold Partn.pipe? at h
  rw [List.find?_isSome] at h
  rw [List.any_eq_true]
  exact h

theorem Partn.pipe?_setPipe_ne {p : Partn} {q : Pipe} {m : Nat} (h : m ≠ q.num) : (p.setPipe q).pipe? m = p.pipe? m :=
  Partn.find_map_ne _ _ h

/-- A pipe of the group's own replaced by one that differs in its window. -/
theorem slotWritten_setPipe {s t : State} {g : Group} {it : IterRec} {q q' : Pipe} {d : Nat} {ls : List Nat}
    {new : Nat → WSlot → WSlot} (hi : g.iter = some it) (hq : s.pipeOf g = some q) (he : q' = { q with window := q'.window })
    (hw : ∀ slot lane, lane < 32 → q'.slotLane slot lane =
      if slot = winSlot q.stride d it.k ∧ lane ∈ ls then new lane (q.slotLane slot lane) else q.slotLane slot lane)
    (ht : t.parts = (s.setPartOf g ((s.partOf g).setPipe q')).parts) : SlotWritten s t g d ls new := by
  have hq0 : (s.partOf g).pipe? it.pipe = some q := by simpa [State.pipeOf, hi] using hq
  have hn : q'.num = it.pipe := by rw [he]; exact (Partn.pipe?_num hq0 : q.num = it.pipe)
  have hp : t.partOf g = (s.partOf g).setPipe q' := by
    simp only [State.partOf, State.partn, ht, State.setPartOf, State.setPartn, SMap.get_set_self]
  refine ⟨it, q, q', hi, hq, ?_, he, hw, ?_, ?_, ?_⟩
  · simp only [State.pipeOf, hi, hp]
    exact Partn.pipe?_setPipe (by simp [hq0]) hn
  · intro k hk
    rw [ht]
    exact SMap.get_set_ne _ _ _ hk
  · rw [hp]; rfl
  · intro m hm
    rw [hp]
    exact Partn.pipe?_setPipe_ne (by rw [hn]; exact hm)

/-! ### A completed instruction of each shape -/

theorem Group.advance_keepsRest {g h : Group} (hk : KeepsRest g h) (hi : h.idx = g.idx) (hc : h.clause = g.clause)
    (hh : h.hdr = g.hdr) (he : h.entered = g.entered) : NextPos g h.advance ∧ h.advance.sleep = .awake ∧ KeepsRest g h.advance ∧
      h.advance.voidm = h.voidm := by
  refine ⟨?_, ?_, ?_, ?_⟩
  · have hcount : h.count = g.count := by simp [Group.count, hc]
    unfold NextPos Group.advance
    rw [hcount, hi]
    split <;> simp [hc, hh, he]
  · unfold Group.advance; split <;> rfl
  · unfold KeepsRest at *
    rw [hk]
    unfold Group.advance
    split <;> rfl
  · unfold Group.advance; split <;> rfl

theorem keepsRest_putS (g : Group) (o : Opnd) (x : W64) (vm : W32) :
    KeepsRest g (({ g with voidm := g.voidm ||| vm } : Group).putS o x) := by
  unfold KeepsRest; rw [Group.putS_eq]

theorem sWritten_putS (g : Group) (o : Opnd) (x : W64) (vm : W32) :
    SWritten g (({ g with voidm := g.voidm ||| vm } : Group).putS o x) o x := by
  intro n
  cases o with
  | s m =>
    show (({ g with voidm := g.voidm ||| vm } : Group).wrS m.toNat x).rdS n.toNat = _
    rw [Group.rdS_wrS]
    by_cases h : n = m
    · subst h
      by_cases h0 : n = 0
      · subst h0; simp
      · have : ¬n.toNat = 0 := fun e => h0 (BitVec.eq_of_toNat_eq (by simpa using e))
        have h1 : ¬n = 0#6 := h0
        simp [h1, this]
    · have : ¬n.toNat = m.toNat := fun e => h (BitVec.eq_of_toNat_eq e)
      have h' : ¬m = n := fun e => h e.symm
      simp [this, h']
      rfl
  | _ => simp; rfl

theorem kWritten_putK (g : Group) (o : Opnd) (x : W32) (vm : W32) :
    KWritten g (({ g with voidm := g.voidm ||| vm } : Group).putK o x) o x := by
  intro n
  cases o with
  | k m =>
    show (({ g with voidm := g.voidm ||| vm } : Group).wrK m.toNat x).rdK n.toNat = _
    rw [Group.rdK_wrK]
    by_cases h : n = m
    · subst h
      by_cases h0 : n = 0
      · subst h0; simp; rfl
      · have : ¬n.toNat = 0 := fun e => h0 (BitVec.eq_of_toNat_eq (by simpa using e))
        have h1 : ¬n = 0#4 := h0
        simp [h1, this]; rfl
    · have : ¬n.toNat = m.toNat := fun e => h (BitVec.eq_of_toNat_eq e)
      have h' : ¬m = n := fun e => h e.symm
      simp [this, h']
      rfl
  | _ => simp; rfl

/-- A completed instruction whose last change of the group keeps its place. -/
theorem moved_advance {g h : Group} {vm : W32} (hk : KeepsRest g h) (hi : h.idx = g.idx) (hc : h.clause = g.clause)
    (hh : h.hdr = g.hdr) (he : h.entered = g.entered) (hv : h.voidm = g.voidm ||| vm) : Moved g h.advance vm := by
  obtain ⟨a, b, c, d⟩ := Group.advance_keepsRest hk hi hc hh he
  exact ⟨a, b, d.trans hv, c⟩

theorem sDone_of {i : Instr} {s : State} {g : Group} {o : Opnd} {x : W64} {vm : W32}
    (h : exec i s = .next { s with focus := some (({ g with voidm := g.voidm ||| vm } : Group).putS o x).advance }) :
    SDone i s g o x vm := by
  have hk := keepsRest_putS g o x vm
  have hs := sWritten_putS g o x vm
  revert h hk hs
  rw [Group.putS_eq]
  intro h hk hs
  refine ⟨_, h, moved_advance hk rfl rfl rfl rfl rfl, ?_, by simp, by simp⟩
  intro n
  rw [Group.advance_rdS]
  exact hs n

theorem kDone_of {i : Instr} {s : State} {g : Group} {o : Opnd} {x : W32} {vm : W32}
    (h : exec i s = .next { s with focus := some (({ g with voidm := g.voidm ||| vm } : Group).putK o x).advance }) :
    KDone i s g o x vm := by
  have hs := kWritten_putK g o x vm
  revert h hs
  rw [Group.putK_eq]
  intro h hs
  refine ⟨_, h, moved_advance ?_ rfl rfl rfl rfl rfl, ?_, by simp, by simp⟩
  · unfold KeepsRest; rfl
  intro n
  rw [Group.advance_rdK]
  exact hs n

theorem idle_of {i : Instr} {s : State} {g : Group} (h : exec i s = .next { s with focus := some g.advance }) : Idle i s g := by
  refine ⟨_, h, moved_advance ?_ rfl rfl rfl rfl ?_, by simp, by simp, by simp⟩
  · unfold KeepsRest; rfl
  · simp

/-- A window name as destination stands inside an iteration of an open pipe (R219). -/
theorem pipe_of_ready {s : State} {g : Group} {i : Instr} {n : BitVec 6} (h : Ready s g i) (hd : Opnd.y n ∈ i.dstOf) :
    ∃ it q, g.iter = some it ∧ s.pipeOf g = some q := by
  have hp := h.2
  unfold preFault at hp
  have hm : pipeMisuse s g i = false := by
    cases hm : pipeMisuse s g i with
    | false => rfl
    | true =>
      simp only [hm, if_true] at hp
      repeat' split at hp
      all_goals cases hp
  unfold pipeMisuse at hm
  rw [Bool.or_eq_false_iff] at hm
  cases hi : g.iter with
  | none =>
    have : i.dstOf.any Opnd.isY = true := List.any_eq_true.mpr ⟨_, hd, rfl⟩
    simp [hi, this] at hm
  | some it =>
    cases hq : s.pipeOf g with
    | none => simp [hi, hq] at hm
    | some q => exact ⟨it, q, rfl, rfl⟩

@[simp] theorem State.pipeOf_modG (s : State) (g : Group) (f : Group → Group) : (s.modG f).pipeOf g = s.pipeOf g := rfl

@[simp] theorem State.partOf_modG (s : State) (g : Group) (f : Group → Group) : (s.modG f).partOf g = s.partOf g := rfl

theorem dstBusy_modG (s : State) (f : Group → Group) (g : Group) (o : Opnd) (n : Nat) (ls : List Nat) :
    dstBusy (s.modG f) g o n ls = dstBusy s g o n ls := rfl

/-- A completed per-lane instruction. -/
theorem laneDone_of {i : Instr} {s : State} {g : Group} {o : Opnd} {w : Bool} {ls : List Nat} {x : Nat → Nat} {vm : W32}
    (hr : Ready s g i) (hd : o ∈ i.dstOf) (ho : o.isVY = true) (hls : ∀ l ∈ ls, l < 32)
    (h : exec i s = done ((s.modG fun y => { y with voidm := y.voidm ||| vm }).putDst g o w ls x)) :
    LaneDone i s g o w ls x vm := by
  cases o with
  | v d =>
    have hf : s.focus = some g := hr.focus
    simp only [State.putDst, State.modG, hf, done, Option.map_some] at h
    have hp := Group.vWritten_putLanes d.toNat w x ls hls { g with voidm := g.voidm ||| vm }
    rw [Group.putLanes_eq] at h hp
    refine ⟨({ g with voidm := g.voidm ||| vm,
                      v := (Group.putLanes { g with voidm := g.voidm ||| vm } d.toNat w x ls).v } : Group).advance,
      _, h, moved_advance ?_ rfl rfl rfl rfl rfl, by simp, by simp, rfl, ?_⟩
    · unfold KeepsRest; rfl
    · intro n l hl
      rw [Group.advance_laneV]
      exact hp n l hl
  | y d =>
    obtain ⟨it, q, hi, hq⟩ := pipe_of_ready hr hd
    have hf : s.focus = some g := hr.focus
    simp only [State.putDst, hi, State.pipeOf_modG, hq, State.partOf_modG] at h
    rw [done_eq (g := { g with voidm := g.voidm ||| vm }) (by simp [State.setPartOf, State.setPartn, hf])] at h
    refine ⟨({ g with voidm := g.voidm ||| vm } : Group).advance, _, h, moved_advance ?_ rfl rfl rfl rfl rfl, by simp, by simp,
      ?_, by simp, ?_⟩
    · unfold KeepsRest; rfl
    · unfold OnlyGroupPart; rfl
    · refine slotWritten_setPipe hi hq (Pipe.putLanes_eq _ _ _ _) ?_ rfl
      intro sl l hl
      exact Pipe.slotLane_putLanes _ _ _ hls _ _ _ hl
  | _ => simp [Opnd.isVY] at ho

/-- Everything a per-lane instruction of the shared shape does where its operands are ready. -/
theorem laneOp_done {i : Instr} {s : State} {g : Group} {f : VR} {sg : VSig} {vm : W32} (val : Group → Nat → Nat)
    (he : exec i s = laneOp i f s val) (h : LaneReady i f s g vm) (hv : i.vsig = some (sg, f)) (ho : f.dst.isVY = true) :
    LaneDone i s g f.dst (sg.dst.is64 f.ty) (lanesOf (g.act f.p)) (val g) vm := by
  obtain ⟨hr, sg', hv', hread, hbusy⟩ := h
  have e : sg' = sg := by rw [hv] at hv'; simpa using (congrArg (fun o => o.map Prod.fst) hv').symm
  subst e
  refine laneDone_of hr (by simp [Instr.dstOf, hv]) ho (fun l hl => lanesOf_lt hl) ?_
  rw [he, laneOp_ready val hr hv hread (by rw [dstBusy_modG]; exact hbusy)]

end Sys2Proof.Machine
end

