-- ==== Sys2Proof/Tests/Slice0.lean ====
section
/-!
SUPPORT. Tests: the words of the spec's listing, ill-formed terms that the checks refuse, for each obligation a state and
operands that meet its hypotheses, and single steps whose results are the spec's.
-/
namespace Sys2Proof.Tests
open Sys2Proof Sys2Proof.Machine

set_option Elab.async false

/-! ### Words of the spec's chapters, by family -/


theorem test_words_float : ∀ p ∈ ([
    -- (k1) FMUL.f32.rne v3, v2, #2.0
    (0x30100C05A3000840#64, .fmul ⟨⟨1, false⟩, .v 3, .v 2, .cst 19, .v 0, false, false, false, .f32, .rne⟩),
    -- FCMP.gt.f32 k1, v2!, #0.0
    (0x3006040590021A40#64, .fcmp .gt ⟨⟨0, false⟩, .k 1, .v 2, .cst 0, .v 0, true, false, false, .f32, .rne⟩),
    -- FCVT.sat.e4.f32 v6, v2
    (0x3000180591042858#64, .fcvt true .f32 ⟨⟨0, false⟩, .v 6, .v 2, .v 0, .v 0, false, false, false, .e4, .rne⟩),
    -- QDOT4.e4 v8, v4, v5, v8
    (0x3100200805041058#64, .qdot4 ⟨⟨0, false⟩, .v 8, .v 4, .v 5, .v 8, false, false, false, .e4, .rne⟩),
    -- (kf1) FADD.f32.rne y0, y0~1, v3
    (0x30C5028803000040#64, .fadd ⟨⟨12, false⟩, .y 0, .y 4, .v 3, .v 0, false, false, false, .f32, .rne⟩)] :
    List (W64 × Instr)), decode p.1 = .instr p.2 ∧ p.2.wf = true ∧ encode p.2 = p.1 := by decide +kernel

theorem test_words_copy : ∀ p ∈ ([
    -- CPY.in.b4 [s0 + v1*4 + #SPOFF], [s2 + v1*4], fill
    (0xA0000004000D0010#64, .cpyIn ⟨⟨0, false⟩, .b4, false, false, false, false, .core, 2, 0, some 1, .x4, 0, 16⟩),
    -- CPYT.om s5, [s3], v0, barb
    (0xA200000628040080#64, .cpytOm ⟨⟨0, false⟩, .b4, false, false, false, false, .core, 3, 5, some 0, .x1, 1, 0⟩),
    -- CPYT.om s6, [s2], v0, fill0
    (0xA200000430040100#64, .cpytOm ⟨⟨0, false⟩, .b4, false, false, false, false, .core, 2, 6, some 0, .x1, 2, 0⟩),
    -- RCFENCE [s2], s12
    (0xA300000460000000#64, .rcfence ⟨⟨0, false⟩, .b4, false, false, false, false, .core, 2, 12, none, .x1, 0, 0⟩),
    -- RCFENCE.all
    (0xA300400000000000#64, .rcfenceAll ⟨⟨0, false⟩, .b4, false, false, false, false, .core, 0, 0, none, .x1, 0, 0⟩),
    -- CPYR.add.b4.f32.rel.die [s4 + v2*4], [s0 + v2*4 + #0x200], acc
    (0xA1005108001501A0#64, .cpyr .addF32 ⟨⟨0, false⟩, .b4, false, true, false, false, .die, 4, 0, some 2, .x4, 3, 32⟩)] :
    List (W64 × Instr)), decode p.1 = .instr p.2 ∧ p.2.wf = true ∧ encode p.2 = p.1 := by decide +kernel

theorem test_words_scalar : ∀ p ∈ ([
    -- SRD s1, GRP
    (0x0304040000010010#64, .srd .grp ⟨⟨0, false⟩, .s 1, .v 0, .v 0, .v 0, false, false, false, .s64, .rne⟩),
    -- SMOVI s4, #ROUNDS
    (0x0104100000000004#64, .smovi ⟨⟨0, false⟩, .s 4, .v 0, false, 4⟩)] :
    List (W64 × Instr)), decode p.1 = .instr p.2 ∧ p.2.wf = true ∧ encode p.2 = p.1 := by decide +kernel

theorem test_words_integer : ∀ p ∈ ([
    -- IADDS.s32 v7, v5, v6
    (0x10001C0A06003400#64, .iadds ⟨⟨0, false⟩, .v 7, .v 5, .v 6, .v 0, false, false, false, .s32, .rne⟩),
    -- (k2) ICMP.lt.s32 k3, v4, #0
    (0x11260C0990013C00#64, .icmp .lt ⟨⟨2, false⟩, .k 3, .v 4, .cst 0, .v 0, false, false, false, .s32, .rne⟩),
    -- IADDI v2, v2, #-16
    (0x13000804FFFFFFF0#64, .iaddi ⟨⟨0, false⟩, .v 2, .v 2, false, 4294967280⟩)] :
    List (W64 × Instr)), decode p.1 = .instr p.2 ∧ p.2.wf = true ∧ encode p.2 = p.1 := by decide +kernel

theorem test_words_memory : ∀ p ∈ ([
    -- LDS.s32 v2, [s0 + v1*4 + #SPOFF]
    (0x620008001A000100#64, .lds ⟨⟨0, false⟩, .v 2, 0, some 1, .x4, .s32, false, false, .core, false, 256⟩),
    -- (!kd) ST.s32.rel.pkg [s3 + v1*4], y0
    (0x61FD00301A098000#64, .st ⟨⟨15, true⟩, .y 0, 3, some 1, .x4, .s32, false, true, .pkg, false, 0⟩),
    -- FENCE.RG.die [s1], s5
    (0x6A04141000010000#64, .fenceRg ⟨⟨0, false⟩, .s 5, 1, none, .x1, .s32, false, false, .die, false, 0⟩),
    -- LDS.b16 v4, [s0 + v2]
    (0x6200100028F00000#64, .lds ⟨⟨0, false⟩, .v 4, 0, some 2, .x1, .bp8, false, false, .core, false, 0⟩)] :
    List (W64 × Instr)), decode p.1 = .instr p.2 ∧ p.2.wf = true ∧ encode p.2 = p.1 := by decide +kernel

theorem test_words_crosslane : ∀ p ∈ ([
    -- SHFL.idx v4, v1, v3
    (0x5000100203000000#64, .shflIdx .dflt ⟨⟨0, false⟩, .v 4, .v 1, .v 3, .v 0, false, false, false, .s32, .rne⟩),
    -- SHFL.dn v6, v1, #3
    (0x5000180393000800#64, .shflDn .dflt ⟨⟨0, false⟩, .v 6, .v 1, .cst 3, .v 0, false, false, false, .s32, .rne⟩),
    -- VOTE.ballot k2, k1
    (0x50060B0200001000#64, .voteBallot ⟨⟨0, false⟩, .k 2, .k 1, .v 0, .v 0, false, false, false, .s32, .rne⟩),
    -- REDG.add.s32 v7, v2
    (0x50001C0400001400#64, .redg .add ⟨⟨0, false⟩, .v 7, .v 2, .v 0, .v 0, false, false, false, .s32, .rne⟩)] :
    List (W64 × Instr)), decode p.1 = .instr p.2 ∧ p.2.wf = true ∧ encode p.2 = p.1 := by decide +kernel

theorem test_words_pipe : ∀ p ∈ ([
    -- PIPE s4, .Lbody
    (0x5804104800000005#64, .pipe ⟨⟨0, false⟩, .s 4, .s4, 0, 4, 5⟩),
    -- PJOIN s5
    (0x5904140000000000#64, .pjoin ⟨⟨0, false⟩, .s 5, .v 0, .v 0, .v 0, false, false, false, .s32, .rne⟩),
    -- PEND
    (0x5900000000000400#64, .pend ⟨⟨0, false⟩, .v 0, .v 0, .v 0, .v 0, false, false, false, .s32, .rne⟩),
    -- PBRK
    (0x5900000000000800#64, .pbrk ⟨⟨0, false⟩, .v 0, .v 0, .v 0, .v 0, false, false, false, .s32, .rne⟩),
    -- YVOID y1
    (0x5905040000000C00#64, .yvoid ⟨⟨0, false⟩, .y 1, .v 0, .v 0, .v 0, false, false, false, .s32, .rne⟩),
    -- PSTAT s2
    (0x5904080000001000#64, .pstat ⟨⟨0, false⟩, .s 2, .v 0, .v 0, .v 0, false, false, false, .s32, .rne⟩)] :
    List (W64 × Instr)), decode p.1 = .instr p.2 ∧ p.2.wf = true ∧ encode p.2 = p.1 := by decide +kernel

theorem test_words_atomic : ∀ p ∈ ([
    -- ATOM.add.s32.core v5, [s1], #1
    (0x7800172191040000#64, .atom .add .s32 ⟨⟨0, false⟩, .v 5, .cst 0, .cst 1, 1, 0, false, false, .core⟩),
    -- REDM.add.f32.rel.pkg [s4 + v2], v3
    (0x7A00000403102260#64, .redm .add .f32 ⟨⟨0, false⟩, .v 0, .v 2, .v 3, 4, 0, false, true, .pkg⟩)] :
    List (W64 × Instr)), decode p.1 = .instr p.2 ∧ p.2.wf = true ∧ encode p.2 = p.1 := by decide +kernel

theorem test_words_barrier : ∀ p ∈ ([
    -- BARARR fill
    (0x7C00000000000000#64, .bararr ⟨⟨0, false⟩, .v 0, .v 0, .v 0, 0, 0, false, false, .core⟩),
    -- BARWAIT fill, s0
    (0x7D00020000000000#64, .barwait ⟨⟨0, false⟩, .v 0, .s 0, .v 0, 0, 0, false, false, .core⟩)] :
    List (W64 × Instr)), decode p.1 = .instr p.2 ∧ p.2.wf = true ∧ encode p.2 = p.1 := by decide +kernel

theorem test_words_netbarrier : ∀ p ∈ ([
    -- NETARR.die s3, #5
    (0x80040C0000001440#64, .netarr ⟨⟨0, false⟩, .s 3, .v 0, .v 0, 0, 5, false, false, .die⟩)] :
    List (W64 × Instr)), decode p.1 = .instr p.2 ∧ p.2.wf = true ∧ encode p.2 = p.1 := by decide +kernel

theorem test_words_queue : ∀ p ∈ ([
    -- ENQ [s4], v9
    (0x8A00000009100000#64, .enq ⟨⟨0, false⟩, .v 0, .v 0, .v 9, 4, 0, false, false, .core⟩),
    -- DEQ v3, [s4]
    (0x8B000C0000100000#64, .deq ⟨⟨0, false⟩, .v 3, .v 0, .v 0, 4, 0, false, false, .core⟩),
    -- DEQT v3, k2, [s4]
    (0x8D000F0400100000#64, .deqt ⟨⟨0, false⟩, .v 3, .k 2, .v 0, 4, 0, false, false, .core⟩),
    -- QCLOSE.kill [s4]
    (0x8900032200100000#64, .qcloseKill ⟨⟨0, false⟩, .v 0, .v 0, .v 0, 4, 0, false, false, .core⟩),
    -- QOPEN [s4], s6, s7
    (0x8800020D07100000#64, .qopen ⟨⟨0, false⟩, .v 0, .s 6, .s 7, 4, 0, false, false, .core⟩)] :
    List (W64 × Instr)), decode p.1 = .instr p.2 ∧ p.2.wf = true ∧ encode p.2 = p.1 := by decide +kernel

theorem test_words_matrix : ∀ p ∈ ([
    -- MMQ.bf16.bf16 z3, v10, v11
    (0x9501850581540000#64, .mmq ⟨0, 0, 0, false, 0⟩ ⟨⟨0, false⟩, 3, 10, 11, 0, 0, .bf16, .bf16⟩),
    -- MMQX.bf16.bf16 z3, v10, v11, s9
    (0x9601850581540009#64, .mmqx ⟨0, 0, 0, false, 9⟩ ⟨⟨0, false⟩, 3, 10, 11, 0, 0, .bf16, .bf16⟩),
    -- MMQ.sc.pa4.bp8.bp8 z0, v6, v7, x0, x1
    (0x9500030383FE3100#64, .mmq ⟨0, 3, 0, true, 0⟩ ⟨⟨0, false⟩, 0, 6, 7, 0, 1, .bp8, .bp8⟩),
    -- MXDRAIN.add.gl.f32.rel.pkg z3, [d8], v12
    (0x9901840601006580#64, .mxdrain ⟨0, true, true, false, false, true, .pkg⟩ ⟨⟨0, false⟩, 3, 8, 12, 0, 0, .f32, .s32⟩),
    -- PHFIN.gl.ph16 z4, [d8], v12
    (0x9D02040601A04000#64, .phfin ⟨0, true, false, false, false, false, .core⟩ ⟨⟨0, false⟩, 4, 8, 12, 0, 0, .ph16, .s32⟩),
    -- MXACQ k2, #4
    (0x9001000000000004#64, .mxacq 3 ⟨⟨0, false⟩, 2, 0, 0, 0, 0, .s32, .s32⟩),
    -- SCLD x1, d6
    (0x9B00030010000000#64, .scld ⟨⟨0, false⟩, 0, 6, 0, 1, 0, .s32, .s32⟩)] :
    List (W64 × Instr)), decode p.1 = .instr p.2 ∧ p.2.wf = true ∧ encode p.2 = p.1 := by decide +kernel

theorem test_words_phasor : ∀ p ∈ ([
    -- PHMULI.ph16 v5, s5, s6
    (0xB000160B06000C68#64, .phmuli ⟨⟨0, false⟩, .v 5, .s 5, .s 6, .v 0, false, false, false, .ph16, .rne⟩),
    -- PHADD.ph16 v4, v3, v5
    (0xB000100605000068#64, .phadd ⟨⟨0, false⟩, .v 4, .v 3, .v 5, .v 0, false, false, false, .ph16, .rne⟩),
    -- PHRED.acc.ph16 v12, v8
    (0xB000301000009468#64, .phredAcc ⟨⟨0, false⟩, .v 12, .v 8, .v 0, .v 0, false, false, false, .ph16, .rne⟩),
    -- PHRED.end.ph16 v15, v12
    (0xB0003C1800011468#64, .phredEnd ⟨⟨0, false⟩, .v 15, .v 12, .v 0, .v 0, false, false, false, .ph16, .rne⟩),
    -- PHCMP.ahead.ph16 k2, v4, v5
    (0xB006080805011068#64, .phcmp .ahead ⟨⟨0, false⟩, .k 2, .v 4, .v 5, .v 0, false, false, false, .ph16, .rne⟩),
    -- PHCVT.ph8.ph16 v6, v4
    (0xB00018080006A470#64, .phcvt .ph16 ⟨⟨0, false⟩, .v 6, .v 4, .v 0, .v 0, false, false, false, .ph8, .rne⟩)] :
    List (W64 × Instr)), decode p.1 = .instr p.2 ∧ p.2.wf = true ∧ encode p.2 = p.1 := by decide +kernel

theorem test_words_gate : ∀ p ∈ ([
    -- SIGM.f32 v20, v16
    (0xB800502000000040#64, .sigm ⟨⟨0, false⟩, .v 20, .v 16, .v 0, .v 0, false, false, false, .f32, .rne⟩),
    -- GATEC.f32 y0, v20, y0~1, d22
    (0xB8050029440B1840#64, .gatec ⟨⟨0, false⟩, .y 0, .v 20, .y 4, .v 22, false, false, false, .f32, .rne⟩),
    -- GATEH.f32 v26, v24, y0
    (0xB800683140001C40#64, .gateh ⟨⟨0, false⟩, .v 26, .v 24, .y 0, .v 0, false, false, false, .f32, .rne⟩)] :
    List (W64 × Instr)), decode p.1 = .instr p.2 ∧ p.2.wf = true ∧ encode p.2 = p.1 := by decide +kernel

theorem test_words_control : ∀ p ∈ ([
    -- CALL s3, .Lhere
    (0x0400003600000005#64, .call ⟨⟨0, false⟩, .v 0, 3, 5⟩)] :
    List (W64 × Instr)), decode p.1 = .instr p.2 ∧ p.2.wf = true ∧ encode p.2 = p.1 := by decide +kernel

theorem test_words_announced : ∀ p ∈ ([
    -- (k1) IDIVS v6, v4, v5
    (0xC410180805000000#64, .idivs ⟨⟨1, false⟩, .v 6, .v 4, .v 5, .v 0, false, false, false, .s32, .rne⟩)] :
    List (W64 × Instr)), decode p.1 = .instr p.2 ∧ p.2.wf = true ∧ encode p.2 = p.1 := by decide +kernel

theorem test_words_system : ∀ p ∈ ([
    -- TRET
    (0xBC00000000100000#64, .tret ⟨⟨0, false⟩, .v 0, .v 0, .v 0, 0⟩),
    -- TRAP #5
    (0xBC00000000000005#64, .trap ⟨⟨0, false⟩, .v 0, .v 0, .v 0, 5⟩),
    -- LNCH s7, s4, s8
    (0xBD041E0908000000#64, .lnch ⟨⟨0, false⟩, .s 7, .s 4, .s 8, 0⟩),
    -- TLBI.range s4, s5
    (0xBE00020905000001#64, .tlbiRange ⟨⟨0, false⟩, .v 0, .s 4, .s 5, 0⟩),
    -- NETCFG #0xA0, s6
    (0xBE00020C002000A0#64, .netcfg ⟨⟨0, false⟩, .v 0, .s 6, .v 0, 160⟩)] :
    List (W64 × Instr)), decode p.1 = .instr p.2 ∧ p.2.wf = true ∧ encode p.2 = p.1 := by decide +kernel


/-! ### Ill-formed terms -/

/-- No predicate, no operand marked. -/
def vr (dst a b c : Opnd) (ty : Ty) : VR := ⟨⟨0, false⟩, dst, a, b, c, false, false, false, ty, .rne⟩

/-- A negated k0, destinations and sources of the wrong class, odd pairs, real constants, trap bits, types, roundings (R55, R66,
R69 to R73). -/
theorem test_ill_vector : ∀ i ∈ ([
    .iadd { vr (.v 1) (.v 2) (.v 3) (.v 0) .s32 with p := ⟨0, true⟩ },
    .iadd (vr (.s 1) (.v 2) (.v 3) (.v 0) .s32),
    .iadd (vr (.v 1) (.v 2) (.v 4) (.v 0) .s64),
    .iadd (vr (.v 2) (.v 3) (.v 4) (.v 0) .s64),
    .iadd (vr (.y 2) (.v 2) (.v 4) (.v 0) .s64),
    .iadd (vr (.v 1) (.v 2) (.v 3) (.v 1) .s32),
    .iadd { vr (.v 1) (.v 2) (.s 3) (.v 0) .s32 with tb := true },
    .iadd (vr (.v 1) (.v 2) (.v 3) (.v 0) .f32),
    .iadd { vr (.v 1) (.v 2) (.v 3) (.v 0) .s32 with rnd := .rtz },
    .qdot4 (vr (.v 1) (.cst 16) (.v 3) (.v 0) .e4),
    .phadd (vr (.v 1) (.cst 17) (.v 3) (.v 0) .ph16),
    .icmp .lt (vr (.k 0) (.v 2) (.v 3) (.v 0) .s32),
    .icmp .un (vr (.k 1) (.v 2) (.v 3) (.v 0) .s32),
    .imadw (vr (.v 1) (.v 2) (.v 3) (.v 4) .s32),
    .sel (vr (.v 1) (.v 2) (.v 3) (.v 4) .s32),
    .sadd (vr (.v 1) (.s 2) (.s 3) (.v 0) .s64),
    .sadd (vr (.s 1) (.v 2) (.s 3) (.v 0) .s64),
    .scmp .ord (vr (.s 1) (.s 2) (.s 3) (.v 0) .s64),
    .swr .lane (vr (.v 0) (.s 2) (.v 0) (.v 0) .s64),
    .kmov (vr (.k 1) (.v 2) (.v 0) (.v 0) .s32),
    .cvti .f32 (vr (.v 1) (.v 2) (.v 0) (.v 0) .s32),
    .fcvt false .f16 (vr (.v 1) (.v 2) (.v 0) (.v 0) .s32),
    .fcvt true .f32 (vr (.v 1) (.v 2) (.v 0) (.v 0) .f16),
    .redg .and (vr (.v 1) (.v 2) (.v 0) (.v 0) .f32),
    .bcast (vr (.v 1) (.v 2) (.v 3) (.v 0) .s32),
    .yvoid (vr (.v 1) (.v 0) (.v 0) (.v 0) .s32),
    .phcvt .ph8 (vr (.v 1) (.v 2) (.v 0) (.v 0) .ph8),
    .phredEnd (vr (.v 1) (.y 2) (.v 0) (.v 0) .ph16),
    .gatec (vr (.v 1) (.v 2) (.v 3) (.v 5) .f32)] : List Instr), i.wf = false := by decide +kernel

/-- The other formats: immediates, transfers, memory, atomics and queues, matrix, copy, system (R57 to R64, R68). -/
theorem test_ill_formats : ∀ i ∈ ([
    .smovi ⟨⟨0, false⟩, .v 4, .v 0, false, 4⟩,
    .smovi ⟨⟨0, false⟩, .s 4, .v 1, false, 4⟩,
    .movi ⟨⟨0, true⟩, .v 4, .v 0, false, 4⟩,
    .iaddi ⟨⟨0, false⟩, .v 2, .s 2, true, 1⟩,
    .bra ⟨⟨0, false⟩, .s 1, 0, 5⟩,
    .bra ⟨⟨0, false⟩, .v 0, 1, 5⟩,
    .bany ⟨⟨0, false⟩, .s 1, 0, 5⟩,
    .ret ⟨⟨0, false⟩, .v 0, 1, 5⟩,
    .brx ⟨⟨0, false⟩, .cst 0, 0, 0⟩,
    .reform ⟨⟨0, false⟩, .y 1, 0, 0⟩,
    .pipe ⟨⟨0, false⟩, .v 4, .s4, 0, 4, 5⟩,
    .ld ⟨⟨0, false⟩, .v 2, 0, none, .x4, .s32, false, false, .core, false, 0⟩,
    .ld ⟨⟨0, false⟩, .v 2, 0, some 1, .x4, .s32, false, true, .core, false, 0⟩,
    .ld ⟨⟨0, false⟩, .v 2, 0, some 1, .x4, .s32, false, false, .die, false, 0⟩,
    .ld ⟨⟨0, false⟩, .v 2, 0, some 1, .x4, .s32, false, false, .core, true, 0⟩,
    .ld ⟨⟨0, false⟩, .v 2, 0, some 1, .x4, .f32, false, false, .core, false, 0⟩,
    .ld ⟨⟨0, false⟩, .v 2, 0, some 1, .x4, .bp8, false, false, .core, false, 0⟩,
    .ldf ⟨⟨0, false⟩, .v 2, 0, some 1, .x4, .s32, false, false, .core, false, 0⟩,
    .sld ⟨⟨0, false⟩, .s 2, 0, some 1, .x4, .s32, false, false, .core, false, 0⟩,
    .fence ⟨⟨0, false⟩, .v 0, 1, none, .x1, .s32, false, false, .die, false, 0⟩,
    .atom .add .s32 ⟨⟨0, false⟩, .v 5, .k 1, .cst 1, 1, 0, false, false, .core⟩,
    .redm .add .s32 ⟨⟨0, false⟩, .v 0, .v 2, .v 3, 4, 0, true, false, .core⟩,
    .barinit ⟨⟨0, false⟩, .v 0, .cst 17, .cst 0, 0, 0, false, false, .core⟩,
    .netarr ⟨⟨0, false⟩, .s 3, .v 0, .v 0, 0, 64, false, false, .die⟩,
    .qopen ⟨⟨0, false⟩, .v 0, .s 6, .v 7, 4, 0, false, false, .core⟩,
    .enqt ⟨⟨0, false⟩, .k 0, .v 0, .v 9, 4, 0, false, false, .core⟩,
    .mmq ⟨0, 3, 0, false, 0⟩ ⟨⟨0, false⟩, 3, 10, 11, 0, 0, .bf16, .bf16⟩,
    .mmq ⟨0, 0, 0, false, 0⟩ ⟨⟨0, false⟩, 3, 10, 11, 0, 0, .bf16, .f16⟩,
    .mmqx ⟨0, 0, 0, false, 0⟩ ⟨⟨0, false⟩, 3, 10, 11, 0, 0, .bf16, .bf16⟩,
    .mxacq 3 ⟨⟨0, false⟩, 0, 0, 0, 0, 0, .s32, .s32⟩,
    .mxdrain ⟨0, true, true, false, false, true, .pkg⟩ ⟨⟨0, false⟩, 3, 7, 12, 0, 0, .f32, .s32⟩,
    .phmma 0 ⟨⟨0, false⟩, 3, 10, 11, 0, 0, .ph16, .ph16⟩,
    .cpytOm ⟨⟨0, false⟩, .b8, false, false, false, false, .core, 3, 5, some 0, .x1, 1, 0⟩,
    .cpyIn ⟨⟨0, false⟩, .b4, false, false, false, false, .die, 2, 0, some 1, .x4, 0, 16⟩,
    .rcfenceAll ⟨⟨0, false⟩, .b4, false, false, false, false, .core, 2, 0, none, .x1, 0, 0⟩,
    .netcfg ⟨⟨0, false⟩, .v 0, .s 6, .v 0, 13⟩,
    .bkpt ⟨⟨0, false⟩, .v 0, .s 6, .s 7, 16⟩,
    .tret ⟨⟨0, false⟩, .v 0, .v 0, .v 0, 1⟩] : List Instr), i.wf = false := by decide +kernel

/-- A register at or above the declared count (R70). -/
theorem test_ill_counts : (Instr.iadd (vr (.v 15) (.v 2) (.v 3) (.v 0) .s32)).fits 16 8 = true ∧
    (Instr.iadd (vr (.v 16) (.v 2) (.v 3) (.v 0) .s32)).fits 16 8 = false ∧
    (Instr.iadd (vr (.v 14) (.v 2) (.v 4) (.v 0) .s64)).fits 16 8 = true ∧
    (Instr.iadd (vr (.v 16) (.v 2) (.v 4) (.v 0) .s64)).fits 16 8 = false ∧
    (Instr.sadd (vr (.s 8) (.s 2) (.s 3) (.v 0) .s64)).fits 16 8 = false := by decide +kernel

/-- Words that are no instruction: a reserved major, one in tag space, fields that must be zero (R55, R69, R74). -/
theorem test_no_instruction : decode 0xC000000000000000 = .rsvd ∧ decode 0xE000000000000000 = .tag ∧
    decode 0x0000000000000001 = .ill := by decide +kernel


/-! ### A small machine -/

/-- A page of 1 GiB at virtual and physical address 0 that user mode may read and write. -/
def page : TlbEntry := ⟨0, 0, 2 ^ 30, 0x461⟩

/-- The group of State.withFetchWord, with word 0 to run and two s registers set. -/
def wg : Group := { oneWord bareGroup 0 with s := [(1, 5), (4, 1024), (5, 8), (6, 512)] }

def wctx : Context :=
  { id := 0, caps := [], root := 0, save := 0, saveLen := 0, evq := BitVec.ofNat 64 (2 ^ 52), home := 0, granted := [], far := [], energy := 3,
    budget := 100, bkpts := [], stopped := none, saves := [], ready := [], nodes := [], posts := [], lastSave := [], failed := [] }

/-- The package with one core in use: its context, one team with scratchpad, the page in its TLB. -/
def wm (g : Group) : State :=
  let c := { Core.reset with running := some 0, tlb := [page], frames := [blankFrame 0] }
  { State.reset with focus := some g, teams := [{ bareTeam with spadLen := 8192 }], contexts := [wctx], cores := [(0, c)] }

/-- As `wm`, the group not selected to issue. -/
def wq (g : Group) : State := { wm g with focus := none, groups := [g] }

def reachB (s : State) (g : Group) (need : Need) (w : Nat) (ls : List (Nat × Nat)) : Bool :=
  (watchFind s g true w ls).isNone && (watchFind s g false w ls).isNone && ls.all fun x => x.2 % w == 0 && decide (x.2 < 2 ^ 52) &&
    match tlbFind (s.core g.die g.core).tlb g.ctx x.2 with
    | some e => refused e.leaf g.sys need == false
    | none => false

theorem reaches_of_check {s : State} {g : Group} {need : Need} {w : Nat} {ls : List (Nat × Nat)} (h : reachB s g need w ls = true) :
    Reaches s g need w ls := by
  simp only [reachB, Bool.and_eq_true, Option.isNone_iff_eq_none, List.all_eq_true, beq_iff_eq, decide_eq_true_eq] at h
  refine ⟨fun wr => by cases wr <;> simp [h.1.1, h.1.2], fun x hx => ?_⟩
  obtain ⟨⟨h1, h2⟩, h3⟩ := h.2 x hx
  refine ⟨h1, h2, ?_⟩
  split at h3
  · next e he => exact ⟨e, he, by simpa using h3⟩
  · simp at h3

theorem paged_of_check {s : State} {g : Group} {need : Need} {va : Nat}
    (h : (decide (va < 2 ^ 52) && match tlbFind (s.core g.die g.core).tlb g.ctx va with
      | some e => refused e.leaf g.sys need == false
      | none => false) = true) : Paged s g need va := by
  simp only [Bool.and_eq_true, decide_eq_true_eq] at h
  refine ⟨h.1, ?_⟩
  have h3 := h.2
  split at h3
  · next e he => exact ⟨e, he, by simpa using h3⟩
  · simp at h3

/-! ### Hypotheses that are met: decoding, scalar, lanes -/

theorem witness_step : Selected (State.reset.withFetchWord 64 0x0104100000000004)
      (oneWord bareGroup 0x0104100000000004) ∧ (oneWord bareGroup 0x0104100000000004).word? = some 0x0104100000000004 ∧
    execHit (State.reset.withFetchWord 64 0x0104100000000004) (oneWord bareGroup 0x0104100000000004) = none ∧
    decode 0x0104100000000004 = .instr (.smovi ⟨⟨0, false⟩, .s 4, .v 0, false, 4⟩) ∧
    kMagic ((State.reset.withFetchWord 64 0x0104100000000004).kword (oneWord bareGroup 0x0104100000000004)) ≠ 0xC2 := by
  decide +kernel

theorem witness_encode : (Instr.smovi ⟨⟨0, false⟩, .s 4, .v 0, false, 4⟩).wf = true ∧
    (Instr.smovi ⟨⟨0, false⟩, .s 4, .v 0, false, 4⟩).isEvent = false := by decide +kernel

/-- DecodeFaults: each kind of word, a kernel of magic 0xC2 and an instruction new in CK3, an ill-formed instruction, one past the
declared counts, a privileged one in user mode. -/
theorem witness_decode_faults :
    (wm wg).focus = some wg ∧ decode 1 = .ill ∧ decode 0xC000000000000000 = .rsvd ∧ decode 0xE000000000000000 = .tag ∧
    (let s := { wm wg with teams := [{ bareTeam with kword := 0xC200000000000000 }] }
     kMagic (s.kword wg) = 0xC2 ∧ newInCk3 0xB0 = true) ∧
    Selected (wm wg) wg ∧ (Instr.tret ⟨⟨0, false⟩, .v 0, .v 0, .v 0, 1⟩).wf = false ∧
    (let s := { wm wg with teams := [{ bareTeam with kword := 0xC300000000000000 }] }
     (Instr.sadd (vr (.s 9) (.s 2) (.s 3) (.v 0) .s64)).fits (kVregs (s.kword wg)) (kSregs (s.kword wg)) = false) ∧
    (let i := Instr.tret ⟨⟨0, false⟩, .v 0, .v 0, .v 0, 0⟩
     i.wf = true ∧ i.fits (kVregs ((wm wg).kword wg)) (kSregs ((wm wg).kword wg)) = true ∧ wg.half = none ∧ i.pastSlot = false ∧
     i.privileged = true ∧ wg.sys = false) := by
  dsimp only; and_intros <;> decide +kernel

/-- The scalar and mask instructions, SRD, SWR, VTOS, votes, the immediate forms: every one may issue on the machine `wm`. -/
theorem witness_scalar :
    (let f := vr (.s 2) (.s 4) (.s 5) (.v 0) .s64
     ∀ i ∈ ([.sadd f, .ssub f, .smul f, .smulh f, .sand f, .sor f, .sxor f, .sandn f, .sshl f, .sshr f, .ssra f, .smin f, .smax f,
       .sminu f, .smaxu f, .scmp .lt f] : List Instr), Ready (wm wg) wg i) ∧
    (let f := vr (.s 2) (.s 4) (.s 5) (.s 6) .s64
     Ready (wm wg) wg (.smad f) ∧ Ready (wm wg) wg (.ssel f)) ∧
    (let f := vr (.s 2) (.s 4) (.v 0) (.v 0) .s64
     ∀ i ∈ ([.smov f, .sclz f, .spopc f] : List Instr), Ready (wm wg) wg i) ∧
    (let f := vr (.s 2) (.k 4) (.v 0) (.v 0) .s32
     Ready (wm wg) wg (.kpopc f) ∧ Ready (wm wg) wg (.kffs f)) ∧
    (let f := vr (.k 2) (.k 4) (.k 5) (.v 0) .s32
     ∀ i ∈ ([.kand f, .kor f, .kxor f, .kandn f] : List Instr), Ready (wm wg) wg i) ∧
    (let f := vr (.k 2) (.k 4) (.v 0) (.v 0) .s32
     Ready (wm wg) wg (.knot f) ∧ Ready (wm wg) wg (.kmov f) ∧ Ready (wm wg) wg (.voteBallot f)) ∧
    (let f := vr (.s 2) (.k 4) (.v 0) (.v 0) .s32
     Ready (wm wg) wg (.voteAny f) ∧ Ready (wm wg) wg (.voteAll f)) ∧
    wg.act ⟨0, false⟩ ≠ 0 := by
  dsimp only; and_intros <;> decide +kernel

theorem witness_special :
    (∀ r ∈ ([.grp, .team, .teams, .core, .part, .quad, .die, .pkg, .iter, .niter, .clk, .gtb, .nbv, .voidm, .bkpass, .energy, .role,
      .trapbase, .trapvec, .age, .frame] : List SpReg), Ready (wm wg) wg (.srd r (vr (.s 2) (.v 0) (.v 0) (.v 0) .s64))) ∧
    (∀ r ∈ ([.lane, .tid, .grp] : List SpReg), Ready (wm wg) wg (.srd r (vr (.v 2) (.v 0) (.v 0) (.v 0) .s64))) ∧
    dstBusy (wm wg) wg (.v 2) 1 (lanesOf wg.active) = false ∧
    (let f := vr (.v 0) (.s 4) (.v 0) (.v 0) .s64
     Ready (wm wg) wg (.swr .voidm f) ∧ Ready (wm wg) wg (.swr .bkpass f) ∧
     (let g := { wg with sys := true, s := [(4, 3), (5, 16), (6, 65535)] }
      (∀ r ∈ ([.trapbase, .trapvec, .nbv, .age] : List SpReg), Ready (wm g) g (.swr r f)) ∧
      ((g.rdSc (.s 4)).setWidth 32).toNat ∈ [1, 2, 3] ∧ 16 ≤ ((g.rdSc (.s 5)).setWidth 32).toNat ∧
      ((g.rdSc (.s 6)).setWidth 32).toNat ≤ 65535 ∧ ((g.rdSc (.s 0)).setWidth 32).toNat ∉ [1, 2, 3] ∧
      ((g.rdSc (.s 0)).setWidth 32).toNat < 16)) := by
  dsimp only; and_intros <;> decide +kernel

/-- VTOS in a group and in a legacy half. -/
theorem witness_vtos :
    (let f := vr (.s 2) (.v 3) (.s 5) (.v 0) .s64
     Ready (wm wg) wg (.vtos f) ∧ wg.half = none ∧ ((wg.rdSc f.b).setWidth 5).toNat = 8 ∧ (wg.act f.p).getLsbD 8 = true ∧
     Readable (wm wg) wg [⟨.v 3, 1, false, [(8, 8)]⟩] 0 ∧ Readable (wm wg) wg [⟨.v 3, 1, false, [(40, 8)]⟩] 0 ∧
     (let g := { wg with half := some 1, active := 0xFFFF }
      Ready (wm g) g (.vtos f) ∧ g.act f.p ≠ 0 ∧ Readable (wm g) g [⟨.v 3, 1, false, [(8, 8)]⟩] 0)) := by
  dsimp only; and_intros <;> decide +kernel

/-- A group in which no lane acts: k1 is 0. -/
theorem witness_uniform_idle : wg.act ⟨1, false⟩ = 0 ∧
    Ready (wm wg) wg (.sadd { vr (.s 2) (.s 4) (.s 5) (.v 0) .s64 with p := ⟨1, false⟩ }) ∧
    Ready (wm wg) wg (.smovi ⟨⟨1, false⟩, .s 4, .v 0, false, 4⟩) ∧ Ready (wm wg) wg (.bra ⟨⟨1, false⟩, .v 0, 0, 5⟩) ∧
    Ready (wm wg) wg (.pipe ⟨⟨1, false⟩, .s 4, .s4, 0, 4, 5⟩) ∧
    Ready (wm wg) wg (.sld ⟨⟨1, false⟩, .s 2, 4, none, .x1, .s32, false, false, .core, false, 0⟩) ∧
    Ready (wm wg) wg (.barinit ⟨⟨1, false⟩, .v 0, .s 5, .cst 0, 0, 0, false, false, .core⟩) ∧
    Ready (wm wg) wg (.mxrel ⟨⟨1, false⟩, 0, 0, 0, 0, 0, .s32, .s32⟩) ∧
    Ready (wm wg) wg (.cpyIn ⟨⟨1, false⟩, .b4, false, false, false, false, .core, 4, 0, some 1, .x4, 0, 0⟩) ∧
    Ready (wm wg) wg (.trap ⟨⟨1, false⟩, .v 0, .v 0, .v 0, 5⟩) ∧
    Ready (wm wg) wg (.redg .add { vr (.s 2) (.v 2) (.v 0) (.v 0) .s32 with p := ⟨1, false⟩ }) := by decide +kernel

/-- LaneReady as a Boolean. -/
def laneReadyB (i : Instr) (f : VR) (s : State) (g : Group) (vm : W32) : Bool :=
  decide (Ready s g i) && match i.vsig with
    | some (sg, f2) => f2 == f && readSrcs s g false (vrSrcs sg f (g.act f.p)) == .ok vm
        && !dstBusy s g f.dst (if sg.dst.is64 f.ty then 2 else 1) (lanesOf (g.act f.p))
    | none => false

theorem laneReady_of_check {i : Instr} {f : VR} {s : State} {g : Group} {vm : W32} (h : laneReadyB i f s g vm = true) :
    LaneReady i f s g vm := by
  simp only [laneReadyB, Bool.and_eq_true, decide_eq_true_eq] at h
  refine ⟨h.1, ?_⟩
  have h3 := h.2
  split at h3
  · next sg f2 he =>
    simp only [Bool.and_eq_true, beq_iff_eq, Bool.not_eq_true'] at h3
    obtain ⟨⟨rfl, h4⟩, h5⟩ := h3
    exact ⟨sg, he, h4, h5⟩
  · simp at h3

/-- Every per-lane instruction of the integer, floating and phasor families may issue. -/
theorem witness_lanes :
    (let f := vr (.v 2) (.v 4) (.v 6) (.v 0) .s64
     ∀ i ∈ ([.iadd f, .isub f, .imul f, .imulh f, .imin f, .imax f, .iadds f, .isubs f, .and f, .or f, .xor f, .andn f, .shl f, .shr f,
       .sra f, .rotl f] : List Instr), laneReadyB i f (wm wg) wg 0 = true) ∧
    (let f := vr (.v 1) (.v 3) (.v 5) (.v 0) .n32
     ∀ i ∈ ([.iadd f, .imulhu f] : List Instr), laneReadyB i f (wm wg) wg 0 = true) ∧
    (let f := vr (.v 1) (.v 3) (.v 5) (.v 7) .s32
     ∀ i ∈ ([.imad f, .bfx f, .bfi f, .bytep f] : List Instr), laneReadyB i f (wm wg) wg 0 = true) ∧
    (let f := vr (.v 1) (.v 3) (.v 0) (.v 0) .s32
     ∀ i ∈ ([.iabs f, .ineg f, .mov f, .popc f, .clz f, .ctz f, .brev f, .cvti .s8 f, .match_ f, .redg .add f, .scang .add true f,
       .cmpct { f with b := .k 1 }] : List Instr), laneReadyB i (match i with | .cmpct f => f | _ => f) (wm wg) wg 0 = true) ∧
    (let f := vr (.v 2) (.v 3) (.v 5) (.v 0) .s32
     laneReadyB (.imadw { f with c := .v 6 }) { f with c := .v 6 } (wm wg) wg 0 = true ∧ laneReadyB (.iaddw f) f (wm wg) wg 0 = true ∧
     laneReadyB (.isubw f) f (wm wg) wg 0 = true ∧ laneReadyB (.lea 2 { f with a := .v 4 }) { f with a := .v 4 } (wm wg) wg 0 = true) ∧
    (let f := vr (.v 2) (.k 1) (.v 4) (.v 6) .s64
     laneReadyB (.sel f) f (wm wg) wg 0 = true) := by
  dsimp only; and_intros <;> decide +kernel

theorem witness_float_lanes :
    (let f := vr (.v 1) (.v 3) (.v 5) (.v 0) .f32
     ∀ i ∈ ([.fadd f, .fsub f, .fmul f, .fmin f, .fmax f, .fscale f] : List Instr), laneReadyB i f (wm wg) wg 0 = true) ∧
    (let f := vr (.v 1) (.v 3) (.v 5) (.v 7) .f32
     laneReadyB (.ffma f) f (wm wg) wg 0 = true) ∧
    (let f := vr (.v 1) (.v 3) (.v 0) (.v 0) .f32
     ∀ i ∈ ([.fclass f, .frint f, .fcvt false .s64 { f with a := .v 4 }] : List Instr),
       laneReadyB i (match i with | .fcvt _ _ f => f | _ => f) (wm wg) wg 0 = true) ∧
    (let f := vr (.v 1) (.v 3) (.v 5) (.v 0) .f16
     laneReadyB (.hadd2 f) f (wm wg) wg 0 = true ∧ laneReadyB (.hmul2 f) f (wm wg) wg 0 = true ∧
     laneReadyB (.hfma2 { f with c := .v 7 }) { f with c := .v 7 } (wm wg) wg 0 = true) ∧
    laneReadyB (.bfma2 (vr (.v 1) (.v 3) (.v 5) (.v 7) .bf16)) (vr (.v 1) (.v 3) (.v 5) (.v 7) .bf16) (wm wg) wg 0 = true ∧
    laneReadyB (.qdot4 (vr (.v 1) (.v 3) (.v 5) (.v 7) .e4)) (vr (.v 1) (.v 3) (.v 5) (.v 7) .e4) (wm wg) wg 0 = true ∧
    (let f := vr (.v 1) (.v 3) (.v 5) (.v 0) .ph8
     ∀ i ∈ ([.phadd f, .phsub f, .phmuli f, .phfrom f] : List Instr), laneReadyB i f (wm wg) wg 0 = true) ∧
    (let f := vr (.v 1) (.v 3) (.v 0) (.v 0) .ph16
     ∀ i ∈ ([.phneg f, .phred f, .phsin f, .phcos f, .phredEnd f, .phcvt .ph8 f] : List Instr), laneReadyB i f (wm wg) wg 0 = true) ∧
    (let f := vr (.v 9) (.v 3) (.v 0) (.v 0) .ph16
     Ready (wm wg) wg (.phredAcc f) ∧ Readable (wm wg) wg [srcAt f.a false f.ta (wg.act f.p),
       ⟨f.dst, 3, false, (lanesOf (wg.act f.p)).map fun l => (l, l)⟩] 0) ∧ wg.nbv ∈ [1, 2, 3] := by
  dsimp only; and_intros <;> decide +kernel

/-- NanOperands and MinMax: lanes with one NaN, with two, with none. -/
theorem witness_nan : codeNan 0x7FC00001 = true ∧ codeNan 0xFF800001 = true ∧ codeNan 0x7F800000 = false ∧
    (let g := { wg with v := [(3, ⟨0x7F800001, false, .ok⟩)] }
     laneReadyB (.fadd (vr (.v 1) (.v 0) (.v 5) (.v 0) .f32)) (vr (.v 1) (.v 0) (.v 5) (.v 0) .f32) (wm g) g 0 = true ∧
     codeNan ((wm g).rd32 g .f32 (.v 0) 3).toNat = true ∧ codeNan ((wm g).rd32 g .f32 (.v 5) 3).toNat = false) := by
  dsimp only; and_intros <;> decide +kernel

theorem witness_rounding : (0x3F800000 < 2 ^ fF32.width ∧ fF32.dec 0x3F800000 = .fin false 8388608 (-23)) ∧
    (1 < 2 ^ fE4.width ∧ fE4.dec 1 = .fin false 1 (-9)) := by decide +kernel

theorem witness_compares :
    (let f := vr (.k 2) (.v 3) (.v 5) (.v 0) .f32
     Ready (wm wg) wg (.fcmp .lt f) ∧ ∀ sg, (Instr.fcmp .lt f).vsig = some (sg, f) → Readable (wm wg) wg (vrSrcs sg f (wg.act f.p)) 0) ∧
    (let f := vr (.k 2) (.v 3) (.v 5) (.v 0) .ph8
     Ready (wm wg) wg (.phcmp .ahead f) ∧
       ∀ sg, (Instr.phcmp .ahead f).vsig = some (sg, f) → Readable (wm wg) wg (vrSrcs sg f (wg.act f.p)) 0) ∧
    (let f := vr (.k 2) (.v 4) (.v 6) (.v 0) .n64
     Ready (wm wg) wg (.icmp .lt f) ∧ Readable (wm wg) wg (vrSrcs ⟨.k, lT, lT, .unused, tys4, false⟩ f (wg.act f.p)) 0) := by
  refine ⟨⟨by decide +kernel, fun sg h => ?_⟩, ⟨by decide +kernel, fun sg h => ?_⟩, by decide +kernel⟩
  all_goals
    simp only [Instr.vsig, Option.some.injEq, Prod.mk.injEq, and_true] at h
    subst h; decide +kernel

theorem witness_immediates :
    dstBusy (wm wg) wg (.v 2) 1 (lanesOf (wg.act ⟨0, false⟩)) = false ∧ Ready (wm wg) wg (.movi ⟨⟨0, false⟩, .v 2, .v 0, false, 4⟩) ∧
    (let f : VI := ⟨⟨0, false⟩, .v 2, .v 3, false, 4⟩
     (∀ i ∈ ([.iaddi f, .andi f, .ori f, .xori f] : List Instr), Ready (wm wg) wg i) ∧
     Readable (wm wg) wg [srcAt f.a false f.ta (wg.act f.p)] 0) ∧
    (let f : VI := ⟨⟨0, false⟩, .s 4, .v 0, false, 4⟩
     Ready (wm wg) wg (.smovi f) ∧ Ready (wm wg) wg (.smovh f)) := by
  dsimp only; and_intros <;> decide +kernel

/-- Cross-lane: shuffles at every width, also the default width in a legacy half. -/
theorem witness_crosslane :
    (∀ sw ∈ ([.dflt, .w1, .w2, .w4, .w8, .w16, .w32] : List ShW),
      let f := vr (.v 1) (.v 3) (.v 5) (.v 0) .s32
      ∀ i ∈ ([.shflIdx sw f, .shflUp sw f, .shflDn sw f, .shflXor sw f] : List Instr), Ready (wm wg) wg i) ∧
    Readable (wm wg) wg [srcAt (.v 5) false false wg.active, ⟨.v 3, 1, false, (lanesOf wg.active).map fun l => (l, l)⟩] 0 ∧
    (let g := { wg with half := some 0, active := 0xFFFF }
     Ready (wm g) g (.shflIdx .dflt (vr (.v 1) (.v 3) (.v 5) (.v 0) .s32)) ∧
     Ready (wm g) g (.bcast (vr (.v 1) (.v 3) (.s 5) (.v 0) .s32))) ∧
    Ready (wm wg) wg (.bcast (vr (.v 1) (.v 3) (.s 5) (.v 0) .s32)) ∧
    Readable (wm wg) wg [⟨.v 3, 1, false, (lanesOf wg.active).map fun l => (l, 8)⟩] 0 ∧
    Ready (wm wg) wg (.redg .add (vr (.s 2) (.v 2) (.v 0) (.v 0) .s32)) ∧ Ready (wm wg) wg (.cmpct (vr (.v 1) (.v 3) (.k 1) (.v 0) .s32)) ∧
    Readable (wm wg) wg [⟨.v 3, 1, false, []⟩] 0 ∧ dstBusy (wm wg) wg (.v 1) 1 (List.range 0) = false ∧
    Ready (wm wg) wg (.voteEq (vr (.s 2) (.v 2) (.v 0) (.v 0) .s32)) ∧
    Readable (wm wg) wg [srcAt (.v 2) false false wg.active] 0 := by
  dsimp only; and_intros <;> decide +kernel


/-! ### Hypotheses that are met: control and memory -/

/-- Transfers taken and not taken, an indirect one to an aligned and to a misaligned address. -/
theorem witness_transfers :
    (let f : FC := ⟨⟨0, false⟩, .v 0, 0, 5⟩
     Ready (wm wg) wg (.bra f) ∧ wg.act f.p ≠ 0) ∧
    (∀ a ∈ ([.s 0, .s 4] : List Opnd), let f : FC := ⟨⟨0, false⟩, a, 0, 5⟩
     Ready (wm wg) wg (.bz f) ∧ Ready (wm wg) wg (.bnz f)) ∧ wg.rdSc (.s 0) = 0 ∧ wg.rdSc (.s 4) ≠ 0 ∧
    (∀ a ∈ ([.k 0, .k 1] : List Opnd), let f : FC := ⟨⟨0, false⟩, a, 0, 5⟩
     Ready (wm wg) wg (.bany f) ∧ Ready (wm wg) wg (.ball f) ∧ Ready (wm wg) wg (.bnone f)) ∧
    (wg.rdSc (.k 0)).setWidth 32 &&& wg.active = wg.active ∧ (wg.rdSc (.k 1)).setWidth 32 &&& wg.active = 0 ∧
    Ready (wm wg) wg (.call ⟨⟨0, false⟩, .v 0, 3, 5⟩) ∧ Ready (wm wg) wg (.ret ⟨⟨0, false⟩, .v 0, 4, 0⟩) ∧
    Ready (wm wg) wg (.brx ⟨⟨0, false⟩, .s 1, 0, 0⟩) ∧ (wg.rdS 4).toNat % 8 = 0 ∧ (wg.rdSc (.s 1)).toNat % 8 ≠ 0 := by
  dsimp only; and_intros <;> decide +kernel

/-- NOP, EXIT with lanes left and with none, REFORM. -/
theorem witness_exit_reform :
    (let f : FC := ⟨⟨0, false⟩, .v 0, 0, 0⟩
     Ready (wm wg) wg (.nop f) ∧ Ready (wm wg) wg (.exit f) ∧ wg.active &&& ~~~ (wg.act f.p) = 0) ∧
    (let f : FC := ⟨⟨1, false⟩, .v 0, 0, 0⟩
     Ready (wm wg) wg (.exit f) ∧ wg.active &&& ~~~ (wg.act f.p) ≠ 0) ∧
    (let f : FC := ⟨⟨0, false⟩, .v 3, 0, 0⟩
     Ready (wm wg) wg (.reform f) ∧ Readable (wm wg) wg [srcAt f.a false false (wg.act f.p)] 0 ∧
     wg.v.all (fun x => !x.2.empty) = true) := by
  dsimp only; and_intros <;> decide +kernel

/-- A word access [s4 + v3*4], every lane at 1024. -/
def fm (data : Opnd) (ty : Ty) : FM := ⟨⟨0, false⟩, data, 4, some 3, .x4, ty, false, false, .core, false, 0⟩

theorem witness_loads :
    (let f := fm (.v 2) .s64
     Ready (wm wg) wg (.ld f) ∧ Ready (wm wg) wg (.lds f) ∧ Readable (wm wg) wg (idxSrc f (wg.act f.p)) 0 ∧
     dstBusy (wm wg) wg f.data (memRegs (memW f.ty)) (lanesOf (wg.act f.p)) = false ∧
     Reaches (wm wg) wg .rd (memW f.ty) ((lanesOf (wg.act f.p)).map fun l => (l, eaOf wg f l)) ∧
     ∃ t, (wm wg).team? wg.team = some t ∧
       ReachesSpad t (memW f.ty) false ((lanesOf (wg.act f.p)).map fun l => (l, eaOf wg f l))) ∧
    (let f := fm (.v 2) .f32
     let s := (wm wg).setCore 0 0 { (wm wg).core 0 0 with tlb := [{ page with leaf := 0x1000000000000461 }] }
     Ready s wg (.ldf f) ∧
     ∀ x ∈ hitXls s wg ((lanesOf (wg.act f.p)).map fun l => (l, eaOf wg f l)),
       x.va % fmtWidth (leafFmt x.leaf) = 0 ∧ ldfIsF32 (leafFmt x.leaf) = some (f.ty == .f32) ∧ ldfReads x ≠ []) := by
  dsimp only; and_intros
  all_goals first | decide +kernel | exact reaches_of_check (by decide +kernel) | exact ⟨_, rfl, by unfold ReachesSpad; decide +kernel⟩

theorem witness_sld :
    (let f : FM := ⟨⟨0, false⟩, .s 2, 4, none, .x1, .s16, false, false, .core, false, 2⟩
     Ready (wm wg) wg (.sld f) ∧ wg.act f.p ≠ 0 ∧ Reaches (wm wg) wg .rd (memW f.ty) [(0, eaOf wg f 0)] ∧ eaOf wg f 0 = 1026 ∧
     blocked (wm wg).accs { gAcc wg 0x65 .load (.glob (paOf (wm wg) wg 1026)) 1026 2 false false .core with id := 1, seq := 1 } = false ∧
     (accRead (wm wg) { gAcc wg 0x65 .load (.glob (paOf (wm wg) wg 1026)) 1026 2 false false .core with id := 1, seq := 1 }).all
       (fun b => b.2 == .ok) = true ∧ missesL1 (wm wg) wg (paOf (wm wg) wg 1026) 2 = true ∧ wg.idx + 1 = wg.count ∧
     (let g := { wg with clause := some ⟨0, [0, 0]⟩ }
      Ready (wm g) g (.sld f) ∧ g.idx + 1 ≠ g.count)) := by
  dsimp only; and_intros
  all_goals first | decide +kernel | exact reaches_of_check (by decide +kernel)

theorem witness_stores :
    (let f := fm (.v 5) .s32
     let ls := (lanesOf (wg.act f.p)).map fun l => (l, eaOf wg f l)
     uncommitted (wm wg) wg = false ∧ Ready (wm wg) wg (.st f) ∧ Ready (wm wg) wg (.sts f) ∧
     readSrcs (wm wg) wg true (idxSrc f (wg.act f.p) ++ [⟨f.data, 1, f.t, (lanesOf (wg.act f.p)).map fun l => (l, l)⟩]) = .ok 0 ∧
     firstBad (wm wg) wg (idxSrc f (wg.act f.p)) = none ∧ Reaches (wm wg) wg .wr 4 ls ∧ LinesFollow (wm wg) wg ls ∧
     ∃ t, (wm wg).team? wg.team = some t ∧ ReachesSpad t 4 true ls) ∧
    (let f : FM := ⟨⟨0, false⟩, .s 1, 4, none, .x1, .s32, false, false, .core, false, 0⟩
     Ready (wm wg) wg (.sst f) ∧ Reaches (wm wg) wg .wr 4 [(0, eaOf wg f 0)]) := by
  dsimp only; and_intros
  all_goals first
    | decide +kernel
    | exact reaches_of_check (by decide +kernel)
    | exact ⟨_, rfl, by unfold ReachesSpad; decide +kernel⟩
    | (unfold LinesFollow; decide +kernel)

/-- PREF, CCTL, fences, WAITL at a line in no cache, at one in L1, at a far one, and after a wake. -/
theorem witness_cache :
    (let f := fm (.v 0) .s32
     Readable (wm wg) wg (idxSrc f (wg.act f.p)) 0 ∧ Ready (wm wg) wg (.pref .l1 f) ∧
     (∀ x ∈ (xlateAll (wm wg) 0 0 0 0 ((lanesOf (wg.act f.p)).map fun l => (l, eaOf wg f l))).2, x.2.2 ≠ .miss) ∧
     Ready (wm wg) wg (.cctlInv1 f) ∧
     (∀ i ∈ ([.cctlWb f, .cctlEvict f] : List Instr), Ready (wm { wg with sys := true }) { wg with sys := true } i) ∧
     Reaches (wm wg) wg .rd 1 ((lanesOf (wg.act f.p)).map fun l => (l, eaOf wg f l))) ∧
    (let f : FM := ⟨⟨0, false⟩, .s 5, 4, none, .x1, .s32, false, false, .die, false, 0⟩
     Ready (wm wg) wg (.fence { f with data := .v 0, base := 0 }) ∧ Ready (wm wg) wg (.fenceRg f) ∧ wg.rdSc f.data ≠ 0 ∧
     Ready (wm wg) wg (.fenceRg { f with data := .s 0 }) ∧
     (let w := { f with scope := .core }
      Ready (wm wg) wg (.waitl w) ∧ wg.sleep ≠ .rewoken ∧ Reaches (wm wg) wg .rd 1 [(0, eaOf wg w 0)] ∧
      paFar (paOf (wm wg) wg 1024) = false ∧ ((wm wg).core 0 0).line? (1024 / 128) = none ∧
      (((wm wg).setCore 0 0 { (wm wg).core 0 0 with l1 := [⟨8, 15, [], [], (0, 0)⟩] }).core 0 0).line? (1024 / 128) = some ⟨8, 15, [], [], (0, 0)⟩ ∧
      Ready (wm { wg with sleep := .rewoken }) { wg with sleep := .rewoken } (.waitl w))) := by
  dsimp only; and_intros
  all_goals first | decide +kernel | exact reaches_of_check (by decide +kernel)

theorem witness_atomics :
    (let f : FQ := ⟨⟨0, false⟩, .v 8, .v 3, .v 5, 4, 0, false, false, .pkg⟩
     let ls := (lanesOf (wg.act f.p)).map fun l => (l, (wg.rdS 4 + ((wm wg).rd32 wg .f32 f.a l).setWidth 64).toNat)
     uncommitted (wm wg) wg = false ∧ Ready (wm wg) wg (.atom .cas .s32 f) ∧ Ready (wm wg) wg (.redm .add .s32 { f with dst := .v 0 }) ∧
     Ready (wm wg) wg (.atoms .add .s32 { f with scope := .core }) ∧
     Readable (wm wg) wg [srcAt f.a false false (wg.act f.p), srcAt f.b false false (wg.act f.p), srcAt f.dst false false (wg.act f.p)] 0 ∧
     dstBusy (wm wg) wg f.dst 1 (lanesOf (wg.act f.p)) = false ∧ Reaches (wm wg) wg .both 4 ls ∧
     (∀ x ∈ ls, paRemote (paOf (wm wg) wg x.2) = false ∧ paHost (paOf (wm wg) wg x.2) = false) ∧
     ∃ t, (wm wg).team? wg.team = some t ∧ ReachesSpad t 4 true ls) := by
  dsimp only; and_intros
  all_goals first | decide +kernel | exact reaches_of_check (by decide +kernel) | exact ⟨_, rfl, by unfold ReachesSpad; decide +kernel⟩

/-! ### Barriers -/

/-- A team whose object at offset 64 is armed for 32 arrivals, `arr` of them made, in phase 5. -/
def wteam (arr : Nat) : Team := register (writeObj { bareTeam with spadLen := 8192 } 64 ⟨32, arr, 0, 0, 1, 0, 0, 5⟩) 64
def wbar (arr : Nat) : State := { wm { wg with s := [(4, 64), (1, 4)] } with teams := [wteam arr] }

/-- Barrier objects: one not yet armed, one armed that completes, one that does not, a phase past and not past, one killed. -/
theorem witness_barrier_objects :
    (let g := { wg with s := [(4, 64), (1, 4)] }
     let f : FQ := ⟨⟨0, false⟩, .v 0, .v 0, .v 0, 4, 0, false, false, .core⟩
     g.act f.p ≠ 0 ∧ uncommitted (wbar 0) g = false ∧ ObjReady (wbar 0) g f (wteam 0) 64 false ∧ ObjReady (wbar 0) g f (wteam 0) 64 true ∧
     Ready (wbar 0) g (.bararr f) ∧ Ready (wbar 0) g (.barkill f) ∧ Ready (wbar 0) g (.barwait { f with a := .s 1 }) ∧
     Ready (wbar 0) g (.bartest { f with a := .s 1, dst := .s 2 }) ∧ Ready (wbar 0) g (.barinit { f with a := .s 1, b := .cst 0 }) ∧
     (readObj (wteam 0) 64).st = 1 ∧ (readObj (wteam 0) 64).arr + 32 = (readObj (wteam 0) 64).expa ∧ (readObj (wteam 0) 64).phase = 5 ∧
     (readObj (wteam 0) 64).land = 0 ∧
     (BitVec.ofNat 16 5 - (g.rdSc (.s 1)).setWidth 16).toNat = 1 ∧ ((g.rdSc (.s 1)).setWidth 32).toNat = 4 ∧
     (readObj { bareTeam with spadLen := 8192 } 64).st = 0) ∧
    (let g := { wg with s := [(4, 64), (1, 4)], active := 1 }
     let f : FQ := ⟨⟨0, false⟩, .v 0, .v 0, .v 0, 4, 0, false, false, .core⟩
     (lanesOf (g.act f.p)).length = 1 ∧ (readObj (wteam 30) 64).arr + 1 < (readObj (wteam 30) 64).expa) := by
  unfold ObjReady; dsimp only; and_intros <;> decide +kernel

def wnet : NetBar := ⟨⟨.die, 0, 3⟩, some 0, 5, 7, 0, 2, [], []⟩

theorem witness_network :
    (let f : FQ := ⟨⟨0, false⟩, .s 3, .v 0, .v 0, 0, 5, false, false, .die⟩
     let s := { wm wg with nets := [wnet] }
     netOf s wg f = some wnet ∧ Ready s wg (.netarr f) ∧ wnet.arrived.all (fun x => x.1 != wg.gid) = true ∧ allDone s wg f.scope = true ∧
     wnet.arr + 1 < wnet.exp ∧ { wnet with exp := 1 }.exp ≤ wnet.arr + 1 ∧ podCut s wnet = false ∧
     netOf { s with nets := [{ wnet with exp := 1 }] } wg f = some { wnet with exp := 1 } ∧
     Ready s wg (.netwait { f with dst := .v 0, a := .s 0 }) ∧
     seenGen (s.partOf wg) wnet = 7 ∧ seenGen (s.partOf wg) { wnet with rel := [⟨7, 0, []⟩] } = 6 ∧
     (BitVec.ofNat 16 (seenGen ((s.partOf wg).see wnet.key 0) wnet) - (wg.rdSc (.s 0)).setWidth 16).toNat = 0 ∧
     (BitVec.ofNat 16 (seenGen ((s.partOf wg).see wnet.key 1) wnet) - (wg.rdSc (.s 0)).setWidth 16).toNat = 1) := by
  dsimp only; and_intros <;> decide +kernel

/-! ### Pipes -/

/-- The machine after an instruction, where it answers a next state. -/
def after (i : Instr) (s : State) : State := match exec i s with | .next t => t | _ => s

def fpipe : FPipe := ⟨⟨0, false⟩, .s 1, .s4, 0, 4, 5⟩
/-- A pipe of 5 iterations opened, iteration 0 started. -/
def wopen : State := after (.pipe fpipe) (wm wg)
/-- Iteration 0 selected to issue. -/
def witer : Group := oneWord ((wopen.groups.head?).getD wg) 0
def wloop : State := { wopen with focus := some witer, groups := [] }
/-- Every iteration over: the opener selected. -/
def wover : Group := oneWord (wopen.focus.getD wg) 0
def wpipe : Pipe := ((wopen.partOf wg).pipe? 0).getD (newPipe (wm wg) wg fpipe false 0 0)
def wdone : State :=
  let q := { wpipe with brk := some 2, iters := wpipe.iters.map fun x => { x with st := .pended } }
  { wopen.setPartOf wg ((wopen.partOf wg).setPipe q) with focus := some wover, groups := [] }

theorem witness_pipe_opens : Ready (wm wg) wg (.pipe fpipe) ∧ Ready (wm wg) wg (.pipeH { fpipe with a := .s 0 }) ∧
    wg.act fpipe.p ≠ 0 ∧ (pipeRoom (wm wg) wg).isSome = true ∧ ((wg.rdSc fpipe.a).setWidth 32).toNat = 5 ∧
    ((wg.rdSc (.s 0)).setWidth 32).toNat = 0 := by
  and_intros <;> decide +kernel

theorem witness_iteration_ends :
    (let f := vr (.v 0) (.v 0) (.v 0) (.v 0) .s32
     witer.act f.p ≠ 0 ∧ witer.iter = some ⟨0, 0, false⟩ ∧ wloop.pipeOf witer = some wpipe ∧ (wpipe.iter? 0).isSome = true ∧
     wpipe.owedOwn 0 = false ∧ (wloop.accs.map (·.id)).Nodup ∧ Ready wloop witer (.pend f) ∧ Ready wloop witer (.pbrk f) ∧ wpipe.brk = none) := by
  dsimp only; and_intros <;> decide +kernel

theorem witness_pipe_queries :
    (let f := vr (.s 2) (.v 0) (.v 0) (.v 0) .s32
     let q := ((wdone.partOf wover).pipe? 0).getD wpipe
     Ready wdone wover (.pjoin f) ∧ wover.act f.p ≠ 0 ∧ wover.opened = some 0 ∧ (wdone.partOf wover).pipe? 0 = some q ∧
     q.brk.isSome = true ∧ q.iters.all (fun x => x.st != .running) = true ∧ wdone.accs = [] ∧
     Ready wdone wover (.pstat f) ∧ wover.iter = none ∧ Ready wloop witer (.pstat f) ∧ Ready (wm wg) wg (.pstat f) ∧ wg.iter = none ∧
     wg.opened = none) ∧
    (let f := vr (.y 1) (.v 0) (.v 0) (.v 0) .s32
     Ready wloop witer (.yvoid f) ∧ dstBusy wloop witer f.dst 1 (lanesOf (witer.act f.p)) = false) := by
  dsimp only; and_intros <;> decide +kernel

/-! ### Queues -/

/-- A queue at 512 of 4 elements of 128 B, elements from 4096 on, `n` of them published; with `work` one of the front end's. -/
def wqcb (n : Nat) (work : Bool) : Qcb :=
  ((freshQcb State.reset 512 7 2 2 4096).set 3 n).set 4 (4 - n) |>.set 6 (2 * 4 + (if work then 65536 else 0))
def wqueue (n : Nat) (work : Bool) : State := { changeQ (wm wg) 512 none (wqcb n work) ⟨512, [], [], [], [], []⟩ with focus := some wg }
def wqf : FQ := ⟨⟨0, false⟩, .v 0, .v 0, .v 9, 6, 0, false, false, .core⟩
/-- Elements 2 to 4 in four slots, the last two of them not yet published, and two dequeues under way. -/
def wreserved : State :=
  changeQ (wm wg) 512 none ((((wqcb 0 false).set 2 2).set 3 5).set 4 1 |>.set 5 (2 + 2 * 2 ^ 21)) ⟨512, [0, 1], [3, 4], [], [], []⟩

/-- The queue empty, with one element, and full, is open to the group. -/
theorem witness_queue_open : ∀ n ∈ [0, 1, 4], ∀ w, QueueOpen (wqueue n w) wg wqf 512 (readQcb (wqueue n w) 512) := by
  intro n hn w
  simp only [List.mem_cons, List.not_mem_nil, or_false] at hn
  rcases hn with rfl | rfl | rfl <;> cases w <;> unfold QueueOpen QueueAt <;> and_intros <;>
    first | decide +kernel | exact reaches_of_check (by decide +kernel) | rfl

theorem witness_reservations :
    (let q := readQcb (wqueue 0 false) 512
     Ready (wqueue 0 false) wg (.enq wqf) ∧ Ready (wqueue 0 false) wg (.enqt { wqf with dst := .k 2 }) ∧
     9 + elemRegs wg q.e ≤ kVregs ((wqueue 0 false).kword wg) ∧
     readSrcs (wqueue 0 false) wg true [⟨.v 9, elemRegs wg q.e, false, (elemLanes wg q.e).map fun l => (l, l)⟩] = .ok 0 ∧ q.free ≠ 0 ∧
     q.pe + q.pd < q.cap ∧ (let r := readQcb wreserved 512
      r.ok wreserved 512 = true ∧ r.free ≠ 0 ∧ r.cap ≤ r.pe + r.pd ∧ r.head < r.tail - r.pe) ∧
     Reaches (wqueue 0 false) wg .wr 1 (slotLines q q.tail) ∧ (readQcb (wqueue 4 false) 512).free = 0 ∧
     q.tail - q.pe ≤ q.head) ∧
    (let q := readQcb (wqueue 1 false) 512
     let f := { wqf with dst := .v 9, b := .v 0 }
     Ready (wqueue 1 false) wg (.deq f) ∧ Ready (wqueue 1 false) wg (.deqt { f with a := .k 2 }) ∧
     dstBusy (wqueue 1 false) wg (.v 9) (elemRegs wg q.e) (elemLanes wg q.e) = false ∧ q.head < q.tail - q.pe ∧ q.pe + q.pd < q.cap ∧
     (wqueue 1 false).contexts.all (fun c => c.posts.isEmpty) = true ∧ Reaches (wqueue 1 false) wg .rd 1 (slotLines q q.head)) ∧
    (let q := readQcb (wqueue 0 true) 512
     let f : FY := ⟨⟨0, false⟩, .s 2, .s 6, .s 4, 0⟩
     (lnchQ f).base = 6 ∧ Ready (wqueue 0 true) wg (.lnch f) ∧ Reaches (wqueue 0 true) wg .rd 128 [(0, (wg.rdSc f.b).toNat)] ∧
     q.f 6 16 1 = 1 ∧ q.free ≠ 0 ∧ q.pe + q.pd < q.cap ∧ Reaches (wqueue 0 true) wg .wr 1 (slotLines q q.tail)) := by
  dsimp only; and_intros
  all_goals first | decide +kernel | exact reaches_of_check (by decide +kernel)

/-- QOPEN where no block stands, QCLOSE and QSTAT of an open queue, QSTAT of a block that is none. -/
theorem witness_queue_control :
    (let g := { wg with s := [(6, 512), (4, BitVec.ofNat 64 (7 + 2 * 256 + 2 * 65536)), (5, 4096)] }
     let f := { wqf with a := .s 4, b := .s 5 }
     let sp : W64 := g.rdSc f.a
     Ready (wm g) g (.qopen f) ∧ QueueAt (wm g) g f 512 ∧ uncommitted (wm g) g = false ∧ (wm g).pkg < 64 ∧
     (readQcb (wm g) 512).f 0 0 16 ≠ 0x51C3 ∧ (sp.extractLsb' 0 4).toNat = 7 ∧ (sp.extractLsb' 8 5).toNat = 2 ∧
     (sp.extractLsb' 16 3).toNat = 2 ∧ sp.extractLsb' 4 4 = 0 ∧ sp.extractLsb' 13 3 = 0 ∧ sp >>> 19 = 0 ∧ (g.rdSc f.b).toNat % 64 = 0 ∧
     mayUse g 512 2 = true ∧ allDone (wm g) g (scopeOfCode 2) = true) ∧
    (let f := { wqf with b := .v 0 }
     Ready (wqueue 1 false) wg (.qclose f) ∧ Ready (wqueue 1 false) wg (.qcloseKill f) ∧
     Ready (wqueue 1 false) wg (.qstat { f with dst := .s 2 }) ∧ (readQcb (wqueue 1 false) 512).ok (wqueue 1 false) 512 = true ∧
     mayUse wg 512 2 = true ∧ Ready (wm wg) wg (.qstat { f with dst := .s 2 }) ∧ (readQcb (wm wg) 512).ok (wm wg) 512 = false) := by
  unfold QueueAt; dsimp only; and_intros
  all_goals first | decide +kernel | exact reaches_of_check (by decide +kernel)


/-! ### Hypotheses that are met: matrix and copy -/

def fx (z : BitVec 4) (va vb : BitVec 8) (t : Ty) (tB : Ty) : FX := ⟨⟨0, false⟩, z, va, vb, 0, 0, t, tB⟩
/-- Rows 64 B apart from address 0 on, in every lane: v12 is 64. -/
def pitched : Group := { wg with v := (List.range 32).map fun l => (12 * 32 + l, ⟨64, false, .ok⟩) }
/-- The team holds four arrays and slot 0, filled as `t`. -/
def wmx (t : Ty) : State :=
  after (.tfill false false 0 (fx 0 10 11 t .s32)) (after (.tclaim 0 (fx 2 10 0 .s32 .s32)) (after (.mxacq 3 (fx 2 0 0 .s32 .s32)) (wm pitched)))
def gmx (t : Ty) : Group := (wmx t).focus.getD wg
def arraysOf (s : State) (g : Group) : List (Option Nat) := (s.frameOf g).arrays

/-- Arrays and slots: free, held, none left; a slot claimed, filled, freed. -/
theorem witness_slots :
    Ready (wm wg) wg (.mxacq 3 (fx 2 0 0 .s32 .s32)) ∧ arraysOf (wm wg) wg = [none, none, none, none] ∧
    Ready (wmx .bf16) (gmx .bf16) (.mxacq 0 (fx 2 0 0 .s32 .s32)) ∧
    arraysOf (wmx .bf16) (gmx .bf16) = [some 0, some 0, some 0, some 0] ∧
    (let s := after (.mxacq 1 (fx 2 0 0 .s32 .s32)) (wm wg)
     arraysOf s { wg with team := 1 } = [some 0, some 0, none, none]) ∧
    Ready (wmx .bf16) (gmx .bf16) (.mxrel (fx 0 0 0 .s32 .s32)) ∧ teamBusy (wmx .bf16) 0 = false ∧
    Ready (wm wg) wg (.tclaim 15 (fx 2 10 0 .s32 .s32)) ∧
    (((List.range ((wm wg).frameOf wg).count).filter fun t => ((wm wg).frameOf wg).holder t == none).take 16).length = 16 ∧
    dstBusy (wm wg) wg (.v 10) 1 (List.range 16) = false ∧
    Ready (wmx .bf16) (gmx .bf16) (.tfree (fx 0 10 0 .s32 .s32)) ∧ (gmx .bf16).act ⟨0, false⟩ ≠ 0 ∧
    Readable (wmx .bf16) (gmx .bf16) [srcAt (.v 10) false false (gmx .bf16).active] 0 ∧
    (∀ l ∈ lanesOf (gmx .bf16).active, ((wmx .bf16).frameOf (gmx .bf16)).badRef 0 (vAt (gmx .bf16) 10 l) = false) ∧
    slotsBusy (wmx .bf16) 0 0 0 [0] = false ∧ Ready (wmx .bf16) (gmx .bf16) (.tfill false false 30 (fx 0 10 11 .bf16 .s32)) ∧
    Ready (wm wg) wg (.scld ⟨⟨0, false⟩, 0, 6, 0, 7, 0, .s32, .s32⟩) ∧
    Readable (wm wg) wg [⟨.v 6, 2, false, (((actQs wg wg.active).map (qLanes wg)).flatten).map fun l => (l, l)⟩] 0 ∧
    Ready (wm wg) wg (.mxsync (fx 0 0 0 .s32 .s32)) ∧ mxPending (wm wg) wg.preds = false := by
  dsimp only; and_intros <;> decide +kernel

def axp : AuxProd := ⟨0, 0, 0, false, 0⟩
def axt (g add : Bool) : AuxTile := ⟨0, g, add, false, false, false, .core⟩

/-- A product under way: MXSYNC waits. -/
def wprod : State := after (.mmq axp (fx 3 10 11 .bf16 .bf16)) (wmx .bf16)

theorem witness_matrix :
    (let s := wmx .bf16
     let g := gmx .bf16
     let fr := s.frameOf g
     fr.arraysOf g.team = [0, 1, 2, 3] ∧ actQs g (g.act ⟨0, false⟩) = [0, 1, 2, 3] ∧ Ready s g (.mmq axp (fx 3 10 11 .bf16 .bf16)) ∧
     Readable s g [srcAt (.v 10) false false g.active, srcAt (.v 11) false false g.active] 0 ∧
     (∀ l ∈ lanesOf g.active, vAt g 10 l = 0 ∧ vAt g 11 l = 0) ∧ fr.badRef g.team 0 = false ∧
     fmtBad fr (fx 3 10 11 .bf16 .bf16) 0 0 0 0 = none ∧ queueRoom s g [0, 1, 2, 3] = true ∧
     Ready s g (.mmqx { axp with so := 9 } (fx 3 10 11 .bf16 .bf16)) ∧
     (let h := { g with s := [(9, BitVec.ofNat 64 (2 ^ 32))] }
      ((h.rdS 9).extractLsb' 32 16).toNat = 1 ∧ (h.rdS 9).toNat % 2 ^ 32 = 0) ∧
     Ready s g (.mxzero 0 (fx 3 0 0 .s32 .s32)) ∧ Ready s g (.mxldz (axt true false) (fx 3 8 12 .f32 .s32)) ∧
     Ready s g (.mxdrain (axt true true) (fx 3 8 12 .f32 .s32)) ∧ Ready s g (.phfin (axt false false) (fx 4 8 12 .ph16 .s32)) ∧
     uncommitted s g = false ∧ Readable s g [srcAt (.v 8) true false g.active, srcAt (.v 12) false false g.active] 0 ∧
     (∀ l ∈ lanesOf g.active, pairAt g 8 l = 0 ∧ vAt g 12 l = 64) ∧
     Reaches s g .wr 1 ((List.range 4).map fun q => (q, 960)) ∧ Reaches s g .rd 1 ((List.range 4).map fun q => (q, 0)) ∧
     (∃ t, s.team? g.team = some t ∧ ∀ r ∈ List.range 16, 64 * r + 64 ≤ t.spadLen ∧ touchesArmed t (64 * r) 64 = false)) ∧
    (let s := wmx .ph16
     let g := gmx .ph16
     Ready s g (.phmma 0 (fx 4 10 11 .ph16 .ph16)) ∧ fmtBad (s.frameOf g) (fx 4 10 11 .ph16 .ph16) 0 0 0 0 = none) ∧
    mxPending wprod (gmx .bf16).preds = true := by
  dsimp only; and_intros
  all_goals first | decide +kernel | exact reaches_of_check (by decide +kernel) | exact ⟨_, rfl, by decide +kernel⟩

/-- A copy of every lane to offset 0, with a record of completion whose ring has two entries. -/
def fcp : FP := ⟨⟨0, false⟩, .b4, false, false, false, true, .core, 4, 0, some 1, .x4, 16, 0⟩
def wring : Team := { bareTeam with spadLen := 8192 }.putMany (272 + 8) (okBytes (leBytes 4 1))
def wcopy : State := { wm wg with teams := [wring] }

theorem witness_copy : wg.act fcp.p ≠ 0 ∧ uncommitted wcopy wg = false ∧ wcopy.team? wg.team = some wring ∧ copyFree wcopy 0 0 ≠ 0 ∧
    copyObj fcp + 16 ≤ wring.spadLen ∧ copyRing fcp + 16 ≤ wring.spadLen ∧ ringShape wring fcp = false ∧ ringArmed wring fcp = false ∧
    Readable wcopy wg (copySrc fcp wg.active) 0 ∧
    (∀ x ∈ (lanesOf wg.active).map (copyLane wg fcp), x.off % 4 = 0 ∧ x.off + 4 ≤ wring.spadLen ∧ touchesArmed wring x.off 4 = false) ∧
    Ready wcopy wg (.cpyIn fcp) ∧ Ready wcopy wg (.cpyOut fcp) ∧ Ready wcopy wg (.cpyr .or fcp) ∧
    Reaches wcopy wg .wr 4 (((lanesOf wg.active).map (copyLane wg fcp)).map fun x => (x.lane, x.va)) ∧
    Reaches wcopy wg .rd 4 (((lanesOf wg.active).map (copyLane wg fcp)).map fun x => (x.lane, x.va)) ∧
    (∀ x ∈ (lanesOf wg.active).map (copyLane wg fcp), paFar (paOf wcopy wg x.va) = false) := by
  and_intros
  all_goals first | decide +kernel | exact reaches_of_check (by decide +kernel)

/-- A shape record of one dimension of 4 elements of 4 B from address 1024, and one of a slot image, in the record cache. -/
def wrec : List Byte := leBytes 8 1024 ++ leBytes 4 4 ++ leBytes 4 1 ++ leBytes 4 1 ++ leBytes 4 1 ++ leBytes 6 4 ++ leBytes 18 0
  ++ leBytes 1 3 ++ leBytes 11 0 ++ leBytes 4 0
def wrecOm : List Byte := leBytes 8 1024 ++ leBytes 4 64 ++ leBytes 4 16 ++ leBytes 4 1 ++ leBytes 4 1 ++ leBytes 6 2 ++ leBytes 6 128
  ++ leBytes 12 0 ++ leBytes 1 63 ++ leBytes 1 15 ++ leBytes 2 0 ++ leBytes 4 0 ++ leBytes 1 9 ++ leBytes 1 9 ++ leBytes 6 0

theorem witness_copy_tensor :
    (let s := wcopy.setCore 0 0 { wcopy.core 0 0 with recs := [⟨0, 1024, wrec⟩] }
     let f : FP := { fcp with scale := .x1, sp := 0, disp := 0 }
     Ready s wg (.cpytSp f) ∧ Readable s wg [⟨.v 1, 1, false, (List.range 4).map fun l => (l, l)⟩] 0 ∧ (wg.rdS 4).toNat % 64 = 0 ∧
     ((s.core 0 0).recs.find? fun e => e.ctx == 0 && e.addr == 1024) = some ⟨0, 1024, wrec⟩ ∧ shapeBad false wrec = false ∧
     recLayout wrec ≠ 1 ∧ recSize wrec = 16 ∧ touchesArmed wring 0 16 = false ∧
     (firstIn wrec (boxOrigin wg f)).bind (boxVa wrec (boxOrigin wg f)) = some 1024 ∧
     elemX s 0 0 0 0 false wrec 1024 = (s, .ok [1024] 4 0)) ∧
    (let s := (wmx .bf16).setCore 0 0 { (wmx .bf16).core 0 0 with recs := [⟨0, 1024, wrecOm⟩] }
     let g := gmx .bf16
     let f : FP := { fcp with cmp := false, scale := .x1, sp := 0, disp := 0 }
     Ready s g (.cpytOm f) ∧ shapeBad true wrecOm = false ∧ recLayout wrecOm = 1 ∧ (s.frameOf g).badRef g.team 0 = false ∧
     (firstIn wrecOm (boxOrigin g f)).bind (boxVa wrecOm (boxOrigin g f)) = some 1024 ∧
     elemX s 0 0 0 0 false wrecOm 1024 = (s, .ok [1024] 2 0)) ∧
    Ready (wm wg) wg (.rcfence { fcp with scale := .x1, x := none, bar := 0, cmp := false }) ∧
    Ready (wm wg) wg (.rcfenceAll { fcp with g := 0, scale := .x1, x := none, bar := 0, cmp := false }) := by
  dsimp only; and_intros <;> decide +kernel

/-! ### Gates and the system -/

theorem witness_gates :
    (∀ i ∈ ([.sigm (vr (.v 1) (.v 3) (.v 0) (.v 0) .f32), .tanh (vr (.v 1) (.v 3) (.v 0) (.v 0) .f32),
      .exp2 (vr (.v 1) (.v 3) (.v 0) (.v 0) .f32), .log2 (vr (.v 1) (.v 3) (.v 0) (.v 0) .f32), .rcp (vr (.v 1) (.v 3) (.v 0) (.v 0) .f32),
      .rsq (vr (.v 1) (.v 3) (.v 0) (.v 0) .f32), .gatec (vr (.v 1) (.v 3) (.v 5) (.v 6) .f32), .gateh (vr (.v 1) (.v 3) (.v 5) (.v 0) .f32),
      .gatecComp (vr (.v 2) (.v 3) (.v 4) (.v 6) .f32)] : List Instr), Ready (wm wg) wg i ∧ i.vsig.isSome = true) ∧
    Readable (wm wg) wg [srcAt (.v 3) false false wg.active, srcAt (.v 4) true false wg.active, srcAt (.v 6) true false wg.active] 0 ∧
    ((wm wg).partOf wg).gateBusy ≤ (wm wg).clk 0 0 ∧ dstBusy (wm wg) wg (.v 2) 2 (lanesOf wg.active) = false := by
  and_intros <;> decide +kernel

def wsys : Group := { wg with sys := true }
def fy (dst a b : Opnd) (imm : BitVec 20) : FY := ⟨⟨0, false⟩, dst, a, b, imm⟩

theorem witness_system :
    Ready (wm wg) wg (.trap (fy (.v 0) (.v 0) (.v 0) 5)) ∧ wg.act ⟨0, false⟩ ≠ 0 ∧ Ready (wm wg) wg (.mark (fy (.v 0) (.s 4) (.v 0) 7)) ∧
    (wm wg).ctx? 0 = some wctx ∧ Ready (wm wsys) wsys (.bkpt (fy (.v 0) (.s 4) (.s 0) 15)) ∧ bkptBad (wsys.rdSc (.s 4)) (wsys.rdSc (.s 0)) = false ∧
    Ready (wm wg) wg (.budget (fy (.s 2) (.v 0) (.v 0) 0)) ∧ Ready (wm wsys) wsys (.budgetSet (fy (.s 2) (.s 4) (.v 0) 0)) ∧
    Ready (wm wsys) wsys (.tlbiPage (fy (.v 0) (.s 4) (.v 0) 0)) ∧ Ready (wm wsys) wsys (.tlbiRange (fy (.v 0) (.s 4) (.s 5) 0)) ∧
    Ready (wm wsys) wsys (.tlbiAll (fy (.v 0) (.v 0) (.v 0) 0)) ∧ wsys.waitFor = none ∧ writesDone (wm wsys) wsys = true ∧
    (let g := { wsys with waitFor := some [9] }
     Ready (wm g) g (.tlbiAll (fy (.v 0) (.v 0) (.v 0) 0)) ∧ tlbiHeld (wm g) 9 = false) ∧
    Ready (wm wg) wg (.pchk (fy (.s 2) (.s 4) (.v 0) 0)) ∧ tlbFind ((wm wg).core 0 0).tlb 0 1024 = some page ∧
    Ready (wm wsys) wsys (.netcfg (fy (.v 0) (.s 4) (.v 0) 0xA0)) ∧ nbcfgBad (BitVec.ofNat 64 (8 * 1024)) = false ∧
    Ready (wm wsys) wsys (.netcfg (fy (.v 0) (.s 4) (.v 0) 12)) := by
  dsimp only; and_intros <;> decide +kernel

/-- The machine with bytes in the home value and in die 0's view. -/
def wmem (s : State) (a : Nat) (bs : List Byte) : State :=
  { s.setView 0 ((s.view 0).putMany a (okBytes bs)) with home := s.home.putMany a (okBytes bs) }

/-- A system-mode group whose frame, at 1 MiB, says: clause header at 0x400, instruction 1, NBV 2. -/
def gret : Group := { wsys with trapbase := 0x100000 }
def exec1 : State :=
  (wm gret).setCore 0 0 { (wm gret).core 0 0 with tlb := [{ page with leaf := 0x4E1 }] }
def wret : State := wmem (wmem (wmem exec1 0x407 [0xE0]) 0x100000 (leBytes 8 0x400 ++ leBytes 4 1)) 0x100034 [2]

theorem witness_trap_return :
    Ready wret gret (.tret (fy (.v 0) (.v 0) (.v 0) 0)) ∧ frameVa gret % 128 = 0 ∧
    Reaches wret gret .rd 1 [(0, frameVa gret), (0, frameVa gret + frameLen - 128)] ∧ wret.accs = [] ∧
    frN (frameRead wret gret) 0 8 = 0x400 ∧ frN (frameRead wret gret) 8 4 = 1 ∧ frN (frameRead wret gret) 0x34 4 = 2 ∧
    (tretWord wret gret 0x400).2 = .word 0xE000000000000000 ∧ cTag 0xE000000000000000 = 7 ∧ cClass 0xE000000000000000 ≤ 5 ∧
    cCount 0xE000000000000000 + 1 = 1 := by
  and_intros
  all_goals first | decide +kernel | exact reaches_of_check (by decide +kernel)

/-! ### The ordering machine -/

/-- A store of one byte at 1024 by the group, at a stage, and the machine that holds it. -/
def wst (st : Stage) : Acc :=
  let l := if st == .issued || st == .inCb then [] else [1, 0, 0, 0]
  { gAcc wg 0x61 .store (.glob 1024) 1024 4 false false .pkg with id := 7, seq := 7, bytes := [⟨0, 9, .ok⟩], stage := st, stamp := l }
def wacc (a : Acc) : State := { wq wg with accs := [a] }

/-- A store issued, in the buffer, published, sent, serialized, on its way to a die, discarded. -/
theorem witness_writes :
    (∀ st ∈ ([.issued, .inCb, .published, .sent, .serialized] : List Stage), (wacc (wst st)).acc? 7 = some (wst st)) ∧
    (wst .issued).isStore = true ∧ (wst .issued).far = false ∧ keptWaits (wacc (wst .issued)).accs (wst .issued) = false ∧ blocked (wacc (wst .issued)).accs (wst .issued) = false ∧
    cbBefore (wacc (wst .inCb)) (wst .inCb) = false ∧ seenBefore (wacc (wst .inCb)) (wst .inCb) = false ∧ mayPublish (wacc (wst .inCb)) 0 = true ∧
    causal (wacc (wst .sent)) (homeDie 1024) (wst .sent) = true ∧ condHolds (wacc (wst .sent)) (wst .sent) = true ∧
    condHolds (wacc { wst .sent with cond := some [5] }) { wst .sent with cond := some [5] } = false ∧
    (let a := { wst .issued with place := .glob (3 * 2 ^ 48 + 2 ^ 40) }
     a.far = true ∧ released (wacc a).accs a = true ∧ paLost (wacc a) a.pa = false ∧ paRemote a.pa = true ∧
     paLost { wacc a with lost := [1] } a.pa = true) ∧
    (let a := { wst .done with aq := [2], cidx := 1 }
     causal (wacc a) 2 a = true ∧ pendingOwn (wacc a) 2 a = false ∧ 2 ≠ a.die) ∧
    (let a := { wst .done with report := true, saved := [(1024, 0, 0, .ok)] }
     (∀ b ∈ (wacc a).accs, later a b = false) ∧ (a.saved.map (·.1)).Nodup ∧ ((wacc a).view 0).index 1024 = 0) := by
  dsimp only; and_intros <;> decide +kernel

/-- A load of lane 3, an atomic on scratchpad and one at a home, accesses to the host. -/
def wld : Acc := { gAcc wg 0x60 .load (.glob 1024) 1024 4 false false .core with id := 7, seq := 7, dst := some ⟨.v 5, 3, .s32, none⟩ }
def wat (p : Place) : Acc :=
  { gAcc wg 0x78 (.rmw ⟨.add, .s32, 1, 0⟩) p 1024 4 false false .pkg with id := 7, seq := 7, dst := some ⟨.v 5, 3, .s32, none⟩ }

theorem witness_reads :
    (wacc wld).acc? 7 = some wld ∧ wld.isLoad = true ∧ blocked (wacc wld).accs wld = false ∧
    (let a := { wld with read := true, got := okBytes (leBytes 4 5) }
     (siblings (wacc a) a).all Acc.arrived = true ∧ (wacc a).anyGroup? 0 = some wg ∧ ((wacc a).partOf wg).stop = false) ∧
    (let a := wat (.spad 0 64)
     blocked (wacc a).accs a = false ∧ released (wacc a).accs a = true ∧ ((wacc a).team? 0).isSome = true) ∧
    (let a := wat (.glob 1024)
     paFar 1024 = false ∧ Scope.rank a.scope ≠ 0 ∧ homeDie 1024 = a.die ∧ cbBefore (wacc a) a = false ∧ seenInCb (wacc a) a = false ∧
     mayPublish (wacc a) a.die = true ∧ a.dst.isSome = true ∧ a.fin = false) ∧
    (let a := { wat (.glob 1024) with die := 1, stage := .sent, stamp := [0, 1, 0, 0] }
     homeDie 1024 ≠ a.die ∧ causal (wacc a) (homeDie 1024) a = true ∧ blocked (wacc a).accs a = false ∧ released (wacc a).accs a = true) ∧
    (let a := { wat (.glob 1024) with scope := .core }
     Scope.rank a.scope = 0 ∧ cbOverlap (wacc a) a = false) ∧
    paHost (2 * 2 ^ 48) = true := by
  dsimp only; and_intros <;> decide +kernel


/-! ### Hypotheses that are met: scheduling and late events -/

/-- A group before a clause at 0x400 of one SMOVI; its partition's other places. -/
def gent : Group := { wg with clause := none, entered := false, hdr := 0x400 }
def wentry : State :=
  let s := (wq gent).setCore 0 0 { (wq gent).core 0 0 with tlb := [{ page with leaf := 0x4E1 }] }
  wmem s 0x407 ([0xE0] ++ leBytes 8 0x0104100000000004)

theorem witness_clause_entry :
    wentry.group? 0 = some gent ∧ gent.clause = none ∧ live wentry gent = true ∧ cancelled wentry gent = false ∧
    stopping wentry 0 0 0 = false ∧ (wentry.team? 0).isSome = true ∧
    (fetchWord wentry gent 0x400 false).2 = .word 0xE000000000000000 ∧
    (fetchWords wentry gent 0 [0]).2 = [(0x408, .word 0x0104100000000004)] ∧ cWs 0xE000000000000000 = [] ∧
    gent.hdr.toNat % 8 = 0 ∧ wordOk (kMagic (wentry.kword gent)) (cClass 0xE000000000000000) 0x0104100000000004 true = true ∧ roleOk .vector (cClass 0xE000000000000000) = true ∧
    overBudget wentry gent = false := by
  and_intros <;> decide +kernel

def gact (n slot : Nat) (since : Nat) : Group := { wg with gid := n, slot := slot, ready := some since, inSet := true, tried := none }
def gpend (n slot : Nat) : Group := { wg with gid := n, slot := slot, inSet := false, tried := none }
/-- One active group at a clock of 64; in `sched2` one asleep on a queue, and a pending one. -/
def sched1 : State := { (wq wg).setQuad 0 0 { Quad.reset with clk := 64 } with groups := [gact 0 0 0], changes := 1 }
def gwait : Group := { gact 0 0 0 with sleep := .full 0 }
def sched2 : State := { sched1 with groups := [gwait, gpend 1 1] }

theorem witness_scheduling :
    sched1.focus = none ∧ (sched1.partn 0 0 0).stop = false ∧ (sched1.partn 0 0 0).lastIssue ≠ some (sched1.clk 0 0) ∧
    (sched1.partn 0 0 0).busy ≤ sched1.clk 0 0 ∧ gact 0 0 0 ∈ sched1.onPart ⟨0, 0, 0⟩ ∧ starving sched1 (gact 0 0 0) = true ∧
    (let s := { sched1 with groups := [gact 0 0 64] }
     (∀ h ∈ s.onPart ⟨0, 0, 0⟩, starving s h = false) ∧ ready s (gact 0 0 64) = true ∧ halfBlocked s (gact 0 0 64) = false) ∧
    (let g := { gact 0 0 0 with nHold := some 64 }
     { sched1 with groups := [g] }.group? 0 = some g ∧ 64 ≤ sched1.clk 0 0) ∧
    sched2.group? 0 = some gwait ∧ sched2.group? 1 = some (gpend 1 1) ∧ live sched2 gwait = true ∧
    (slotMates sched2 gwait).all (candidate sched2) = true ∧ (oldestPending sched2 gwait).map (·.gid) = some 1 ∧
    (∀ x ∈ sched2.groups, (x.gid = 0 → x = gwait) ∧ (x.gid = 1 → x = gpend 1 1)) ∧
    (oldestPending sched2 (gpend 1 1)).map (·.gid) = some 1 ∧ activeSlots sched2 (gpend 1 1) < 8 ∧
    (let r : UReq := ⟨0, 1, 256, 2, 0, 0⟩
     reqOpen sched1 r 1 = true ∧ (∀ x ∈ ([⟨1, 1, 8, 2, 0, 0⟩, ⟨2, 1, 8, 1, 0, 0⟩] : List UReq), x.cls < 3 ∧ reqOpen sched1 x 1 = true) ∧ behind [gact 0 0 0] (gact 0 0 0) = false) ∧
    (let q := { Quad.reset with reqs := [⟨0, 1, 256, 2, 0, 0⟩] }
     q.reqs = [⟨0, 1, 256, 2, 0, 0⟩] ∧ (q.umpcfg.extractLsb' 16 16).toNat = 256 ∧
     256 * (256 : Int) ≤ min (256 * 256) (q.bal + ((q.umpcfg.extractLsb' 32 16).toNat : Int) * 16)) := by
  dsimp only; and_intros <;> decide +kernel

def wglade : Glade := ⟨5, 0, 0, 0, .vector, 0x400, 0, [⟨3, [], [], [], 3, 0, 0, false, [(0, [])]⟩]⟩
def gladeP : Partn := { Partn.reset with glades := [wglade], vacant := [⟨2, none, 0, 1, false, []⟩] }
def wgl : State := ({ wq wg with groups := [] }.setPartn 0 0 0 gladeP).setQuad 0 0 { Quad.reset with clk := 257 }
def wdraw : State := { wq wg with groups := [] }.setPartn 0 0 0 { gladeP with glades := [], draws := [⟨5, wglade⟩] }

/-- A glade one cycle past its age, and a draw with a vacant slot. -/
theorem witness_glades :
    (wgl.partIds.find? (fun r => (wgl.partn r.die r.core r.part).glades.any fun y => y.id == 5)) = some ⟨0, 0, 0⟩ ∧
    (wgl.partn 0 0 0).stop = false ∧ (wgl.partn 0 0 0).glades.find? (fun y => y.id == 5) = some wglade ∧
    wglade.since + ((wgl.partn 0 0 0).ageNow (wgl.clk 0 0)).toNat < wgl.clk 0 0 ∧
    (wdraw.partIds.find? (fun r => (wdraw.partn r.die r.core r.part).draws.any fun y => y.id == 5)) = some ⟨0, 0, 0⟩ ∧
    (wdraw.partn 0 0 0).draws.find? (fun y => y.id == 5) = some ⟨5, wglade⟩ ∧
    drawPlace wdraw ⟨0, 0, 0⟩ (wdraw.partn 0 0 0) wglade = some ⟨2, none, 0, 1, false, []⟩ := by
  and_intros <;> decide +kernel

/-- The second iteration may start in the pipe's slot once the first has retired. -/
def wnext : State :=
  let q := { wpipe with iters := wpipe.iters.map fun x => { x with st := .pended } }
  { wopen.setPartOf wg ((wopen.partOf wg).setPipe q) with focus := none, groups := [wover] }
/-- Its first iteration cancelled before its clause. -/
def gcan : Group := { witer with entered := false }
def wcan : State :=
  let q := { wpipe with iters := wpipe.iters.map fun x => { x with cancelled := true } }
  { wopen.setPartOf wg ((wopen.partOf wg).setPipe q) with focus := none, groups := [gcan] }
/-- A group that waits at PIPE. -/
def gpw : Group := { oneWord wg (encode (.pipe fpipe)) with sleep := .stall }

theorem witness_iterations :
    (let q := ((wnext.partOf wover).pipe? 0).getD wpipe
     wnext.group? 0 = some wover ∧ wover.opened = some 0 ∧ (wnext.partOf wover).pipe? 0 = some q ∧ q.mayStart = true ∧
     (wnext.partOf wover).stop = false ∧
     (∀ x ∈ wnext.allGroups, ¬(x.ctx = q.ctx ∧ x.die = wover.die ∧ x.core = wover.core ∧ x.part = wover.part ∧ x.slot = q.slot))) ∧
    (let q := (wcan.pipeOf gcan).getD wpipe
     wcan.group? gcan.gid = some gcan ∧ gcan.iter = some ⟨0, 0, false⟩ ∧ wcan.pipeOf gcan = some q ∧ q.isCancelled 0 = true ∧
     gcan.entered = false ∧ gcan.trap = none ∧ q.owedOwn 0 = false ∧ gcan.sleep = .awake) ∧
    (wq gpw).focus = none ∧ gpw.instr? = some (.pipe fpipe) ∧ (pipeRoom (wq gpw) gpw).isSome = true ∧ slotOpen (wq gpw) gpw = true := by
  dsimp only; and_intros <;> decide +kernel

/-- Gate results due, sleepers, a volley due, element moves. -/
theorem witness_late :
    (let w : GateWb := ⟨4, 0xB8, .v 3, [(0, 1), (31, 2)], [], 0⟩
     let g := { wg with gates := [w] }
     (wq g).group? 0 = some g ∧ g.gates.find? (fun x => x.n == w.n) = some w ∧ w.due ≤ (wq g).clk 0 0 ∧ ((wq g).partOf g).stop = false ∧
     (w.vals.map (·.1)).Nodup ∧ ∀ x ∈ w.vals, x.1 < 32) ∧
    (let g := { wg with sleep := .waitl (some 8) 0 }
     (wq g).group? 0 = some g ∧ 0 ≤ (wq g).clk 0 0) ∧
    (let n := { wnet with rel := [⟨1, 0, []⟩] }
     let s := { wq wg with nets := [n], gtb := 1000 }
     s.nets.find? (fun m => m.key == n.key) = some n ∧ n.rel = [] ++ [⟨1, 0, []⟩] ∧ seenGen (s.partn 0 0 0) n ≠ 1 ∧
     12 * 0 + volleyDelay s ⟨1, 0, []⟩ n.key ⟨0, 0, 0⟩ ≤ 12 * s.gtb.toNat) ∧
    (let s := after (.enq wqf) (wqueue 0 false)
     let s1 := { s with groups := [s.focus.getD wg], focus := none }
     s1.qmoves.all (fun m => m.kind == .enq && !m.landed && enqMay s1 m) = true ∧ s1.qmoves.length = 1 ∧
     (s1.qhome 512).unread = [] ∧ (s1.qhome 512).unpub = [0] ∧ (s1.qhome 512).landed = [] ∧ mayLand s1 0 64 = true ∧
     s1.qmoves.all (fun m => landedDone s1 m.id m.scope) = true) ∧
    (let s := after (.deq { wqf with dst := .v 9, b := .v 0 }) (wqueue 1 false)
     let s1 := { s with groups := [s.focus.getD wg], focus := none }
     s1.qmoves.all (fun m => m.kind == .deq && !m.fe && m.width == 32 && (s1.anyGroup? m.gid).isSome) = true ∧ s1.qmoves.length = 1 ∧
     ((s1.setPartn 0 0 0 { s1.partn 0 0 0 with stop := true }).partOf wg).stop = true) := by
  dsimp only; and_intros <;> decide +kernel

/-! ### Hypotheses that are met: engines -/

/-- The copy queued; its command as it starts, with its one chunk read, landed, faulted, lost. -/
def wcq : State := { after (.cpyIn fcp) wcopy with focus := none, groups := [wg] }
def wcmd : Cmd := (wcq.cmds.head?).getD
  { id := 0, kind := .cpyIn, gid := 0, preds := [], ctx := 0, die := 0, core := 0, team := 0, acq := false, rel := false, cmp := false,
    scope := .core, bar := 0, after := none, chunks := [], started := false, credit := 0, recData := [], slot := 0, dst := 0, coords := [],
    sys := false, iaddr := 0, fw := .engine, handed := false, faulted := none, bads := [], recBad := false, retried := [], overran := false,
    recorded := false }
def wch (f : Chunk → Chunk) (h : Cmd → Cmd) : Cmd := h { wcmd with started := true, credit := 1, chunks := wcmd.chunks.map f }
def wcm (c : Cmd) : State :=
  let t := register (writeObj wring 256 ⟨0, 0, 128, 0, 1, 0, 0, 5⟩) 256
  { wcq with cmds := [c], teams := [t] }
def readCh (k : Chunk) : Chunk := { k with read := true, data := okBytes (List.replicate (k.len * k.lanes.length) 1) }

theorem witness_copy_engine :
    wcmd.chunks.length = 1 ∧ (wcm wcmd).mxop? wcmd.id = none ∧ (wcm wcmd).cmd? wcmd.id = some wcmd ∧ wcmd.started = false ∧
    wcmd.fw = .engine ∧ (∃ k ∈ wcmd.chunks, k.landed = false) ∧ afterLanded (wcm wcmd) wcmd = true ∧
    (let c := wch id id
     (wcm c).cmd? c.id = some c ∧ c.started = true ∧ c.chunks.all (fun k => !k.read && !k.landed) = true ∧ c.faulted = none ∧ 0 < c.credit) ∧
    (let c := wch readCh id
     (wcm c).cmd? c.id = some c ∧ c.kind = .cpyIn ∧ c.chunks.all (fun k => k.read && !k.landed &&
       (spadWrites c k).all fun w => !touchesArmed (((wcm c).team? c.team).getD wring) w.1 w.2.length) = true) ∧
    (let c := wch readCh fun c => { c with kind := .cpyOut }
     mayPublish (wcm c) c.die = true ∧ c.chunks.all (fun k => k.data.length == k.len * k.lanes.length && k.lanes.all fun x =>
       !paFar x.pa && decide (x.pa % 128 + k.len ≤ 128) && x.va % 128 == x.pa % 128) = true) ∧
    (let c := wch (fun k => { readCh k with landed := true }) id
     let b := readObj (((wcm c).team? c.team).getD wring) (16 * c.bar)
     c.chunks.all (fun k => !k.counted && mayCount (wcm c) c k && decide (b.land + k.count ≤ b.expb)) = true ∧ b.st = 1 ∧ b.arr ≤ b.expa) ∧
    (let c := wch (fun k => { readCh k with landed := true, counted := true }) id
     mayRecord c = true ∧ touchesArmed (((wcm c).team? c.team).getD wring) 272 16 = false ∧ tlbFind ((wcm c).core 0 0).tlb 0 0 = some page ∧
     refused page.leaf c.sys .wr = false) ∧
    (let c := wch id fun c => { c with faulted := some (.prot, 1024) }
     (wcm c).cmd? c.id = some c ∧ (∀ k ∈ c.chunks, k.read = true → k.landed = true) ∧ (∃ k ∈ c.chunks, k.landed = false)) ∧
    (let c := wch id fun c => { c with fw := .finish, bads := [(0, FaultCode.prot, 1024)] }
     let d := wch (fun k => { k with landed := true }) fun c => { c with faulted := some (FaultCode.prot, 1024), fw := .finish, recBad := true }
     (c.chunks.find? fun x => !x.landed).isSome = true ∧ (∀ k ∈ c.chunks, c.bads.find? (fun b => b.1 == k.n) = some (0, FaultCode.prot, 1024)) ∧
     (∀ k ∈ c.chunks, wcmd.bads.find? (fun b => b.1 == k.n) = none) ∧
     d.recBad = true ∧ (∀ k ∈ d.chunks, k.landed = true) ∧ d.faulted.map (·.1) ≠ some .xlate) ∧
    (let c := wch id fun c => { c with faulted := some (.prot, 1024), fw := .losing }
     (∀ k ∈ c.chunks, k.landed = true → k.counted = true) ∧ ((wcm c).team? c.team).isSome = true) := by
  dsimp only; and_intros <;> decide +kernel

/-- A CPYT.sp that reads its one chunk, and one on the firmware path; a record whose descriptor lies in an armed object; an object with a
chunk counted for an earlier phase and still to land, the order point it leaves and a load after that. -/
def wtensor (h : Cmd → Cmd) : Cmd :=
  h { wcmd with kind := .cpytSp, started := true, credit := 1, recData := wrec, coords := [0],
                chunks := [{ blankChunk with doff := 0, len := 16, count := 16 }] }
def counted1 : Cmd := wch (fun k => { readCh k with counted := true, phase := 4 }) fun c => { c with kind := .cpyOut, bar := 4 }
def wsee : Acc := { gAcc wg 0 (.counted [(1, 0)] []) (.glob 0) 0 0 false false .core with id := 6, seq := 6 }

theorem witness_copy_paths :
    (let c := wtensor id
     (wcm c).cmd? c.id = some c ∧ (match (chunkSrc (wcm c) c (c.chunks.headD blankChunk)).2 with | .ok _ => true | _ => false) = true) ∧
    (let c := wtensor fun c => { c with fw := .finish }
     c.bads = [] ∧ (match (chunkSrc (wcm c) c (c.chunks.headD blankChunk)).2 with | .ok _ => true | _ => false) = true ∧
     ((wcm c).team? c.team).isSome = true) ∧
    (let c := wch (fun k => { readCh k with landed := true, counted := true }) id
     mayRecord c = true ∧ c.fw = .engine ∧
     touchesArmed (register (writeObj wring 272 ⟨0, 0, 128, 0, 1, 0, 0, 5⟩) 272) (16 * c.bar + 16) 16 = true) ∧
    (let s := { wbar 0 with cmds := [counted1] }
     counted1.team = wg.team ∧ 16 * counted1.bar = 64 ∧ counted1.rel = false ∧
     (∃ k ∈ counted1.chunks, k.counted = true ∧ k.landed = false ∧ k.phase ≠ (readObj (wteam 0) 64).phase) ∧ s.sights = [] ∧
     (wbar 0).cmds = []) ∧
    (let s := { wq wg with accs := [wsee, wld] }
     s.acc? 7 = some wld ∧ wld.isLoad = true ∧ wld.isSpad = false ∧ wsee ∈ s.accs ∧ wsee.before wld = true) ∧
    (let c := wch id fun c => { c with fw := .lostReply }
     (wcm c).cmd? c.id = some c ∧ c.fw = .lostReply) := by
  dsimp only; and_intros <;> decide +kernel

/-- R99 and the litmus 'An engine release observed by an acquire', variant B: a counted chunk on its way holds the waiter's load, not its
store. -/
theorem test_chunk_holds_reads : holdsBack [wsee, wld] wsee wld = true ∧ holdsBack [wsee] wsee { wld with kind := .store } = false := by
  decide +kernel

/-- R436: past the last unit of the dependence half the next is the first with WRAP. -/
theorem test_depnext_wraps : trcptr { Die.reset with trcctl := 3, trcDep := 2 ^ 21 } = 0 ∧
    trcptr { Die.reset with trcctl := 3, trcDep := 5 } = BitVec.ofNat 64 (5 * 2 ^ 21) := by decide +kernel

/-- CPYR: the machine, one element read. -/
theorem witness_copy_reduce :
    (let s := { after (.cpyr .or fcp) wcopy with focus := none }
     s.cmds.all (fun c => c.kind == .cpyr .or && mayPublish s c.die && c.chunks.all fun k =>
       match k.lanes with | l :: _ => homeDie l.pa == c.die && !paFar l.pa | [] => false) = true ∧ s.cmds.length = 1) := by
  dsimp only; and_intros <;> decide +kernel

/-- A pass granted, one that ends, outliers of MMQX, a tile operation, a row to load, a row to store. -/
def wop : MxOp := (wprod.mxops.head?).getD
  { id := 0, kind := .mmq, gid := 0, preds := [], seq := 0, first := 0, ctx := 0, die := 0, core := 0, team := 0, z := 0, tA := .bf16, tB := .bf16, nbv := 3,
    sc := false, g := false, add := false, zr := false, acq := false, rel := false, scope := .core, qs := [], running := false, till := 0,
    dense := false, units := [], hdr := 0, idx := 0, word := 0 }
def wgrant (m : MxOp) (kind : Nat) : State :=
  { wprod.setQuad 0 0 { wprod.quad 0 0 with granted := [(m.id, kind, 0)], clk := 9 } with mxops := [m], focus := none }

theorem witness_matrix_engine :
    (wgrant wop 2).mxop? wop.id = some wop ∧ isPass wop.kind = true ∧ wop.dense = false ∧ wop.running = false ∧
    granted (wgrant wop 2) 0 0 wop.id 2 = true ∧ runsNow (wgrant wop 2) wop = true ∧ (∀ q ∈ wop.qs, arrayFree (wgrant wop 2) wop q.arr = true ∧ q.done = false) ∧
    wop.qs.length = 4 ∧
    (let m := { wop with qs := wop.qs.take 1, running := true }
     m.qs.length = 1 ∧ m.till < (wgrant m 2).clk 0 0 ∧ m.z < 14) ∧ (wop.qs.map (·.arr)).Nodup ∧
    (let m := { wop with kind := .mmqx, dense := true }
     (∀ q ∈ m.qs, q.done = false ∧ m.qs.find? (fun x => x.q == q.q) = some q ∧ lastCycle (wgrant m 2) m q.arr < (wgrant m 2).clk 0 0) ∧ m.z < 16) ∧
    (let m := { wop with kind := .drain, dense := false }
     isPass m.kind = false ∧ granted (wgrant m 3) 0 0 m.id 3 = true ∧ grantAt (wgrant m 3) 0 0 m.id 3 < (wgrant m 3).clk 0 0 ∧
     (∀ q ∈ m.qs, ∀ i < 16, ∀ j < 16, ∀ z < 3, (((wgrant m 3).frame 0 0 0).tile q.arr (m.z + z) i j).2 = .ok) ∧
     runsNow (wgrant m 3) m = true ∧ ∀ q ∈ m.qs, arrayFree (wgrant m 3) m q.arr = true ∧ quarterFirst m q = true) ∧
    (let m := { wop with kind := .ldz }
     mxMayRead (wgrant m 3) m = true ∧ ∀ q ∈ m.qs, q.q < 4 ∧ 15 ∉ q.rows) ∧
    (let m := { wop with kind := .phfin, qs := wop.qs.map fun q => { q with done := true } }
     m.add = false ∧ m.g = false ∧ (∀ q ∈ m.qs, q.done = true ∧ 0 ∉ q.rows) ∧ ((wgrant m 3).team? m.team).isSome = true) := by
  dsimp only; and_intros <;> decide +kernel

/-! ### Hypotheses that are met: traps, translation, sources -/

def ftrap : FaultRec := ⟨.swtrap, 0, 0, 0, 5, 0, 0⟩
def gtrap : Group := { wg with trap := some ftrap, trapbase := 0x100000, trapvec := 0x400 }
/-- A trap to take: the frame at 1 MiB, the handler's address 0x800 at its vector entry. -/
def wtrap (g : Group) : State := wmem (wq g) (0x400 + 8 * 0x17) (leBytes 8 0x800)

theorem witness_trap_delivery :
    Trapped (wtrap gtrap) 0 gtrap ftrap ∧ gtrap.sys = false ∧ owesLate (wtrap gtrap) gtrap = false ∧ frameVa gtrap % 128 = 0 ∧
    Paged (wtrap gtrap) gtrap .wr (frameVa gtrap) ∧ Paged (wtrap gtrap) gtrap .wr (frameVa gtrap + 0x8C00 - 128) ∧
    (∃ x ∈ hitXls (wtrap gtrap) gtrap [(0, frameVa gtrap), (0, frameVa gtrap + 0x8C00 - 128)],
      x.base ≤ frameVa gtrap ∧ frameVa gtrap + 128 * 280 < x.base + x.size) ∧
    (let g := { gtrap with framed := true }
     Trapped (wtrap g) 0 g ftrap ∧ Paged (wtrap g) g .rd (0x400 + 8 * 0x17) ∧ blocked (wtrap g).accs (gAcc g 0 .load (.glob 0) 0 8 false false .core) = false ∧
     leNat ((accRead (wtrap g) { gAcc g 0 .load (.glob (0x400 + 8 * 0x17)) (0x400 + 8 * 0x17) 8 false false .core with id := 1, seq := 1 }).map
       (·.1)) = 0x800) ∧
    (let g := { gtrap with sys := true }
     Trapped (wtrap g) 0 g ftrap) ∧
    (let g := { gtrap with trapbase := 1 }
     Trapped (wtrap g) 0 g ftrap ∧ frameVa g % 128 ≠ 0) ∧
    (let g := { gtrap with framed := true, trapvec := BitVec.ofNat 64 (2 ^ 52) }
     Trapped (wtrap g) 0 g ftrap ∧ 2 ^ 52 ≤ (g.trapvec.toNat + 8 * FaultCode.num .swtrap) % 2 ^ 64) := by
  have e : ∀ g, (wtrap g).group? 0 = some g → g.trap = some ftrap → g.stopped = false → ((wtrap g).partOf g).stop = false →
      ((wtrap g).core g.die g.core).running = some g.ctx → (((wtrap g).ctx? g.ctx).bind (·.stopped)) = none → Trapped (wtrap g) 0 g ftrap :=
    fun g h1 h2 h3 h4 h5 h6 => ⟨h1, h2, h3, h4, h5, h6⟩
  dsimp only
  refine ⟨?_, ?_, ?_, ?_, ?_, ?_, ?_, ⟨?_, ?_, ?_, ?_⟩, ?_, ⟨?_, ?_⟩, ?_, ?_⟩
  all_goals first
    | decide +kernel
    | exact paged_of_check (by decide +kernel)
    | (refine e _ ?_ ?_ ?_ ?_ ?_ ?_ <;> first | rfl | decide +kernel)

/-- A walk under way whose tables hold one 1 GiB leaf at 0, one that finds nothing, one discarded; an address in no TLB. -/
def wwalk (dead : Bool) : State :=
  let s := (wq wg).setDie 0 { Die.reset with walks := [⟨9, 0, 0, 0, [0], some 0, false, dead⟩] }
  { s with contexts := [{ wctx with root := 0x10000 }] }
def wtables (dead : Bool) : State := wmem (wmem (wwalk dead) 0x10000 (leBytes 8 0x20001)) 0x20000 (leBytes 8 0x461)

theorem witness_walk :
    (∀ b, (List.range 4).find? (fun d => ((wtables b).die d).walks.any fun x => x.id == 9 && !x.failed && x.limit.isSome) = some 0) ∧
    walk (wtables false) 0 0x10000 0 = some (0x461, 2 ^ 30) ∧ walk (wwalk false) 0 0x10000 0 = none ∧
    ((wtables false).die 0).tlb.length < 32768 ∧ tlbFind ((wtables false).die 0).tlb 0 0 = none := by
  and_intros <;> decide +kernel

theorem witness_access_faults :
    (let f : FM := ⟨⟨0, false⟩, .s 2, 4, none, .x1, .s32, false, false, .core, false, 0⟩
     let at_ := fun (a : W64) => { wg with s := [(4, a)] }
     Ready (wm wg) wg (.sld f) ∧ watchFind (wm wg) wg false 4 [(0, eaOf wg f 0)] = none ∧
     Ready (wm (at_ 1)) (at_ 1) (.sld f) ∧ watchFind (wm (at_ 1)) (at_ 1) false 4 [(0, eaOf (at_ 1) f 0)] = none ∧
     Ready (wm (at_ (BitVec.ofNat 64 (2 ^ 52)))) (at_ (BitVec.ofNat 64 (2 ^ 52))) (.sld f) ∧ watchFind (wm (at_ (BitVec.ofNat 64 (2 ^ 52)))) (at_ (BitVec.ofNat 64 (2 ^ 52))) false 4 [(0, eaOf (at_ (BitVec.ofNat 64 (2 ^ 52))) f 0)] = none ∧
     Ready (wm (at_ (BitVec.ofNat 64 (2 ^ 30)))) (at_ (BitVec.ofNat 64 (2 ^ 30))) (.sld f) ∧ watchFind (wm (at_ (BitVec.ofNat 64 (2 ^ 30)))) (at_ (BitVec.ofNat 64 (2 ^ 30))) false 4 [(0, eaOf (at_ (BitVec.ofNat 64 (2 ^ 30))) f 0)] = none ∧
     eaOf (at_ 1) f 0 % 4 ≠ 0 ∧ eaOf (at_ (BitVec.ofNat 64 (2 ^ 52))) f 0 = 2 ^ 52 ∧ eaOf (at_ (BitVec.ofNat 64 (2 ^ 30))) f 0 = 2 ^ 30 ∧
     tlbFind ((wm wg).core 0 0).tlb 0 (2 ^ 30) = none ∧ tlbFind ((wm wg).die 0).tlb 0 (2 ^ 30) = none ∧ walkFor (wm wg) 0 0 (2 ^ 30) = none ∧
     failedFor (wm wg) 0 0 0 (2 ^ 30) = false ∧
     (let w : Walk := ⟨9, 0, 2 ^ 30 / 65536, 0, [1], some 0, false, false⟩
      walkFor ((wm wg).setDie 0 { Die.reset with walks := [w] }) 0 0 (2 ^ 30) = some w ∧
      failedFor ((wm wg).setDie 0 { Die.reset with walks := [{ w with asks := [0], failed := true }] }) 0 0 0 (2 ^ 30) = true) ∧
     refused 0x441 false .rd = true) ∧
    (let g := { wg with s := [(4, 1)] }
     (lanesOf (g.act ⟨0, false⟩)).filter (fun l => eaOf g (fm (.v 2) .s32) l % 4 != 0) = lanesOf g.active ∧
     Ready (wm g) g (.ld (fm (.v 2) .s32))) := by
  dsimp only; and_intros <;> decide +kernel

/-- Iteration 0 with lane 4 alone; its own slot 1 holds `w` in that lane; a stride of 4. -/
def witer4 : Group := { witer with active := 16 }
def wslots (w : WSlot) : State :=
  { wloop with focus := some witer4 }.setPartOf witer ((wloop.partOf witer).setPipe { wpipe.setSlot (winSlot 4 1 0) 4 w with dist := 1 })

/-- One lane of a source EMPTY, poisoned, poisoned by undervolting; the high register of a pair; an own slot EMPTY and owed or not, VOID,
poisoned; a predecessor's slot that the first iteration has not. -/
theorem witness_source_lanes :
    (let g := fun (x : Lane) => { wg with v := [(3 * 32 + 4, x)] }
     let f := vr (.v 1) (.v 3) (.v 5) (.v 0) .s32
     (∀ x ∈ ([⟨0, true, .ok⟩, ⟨0, false, .poison⟩, ⟨0, false, .margin⟩] : List Lane),
       Ready (wm (g x)) (g x) (.iadd f) ∧ Ready (wm (g x)) (g x) (.iadd { f with ta := true }) ∧ (g x).laneV 3 4 = x ∧
       Ready (wm (g x)) (g x) (.isub { f with dst := .v 6, a := .v 4, b := .v 2, tb := true, ty := .s64 }) ∧
       Ready (wm (g x)) (g x) (.icmp .lt { f with dst := .k 1 }) ∧ Ready (wm (g x)) (g x) (.redg .add { f with dst := .s 2, b := .v 0 })) ∧
     4 ∈ lanesOf wg.active) ∧
    (let f := vr (.v 1) (.y 1) (.v 5) (.v 0) .s32
     (∀ w ∈ ([⟨0, .empty, true, .ok⟩, ⟨0, .empty, false, .ok⟩, ⟨0, .void, false, .ok⟩, ⟨7, .full, false, .margin⟩] : List WSlot),
       Ready (wslots w) witer4 (.iadd f) ∧ (((wslots w).pipeOf witer4).map fun q => q.slotLane (winSlot q.stride 1 0) 4) = some w ∧
       Ready (wslots w) witer4 (.iadd { f with ta := true, a := .y 5 })) ∧
     lanesOf witer4.active = [4] ∧ wpipe.stride = 4 ∧ witer.iter = some ⟨0, 0, false⟩) := by
  dsimp only; and_intros <;> decide +kernel

/-! ### Hypotheses that are met: saves and the front end -/

def rec0 (st : SaveSt) : SaveRec := ⟨0, 0, st, 0, 50000, false, none, 0, [], [], []⟩
/-- A context with a record of core 0; its tables map the first GiB onto itself. -/
def ctxS (r : SaveRec) : Context := { wctx with root := 0x10000, saves := [r] }
def wsave (r : SaveRec) (g : List Group) : State := { wq gent with contexts := [ctxS r], groups := g }

theorem witness_saves :
    (∀ st ∈ ([.resident, .requested, .streaming] : List SaveSt),
      (wsave (rec0 st) [gent]).ctx? 0 = some (ctxS (rec0 st)) ∧ (ctxS (rec0 st)).rec? 0 0 = some (rec0 st)) ∧
    (let s := wsave (rec0 .requested) [gent]
     frozenOn s 0 0 0 = false ∧ s.gtb.toNat < (rec0 .requested).due ∧ (rec0 .requested).due ≤ ({ s with gtb := 50000 } : State).gtb.toNat) ∧
    (let s := wsave (rec0 .forced) [gent]
     deferred (wsave (rec0 .requested) [gent]) 0 0 0 = false ∧ allAtStop s 0 0 0 = true ∧ frozenOn s 0 0 0 = false ∧ (s.core 0 0).running = some 0 ∧ stopping s 0 0 0 = true) ∧
    (let s := wsave (rec0 .streaming) [gent]
     gladesLeft s 0 0 0 = false ∧ mayPublishN s 0 65536 = true ∧ quiet s 0 0 0 = true ∧ quiet { s with accs := [wld] } 0 0 0 = false) := by
  dsimp only; and_intros <;> decide +kernel

/-- Two contexts on a core, one of them running, or none; a saved one with its team and group. -/
def wtwo (run : Option Nat) : State :=
  let s := wsave (rec0 .forced) [gent]
  let c := { s.core 0 0 with frames := [blankFrame 0, { blankFrame 1 with first := 1 }], running := run }
  { s.setCore 0 0 c with contexts := [ctxS (rec0 .forced), { wctx with id := 1 }] }
def gsv : Group := { gent with trapbase := 0x100000 }
def rsv : SaveRec := { rec0 .saved with teams := [bareTeam], groups := [gsv] }
def wsaved : State :=
  let s := { wsave rsv [] with teams := [], cores := [] }
  wmem (wmem (wmem (wmem (wmem s 0x10000 (leBytes 8 0x20001)) 0x20000 (leBytes 8 0x4E1)) 0x407 [0xE0]) 0x100000 (leBytes 8 0x400)) 0x100034 [3]

theorem witness_switch_resume :
    ((wtwo none).core 0 0).running = none ∧ ((wtwo none).core 0 0).frames.find? (fun x => x.ctx == 1) = some { blankFrame 1 with first := 1 } ∧
    (wtwo none).ctx? 1 = some { wctx with id := 1 } ∧ ((({ wctx with id := 1 } : Context).rec? 0 0).map (·.st)) ≠ some .streaming ∧
    ((wtwo (some 0)).core 0 0).running = some 0 ∧ stopping (wtwo (some 0)) 0 0 0 = true ∧ allAtStop (wtwo (some 0)) 0 0 0 = true ∧
    frozenOn (wtwo (some 0)) 0 0 0 = false ∧ passesHold (wtwo (some 0)) 0 0 0 = false ∧ (wtwo none).mxops = [] ∧
    pipesFit wsaved 0 0 rsv.pipes = true ∧ feAway wsaved 0 = false ∧ mayPublishN wsaved 0 4096 = true ∧ (fePage wsaved (ctxS rsv) 0 0x400).map (fun p => bitAt p.1 7) = some true ∧
    wsaved.ctx? 0 = some (ctxS rsv) ∧ (ctxS rsv).saves.find? (fun x => x.st == .saved && x.die == 0 && x.core == 0) = some rsv ∧
    freeFrame wsaved 0 0 (rsv.teams.any fun t => t.wide) = some 0 ∧ rsv.groups = [gsv] ∧
    (let fr := fun o n => frN (feRead wsaved (ctxS rsv) 0 (frameVa gsv + o) n) 0 n
     fr 0 8 = 0x400 ∧ fr 8 4 = 0 ∧ fr 0x34 4 = 3 ∧ frN (feRead wsaved (ctxS rsv) 0 0x400 8) 0 8 = 0xE000000000000000) := by
  dsimp only; and_intros <;> decide +kernel

/-- A front end at work: package brought up, a context with tables, a work queue at 512 with `n` elements. -/
def cfe : Context := { wctx with root := 0x10000, home := 0 }
def wfe (n : Nat) : State :=
  let s := { wm wg with upStep := 6, contexts := [cfe], focus := none, teams := [], cores := [] }
  let q := (wqcb n true).set 6 (5 * 4 + 65536)
  let t := changeQ (wmem (wmem s 0x10000 (leBytes 8 0x20001)) 0x20000 (leBytes 8 0x461)) 512 none q ⟨512, [], [], [], [], []⟩
  { t with workqs := [⟨512, 512, 0, 0, 0, none, none, false⟩] }

theorem witness_admission :
    (let a : Admission := ⟨1, [], 0x10000, 2 ^ 52, 2 ^ 50, 0, 0, [], [], [⟨512, 4096, 2, 5⟩]⟩
     6 ≤ (wfe 0).upStep ∧ fePkg (wfe 0) = true ∧ (wfe 0).ctx? a.ctx = none ∧ (wfe 0).pkg < 64 ∧
     (∀ p ∈ a.home :: a.granted, p.toNat % 1024 ≤ 30) ∧
     (∀ c : Context, c.home = a.home → c.granted = a.granted → c.far = a.far → 0x1000 + (savedCores (wfe 0) c).length * 0x130000 ≤ a.saveLen) ∧
     (let c := { cfe with id := 1, save := 2 ^ 52 }
      fePa (dirInit { wfe 0 with contexts := [cfe, c] } c) c 0 512 = some 512) ∧ paFar 512 = false ∧
     ∀ d, d < 4 → mayPublishN (wfe 0) d 512 = true) := by
  dsimp only
  refine ⟨by decide +kernel, by decide +kernel, by decide +kernel, by decide +kernel, fun p hp => ?_, fun c h1 h2 h3 => ?_,
    by decide +kernel, by decide +kernel, by decide +kernel⟩
  · rw [List.mem_singleton.mp hp]; decide
  · have h4 : savedCores (wfe 0) c = savedCores (wfe 0) { cfe with home := 0, granted := [], far := [] } := by
      unfold savedCores grantCores; rw [h1, h2, h3]
    rw [h4]; decide +kernel

theorem witness_doorbell :
    (∀ n ∈ [0, 1, 4], (readQcb (wfe n) 512).scope = 5 ∧ (readQcb (wfe n) 512).ok (wfe n) 512 = true ∧ (readQcb (wfe n) 512).st = 0) ∧
    (wfe 0).workq? 512 = some ⟨512, 512, 0, 0, 0, none, none, false⟩ ∧ (wfe 0).ctx? 0 = some cfe ∧
    feDie (wfe 0) 0 = true ∧ feDie ({ wfe 0 with upStep := 0 } : State) 0 = false ∧ (readQcb (wfe 0) 512).isWork = true ∧
    (wfe 0).qhome 512 = ⟨512, [], [], [], [], []⟩ ∧ (readQcb (wfe 0) 512).pe + (readQcb (wfe 0) 512).pd < (readQcb (wfe 0) 512).cap ∧
    fePa (wfe 0) cfe 0 2048 ≠ none ∧ (readQcb (wfe 4) 512).free = 0 ∧ (readQcb (wfe 0) 512).free ≠ 0 ∧
    2048 % 128 = 0 ∧ 2049 % 128 ≠ 0 ∧ (∀ n ∈ [0, 1], feLeaf (wfe n) cfe 0 4096 = some (4096, 0x461) ∧ feLeaf (wfe n) cfe 0 4160 = some (4160, 0x461)) ∧
    (∀ d ∈ (wfe 1).contexts, d.posts = []) ∧ (readQcb (wfe 1) 512).pe + (readQcb (wfe 1) 512).pd < (readQcb (wfe 1) 512).cap ∧
    feLeaf { wfe 1 with contexts := [{ cfe with root := 0 }] } { cfe with root := 0 } 0 4096 = none ∧
    paLost (wfe 0) 512 = false ∧
    (let s := changeQ (wfe 0) 512 none ((wqcb 0 true).set 6 20) ⟨512, [], [], [], [], []⟩
     (readQcb s 512).ok s 512 = true ∧ (readQcb s 512).isWork = false ∧ (readQcb s 512).scope = 5) ∧
    (let s := wmem (wfe 0) (512 + 56) (leBytes 8 1)
     (readQcb s 512).ok s 512 = false ∧ (readQcb s 512).st ≤ 1 ∧ (readQcb s 512).scope = 5 ∧ feDie s 0 = true) ∧
    mayPublish (wfe 1) 0 = true ∧
    feUp (wfe 1) 0 0 = true ∧ cfe.stopped = none ∧ inDispatch (wfe 1) ⟨512, 512, 0, 0, 0, none, none, false⟩ = false ∧
    (readQcb (wfe 1) 512).head < (readQcb (wfe 1) 512).tail - (readQcb (wfe 1) 512).pe ∧ (wfe 1).launch? (wfe 1).nextId = none := by
  and_intros <;> decide +kernel

/-- The front end has an element to read, uncut or cut; the block that holds its grant back. -/
theorem witness_packet_read :
    (let s := after (.packetDispatch 512 0) (wfe 1)
     s.qmoves.all (fun m => m.kind == .deq && m.fe && !m.landed && mayPublish s m.die && (s.workq? m.qcb).isSome && s.ctx? m.ctx == some cfe &&
       (s.launch? m.id).isNone && m.cut == 0 && (s.qhome m.qcb).unread.contains m.n) = true ∧
     s.qmoves.length = 1 ∧ (cutMoves s.qmoves (fun _ => true) 0x45).all (fun m => m.cut == 0x45) = true) ∧
    (let s := changeQ (wfe 1) 512 none ((readQcb (wfe 1) 512).put 5 21 21 4) ⟨512, [], [], [], [], []⟩
     (readQcb s 512).ok s 512 = true ∧ (readQcb s 512).cap ≤ (readQcb s 512).pe + (readQcb s 512).pd) := by
  dsimp only; and_intros <;> decide +kernel

/-- A packet of a kernel of one team, of a cohort, of a gang; a copy packet. The launch of each in the front end's hands. -/
def wpk (flags : Nat) : List Byte :=
  leBytes 8 (1 + flags) ++ leBytes 8 0 ++ leBytes 8 (1 + 2 ^ 21 + 2 ^ 42) ++ leBytes 8 0 ++ leBytes 8 (2 ^ 48) ++ leBytes 88 0
def wl (pk : List Byte) : Launch :=
  { id := 3, ctx := 0, die := 0, fe := 0, queue := none, packet := pk, node := none, kaddr := 0x400, kword := 0xC330104040000001, secLo := 0,
    secHi := 2 ^ 20, roles := 2, pmap := [0], placed := 0, ended := 0, away := 0, resident := [], boundary := false, killed := false, status := 0,
    complete := false, gang := [], held := [], startAt := none, copyAt := 0, accs := [], acqs := [], todo := [] }
def wlaunch (l : Launch) : State := { wfe 0 with launches := [l] }

theorem witness_launch :
    InHand (wlaunch (wl (wpk 0))) 3 (wl (wpk 0)) cfe ∧ placing (wlaunch (wl (wpk 0))) (wl (wpk 0)) = true ∧ pkCoh (wpk 0) = false ∧
    placeOk (wlaunch (wl (wpk 0))) cfe (wl (wpk 0)) 0 0 0 = true ∧
    InHand (wlaunch (wl (wpk 256))) 3 (wl (wpk 256)) cfe ∧ placing (wlaunch (wl (wpk 256))) (wl (wpk 256)) = true ∧ pkCoh (wpk 256) = true ∧
    pkGang (wpk 256) = false ∧ pkTeams (wpk 256) = 1 ∧ (placeAll (wlaunch (wl (wpk 256))) 3 true [(0, 0)]).isSome = true ∧
    (let l := { wl (wpk 768) with gang := [(0, 0)] }
     InHand (wlaunch l) 3 l cfe ∧ placing (wlaunch l) l = true ∧ pkGang l.packet = true ∧ nextPart (l.gang.map (·.1)) l.held = some 0 ∧
     onPkg (wlaunch l) 0 = true ∧ gangTeams cfe l 0 = [0] ∧ (placeAll (wlaunch l) 3 false [(0, 0)]).isSome = true) ∧
    (let l := { wl (wpk 768) with gang := [(1024, 0)] }
     onPkg (wlaunch l) (BitVec.ofNat 16 1024) = false ∧ nextPart (l.gang.map (·.1)) l.held = some 1024) ∧
    (let l := { wl (wpk 0) with startAt := some 7 }
     (wlaunch l).launch? 3 = some l ∧ (wlaunch l).gtb.toNat < 7 ∧ 7 ≤ ({ wlaunch l with gtb := 7 } : State).gtb.toNat) := by
  unfold InHand; dsimp only; and_intros <;> decide +kernel

/-- A context with two references, a node of it that has placed its teams, a copy node. -/
def crefs : Context := { cfe with caps := [⟨0, 3, 4096, 2048, false, true⟩, ⟨0, 3, 4096, 8192, false, true⟩] }
def lend : Launch := { wl (wpk 0) with boundary := true }
def lcpy : Launch := wl (leBytes 8 2 ++ leBytes 8 0 ++ leBytes 8 (2 ^ 32) ++ leBytes 8 300 ++ leBytes 96 0)
def wrefs (l : Launch) : State := { wlaunch l with contexts := [crefs] }

/-- A team that still has a group, and one that has none; a node complete with a status record; a copy node half done. -/
theorem witness_launch_ends :
    teamHeld (wq wg) { bareTeam with spadLen := 8192 } = true ∧ (wq wg).team? 0 = some { bareTeam with spadLen := 8192 } ∧
    teamHeld { wq wg with groups := [] } { bareTeam with spadLen := 8192 } = false ∧ mayPublishN { wq wg with groups := [] } 0 4 = true ∧
    InHand (wrefs lend) 3 lend crefs ∧ fePkg (wrefs lend) = true ∧ nodeOver lend false = true ∧ relDone (wrefs lend) lend = true ∧
    pkStatus crefs lend.packet = some 2048 ∧ actDie (wrefs lend) lend.die = 0 ∧ mayPublishN (wrefs lend) 0 5 = true ∧
    fePa (wrefs lend) crefs 0 2048 = some 2048 ∧ paFar 2048 = false ∧ lend.node = none ∧ pkNsucc lend.packet = 0 ∧
    entryClear (wrefs lend) lend = true ∧
    (let c := { cfe with caps := [⟨3, 3, 4096, 12288, false, true⟩] }
     let l := { lend with complete := true, todo := [1] }
     let s := { wlaunch l with contexts := [c] }
     InHand s 3 l c ∧ pkGraph c l.packet 1 = some 12288 ∧ (12288 + 16 * 1) % 16 = 0 ∧ mayPublishN s 0 3 = true ∧
     fePa s c 0 12308 = some 12308 ∧ paFar 12308 = false ∧ homeDie 12308 = 0 ∧ leNat ((homeBytes s 12308 4).map (·.1)) = 0) ∧
    (∀ tm ∈ (wrefs lend).teams, tm.launch ≠ 3) ∧
    InHand (wrefs lcpy) 3 lcpy crefs ∧ pkType lcpy.packet = 2 ∧ feUp (wrefs lcpy) 0 0 = true ∧
    pkCopy crefs lcpy.packet = some (2048, 8192) ∧ pkF lcpy.packet 0x18 0 64 - 0 = 300 ∧ fePa (wrefs lcpy) crefs 0 8192 = some 8192 ∧
    acquired (wrefs lcpy) lcpy = true ∧ mayLand (wrefs lcpy) 0 128 = true := by
  unfold InHand; and_intros <;> decide +kernel

theorem witness_front_end :
    feUp ((wfe 0).setDie 0 { (wfe 0).die 0 with fe := [true, false, false, false] }) 0 0 = false ∧
    feUp ((wfe 0).setDie 0 { (wfe 0).die 0 with fe := [true, false, false, false] }) 0 1 = true ∧
    2 ^ 52 ≤ cfe.evq.toNat ∧ paHost 512 = false ∧ paLost (wfe 0) 512 = false ∧
    (∀ h ∈ ((wfe 0).setDie 0 { (wfe 0).die 0 with fe := [true, true, true, true] }).die 0 |>.fe, h = true) ∧
    (wfe 0).workqs.any (fun w => w.die == 0 && !w.dead) = true ∧
    ({ wfe 0 with images := [4] } : State).images.contains 4 = true ∧
    copying { wl (leBytes 8 2 ++ leBytes 16 0 ++ leBytes 8 300 ++ leBytes 96 0) with boundary := true } = true ∧
    copying { wl (leBytes 8 2 ++ leBytes 16 0 ++ leBytes 8 300 ++ leBytes 96 0) with boundary := true } = true ∧
    (wfe 0).workqs.any (fun w => w.die == 0 && !w.dead) = true ∧
    (let x : Transl := ⟨8, 0, 0, 4096, 8192, 1, false, [], none, false⟩
     let s := { wfe 0 with transl := [x] }
     swappedOut s cfe x = false ∧ swappedOut s cfe { x with lo := 64 } = true ∧ x.seen ≠ tableIdx s cfe x ∧
     s.transl.find? (fun t => t.id == 8) = some x ∧ s.ctx? 0 = some cfe ∧ ({ s with contexts := [] } : State).ctx? 0 = none ∧
     (let y := { x with wait := some [] }
      scanFinds { wfe 0 with transl := [y] } cfe y = false ∧ ({ y with seen := tableIdx s cfe x } : Transl).seen = tableIdx s cfe y)) := by
  dsimp only; and_intros <;> decide +kernel

/-! ### Hypotheses that are met: power, debug, the outside world -/

theorem witness_power :
    (let s := { State.reset with gtb := 1000 }
     s.powerAt + 1000 ≤ s.gtb.toNat ∧ State.reset.gtb.toNat < State.reset.powerAt + 1000 ∧ s.energyAt + 1000 ≤ s.gtb.toNat) ∧
    (let s := { (State.reset.setQuad 0 11 { Quad.reset with step := -2 }) with gtb := 1000000 }
     (s.die 0).lastStep + 1000 * ((s.die 0).rebal.extractLsb' 8 16).toNat ≤ s.gtb.toNat ∧ (s.quad 0 11).step ≠ 0) ∧
    (let F := fun (v : W64) (lo n : Nat) => (v.extractLsb' lo n).toNat
     (let v : W64 := BitVec.ofNat 64 (256 + 1)
      F v 24 40 = 0 ∧ F v 8 16 = 1 ∧ F v 4 4 ≤ 4 ∧ F v 0 4 = 1) ∧
     (let v : W64 := BitVec.ofNat 64 (2 ^ 32 + 2 ^ 16 * 32767 + 16)
      F v 48 16 = 0 ∧ F v 10 6 = 0 ∧ F v 32 16 = 1 ∧ F v 16 16 = 32767 ∧ F v 0 10 = 16) ∧
     (let v : W64 := BitVec.ofNat 64 (10 * 2 ^ 48 + 2 ^ 40 + 300 * 2 ^ 24 + 5 * 2 ^ 16)
      F v 48 16 = 10 ∧ F v 40 8 = 1 ∧ F v 24 16 = 300 ∧ F v 16 8 = 5 ∧ F v 1 15 = 0) ∧
     (let v : W64 := BitVec.ofNat 64 (500 * 2 ^ 32 + 500)
      F v 45 19 = 0 ∧ F v 13 19 = 0 ∧ F v 0 13 = 500 ∧ F v 0 13 ≤ F v 32 13)) ∧
    (let d := { Die.reset with uvcfg := Die.reset.uvcfg ||| 1, uvOff := 20 }
     d.uvcfg.getLsbD 0 = true ∧ d.uvNext ≤ 0 ∧ d.uvPause ≤ 0 ∧ uvCalm d 0 = true ∧
     uvCalm { d with uvTimes := [0, 0, 0, 0] } 0 = false) ∧
    (let d := { Die.reset with rdc := [⟨2, 15, 1⟩], l2 := [⟨3, 15, 0⟩] }
     sbDirty d.rdc (lineOf 1024) = true ∧ sbDirty d.rdc (lineOf 1152) = false ∧ sbHas d.l2 (lineOf 1536) = true ∧ sbHas d.l2 (lineOf 1024) = false) ∧
    quadUsed State.reset 0 3 = false ∧ ((wm wg).team? 0).map (·.die) = some 0 ∧ paFar 1024 = false ∧ homeDie 1024 = 0 := by
  dsimp only; and_intros <;> decide +kernel

theorem witness_debug :
    (let c := { wctx with bkpts := [(3, ⟨8, 1, 0⟩)] }
     let p := { Partn.reset with dbgctl := 16 }
     let s := { (wq wg).setPartn 0 0 0 p with contexts := [c] }
     s.group? 0 = some wg ∧ execHit s wg = some 3 ∧ (s.partOf wg).dbgctl.getLsbD 4 = true ∧
     (s.partOf wg).busy ≤ s.clk 0 0 + 1 ∧ chosen s ⟨0, 0, 0⟩ = some wg) ∧
    (let s := (wq wg).setPartn 0 0 0 { Partn.reset with stop := true, dumpbase := 4096 }
     (s.partn 0 0 0).stop = true ∧ (s.partn 0 0 0).dumped = false ∧ paFar (s.partn 0 0 0).dumpbase.toNat = false ∧
     (s.partn 0 0 0).dumpbase.toNat % 4096 = 0 ∧ slotGroup s ⟨0, 0, 0⟩ 0 = some wg ∧ s.partIds = [⟨0, 0, 0⟩]) ∧
    (List.replicate 16 (0 : Byte)).length = 16 ∧ (leBytes 32 0).length ≠ 16 ∧
    (let d := { Die.reset with trcDep := 2 ^ 21 - 1, trcLog := 2 ^ 21 - 2, trcWait := [leBytes 16 0] }
     d.trcDep < 2 ^ 21 ∧ d.trcDepFull = false ∧ d.trcDep + 1 = 2 ^ 21 ∧ 2 ^ 21 ≤ d.trcDep + 1 ∧
     d.trcLog + (leBytes 32 0).length / 16 = 2 ^ 21 ∧ 2 ^ 21 < d.trcLog + 1 + (leBytes 32 0).length / 16) := by
  dsimp only; and_intros <;> decide +kernel

/-- Interleaved memory begins at 2^48; a link up, one to retrain in time and too late; a package no link leads to; a quote;
bring-up. -/
theorem witness_outside :
    (let s := State.reset
     cxlMem s (2 ^ 48) 128 = true ∧ (2 ^ 48) % 128 + 128 ≤ 128) ∧
    (∀ d, d < 4 → mayLand State.reset d 128 = true) ∧
    (let s := { State.reset with hostWr := [(3, 1, 3)], accs := [wst .issued] }
     s.acc? 3 = none ∧ s.hostWr.find? (fun x => x.1 == 3) = some (3, 1, 3) ∧ (∀ a ∈ s.accs, a.id < 1 ∨ 3 ≤ a.id) ∧
     ∃ a ∈ [{ wst .issued with id := 2 }], 1 ≤ a.id ∧ a.id < 3) ∧
    (let s := wrefs lcpy
     s.acc? 3 = none ∧ s.hostWr.find? (fun x => x.1 == 3) = none ∧ isOp s 3 = true ∧ paHost (2 * 2 ^ 48) = true) ∧
    (let l : Link := ⟨0, 5, true, false, 8, 0⟩
     let s := { State.reset with links := [(2, l)] }
     s.link? 2 = some l ∧ 8 ≤ l.fails ∧ 5 ∉ s.lost ∧ (∃ x ∈ s.links, x.2.pkg = 5) ∧
     (let s1 := { s with links := [(2, { l with up := false })] }
      ∀ x ∈ s1.links, x.2.pkg = 5 → x.2.up = false) ∧
     (let m := { l with retrain := true, since := 5 }
      s.gtb.toNat ≤ m.since + 1000000 ∧ m.since + 1000000 < ({ s with gtb := 1000006 } : State).gtb.toNat)) ∧
    (let s := { State.reset with upStep := 2, measure := [[1]] }
     2 ≤ s.upStep ∧ s.measure ≠ [] ∧ (List.replicate 32 (0 : Byte)).length = 32 ∧ State.reset.upStep < 2) ∧
    State.reset.upFail = false ∧ State.reset.upStep = 0 ∧ (∀ x ∈ [8, 4], x = 16 ∨ x = 8 ∨ x = 4 → x ≤ 8) := by
  dsimp only; and_intros <;> decide +kernel

/-- UserModeKeeps and StepKeepsCanonical: an instruction of a group in user mode runs; a step of a machine in canonical form
answers a next state. -/
theorem witness_user_mode : (wm wg).focus = some wg ∧ wg.sys = false ∧ (Instr.nop ⟨⟨0, false⟩, .v 0, 0, 0⟩).isEvent = false ∧
    ∃ t, exec (.nop ⟨⟨0, false⟩, .v 0, 0, 0⟩) (wm wg) = .next t := by
  refine ⟨by decide +kernel, by decide +kernel, by decide +kernel, ?_⟩
  have h : (match exec (.nop ⟨⟨0, false⟩, .v 0, 0, 0⟩) (wm wg) with | .next _ => true | _ => false) = true := by decide +kernel
  split at h
  · next t ht => exact ⟨t, ht⟩
  · simp at h

theorem witness_canonical : Canonical (wm wg) ∧ Numbered { wacc wld with nextId := 8 } ∧ (match step (wm wg) with | .next _ => true | _ => false) = true := by
  refine ⟨⟨by decide +kernel, by decide +kernel, fun d => ?_, by decide +kernel, by decide +kernel⟩, ?_, by decide +kernel⟩
  rotate_left
  · unfold Numbered; decide +kernel
  rfl


/-! ### Single steps: results by hand from the spec's rules -/

/-- Lane 0 of v2 (and v3 above it) after an instruction whose sources v4, v6 and v8 hold a, b and c in lane 0. -/
def lane0 (i : Instr) (a b c : W32) : Nat :=
  let g := { wg with v := [(4 * 32, ⟨a, false, .ok⟩), (6 * 32, ⟨b, false, .ok⟩), (8 * 32, ⟨c, false, .ok⟩)] }
  match (after i (wm g)).focus with
  | some h => (h.laneV 2 0).val.toNat + 2 ^ 32 * (h.laneV 3 0).val.toNat
  | none => 0
def v3 (t : Ty) : VR := vr (.v 2) (.v 4) (.v 6) (.v 0) t
def v4 (t : Ty) : VR := vr (.v 2) (.v 4) (.v 6) (.v 8) t
def v2 (t : Ty) : VR := vr (.v 2) (.v 4) (.v 0) (.v 0) t

/-- Saturation, high products, shift amounts modulo the width, widening, fields (R135 to R141). -/
theorem test_integer_lanes :
    lane0 (.iadds (v3 .s32)) 0x7FFFFFFF 1 0 = 0x7FFFFFFF ∧ lane0 (.isubs (v3 .n32)) 1 2 0 = 0 ∧
    lane0 (.imulh (v3 .s32)) 0x80000000 2 0 = 0xFFFFFFFF ∧ lane0 (.shl (v3 .s32)) 1 33 0 = 2 ∧
    lane0 (.sra (v3 .s32)) 0x80000000 31 0 = 0xFFFFFFFF ∧ lane0 (.rotl (v3 .s32)) 0x80000001 1 0 = 3 ∧
    lane0 (.imadw (v4 .s32)) 0xFFFFFFFF 5 2 = 0xFFFFFFFFFFFFFFFD ∧ lane0 (.bfx (v4 .s32)) 0xF0 4 4 = 0xFFFFFFFF ∧
    lane0 (.clz (v2 .s32)) 0 0 0 = 32 ∧ lane0 (.iabs (v2 .s32)) 0x80000000 0 0 = 0x80000000 := by
  and_intros <;> decide +kernel

/-- Ties, directed rounding, signed zero, NaN, overflow, formats (R144 to R160). -/
theorem test_float_lanes :
    lane0 (.fadd (v3 .f32)) 0x3F800000 0x33800000 0 = 0x3F800000 ∧
    lane0 (.fadd { v3 .f32 with rnd := .rup }) 0x3F800000 0x33800000 0 = 0x3F800001 ∧
    lane0 (.fsub (v3 .f32)) 0x3F800000 0x3F800000 0 = 0 ∧ lane0 (.fsub { v3 .f32 with rnd := .rdn }) 0x3F800000 0x3F800000 0 = 0x80000000 ∧
    lane0 (.fmul (v3 .f32)) 0x7F7FFFFF 0x40000000 0 = 0x7F800000 ∧ lane0 (.fmul (v3 .f32)) 0x7F800001 0x40000000 0 = 0x7FC00001 ∧
    lane0 (.ffma (v4 .f32)) 0x40000000 0x40400000 0x3F800000 = 0x40E00000 ∧ lane0 (.fmin (v3 .f32)) 0x80000000 0 0 = 0x80000000 ∧
    lane0 (.fcvt true .f32 (v2 .e4)) 0x7F000000 0 0 = 0x7E ∧ lane0 (.fcvt false .f32 { v2 .s32 with rnd := .rtz }) 0xC0200000 0 0 = 0xFFFFFFFE := by
  and_intros <;> decide +kernel

/-- Angles wrap; cosine of 0 and sine of a half turn; an undefined operand (R342, R344, R348, R351). -/
theorem test_phasor_lanes :
    lane0 (.phadd (v3 .ph16)) 0x7FFF 2 0 = 1 ∧ lane0 (.phneg (v2 .ph16)) 1 0 0 = 0x7FFF ∧ lane0 (.phadd (v3 .ph16)) 0x8000 1 0 = 0xFFFF ∧
    lane0 (.phcos (v2 .ph16)) 0 0 0 = 0x3F800000 ∧ lane0 (.phsin (v2 .ph16)) 0x4000 0 0 = 0 ∧ lane0 (.phcos (v2 .ph16)) 0x4000 0 0 = 0xBF800000 ∧
    lane0 (.phsin (v2 .ph8)) 0x80 0 0 = 0x7FC00000 := by
  and_intros <;> decide +kernel

/-- The s register 2 and the mask register k2 after an instruction. -/
def sAfter (i : Instr) (s : State) : Nat := match (after i s).focus with | some h => (h.rdS 2).toNat | none => 0
def kAfter (i : Instr) (s : State) : Nat := match (after i s).focus with | some h => (h.rdK 2).toNat | none => 0

/-- s4 is 1024, s5 is 8; lane 31 of v3 is 7 and the others 0 (R103, R105, R106, R141, R198, R199). -/
theorem test_scalar_and_votes :
    (let g := { wg with v := [(3 * 32 + 31, ⟨7, false, .ok⟩)] }
     sAfter (.ssub (vr (.s 2) (.s 5) (.s 4) (.v 0) .s64)) (wm g) = 2 ^ 64 - 1016 ∧
     sAfter (.smovh ⟨⟨0, false⟩, .s 2, .v 0, false, 1⟩) (wm g) = 2 ^ 32 ∧
     kAfter (.icmp .gt (vr (.k 2) (.v 3) (.cst 0) (.v 0) .s32)) (wm g) = 0x80000000 ∧
     sAfter (.redg .add (vr (.s 2) (.v 3) (.v 0) (.v 0) .s32)) (wm g) = 7 ∧
     sAfter (.vtos (vr (.s 2) (.v 3) (.cst 0) (.v 0) .s64)) (wm g) = 0 ∧
     sAfter (.voteEq (vr (.s 2) (.v 3) (.v 0) (.v 0) .s32)) (wm g) = 0 ∧
     sAfter (.srd .nbv (vr (.s 2) (.v 0) (.v 0) (.v 0) .s64)) (wm g) = 3) := by
  dsimp only; and_intros <;> decide +kernel

/-- A BARARR of 32 lanes completes the phase of 32 arrivals; PJOIN gives the break; BUDGET what is left (R229, R241, R371). -/
theorem test_barrier_pipe_budget :
    (let g := { wg with s := [(4, 64), (1, 4)] }
     let s := after (.bararr ⟨⟨0, false⟩, .v 0, .v 0, .v 0, 4, 0, false, false, .core⟩) { wbar 0 with focus := some g }
     (s.team? 0).map (fun t => readObj t 64) = some ⟨32, 0, 0, 0, 1, 0, 0, 6⟩) ∧
    sAfter (.pjoin (vr (.s 2) (.v 0) (.v 0) (.v 0) .s32)) wdone = 2 ∧ sAfter (.budget (fy (.s 2) (.v 0) (.v 0) 0)) (wm wg) = 97 := by
  dsimp only; and_intros <;> decide +kernel

/-- A load reads the die's view, little-endian, and its lane takes the value in later steps; a store goes through the buffer into
the view (R85, R180). -/
theorem test_load_store_steps :
    (let s := { after (.readFromView 7 none) (wmem (wacc wld) 1024 [1, 2, 3, 4]) with agenda := [] }
     (s.anyGroup? 0).map (fun g => (g.laneV 5 3).val) = some 0 ∧
     ((after (.loadWriteback 7) s).anyGroup? 0).map (fun g => (g.laneV 5 3).val) = some 0x04030201) ∧
    ((after (.publishToDie 7) (wacc (wst .inCb))).view 0).byte 1024 = (9, .ok) ∧
    ((after (.publishToDie 7) (wacc (wst .inCb))).view 1).byte 1024 = (0, .ok) := by
  dsimp only; and_intros <;> decide +kernel

/-- Trap entry: the handler's address from the vector entry of SWTRAP, system mode (R377). -/
theorem test_trap_entry :
    (let g := { gtrap with framed := true }
     ((after (.trapTake 0) (wtrap g)).group? 0).map (fun h => (h.hdr, h.idx, h.sys, h.trap)) = some (0x800, 0, true, none)) := by
  dsimp only; decide +kernel

/-- The first instruction after reset as the host places it. -/
theorem test_first_instruction :
    (match step (State.reset.withFetchWord 64 0x0104100000000004) with
     | .next t => (t.focus.map fun h => (h.rdS 4, h.idx)) == some (4, 0) || (t.groups.map fun h => h.rdS 4) == [4]
     | _ => false) = true := by decide +kernel

end Sys2Proof.Tests
end

section
/-!
PROOFS. FMIN and FMAX (R154): the order of exact values is the order of FP32 codes.
-/
namespace Sys2Proof.Machine

/-! ### The destination of a per-lane instruction that may issue -/

/-- An instruction that passes the checks of decode is well formed (R74). -/
theorem Ready.wf {s : State} {g : Group} {i : Instr} (h : Ready s g i) : i.wf = true := by
  cases hw : i.wf with
  | true => rfl
  | false =>
    have hill : preFault s g i = some (.ill, g.iaddr) := if_pos (by simp only [hw, Bool.not_false, Bool.true_or])
    exact absurd (hill.symm.trans h.2) (Option.some_ne_none _)

theorem VSig.dst_ok_of_wf {i : Instr} {sg : VSig} {f : VR} (h : i.wf = true) (hv : i.vsig = some (sg, f)) :
    sg.dst.ok f.ty f.dst = true := by
  simp only [Instr.wf, hv, VSig.ok, Bool.and_eq_true] at h
  simp only [h]

theorem DstK.isVY_of_lane_ok {w : OpW} {t : Ty} {o : Opnd} (h : (DstK.lane w).ok t o = true) : o.isVY = true := by
  cases o with
  | v _ | y _ => rfl
  | _ => simp [DstK.ok] at h

/-- FMIN and FMAX write `minMaxOp` of their flushed operands into each acting lane. -/
theorem laneDone_minMaxOp {s : State} {g : Group} {i : Instr} {f : VR} {vm : W32} {isMin : Bool}
    (hv : i.vsig = some (sigF .fp32 .fp32 .unused false, f))
    (he : exec i s = laneOp i f s fun g l => minMaxOp g.nbv isMin (fin32 s g f.a l) (fin32 s g f.b l))
    (h : LaneReady i f s g vm) :
    LaneDone i s g f.dst false (lanesOf (g.act f.p))
      (fun l => minMaxOp g.nbv isMin (fin32 s g f.a l) (fin32 s g f.b l)) vm :=
  laneOp_done _ he h hv (DstK.isVY_of_lane_ok (VSig.dst_ok_of_wf h.1.wf hv))

/-! ### FP32 codes as values -/

/-- The sign of an FP32 code (R144). -/
def codeNeg (n : Nat) : Bool := n / 2 ^ 31 % 2 == 1

/-- A natural number with a sign. -/
def signed (neg : Bool) (k : Nat) : Int := if neg then -(k : Int) else k

/-- The magnitude of a finite FP32 code without its sign bit, in units of 2^−149 (R144). -/
def magUnits (m : Nat) : Nat := if m / 2 ^ 23 = 0 then m else (2 ^ 23 + m % 2 ^ 23) * 2 ^ (m / 2 ^ 23 - 1)

theorem codeIn_lt {nbv n : Nat} (h : n < 2 ^ 32) : codeIn nbv n < 2 ^ 32 := by
  unfold codeIn
  split <;> omega

theorem finF32_eq_codeIn (nbv n : Nat) : finF32 nbv n = codeIn nbv n := by
  simp [finF32, codeIn]

/-- Within one exponent the magnitude grows by one unit in the last place; the last code of an exponent stands one such unit
below the first of the next. -/
theorem magUnits_lt_succ (m : Nat) : magUnits m < magUnits (m + 1) := by
  have hdiv : (m + 1) / 2 ^ 23 = m / 2 ^ 23 ∧ (m + 1) % 2 ^ 23 = m % 2 ^ 23 + 1 ∨
      (m + 1) / 2 ^ 23 = m / 2 ^ 23 + 1 ∧ (m + 1) % 2 ^ 23 = 0 ∧ m % 2 ^ 23 = 2 ^ 23 - 1 := by omega
  have hpos : 0 < 2 ^ (m / 2 ^ 23 - 1) := Nat.two_pow_pos _
  unfold magUnits
  obtain ⟨hq, hr⟩ | ⟨hq, hr, hm⟩ := hdiv
  · rw [hq, hr]
    split
    · omega
    · exact Nat.mul_lt_mul_of_pos_right (by omega) hpos
  · rw [hq, hr, hm, if_neg (Nat.succ_ne_zero _), Nat.add_sub_cancel]
    split
    next h0 => rw [h0]; omega
    next h0 =>
      obtain ⟨k, hk⟩ := Nat.exists_eq_add_one_of_ne_zero h0
      rw [hk, Nat.add_sub_cancel, Nat.pow_succ]
      have : 0 < 2 ^ k := Nat.two_pow_pos _
      omega

theorem magUnits_lt {p q : Nat} (h : p < q) : magUnits p < magUnits q := by
  induction h with
  | refl => exact magUnits_lt_succ p
  | step _ ih => exact Nat.lt_trans ih (magUnits_lt_succ _)

/-- Magnitudes order finite values as their codes do. -/
theorem magUnits_lt_iff (p q : Nat) : magUnits p < magUnits q ↔ p < q := by
  refine ⟨fun h => ?_, magUnits_lt⟩
  obtain hlt | rfl | hgt := Nat.lt_trichotomy p q
  · exact hlt
  · exact absurd h (Nat.lt_irrefl _)
  · exact absurd h (Nat.lt_asymm (magUnits_lt hgt))

theorem magUnits_zero : magUnits 0 = 0 := rfl

/-! ### The three kinds of a decoded FP32 code -/

/-- The value of an FP32 code by its exponent and fraction fields (R144). -/
theorem dec_fF32 (n : Nat) : fF32.dec n =
    if n / 2 ^ 23 % 256 = 255 then (if n % 2 ^ 23 = 0 then .inf (codeNeg n) else .nan (n % 2 ^ 32))
    else if n / 2 ^ 23 % 256 = 0 then .fin (codeNeg n) (n % 2 ^ 23) (-149)
    else .fin (codeNeg n) (2 ^ 23 + n % 2 ^ 23) ((n / 2 ^ 23 % 256 : Nat) - 127 - 23) := by
  simp [Fmt.dec, fF32, Fmt.emax, Fmt.width, codeNeg]

theorem codeNan_iff (n : Nat) : codeNan n = true ↔ n / 2 ^ 23 % 256 = 255 ∧ n % 2 ^ 23 ≠ 0 := by
  simp [codeNan]

theorem dec_of_codeNan {n : Nat} (h : codeNan n = true) : fF32.dec n = .nan (n % 2 ^ 32) := by
  obtain ⟨hexp, hfrac⟩ := (codeNan_iff n).mp h
  rw [dec_fF32, if_pos hexp, if_neg hfrac]

/-- A code that is no NaN is an infinity, or a finite value of `magUnits` units of 2^−149. -/
theorem dec_of_not_codeNan {n : Nat} (h : codeNan n = false) :
    (n % 2 ^ 31 = 255 * 2 ^ 23 ∧ fF32.dec n = .inf (codeNeg n)) ∨
    (n % 2 ^ 31 < 255 * 2 ^ 23 ∧ ∃ m e, fF32.dec n = .fin (codeNeg n) m e ∧ -149 ≤ e ∧
      m * 2 ^ (e + 149).toNat = magUnits (n % 2 ^ 31)) := by
  have hexp : n % 2 ^ 31 / 2 ^ 23 = n / 2 ^ 23 % 256 := by omega
  have hfrac : n % 2 ^ 31 % 2 ^ 23 = n % 2 ^ 23 := by omega
  rw [dec_fF32, magUnits, hexp, hfrac]
  by_cases hinf : n / 2 ^ 23 % 256 = 255
  · have hzero : n % 2 ^ 23 = 0 := Decidable.byContradiction fun hne =>
      Bool.false_ne_true (h.symm.trans ((codeNan_iff n).mpr ⟨hinf, hne⟩))
    exact .inl ⟨by omega, by rw [if_pos hinf, if_pos hzero]⟩
  · rw [if_neg hinf]
    refine .inr ⟨by omega, ?_⟩
    by_cases hsub : n / 2 ^ 23 % 256 = 0
    · rw [if_pos hsub, if_pos hsub]
      exact ⟨_, _, rfl, Int.le_refl _, by rw [Int.add_left_neg, Int.toNat_zero]; omega⟩
    · rw [if_neg hsub, if_neg hsub]
      refine ⟨_, _, rfl, by omega, ?_⟩
      congr 2
      omega

theorem isNan_dec (n : Nat) : (fF32.dec n).isNan = codeNan n := by
  cases h : codeNan n with
  | true => rw [dec_of_codeNan h]; rfl
  | false =>
    obtain ⟨-, hd⟩ | ⟨-, m, e, hd, -⟩ := dec_of_not_codeNan h <;> rw [hd] <;> rfl

/-! ### The sign of an exact sum -/

theorem signed_mul (x : Bool) (k j : Nat) : signed x k * (j : Int) = signed x (k * j) := by
  cases x with
  | true => exact (Int.neg_mul _ _).trans (congrArg Neg.neg (Int.natCast_mul k j).symm)
  | false => exact (Int.natCast_mul k j).symm

theorem signed_not (x : Bool) (k : Nat) : signed (!x) k = -signed x k := by
  cases x with
  | true => exact (Int.neg_neg _).symm
  | false => rfl

theorem signed_zero (x : Bool) : signed x 0 = 0 := by cases x <;> rfl

/-- A term m × 2^e counted in units of 2^lo, then in units of 2^−149. -/
theorem signed_rescale (x : Bool) {m : Nat} {e lo : Int} (hlo : -149 ≤ lo) (h : m ≠ 0 → lo ≤ e) :
    signed x (m * 2 ^ (e - lo).toNat) * ((2 ^ (lo + 149).toNat : Nat) : Int) = signed x (m * 2 ^ (e + 149).toNat) := by
  rw [signed_mul, Nat.mul_assoc, ← Nat.pow_add]
  by_cases hm : m = 0
  · rw [hm, Nat.zero_mul, Nat.zero_mul]
  · have hle := h hm
    rw [show (e - lo).toNat + (lo + 149).toNat = (e + 149).toNat by omega]

/-- The contribution of one term to a sum in units of 2^lo. -/
theorem sumFin_step (acc lo : Int) (x : Bool) (m : Nat) (e : Int) :
    (if m = 0 then acc else
      let z : Int := (m : Int) * 2 ^ (e - lo).toNat
      if x then acc - z else acc + z) = acc + signed x (m * 2 ^ (e - lo).toNat) := by
  have hcast : ((m * 2 ^ (e - lo).toNat : Nat) : Int) = (m : Int) * 2 ^ (e - lo).toNat :=
    (Int.natCast_mul _ _).trans (congrArg _ (Int.natCast_pow _ _))
  by_cases hm : m = 0
  · rw [if_pos hm, hm, Nat.zero_mul, signed_zero, Int.add_zero]
  · rw [if_neg hm, ← hcast]
    cases x with
    | true => exact Int.sub_eq_add_neg
    | false => rfl

/-- The least exponent of a sum of two terms, and the sum in its units. -/
theorem sumFin_pair (x y : Bool) (m n : Nat) {e d : Int} (he : -149 ≤ e) (hd : -149 ≤ d) :
    ∃ lo : Int, -149 ≤ lo ∧ (m ≠ 0 → lo ≤ e) ∧ (n ≠ 0 → lo ≤ d) ∧
      (sumFin [(x, m, e), (y, n, d)]).1 = signed x (m * 2 ^ (e - lo).toNat) + signed y (n * 2 ^ (d - lo).toNat) := by
  have hlo : (sumFin [(x, m, e), (y, n, d)]).2 =
      if n = 0 then (if m = 0 then max (max (-1100) e) d else min (max (max (-1100) e) d) e)
      else min (if m = 0 then max (max (-1100) e) d else min (max (max (-1100) e) d) e) d := rfl
  refine ⟨(sumFin [(x, m, e), (y, n, d)]).2, ?_, ?_, ?_, ?_⟩
  · rw [hlo]; split <;> split <;> omega
  · intro hm; rw [hlo, if_neg hm]; split <;> omega
  · intro hn; rw [hlo, if_neg hn]; omega
  · have hfirst := sumFin_step 0 (sumFin [(x, m, e), (y, n, d)]).2 x m e
    rw [Int.zero_add] at hfirst
    rw [← hfirst]
    exact sumFin_step _ _ y n d

/-- The sign of x − y for two finite values is the order of their units of 2^−149. -/
theorem sumFin_sub_neg_iff (x y : Bool) (m n : Nat) {e d : Int} (he : -149 ≤ e) (hd : -149 ≤ d) :
    (sumFin [(x, m, e), (!y, n, d)]).1 < 0 ↔
      signed x (m * 2 ^ (e + 149).toNat) < signed y (n * 2 ^ (d + 149).toNat) := by
  obtain ⟨lo, hlo, hm, hn, hsum⟩ := sumFin_pair x (!y) m n he hd
  have hpos : (0 : Int) < ((2 ^ (lo + 149).toNat : Nat) : Int) := Int.natCast_pos.mpr (Nat.two_pow_pos _)
  rw [hsum, ← Int.mul_lt_mul_right hpos, Int.zero_mul, Int.add_mul, signed_rescale x hlo hm, signed_rescale (!y) hlo hn,
    signed_not]
  omega

/-! ### Order of values and order of codes (R154) -/

/-- The key of `codeKey` from a sign and a magnitude: −0 stands below +0. -/
def signedKey (neg : Bool) (k : Nat) : Int := if neg then -(k : Int) - 1 else k

theorem codeKey_eq_signedKey (n : Nat) : codeKey n = signedKey (codeNeg n) (n % 2 ^ 31) := by
  simp [codeKey, codeNeg, signedKey]

theorem mul_two_pow_eq_zero_iff (m k : Nat) : m * 2 ^ k = 0 ↔ m = 0 :=
  Nat.mul_eq_zero.trans (or_iff_left (Nat.ne_of_gt (Nat.two_pow_pos k)))

/-- Order of two finite values, −0 below +0, by their units of 2^−149. -/
theorem FV.lt_fin (x y : Bool) {m n : Nat} {e d : Int} (he : -149 ≤ e) (hd : -149 ≤ d) :
    FV.lt true (.fin x m e) (.fin y n d) = true ↔
      if m * 2 ^ (e + 149).toNat = 0 ∧ n * 2 ^ (d + 149).toNat = 0 then x = true ∧ y = false
      else signed x (m * 2 ^ (e + 149).toNat) < signed y (n * 2 ^ (d + 149).toNat) := by
  simp only [mul_two_pow_eq_zero_iff, FV.lt, ← sumFin_sub_neg_iff x y m n he hd, decide_eq_true_eq, Bool.and_eq_true]
  by_cases hz : m = 0 ∧ n = 0
  · simp only [hz, and_self, if_true, Bool.true_and, Bool.and_eq_true, Bool.not_eq_true']
  · simp only [if_neg hz, decide_eq_true_eq]

/-- The keys order signed magnitudes as their values do. -/
theorem signedKey_lt_iff (x y : Bool) (p q : Nat) :
    signedKey x p < signedKey y q ↔
      if magUnits p = 0 ∧ magUnits q = 0 then x = true ∧ y = false else signed x (magUnits p) < signed y (magUnits q) := by
  have hlt := magUnits_lt_iff p q
  have hgt := magUnits_lt_iff q p
  have hp0 := magUnits_lt_iff 0 p
  have hq0 := magUnits_lt_iff 0 q
  rw [magUnits_zero] at hp0 hq0
  cases x <;> cases y <;> simp [signed, signedKey] <;> omega

/-- The order of FP32 values that are no NaN is the order of their codes, −0 below +0. -/
theorem FV.lt_dec {a b : Nat} (ha : codeNan a = false) (hb : codeNan b = false) :
    FV.lt true (fF32.dec a) (fF32.dec b) = true ↔ codeKey a < codeKey b := by
  rw [codeKey_eq_signedKey, codeKey_eq_signedKey]
  obtain ⟨hma, hda⟩ | ⟨hma, m, e, hda, he, hA⟩ := dec_of_not_codeNan ha <;>
    obtain ⟨hmb, hdb⟩ | ⟨hmb, n, d, hdb, hd, hB⟩ := dec_of_not_codeNan hb <;> rw [hda, hdb]
  · rw [hma, hmb]
    cases codeNeg a <;> cases codeNeg b <;> simp [FV.lt, signedKey]
  · cases codeNeg a <;> cases codeNeg b <;> simp [FV.lt, signedKey] <;> omega
  · cases codeNeg a <;> cases codeNeg b <;> simp [FV.lt, signedKey] <;> omega
  · rw [FV.lt_fin _ _ he hd, hA, hB, signedKey_lt_iff]

/-! ### The result of FMIN and FMAX (R154) -/

theorem minMaxOp_left_nan {nbv a b : Nat} {isMin : Bool} (ha : codeNan a = true) (hb : codeNan b = false) :
    minMaxOp nbv isMin a b = b := by
  simp [minMaxOp, isNan_dec, ha, hb]

theorem minMaxOp_right_nan {nbv a b : Nat} {isMin : Bool} (ha : codeNan a = false) (hb : codeNan b = true) :
    minMaxOp nbv isMin a b = a := by
  simp [minMaxOp, isNan_dec, ha, hb]

/-- Made quiet, an FP32 NaN keeps its sign and its other fraction bits (R145). -/
theorem convNan_fF32 {n : Nat} (h : codeNan n = true) (hn : n < 2 ^ 32) : convNan fF32 fF32 n = n ||| 0x400000 := by
  have hexp := ((codeNan_iff n).mp h).1
  have hfields : convNan fF32 fF32 n =
      (if n / 2 ^ 31 % 2 = 1 then 2 ^ 31 else 0) + 255 * 2 ^ 23 + (n % 2 ^ 23 ||| 0x400000) := by
    simp [convNan, fF32, Fmt.signBit, Fmt.emax]
  have hhigh : (n ||| 0x400000) / 2 ^ 23 = n / 2 ^ 23 := by rw [Nat.or_div_two_pow]; exact Nat.or_zero _
  have hlow : (n ||| 0x400000) % 2 ^ 23 = n % 2 ^ 23 ||| 0x400000 := Nat.or_mod_two_pow
  rw [hfields, ← Nat.div_add_mod (n ||| 0x400000) (2 ^ 23), hhigh, hlow]
  split <;> omega

theorem minMaxOp_both_nan {nbv a b : Nat} {isMin : Bool} (ha : codeNan a = true) (hb : codeNan b = true) (hlt : a < 2 ^ 32) :
    minMaxOp nbv isMin a b = if nbv = 1 then 0x7FC00000 else a ||| 0x400000 := by
  have hres : minMaxOp nbv isMin a b = nanResult nbv fF32 fF32 [fF32.dec a, fF32.dec b] := by
    simp only [minMaxOp, isNan_dec, ha, hb, Bool.and_self, if_true]
  rw [hres, nanResult, dec_of_codeNan ha, Nat.mod_eq_of_lt hlt, ← convNan_fF32 ha hlt]
  rfl

/-- FMIN of two codes that are no NaN is one of them, and neither is below it. -/
theorem minMaxOp_min {nbv a b : Nat} (ha : codeNan a = false) (hb : codeNan b = false) :
    (minMaxOp nbv true a b = a ∨ minMaxOp nbv true a b = b) ∧
      codeKey (minMaxOp nbv true a b) ≤ codeKey a ∧ codeKey (minMaxOp nbv true a b) ≤ codeKey b := by
  have hres : minMaxOp nbv true a b = if codeKey b < codeKey a then b else a := by
    simp only [minMaxOp, isNan_dec, ha, hb, FV.lt_dec hb ha]
    rfl
  rw [hres]
  split <;> simp <;> omega

/-- FMAX of two codes that are no NaN is one of them, and neither is above it. -/
theorem minMaxOp_max {nbv a b : Nat} (ha : codeNan a = false) (hb : codeNan b = false) :
    (minMaxOp nbv false a b = a ∨ minMaxOp nbv false a b = b) ∧
      codeKey a ≤ codeKey (minMaxOp nbv false a b) ∧ codeKey b ≤ codeKey (minMaxOp nbv false a b) := by
  have hres : minMaxOp nbv false a b = if codeKey a < codeKey b then b else a := by
    simp only [minMaxOp, isNan_dec, ha, hb, FV.lt_dec ha hb]
    rfl
  rw [hres]
  split <;> simp <;> omega

theorem fin32_eq_codeIn (s : State) (g : Group) (o : Opnd) (l : Nat) :
    fin32 s g o l = codeIn g.nbv (s.rd32 g .f32 o l).toNat := finF32_eq_codeIn _ _

end Sys2Proof.Machine

open Sys2Proof Sys2Proof.Machine

/-- Settles O16: the order of decoded values is the order of codes, and each NaN case is a branch of `minMaxOp`. -/
theorem minMax : Obligations.MinMax := by
  unfold Obligations.MinMax
  intro s g f vm _ p hp hready
  simp only [List.mem_cons, List.not_mem_nil, or_false] at hp
  rcases hp with rfl | rfl
  · refine ⟨_, laneDone_minMaxOp rfl rfl hready, fun l _ => ?_⟩
    simp only [fin32_eq_codeIn]
    exact ⟨minMaxOp_min, minMaxOp_left_nan, minMaxOp_right_nan, fun ha hb => minMaxOp_both_nan ha hb (codeIn_lt (BitVec.isLt _))⟩
  · refine ⟨_, laneDone_minMaxOp rfl rfl hready, fun l _ => ?_⟩
    simp only [fin32_eq_codeIn]
    exact ⟨minMaxOp_max, minMaxOp_left_nan, minMaxOp_right_nan, fun ha hb => minMaxOp_both_nan ha hb (codeIn_lt (BitVec.isLt _))⟩

end

section
/-!
PROOFS. MATCH (R201): each bit of the mask a lane receives is set where that lane acts and holds an equal value.
-/
namespace Sys2Proof.Machine

/-! ### The mask of the lanes that satisfy a test -/

theorem mem_lanesOf {m : W32} {l : Nat} : l ∈ lanesOf m ↔ m.getLsbD l = true := by
  simp only [lanesOf, List.mem_filter, List.mem_range, and_iff_right_iff_imp]
  exact BitVec.lt_of_getLsbD

theorem getLsbD_bitMask {i j : Nat} (hj : j < 32) : (bitMask i).getLsbD j = decide (i = j) := by
  rw [bitMask, BitVec.getLsbD_ofNat, Nat.testBit_two_pow, decide_eq_true hj, Bool.true_and]

/-- The fold of `maskWhere` from any mask: it adds the lanes that satisfy the test and keeps what was set. -/
theorem getLsbD_foldl_bitMask (t : Nat → Bool) (ls : List Nat) (m : W32) {j : Nat} (hj : j < 32) :
    (ls.foldl (fun m i => if t i then m ||| bitMask i else m) m).getLsbD j = (m.getLsbD j || (decide (j ∈ ls) && t j)) := by
  induction ls generalizing m with
  | nil => simp
  | cons i r ih =>
    rw [List.foldl_cons, ih]
    by_cases hij : j = i
    · subst hij
      cases t j <;> simp [getLsbD_bitMask hj]
    · have hb : (bitMask i).getLsbD j = false := by simp [getLsbD_bitMask hj, Ne.symm hij]
      cases t i <;> simp [hb, hij]

/-- Bit `j` of the mask is set where `j` is one of the lanes and satisfies the test. -/
theorem getLsbD_maskWhere (ls : List Nat) (t : Nat → Bool) {j : Nat} (hj : j < 32) :
    (maskWhere ls t).getLsbD j = (decide (j ∈ ls) && t j) := by
  exact (getLsbD_foldl_bitMask t ls 0 hj).trans (by simp)

theorem getLsbD_maskWhere_lanesOf (m : W32) (t : Nat → Bool) {j : Nat} (hj : j < 32) :
    (maskWhere (lanesOf m) t).getLsbD j = (m.getLsbD j && t j) := by
  simp only [getLsbD_maskWhere _ _ hj, mem_lanesOf, Bool.decide_eq_true]

/-! ### MATCH as a per-lane instruction -/

/-- The acting lanes whose value of `a` equals the lane's own (R201). -/
def matchMask (s : State) (g : Group) (f : VR) (l : Nat) : W32 :=
  maskWhere (lanesOf (g.act f.p)) fun j => s.rdN g .f32 f.ty.is64 f.a j == s.rdN g .f32 f.ty.is64 f.a l

theorem getLsbD_matchMask (s : State) (g : Group) (f : VR) (l : Nat) {j : Nat} (hj : j < 32) :
    (matchMask s g f l).getLsbD j =
      ((g.act f.p).getLsbD j && (s.rdN g .f32 f.ty.is64 f.a j == s.rdN g .f32 f.ty.is64 f.a l)) :=
  getLsbD_maskWhere_lanesOf _ _ hj

/-- Operand `a` is read and the destination written at the type's width, the widths that MATCH's signature gives. -/
theorem exec_match (f : VR) (s : State) :
    exec (.match_ f) s = laneOp (.match_ f) f s fun g l => (matchMask s g f l).toNat := rfl

theorem laneDone_match {s : State} {g : Group} {f : VR} {vm : W32} (h : LaneReady (.match_ f) f s g vm) :
    LaneDone (.match_ f) s g f.dst f.ty.is64 (lanesOf (g.act f.p)) (fun l => (matchMask s g f l).toNat) vm :=
  laneOp_done _ (exec_match f s) h rfl (DstK.isVY_of_lane_ok (VSig.dst_ok_of_wf h.1.wf rfl))

end Sys2Proof.Machine

open Sys2Proof Sys2Proof.Machine

/-- Settles O22: MATCH is a per-lane instruction whose value is a mask built bit by bit over the acting lanes. -/
theorem matchLanes : Obligations.MatchLanes := by
  unfold Obligations.MatchLanes
  intro s g f vm hready
  refine ⟨_, laneDone_match hready, fun l _ => ⟨BitVec.isLt _, fun j hj => ?_⟩⟩
  exact (BitVec.testBit_toNat _).trans (getLsbD_matchMask s g f l hj)

end

section
/-!
PROOFS. PHSIN and PHCOS (R351): an entry of the circle table (R344) has fewer than 24 bits, so its quotient by 2^14 is an FP32
value. The bound follows from the lengths of the turns that build the table, for every angle code.
-/
namespace Sys2Proof.Machine

/-! ### The integer square root does not exceed the root -/

/-- From above the root s of n, a Newton step at least halves the distance to s. -/
theorem newton_step_le {n x : Nat} (h : Nat.sqrt n < x) : 2 * ((x + n / x) / 2) ≤ x + Nat.sqrt n := by
  have hlt : n < x * (Nat.sqrt n + 1) := Nat.lt_of_lt_of_le (Nat.lt_succ_sqrt n) (Nat.mul_le_mul_right _ h)
  have hdiv : n / x < Nat.sqrt n + 1 := Nat.div_lt_of_lt_mul hlt
  omega

/-- With fuel for as many halvings as the distance has bits, the steps end at the root or below. -/
theorem isqrtGo_le_sqrt {n : Nat} (k x : Nat) (h : x < Nat.sqrt n + 2 ^ k) : isqrtGo n k x ≤ Nat.sqrt n := by
  induction k generalizing x with
  | zero => exact Nat.lt_succ_iff.mp h
  | succ k ih =>
    rw [Nat.pow_succ] at h
    have hhalf : Nat.sqrt n < x → 2 * ((x + n / x) / 2) ≤ x + Nat.sqrt n := newton_step_le
    unfold isqrtGo
    by_cases hy : (x + n / x) / 2 < x
    · simp only [if_pos hy]
      exact ih _ (by omega)
    · simp only [if_neg hy]
      omega

theorem isqrt_le_sqrt (n : Nat) : isqrt n ≤ Nat.sqrt n := by
  unfold isqrt
  split
  · exact Nat.zero_le _
  · have hstart : 2 ^ ((bitLen n + 1) / 2) < 2 ^ (bitLen n + 8) := Nat.pow_lt_pow_right (by decide) (by omega)
    exact isqrtGo_le_sqrt _ _ (Nat.lt_of_lt_of_le hstart (Nat.le_add_left _ _))

theorem isqrt_sq_le (n : Nat) : isqrt n * isqrt n ≤ n :=
  Nat.le_trans (Nat.mul_self_le_mul_self (isqrt_le_sqrt n)) (Nat.sqrt_le n)

/-! ### The turns of the circle table -/

/-- A fixed-point vector no longer than the unit. -/
def InUnitDisc (r : Int × Int) : Prop :=
  r.1.natAbs * r.1.natAbs + r.2.natAbs * r.2.natAbs ≤ circleOne.natAbs * circleOne.natAbs

theorem natAbs_circleOne : circleOne.natAbs = 2 ^ 112 := rfl

theorem InUnitDisc.natAbs_fst_le {r : Int × Int} (h : InUnitDisc r) : r.1.natAbs ≤ circleOne.natAbs :=
  Nat.mul_self_le_mul_self_iff.mp (Nat.le_trans (Nat.le_add_right _ _) h)

theorem two_mul_mul_le_sq_add_sq (p q : Nat) : 2 * (p * q) ≤ p * p + q * q := by
  obtain hpq | hqp := Nat.le_total p q
  · obtain ⟨d, rfl⟩ := Nat.exists_eq_add_of_le hpq
    simp only [Nat.mul_add, Nat.add_mul, Nat.mul_comm d p]
    omega
  · obtain ⟨d, rfl⟩ := Nat.exists_eq_add_of_le hqp
    simp only [Nat.mul_add, Nat.add_mul, Nat.mul_comm d q]
    omega

/-- The coordinates of a unit vector sum to √2 at most, which is below 3/2. -/
theorem InUnitDisc.sum_natAbs_le {r : Int × Int} (h : InUnitDisc r) :
    2 * (r.1.natAbs + r.2.natAbs) ≤ 3 * circleOne.natAbs := by
  have hmix := two_mul_mul_le_sq_add_sq r.1.natAbs r.2.natAbs
  unfold InUnitDisc at h
  refine Nat.mul_self_le_mul_self_iff.mp ?_
  rw [Nat.mul_mul_mul_comm, Nat.mul_mul_mul_comm 3, Nat.mul_add, Nat.add_mul, Nat.add_mul, Nat.mul_comm r.2.natAbs r.1.natAbs]
  omega

/-- The squares under the two roots of a half angle sum to the square of the unit. -/
theorem halfAngle_inUnitDisc {c : Int} (h : c.natAbs ≤ circleOne.natAbs) : InUnitDisc (halfAngle c) := by
  have hsqx := isqrt_sq_le ((circleOne + c) * (circleOne / 2)).toNat
  have hsqy := isqrt_sq_le ((circleOne - c) * (circleOne / 2)).toNat
  have hsum : ((circleOne + c) * (circleOne / 2)).toNat + ((circleOne - c) * (circleOne / 2)).toNat =
      circleOne.natAbs * circleOne.natAbs := by
    rw [natAbs_circleOne] at h ⊢
    simp only [circleOne]
    omega
  exact Nat.le_trans (Nat.add_le_add hsqx hsqy) (Nat.le_of_eq hsum)

/-- Both coordinates of a vector are at most `b` in magnitude. -/
def CoordsLe (b : Nat) (v : Int × Int) : Prop := v.1.natAbs ≤ b ∧ v.2.natAbs ≤ b

/-- One coordinate of a product by a vector of the unit disc, whose coordinates have the magnitudes `p` and `q`. -/
theorem natAbs_div_circleOne_le {x : Int} {p q b : Nat} (hx : x.natAbs ≤ 2 * b * p + 2 * b * q)
    (hr : 2 * (p + q) ≤ 3 * circleOne.natAbs) : (x / circleOne).natAbs ≤ 3 * b := by
  have hbound : x.natAbs ≤ b * (3 * 2 ^ 112) := calc
    x.natAbs ≤ 2 * b * p + 2 * b * q := hx
    _ = b * (2 * (p + q)) := by rw [← Nat.mul_add, Nat.mul_comm 2 b, Nat.mul_assoc]
    _ ≤ b * (3 * 2 ^ 112) := Nat.mul_le_mul_left b hr
  simp only [circleOne]
  omega

/-- Turning a vector by a vector of the unit disc lengthens its coordinates to 3/2 at most. -/
theorem coordsLe_turn {b : Nat} {r v : Int × Int} (hr : InUnitDisc r) (hv : CoordsLe (2 * b) v) :
    CoordsLe (3 * b) ((v.1 * r.1 - v.2 * r.2) / circleOne, (v.1 * r.2 + v.2 * r.1) / circleOne) := by
  obtain ⟨h1, h2⟩ := hv
  have hprod : ∀ {x : Int} (y : Int), x.natAbs ≤ 2 * b → (x * y).natAbs ≤ 2 * b * y.natAbs := fun y hx => by
    rw [Int.natAbs_mul]; exact Nat.mul_le_mul_right _ hx
  have hsum := hr.sum_natAbs_le
  constructor
  · refine natAbs_div_circleOne_le ?_ hsum
    exact Nat.le_trans (Int.natAbs_sub_le _ _) (Nat.add_le_add (hprod r.1 h1) (hprod r.2 h2))
  · refine natAbs_div_circleOne_le ?_ (Nat.add_comm r.1.natAbs r.2.natAbs ▸ hsum)
    exact Nat.le_trans (Int.natAbs_add_le _ _) (Nat.add_le_add (hprod r.2 h1) (hprod r.1 h2))

theorem CoordsLe.mono {b c : Nat} {v : Int × Int} (h : CoordsLe b v) (hbc : b ≤ c) : CoordsLe c v :=
  ⟨Nat.le_trans h.1 hbc, Nat.le_trans h.2 hbc⟩

/-- `k` turns lengthen the coordinates by (3/2)^k at most. -/
theorem coordsLe_turnBits (a k : Nat) {b : Nat} {r v : Int × Int} (hr : InUnitDisc r) (hv : CoordsLe (2 ^ k * b) v) :
    CoordsLe (3 ^ k * b) (turnBits a k r v) := by
  induction k generalizing b r v with
  | zero => exact hv
  | succ k ih =>
    rw [Nat.pow_succ', Nat.mul_assoc] at hv
    rw [Nat.pow_succ, Nat.mul_assoc]
    refine ih (halfAngle_inUnitDisc hr.natAbs_fst_le) ?_
    rw [Nat.mul_left_comm]
    split
    · exact coordsLe_turn hr hv
    · exact hv.mono (Nat.mul_le_mul_right _ (by decide))

/-! ### The entries of the circle table (R344) -/

theorem toTable_natAbs_lt {x : Int} (h : x.natAbs ≤ 3 ^ 15 * 2 ^ 97) : (toTable x).natAbs < 2 ^ 24 := by
  simp only [toTable, circleOne]
  omega

theorem circle_natAbs_lt (a : Nat) : (circle a).1.natAbs < 2 ^ 24 ∧ (circle a).2.natAbs < 2 ^ 24 := by
  have hstart : InUnitDisc (-circleOne, 0) := by unfold InUnitDisc; decide
  have hunit : CoordsLe (2 ^ 15 * 2 ^ 97) (circleOne, 0) := by unfold CoordsLe; decide
  obtain ⟨h1, h2⟩ := coordsLe_turnBits a 15 hstart hunit
  exact ⟨toTable_natAbs_lt h1, toTable_natAbs_lt h2⟩

/-! ### A table entry as FP32 -/

/-- A natural number of 24 bits at most, shifted up until it has 24. -/
theorem exists_shift_to_24_bits {m : Nat} (h0 : m ≠ 0) (h : m < 2 ^ 24) :
    ∃ k, bitLen m + k = 24 ∧ 2 ^ 23 ≤ m * 2 ^ k ∧ m * 2 ^ k < 2 ^ 24 := by
  have hlog : Nat.log2 m < 24 := (Nat.log2_lt h0).mpr h
  obtain ⟨k, hk⟩ := Nat.exists_eq_add_of_lt hlog
  refine ⟨k, by rw [bitLen, if_neg h0]; omega, ?_, ?_⟩
  · calc 2 ^ 23 = 2 ^ Nat.log2 m * 2 ^ k := by rw [← Nat.pow_add]; congr 1; omega
      _ ≤ m * 2 ^ k := Nat.mul_le_mul_right _ (Nat.log2_self_le h0)
  · calc m * 2 ^ k < 2 ^ (Nat.log2 m + 1) * 2 ^ k := Nat.mul_lt_mul_of_pos_right Nat.lt_log2_self (Nat.two_pow_pos k)
      _ = 2 ^ 24 := by rw [← Nat.pow_add]; congr 1; omega

/-- The code of a normal FP32 value: a significand `r` of 24 bits over 2^14 × 2^k (R144). -/
def normalCode (neg : Bool) (k r : Nat) : Nat := fF32.signBit neg + ((136 - k) * 2 ^ 23 + (r - 2 ^ 23))

theorem normalCode_eq (neg : Bool) (k r : Nat) :
    normalCode neg k r = (if neg then 2 ^ 31 else 0) + ((136 - k) * 2 ^ 23 + (r - 2 ^ 23)) := rfl

/-- The three fields of the code (R144). -/
theorem normalCode_fields (neg : Bool) {k r : Nat} (hk : k < 24) (hhi : r < 2 ^ 24) :
    codeNeg (normalCode neg k r) = neg ∧ normalCode neg k r / 2 ^ 23 % 256 = 136 - k ∧
      normalCode neg k r % 2 ^ 23 = r - 2 ^ 23 := by
  have hsign : normalCode neg k r / 2 ^ 31 % 2 = if neg then 1 else 0 := by
    rw [normalCode_eq]; split <;> omega
  refine ⟨?_, ?_, ?_⟩
  · rw [codeNeg, hsign]; cases neg <;> rfl
  · rw [normalCode_eq]; split <;> omega
  · rw [normalCode_eq]; split <;> omega

theorem dec_normalCode (neg : Bool) {k r : Nat} (hk : k < 24) (hlo : 2 ^ 23 ≤ r) (hhi : r < 2 ^ 24) :
    fF32.dec (normalCode neg k r) = .fin neg r (-14 - (k : Int)) := by
  obtain ⟨hneg, hexp, hfrac⟩ := normalCode_fields neg hk hhi
  have hsig : 2 ^ 23 + (r - 2 ^ 23) = r := Nat.add_sub_cancel' hlo
  have hscale : ((136 - k : Nat) : Int) - 127 - 23 = -14 - (k : Int) := by omega
  rw [dec_fF32, hneg, hexp, hfrac, if_neg (by omega), if_neg (by omega), hsig, hscale]

/-- A significand of 24 bits at most is a multiple of the format's quantum at its magnitude: rounding shifts it up and drops
nothing (R146). -/
theorem round_eq_normalCode (neg : Bool) {m k : Nat} (h0 : m ≠ 0) (hk : bitLen m + k = 24) (hlo : 2 ^ 23 ≤ m * 2 ^ k)
    (hhi : m * 2 ^ k < 2 ^ 24) : fF32.round .rne false neg m (-14) false = normalCode neg k (m * 2 ^ k) := by
  have hquantum : max ((bitLen m : Int) + -14 - ((fF32.mb : Int) + 1)) (1 - (fF32.bias : Int) - fF32.mb) = -14 - (k : Int) := by
    simp only [fF32]; omega
  have hshift : (if (-14 : Int) ≤ -14 - (k : Int) then roundShift .rne neg m (-14 - (k : Int) - -14).toNat false
      else m * 2 ^ (-14 - (-14 - (k : Int))).toNat) = m * 2 ^ k := by
    split
    · obtain rfl : k = 0 := by omega
      rw [Nat.pow_zero, Nat.mul_one]
      rfl
    · rw [show (-14 - (-14 - (k : Int))).toNat = k by omega]
  have hcarry : (m * 2 ^ k == 2 ^ (fF32.mb + 1)) = false := beq_false_of_ne (Nat.ne_of_lt hhi)
  have hnormal : ¬ m * 2 ^ k < 2 ^ fF32.mb := Nat.not_lt.mpr hlo
  have hfield : (-14 - (k : Int) - (1 - (fF32.bias : Int) - fF32.mb) + 1).toNat = 136 - k := by
    simp only [fF32]; omega
  have hfinite : ¬ fF32.maxCode < (136 - k) * 2 ^ fF32.mb + (m * 2 ^ k - 2 ^ fF32.mb) := by
    change ¬ 255 * 2 ^ 23 - 1 < (136 - k) * 2 ^ 23 + (m * 2 ^ k - 2 ^ 23)
    omega
  have hzero : (decide (m = 0) && !false) = false := by rw [decide_eq_false h0]; rfl
  unfold Fmt.round
  simp only [hzero, hquantum, hshift, hcarry, hnormal, hfield, hfinite, Bool.false_eq_true, if_false]
  rfl

theorem entryF32_zero : entryF32 0 = 0 := rfl

theorem dec_entryF32 {c : Int} (h0 : c ≠ 0) (h : c.natAbs < 2 ^ 24) :
    ∃ k : Nat, fF32.dec (entryF32 c) = .fin (decide (c < 0)) (c.natAbs * 2 ^ k) (-14 - (k : Int)) := by
  have hm : c.natAbs ≠ 0 := Int.natAbs_ne_zero.mpr h0
  obtain ⟨k, hk, hlo, hhi⟩ := exists_shift_to_24_bits hm h
  have hpos : 0 < bitLen c.natAbs := by rw [bitLen, if_neg hm]; exact Nat.succ_pos _
  refine ⟨k, ?_⟩
  rw [entryF32, round_eq_normalCode _ hm hk hlo hhi]
  exact dec_normalCode _ (by omega) hlo hhi

/-! ### Reading a phasor operand (R340, R342) -/

theorem phU_rdPh (s : State) (g : Group) (t : Ty) (o : Opnd) (l : Nat) :
    phU t (rdPh s g t o l) = phUnd t (s.rd32 g .f32 o l) := by
  have hbit : ∀ n : Nat, (n % 2 ^ (phBits t + 1)).testBit (phBits t) = n.testBit (phBits t) := fun n => by
    rw [Nat.testBit_mod_two_pow, decide_eq_true (Nat.lt_succ_self _), Bool.true_and]
  rw [phU, rdPh, hbit, phUnd, phBits]
  split <;> rfl

theorem phIndex_rdPh (s : State) (g : Group) (t : Ty) (o : Opnd) (l : Nat) :
    phIndex t (rdPh s g t o l) =
      if t == .ph8 then ((s.rd32 g .f32 o l).setWidth 7).toNat * 256 else ((s.rd32 g .f32 o l).setWidth 15).toNat := by
  have hangle : ∀ n : Nat, n % 2 ^ (phBits t + 1) % 2 ^ phBits t = n % 2 ^ phBits t := fun n =>
    Nat.mod_mod_of_dvd n (Nat.pow_dvd_pow 2 (Nat.le_succ _))
  rw [phIndex, phAngle, rdPh, hangle, phBits]
  split
  · exact congrArg (· * 256) (BitVec.toNat_setWidth 7 _).symm
  · rw [BitVec.toNat_setWidth, Nat.sub_self, Nat.pow_zero, Nat.mul_one]

/-! ### PHSIN and PHCOS as per-lane instructions -/

/-- The FP32 value of a table's entry at the angle in a lane of operand `a`. -/
def tableLane (tab : Nat → Int) (s : State) (g : Group) (f : VR) (l : Nat) : Nat :=
  if phU f.ty (rdPh s g f.ty f.a l) then fF32.canon else entryF32 (tab (phIndex f.ty (rdPh s g f.ty f.a l)))

theorem exec_phsin (f : VR) (s : State) :
    exec (.phsin f) s = laneOp (.phsin f) f s (tableLane (fun i => (circle i).2) s · f) := rfl

theorem exec_phcos (f : VR) (s : State) :
    exec (.phcos f) s = laneOp (.phcos f) f s (tableLane (fun i => (circle i).1) s · f) := rfl

theorem laneDone_phsin {s : State} {g : Group} {f : VR} {vm : W32} (h : LaneReady (.phsin f) f s g vm) :
    LaneDone (.phsin f) s g f.dst false (lanesOf (g.act f.p)) (tableLane (fun i => (circle i).2) s g f) vm :=
  laneOp_done _ (exec_phsin f s) h rfl (DstK.isVY_of_lane_ok (VSig.dst_ok_of_wf h.1.wf rfl))

theorem laneDone_phcos {s : State} {g : Group} {f : VR} {vm : W32} (h : LaneReady (.phcos f) f s g vm) :
    LaneDone (.phcos f) s g f.dst false (lanesOf (g.act f.p)) (tableLane (fun i => (circle i).1) s g f) vm :=
  laneOp_done _ (exec_phcos f s) h rfl (DstK.isVY_of_lane_ok (VSig.dst_ok_of_wf h.1.wf rfl))

/-- What a lane receives from a table whose entries have 24 bits at most. -/
theorem tableLane_spec {tab : Nat → Int} (htab : ∀ i, (tab i).natAbs < 2 ^ 24) (s : State) (g : Group) (f : VR) (l : Nat) :
    let a := s.rd32 g .f32 f.a l
    let c := tab (if f.ty == .ph8 then (a.setWidth 7).toNat * 256 else (a.setWidth 15).toNat)
    (phUnd f.ty a = true → tableLane tab s g f l = 0x7FC00000) ∧
    (phUnd f.ty a = false → c = 0 → tableLane tab s g f l = 0) ∧
    (phUnd f.ty a = false → c ≠ 0 →
      ∃ k : Nat, fF32.dec (tableLane tab s g f l) = .fin (decide (c < 0)) (c.natAbs * 2 ^ k) (-14 - (k : Int))) := by
  simp only [tableLane, phU_rdPh, phIndex_rdPh]
  refine ⟨fun hu => ?_, fun hu hc => ?_, fun hu hc => ?_⟩
  · rw [if_pos hu]; rfl
  · rw [if_neg (Bool.eq_false_iff.mp hu), hc, entryF32_zero]
  · rw [if_neg (Bool.eq_false_iff.mp hu)]
    exact dec_entryF32 hc (htab _)

end Sys2Proof.Machine

open Sys2Proof Sys2Proof.Machine

/-- Settles O20: both are per-lane reads of the circle table, whose entries have 24 bits at most. -/
theorem sineCosine : Obligations.SineCosine := by
  unfold Obligations.SineCosine
  intro s g f vm p hp hready
  simp only [List.mem_cons, List.not_mem_nil, or_false] at hp
  rcases hp with rfl | rfl
  · exact ⟨_, laneDone_phsin hready, fun l _ => tableLane_spec (fun i => (circle_natAbs_lt i).2) s g f l⟩
  · exact ⟨_, laneDone_phcos hready, fun l _ => tableLane_spec (fun i => (circle_natAbs_lt i).1) s g f l⟩

end
